-- ==== Sys2Proof/Word.lean ====
section
/-! DEFINITION. The word types of the host interface and of the panel link. -/

namespace Sys2Proof

/-- A host word, 32 bits numbered 31 down to 0 (30_encoding.md R80). -/
abbrev Word := BitVec 32

/-- A byte: a framebuffer byte, a panel opcode, a payload byte. -/
abbrev Byte := BitVec 8

/-- A 16-bit operand field: a coordinate, a size or an immediate (30_encoding.md R81). -/
abbrev Half := BitVec 16

/-- The level of a control line: `false` is 0 and `true` is 1 (00_scope.md R11). -/
abbrev Level := Bool

end Sys2Proof
end

