-- ==== Sys2Proof/Config.lean ====
section
/-! DEFINITION. The configuration `Cfg` of an instance (00_scope.md R6 to R9), as plain data, and the
free values of the environment. -/

namespace Sys2Proof

/-- The two protocol variants (00_scope.md R1). -/
inductive Variant where
  | v1
  | v2
  deriving DecidableEq, Repr

/-- How a data payload is cut into bus transactions (00_scope.md R6). -/
inductive Chunking where
  | whole
  | perByte
  deriving DecidableEq, Repr

/-- A solid colour of the framebuffer: black is bit 0, white is bit 1 (00_scope.md section 6).
As `INIT_FILL` it is one of the two fills 0x00 and 0xFF of 00_scope.md R6. -/
inductive Color where
  | black
  | white
  deriving DecidableEq, Repr

/-- The byte order of a byte-wide host bus (00_scope.md R6, 20_memory.md R64). -/
inductive ByteOrder where
  | little
  | big
  deriving DecidableEq, Repr

/-- A parameter `(v)` of 00_scope.md R6, with its value for each variant. -/
structure PerVariant (α : Type) where
  v1 : α
  v2 : α
  deriving DecidableEq, Repr

/-- The panel modes (10_state.md R27). -/
inductive Mode where
  | blackWhite
  | gray4
  | partialFast
  deriving DecidableEq, Repr

/-- The waveform LUT classes FULL, PARTIAL and GRAY (10_state.md R30). -/
inductive LutClass where
  | full
  | part
  | gray
  deriving DecidableEq, Repr

/-- The names of the five waveform tables, in the spec's order (00_scope.md R8). -/
inductive LutName where
  | vcom
  | ww
  | bw
  | wb
  | bb
  deriving DecidableEq, Repr

/-- One value per waveform table name. -/
structure ByLutName (α : Type) where
  vcom : α
  ww : α
  bw : α
  wb : α
  bb : α
  deriving DecidableEq, Repr

/-- One value per waveform class. -/
structure ByLutClass (α : Type) where
  full : α
  part : α
  gray : α
  deriving DecidableEq, Repr

/-- A protocol step (00_scope.md R9). -/
inductive ProtoStep where
  | cmd (op8 : Byte)
  | data (bytes : List Byte)
  | delay (ms : Nat)
  | waitIdle
  deriving DecidableEq, Repr

/-- A rectangle `(x_start, y_start, x_end, y_end)` with exclusive ends (00_scope.md section 6). -/
structure Window where
  xs : Nat
  ys : Nat
  xe : Nat
  ye : Nat
  deriving DecidableEq, Repr

/-- A number computed from the four window coordinates. DESIGN CHOICE (entry 3): `PARTIAL_WINDOW` is
held as an expression, so that a configuration stays plain data. -/
inductive WinExpr where
  | lit (n : Nat)
  | xs
  | ys
  | xe
  | ye
  | add (a b : WinExpr)
  | sub (a b : WinExpr)
  | mul (a b : WinExpr)
  | div (a b : WinExpr)
  | mod (a b : WinExpr)
  | land (a b : WinExpr)
  | lor (a b : WinExpr)
  deriving DecidableEq, Repr

/-- A protocol step whose opcode, bytes and delay are computed from the window coordinates. -/
inductive WinStep where
  | cmd (op8 : WinExpr)
  | data (bytes : List WinExpr)
  | delay (ms : WinExpr)
  | waitIdle
  deriving DecidableEq, Repr

/-- The function `PARTIAL_WINDOW` (00_scope.md R8) as plain data: a step list, or a choice by equality
of two expressions. On any finite list of windows every function is one of these
(`winProg_complete`). -/
inductive WinProg where
  | steps (l : List WinStep)
  | ifEq (a b : WinExpr) (yes no : WinProg)
  deriving DecidableEq, Repr

/-- The fields of the protocol table that exist for V1 only (00_scope.md R8). -/
structure V1Table where
  opLut : ByLutName Byte
  lut : ByLutClass (ByLutName (List Byte))
  opRamSecondary : Byte
  deriving DecidableEq, Repr

/-- `VARIANT`, together with the fields that only variant V1 has: "For V2, the fields marked V1 are
absent" (00_scope.md R8). -/
inductive VariantTable where
  | v1 (t : V1Table)
  | v2
  deriving DecidableEq, Repr

/-- `INIT_SEQ(mode)`: a step list, or `none` for ABSENT (00_scope.md R8). -/
structure InitSeqs where
  blackWhite : Option (List ProtoStep)
  gray4 : Option (List ProtoStep)
  partialFast : Option (List ProtoStep)
  deriving DecidableEq, Repr

/-- The protocol table `P` (00_scope.md R8). -/
structure ProtocolTable where
  resetSeq : List (Level × Nat)
  initSeqs : InitSeqs
  opRamPrimary : Byte
  fullPrep : List ProtoStep
  fullTrigger : List ProtoStep
  partialPrep : List ProtoStep
  partialWindow : WinProg
  partialTrigger : List ProtoStep
  partialEpilogue : List ProtoStep
  sleepSeq : List ProtoStep
  busyTriggering : List Byte
  variantTable : VariantTable
  deriving DecidableEq, Repr

/-- The configuration of an instance (00_scope.md R6). `busyBudget = none` is UNBOUNDED. -/
structure Cfg where
  width : Nat
  height : Nat
  chunkings : PerVariant Chunking
  idleLevels : PerVariant Level
  initFills : PerVariant Color
  pollDelayMs : Nat
  busyBudget : Option Nat
  forceFullEvery : Nat
  hostByteOrder : ByteOrder
  p : ProtocolTable
  deriving DecidableEq, Repr

/-- FREE VALUE (entry 4): the BUSY levels the Panel drives once the queued ones are used up. "Every
draw is a free input of the step" (00_scope.md R11). It has no body. -/
opaque Config.freeBusy : Nat → Level

/-- FREE VALUE (entry 4): the `bus_init` statuses the Bus Transport returns once the queued ones are
used up (00_scope.md R11). It has no body. -/
opaque Config.freeBusStatus : Nat → Byte

end Sys2Proof
end

