-- ==== Sys2Proof/Syntax.lean ====
section
/-! DEFINITION. The operations of the block: one constructor per row of the opcode map
(30_encoding.md R91). -/

namespace Sys2Proof

/-- A decoded descriptor. Coordinates and sizes are the 16-bit fields of 30_encoding.md R85 to R87,
`img` is the list of image words of R88, `bytes` the payload of R89. -/
inductive Instr where
  | setPixel (v : Bool) (x y : Half)
  | getPixel (x y : Half)
  | blit (x y w h : Half) (img : List Word)
  | readImage
  | readReg (n : Half)
  | reset
  | init (part gray : Bool)
  | sleep
  | waitIdle
  | sendCommand (op8 : Byte)
  | sendData (bytes : List Byte)
  | setLut (cls : LutClass)
  | displayFull
  | displayPartial (xs ys xe ye : Half)
  | draw (x y w h : Half) (img : List Word)
  | fill (color : Bool) (bandHeight : Half)
  deriving DecidableEq, Repr

/-- The operand formats of 30_encoding.md R82 to R89. -/
inductive Format where
  | n
  | f
  | i
  | p
  | r
  | b
  | d
  deriving DecidableEq, Repr

end Sys2Proof
end

