-- ==== Sys2Proof/Machine/Fields.lean ====
section
/-! DEFINITION. Bit fields of host words, and the packing of image bits and payload bytes
(30_encoding.md R81, R88, R89). -/

namespace Sys2Proof

/-- OPC, bits 31:24 of `w0` (30_encoding.md R81). -/
def opcOf (w : Word) : Byte := w.extractLsb' 24 8

/-- F, bits 23:16 of `w0` (30_encoding.md R81). -/
def fOf (w : Word) : Byte := w.extractLsb' 16 8

/-- IMM, bits 15:0 of `w0` (30_encoding.md R81). -/
def immOf (w : Word) : Half := w.extractLsb' 0 16

/-- HI, bits 31:16 of a coordinate word (30_encoding.md R81). -/
def hiOf (w : Word) : Half := w.extractLsb' 16 16

/-- LO, bits 15:0 of a coordinate word (30_encoding.md R81). -/
def loOf (w : Word) : Half := w.extractLsb' 0 16

/-- A first word from its three fields (30_encoding.md R81). -/
def headWord (opc f : Byte) (imm : Half) : Word := (opc ++ f) ++ imm

/-- A coordinate word from its two halves (30_encoding.md R81). -/
def coordWord (hi lo : Half) : Word := hi ++ lo

/-- `ceil(w*h/32)`, the number of image words of a `w` by `h` image (30_encoding.md R87). -/
def imageWords (w h : Nat) : Nat := (w * h + 31) / 32

/-- `ceil(n/4)`, the number of data words of `n` payload bytes (30_encoding.md R89). -/
def dataWords (n : Nat) : Nat := (n + 3) / 4

/-- Image bit `k`: bit `31 - (k mod 32)` of image word `k div 32` (30_encoding.md R88). A word the
list does not hold reads as 0 (DESIGN CHOICE, entry 7: no decoded descriptor has too few words). -/
def imageBit (words : List Word) (k : Nat) : Bool :=
  (words.getD (k / 32) 0).getLsbD (31 - k % 32)

/-- `ImgBit(words, w, i, j)` (30_encoding.md R88). -/
def imgBit (words : List Word) (w i j : Nat) : Bool := imageBit words (j * w + i)

/-- The word whose bit `31 - b` is `f b`. -/
def wordOfBits (f : Nat → Bool) : Word := BitVec.ofFnLE (fun i : Fin 32 => f (31 - i))

/-- The words that carry `n` image bits; the bits after them are 0 (30_encoding.md R88). -/
def packBits (n : Nat) (bit : Nat → Bool) : List Word :=
  (List.range ((n + 31) / 32)).map fun m =>
    wordOfBits fun b => decide (32 * m + b < n) && bit (32 * m + b)

/-- The `w` by `h` image whose pixel `(i, j)` is `pix i j`, packed row-major without row padding
(30_encoding.md R88). -/
def packImage (w h : Nat) (pix : Nat → Nat → Bool) : List Word :=
  packBits (w * h) fun k => pix (k % w) (k / w)

/-- Every image bit from `w*h` to the end of the last image word is 0 (30_encoding.md R88). -/
def imagePaddingZero (w h : Nat) (words : List Word) : Bool :=
  (List.range (32 * imageWords w h - w * h)).all fun d => !imageBit words (w * h + d)

/-- Payload byte `k`: bits `31-8*(k mod 4) : 24-8*(k mod 4)` of data word `k div 4`
(30_encoding.md R89). -/
def dataByte (words : List Word) (k : Nat) : Byte :=
  (words.getD (k / 4) 0).extractLsb' (24 - 8 * (k % 4)) 8

/-- The four bytes of a word, the most significant first (30_encoding.md R89). -/
def bytesOfWord (w : Word) : List Byte :=
  [w.extractLsb' 24 8, w.extractLsb' 16 8, w.extractLsb' 8 8, w.extractLsb' 0 8]

/-- The first `n` payload bytes of the data words, byte `k` of them `dataByte words k`
(30_encoding.md R89). -/
def unpackBytes (n : Nat) (words : List Word) : List Byte := (words.flatMap bytesOfWord).take n

/-- Every byte after payload byte `n-1` in the data words is 0 (30_encoding.md R89). -/
def dataPaddingZero (n : Nat) (words : List Word) : Bool :=
  ((words.flatMap bytesOfWord).drop n).all fun b => decide (b = 0)

/-- A word from four bytes, the first one most significant (30_encoding.md R89). -/
def wordOfBytes (a b c d : Byte) : Word := (a ++ b) ++ (c ++ d)

/-- Payload bytes packed into words, the first byte of each word most significant, padding 0
(30_encoding.md R89). -/
def packBytes : List Byte → List Word
  | [] => []
  | [a] => [wordOfBytes a 0 0 0]
  | [a, b] => [wordOfBytes a b 0 0]
  | [a, b, c] => [wordOfBytes a b c 0]
  | a :: b :: c :: d :: rest => wordOfBytes a b c d :: packBytes rest

/-- The words of a byte-wide host bus under `HOST_BYTE_ORDER` (20_memory.md R64), four bytes each, the
first byte at the lowest address. Bytes short of a whole word stay behind (DESIGN CHOICE, entry 8). -/
def assembleWords (order : ByteOrder) : List Byte → List Word
  | a :: b :: c :: d :: rest =>
    (match order with
      | .big => wordOfBytes a b c d
      | .little => wordOfBytes d c b a) :: assembleWords order rest
  | _ => []

end Sys2Proof
end

