-- ==== Sys2Proof/WellFormed.lean ====
section
/-! DEFINITION. Which operations a descriptor can carry: the checks of 30_encoding.md R87 to R89 and
R93 on an `Instr` as syntax. -/

namespace Sys2Proof

/-- A `w` by `h` image operand: exactly `ceil(w*h/32)` words, the padding bits 0 (30_encoding.md R87, R88). -/
def imageOk (w h : Half) (img : List Word) : Bool :=
  decide (img.length = imageWords w.toNat h.toNat) && imagePaddingZero w.toNat h.toNat img

/-- The operands of `i` are ones a legal descriptor can carry. -/
def Instr.wellFormed : Instr → Bool
  | .setPixel _ _ _ => true
  | .getPixel _ _ => true
  | .blit _ _ w h img => imageOk w h img
  | .readImage => true
  | .readReg n => decide (n.toNat < 6)
  | .reset => true
  | .init _ _ => true
  | .sleep => true
  | .waitIdle => true
  | .sendCommand _ => true
  | .sendData bytes => decide (bytes.length < 65536)
  | .setLut _ => true
  | .displayFull => true
  | .displayPartial _ _ _ _ => true
  | .draw _ _ w h img => imageOk w h img
  | .fill _ _ => true

end Sys2Proof
end

