-- ==== Sys2Proof/Decode.lean ====
section
/-! DEFINITION. The decoder of the descriptor stream (30_encoding.md R80 to R93), total on any words and
rejecting by name, and after it the encoder. -/

namespace Sys2Proof

/-- Why a descriptor is illegal: the cases of 30_encoding.md R92 and R93. -/
inductive IllegalReason where
  /-- The OPC is not in the opcode map (R92). -/
  | reservedOpcode
  /-- A reserved bit of `w0` is 1 (R93). -/
  | reservedBit
  /-- A padding bit of the image words is 1 (R93). -/
  | imagePadding
  /-- A padding byte of the data words is not 0 (R93). -/
  | dataPadding
  /-- SET_LUT class 3, or a READ_REG number of 6 or more (R93). -/
  | reservedField
  deriving DecidableEq, Repr

/-- What the decoder finds at the head of a word stream. -/
inductive Decoded where
  /-- Not all words of the descriptor are there yet (R90). -/
  | truncated
  /-- An illegal descriptor, with its OPC and its length in words (R92, R93). -/
  | illegal (why : IllegalReason) (opc : Byte) (len : Nat)
  /-- An operation and its length in words. -/
  | ok (i : Instr) (len : Nat)
  deriving DecidableEq, Repr

/-- The format of a listed OPC, `none` for a reserved one (30_encoding.md R91). -/
def formatOf (opc : Byte) : Option Format :=
  match opc with
  | 0x01#8 => some .p
  | 0x02#8 => some .p
  | 0x03#8 => some .b
  | 0x04#8 => some .n
  | 0x05#8 => some .i
  | 0x10#8 => some .n
  | 0x11#8 => some .f
  | 0x12#8 => some .n
  | 0x13#8 => some .n
  | 0x14#8 => some .i
  | 0x15#8 => some .d
  | 0x16#8 => some .f
  | 0x20#8 => some .n
  | 0x21#8 => some .r
  | 0x22#8 => some .b
  | 0x23#8 => some .i
  | _ => none

/-- The reserved bits of `w0` for a listed OPC (30_encoding.md R82 to R89). -/
def reservedMask (opc : Byte) : Word :=
  match opc with
  | 0x01#8 => 0x00FEFFFF  -- SET_PIXEL: F[7:1] and IMM (R85)
  | 0x05#8 => 0x00FF0000  -- READ_REG: F (R84)
  | 0x11#8 => 0x00FCFFFF  -- INIT: F[7:2] and IMM (R83)
  | 0x14#8 => 0x00FFFF00  -- SEND_COMMAND: F and IMM[15:8] (R84)
  | 0x15#8 => 0x00FF0000  -- SEND_DATA: F (R89)
  | 0x16#8 => 0x00FCFFFF  -- SET_LUT: F[7:2] and IMM (R83)
  | 0x23#8 => 0x00FE0000  -- FILL: F[7:1] (R84)
  | _ => 0x00FFFFFF       -- formats N, P, R and B: F and IMM (R82, R85 to R87)

/-- The length `L` of the descriptor whose first word is `w0`, in words (30_encoding.md R90). Format B
needs `w2`; `none` means that word is not there yet. -/
def descriptorLength (w0 : Word) (rest : List Word) : Option Nat :=
  match formatOf (opcOf w0) with
  | none => some 1
  | some .n => some 1
  | some .f => some 1
  | some .i => some 1
  | some .p => some 2
  | some .r => some 3
  | some .b =>
    match rest with
    | _ :: w2 :: _ => some (3 + imageWords (hiOf w2).toNat (loOf w2).toNat)
    | _ => none
  | some .d => some (1 + dataWords (immOf w0).toNat)

/-- The class field of SET_LUT; 3 is reserved (30_encoding.md R83). -/
def lutClassOf (c : BitVec 2) : Option LutClass :=
  match c with
  | 0#2 => some .full
  | 1#2 => some .part
  | 2#2 => some .gray
  | _ => none

/-- The value of the class field (30_encoding.md R83), which is also the u2 encoding of 10_state.md R30. -/
def lutClassCode : LutClass → BitVec 2
  | .full => 0
  | .part => 1
  | .gray => 2

/-- An operation with image words: the padding must be 0 (30_encoding.md R88, R93). -/
def withImage (mk : Half → Half → Half → Half → List Word → Instr) (w1 w2 : Word) (img : List Word) :
    Except IllegalReason Instr :=
  if imagePaddingZero (hiOf w2).toNat (loOf w2).toNat img then
    .ok (mk (hiOf w1) (loOf w1) (hiOf w2) (loOf w2) img)
  else .error .imagePadding

/-- The operation of a descriptor whose reserved bits are 0, from `w0` and all its operand words
(30_encoding.md R83 to R89, R91). -/
def decodeFields (w0 : Word) (ops : List Word) : Except IllegalReason Instr :=
  let w1 := ops.getD 0 0
  let w2 := ops.getD 1 0
  match opcOf w0 with
  | 0x01#8 => .ok (.setPixel ((fOf w0).getLsbD 0) (hiOf w1) (loOf w1))
  | 0x02#8 => .ok (.getPixel (hiOf w1) (loOf w1))
  | 0x03#8 => withImage .blit w1 w2 (ops.drop 2)
  | 0x04#8 => .ok .readImage
  | 0x05#8 => if (immOf w0).toNat < 6 then .ok (.readReg (immOf w0)) else .error .reservedField
  | 0x10#8 => .ok .reset
  | 0x11#8 => .ok (.init ((fOf w0).getLsbD 0) ((fOf w0).getLsbD 1))
  | 0x12#8 => .ok .sleep
  | 0x13#8 => .ok .waitIdle
  | 0x14#8 => .ok (.sendCommand ((immOf w0).extractLsb' 0 8))
  | 0x15#8 =>
    if dataPaddingZero (immOf w0).toNat ops then .ok (.sendData (unpackBytes (immOf w0).toNat ops))
    else .error .dataPadding
  | 0x16#8 =>
    match lutClassOf ((fOf w0).extractLsb' 0 2) with
    | some c => .ok (.setLut c)
    | none => .error .reservedField
  | 0x20#8 => .ok .displayFull
  | 0x21#8 => .ok (.displayPartial (hiOf w1) (loOf w1) (hiOf w2) (loOf w2))
  | 0x22#8 => withImage .draw w1 w2 (ops.drop 2)
  | 0x23#8 => .ok (.fill ((fOf w0).getLsbD 0) (immOf w0))
  | _ => .error .reservedOpcode

/-- The operation of a complete descriptor: the checks of 30_encoding.md R92 and R93, then its fields. -/
def decodeBody (w0 : Word) (ops : List Word) : Except IllegalReason Instr :=
  if (formatOf (opcOf w0)).isNone then .error .reservedOpcode
  else if w0 &&& reservedMask (opcOf w0) ≠ 0 then .error .reservedBit
  else decodeFields w0 ops

/-- The descriptor at the head of a word stream. A descriptor is not looked at before all its words are
there, even an illegal one (30_encoding.md R90). -/
def decode (words : List Word) : Decoded :=
  match words with
  | [] => .truncated
  | w0 :: rest =>
    match descriptorLength w0 rest with
    | none => .truncated
    | some len =>
      if rest.length + 1 < len then .truncated
      else
        match decodeBody w0 (rest.take (len - 1)) with
        | .ok i => .ok i len
        | .error why => .illegal why (opcOf w0) len

/-! ### The encoder -/

/-- The OPC of an operation (30_encoding.md R91). -/
def opcodeOf : Instr → Byte
  | .setPixel _ _ _ => 0x01
  | .getPixel _ _ => 0x02
  | .blit _ _ _ _ _ => 0x03
  | .readImage => 0x04
  | .readReg _ => 0x05
  | .reset => 0x10
  | .init _ _ => 0x11
  | .sleep => 0x12
  | .waitIdle => 0x13
  | .sendCommand _ => 0x14
  | .sendData _ => 0x15
  | .setLut _ => 0x16
  | .displayFull => 0x20
  | .displayPartial _ _ _ _ => 0x21
  | .draw _ _ _ _ _ => 0x22
  | .fill _ _ => 0x23

/-- The length of an operation's descriptor in words (30_encoding.md R90). -/
def lengthOf : Instr → Nat
  | .setPixel _ _ _ => 2
  | .getPixel _ _ => 2
  | .blit _ _ w h _ => 3 + imageWords w.toNat h.toNat
  | .readImage => 1
  | .readReg _ => 1
  | .reset => 1
  | .init _ _ => 1
  | .sleep => 1
  | .waitIdle => 1
  | .sendCommand _ => 1
  | .sendData bytes => 1 + dataWords bytes.length
  | .setLut _ => 1
  | .displayFull => 1
  | .displayPartial _ _ _ _ => 3
  | .draw _ _ w h _ => 3 + imageWords w.toNat h.toNat
  | .fill _ _ => 1

/-- A flag in the lowest bit of F. -/
def flagByte (b : Bool) : Byte := if b then 1 else 0

/-- The words of an operation's descriptor (30_encoding.md R82 to R91). -/
def encode : Instr → List Word
  | .setPixel v x y => [headWord 0x01 (flagByte v) 0, coordWord x y]
  | .getPixel x y => [headWord 0x02 0 0, coordWord x y]
  | .blit x y w h img => headWord 0x03 0 0 :: coordWord x y :: coordWord w h :: img
  | .readImage => [headWord 0x04 0 0]
  | .readReg n => [headWord 0x05 0 n]
  | .reset => [headWord 0x10 0 0]
  | .init part gray => [headWord 0x11 (flagByte part ||| (flagByte gray <<< 1)) 0]
  | .sleep => [headWord 0x12 0 0]
  | .waitIdle => [headWord 0x13 0 0]
  | .sendCommand op8 => [headWord 0x14 0 (op8.setWidth 16)]
  | .sendData bytes => headWord 0x15 0 (BitVec.ofNat 16 bytes.length) :: packBytes bytes
  | .setLut c => [headWord 0x16 ((lutClassCode c).setWidth 8) 0]
  | .displayFull => [headWord 0x20 0 0]
  | .displayPartial xs ys xe ye => [headWord 0x21 0 0, coordWord xs ys, coordWord xe ye]
  | .draw x y w h img => headWord 0x22 0 0 :: coordWord x y :: coordWord w h :: img
  | .fill color bh => [headWord 0x23 (flagByte color) bh]

/-! ### The words of an opcode table row -/

/-- Word `k` of a bit string numbered as the opcode table numbers it: the first word is bits 31:0. -/
def tableWord (w k : Nat) : Word := BitVec.ofNat 32 (w >>> (32 * k))

/-- The stream that holds the instruction whose bits are `w`, cut to `nbits`; every operand word above
them is 0. It has as many words as the descriptor asks for. -/
def tableWords (nbits w : Nat) : List Word :=
  let v := w % 2 ^ nbits
  let len := (descriptorLength (tableWord v 0) [tableWord v 1, tableWord v 2]).getD 1
  (List.range len).map (tableWord v)

/-- The instruction the decoder reads from a table word. -/
def decodeTableWord (nbits w : Nat) : Option Instr :=
  match decode (tableWords nbits w) with
  | .ok i _ => some i
  | .illegal _ _ _ => none
  | .truncated => none

end Sys2Proof
end

