-- ==== Sys2Proof/Machine/Memory.lean ====
section
/-! DEFINITION. The framebuffer's storage: a list of cells in one canonical form. An index that is not
listed reads as the fill byte. -/

namespace Sys2Proof.Machine

/-- Framebuffer cells, strictly rising in the index; none holds the fill byte. -/
abbrev Memory := List Host.Cell

/-- The byte at index `a`; an unlisted index reads as `fill`, which is the reset content
(10_state.md R47, entry 10). -/
def Memory.read (fill : Byte) : Memory → Nat → Byte
  | [], _ => fill
  | (k, b) :: rest, a => if a = k then b else Memory.read fill rest a

/-- Writes byte `v` at index `a`, keeping the canonical form. -/
def Memory.write (fill : Byte) : Memory → Nat → Byte → Memory
  | [], a, v => if v = fill then [] else [(a, v)]
  | (k, b) :: rest, a, v =>
    if a < k then (if v = fill then (k, b) :: rest else (a, v) :: (k, b) :: rest)
    else if a = k then (if v = fill then rest else (k, v) :: rest)
    else (k, b) :: Memory.write fill rest a v

/-- The canonical form: indices strictly rise from `lo` on, and no cell holds the fill byte. -/
def Memory.wfFrom (fill : Byte) : Nat → Memory → Bool
  | _, [] => true
  | lo, (k, b) :: rest => decide (lo ≤ k) && decide (b ≠ fill) && Memory.wfFrom fill (k + 1) rest

/-- The canonical form of a framebuffer. -/
def Memory.wf (fill : Byte) (m : Memory) : Bool := Memory.wfFrom fill 0 m

/-- Every listed index is below `n`. -/
def Memory.below (n : Nat) (m : Memory) : Bool := m.all fun c => decide (c.1 < n)

end Sys2Proof.Machine
end

