-- ==== Sys2Proof/Machine/Params.lean ====
section
/-! DEFINITION. What the rules read of a configuration: the parameters of the instance's own variant, the
framebuffer geometry, and the constraints a configuration must satisfy (00_scope.md R6 to R9). -/

namespace Sys2Proof

/-- A `(v)` parameter at a variant (00_scope.md R6). -/
def PerVariant.get {α : Type} (p : PerVariant α) : Variant → α
  | .v1 => p.v1
  | .v2 => p.v2

/-- The value of a waveform table name. -/
def ByLutName.get {α : Type} (t : ByLutName α) : LutName → α
  | .vcom => t.vcom
  | .ww => t.ww
  | .bw => t.bw
  | .wb => t.wb
  | .bb => t.bb

/-- The value of a waveform class. -/
def ByLutClass.get {α : Type} (t : ByLutClass α) : LutClass → α
  | .full => t.full
  | .part => t.part
  | .gray => t.gray

/-- The five waveform tables in the order they are programmed (00_scope.md R8). -/
def lutNames : List LutName := [.vcom, .ww, .bw, .wb, .bb]

/-- The byte of eight pixels of one colour: 0x00 black, 0xFF white. -/
def Color.byte : Color → Byte
  | .black => 0x00
  | .white => 0xFF

/-- The variant of a variant table. -/
def VariantTable.variant : VariantTable → Variant
  | .v1 _ => .v1
  | .v2 => .v2

/-- `VARIANT` (00_scope.md R6). -/
def Cfg.variant (c : Cfg) : Variant := c.p.variantTable.variant

/-- `CHUNKING(VARIANT)` (00_scope.md R6). -/
def Cfg.chunking (c : Cfg) : Chunking := c.chunkings.get c.variant

/-- `IDLE_LEVEL(VARIANT)` (00_scope.md R6). -/
def Cfg.idleLevel (c : Cfg) : Level := c.idleLevels.get c.variant

/-- `INIT_FILL(VARIANT)` as a byte (00_scope.md R6). -/
def Cfg.fillByte (c : Cfg) : Byte := (c.initFills.get c.variant).byte

/-- `ROWB = WIDTH/8` (00_scope.md R7). -/
def Cfg.rowBytes (c : Cfg) : Nat := c.width / 8

/-- `N_FB = WIDTH/8 * HEIGHT` (00_scope.md R7). -/
def Cfg.fbSize (c : Cfg) : Nat := c.width / 8 * c.height

/-- `P.INIT_SEQ(mode)`, `none` for ABSENT (00_scope.md R8). -/
def Cfg.initSeq (c : Cfg) : Mode → Option (List ProtoStep)
  | .blackWhite => c.p.initSeqs.blackWhite
  | .gray4 => c.p.initSeqs.gray4
  | .partialFast => c.p.initSeqs.partialFast

/-- Whether an opcode is in `P.BUSY_TRIGGERING` (00_scope.md R8). -/
def Cfg.triggersBusy (c : Cfg) (op8 : Byte) : Bool := decide (op8 ∈ c.p.busyTriggering)

/-- The value of an expression at a window. Subtraction stops at 0. -/
def WinExpr.eval (win : Window) : WinExpr → Nat
  | .lit n => n
  | .xs => win.xs
  | .ys => win.ys
  | .xe => win.xe
  | .ye => win.ye
  | .add a b => a.eval win + b.eval win
  | .sub a b => a.eval win - b.eval win
  | .mul a b => a.eval win * b.eval win
  | .div a b => a.eval win / b.eval win
  | .mod a b => a.eval win % b.eval win
  | .land a b => a.eval win &&& b.eval win
  | .lor a b => a.eval win ||| b.eval win

/-- The protocol step of a window step: opcodes and bytes are the low 8 bits of their values. -/
def WinStep.eval (win : Window) : WinStep → ProtoStep
  | .cmd e => .cmd (BitVec.ofNat 8 (e.eval win))
  | .data es => .data (es.map fun e => BitVec.ofNat 8 (e.eval win))
  | .delay e => .delay (e.eval win)
  | .waitIdle => .waitIdle

/-- `PARTIAL_WINDOW(xs, ys, xe, ye)`; it depends on its four arguments only (00_scope.md R8, R9). -/
def WinProg.eval (win : Window) : WinProg → List ProtoStep
  | .steps l => l.map (WinStep.eval win)
  | .ifEq a b yes no => if a.eval win = b.eval win then yes.eval win else no.eval win

/-- Some level 0 entry is followed later by a level 1 entry (00_scope.md R9). -/
def lowThenHigh : List (Level × Nat) → Bool
  | [] => false
  | (level, _) :: rest => (!level && rest.any (·.1)) || lowThenHigh rest

/-- The constraint on `RESET_SEQ` (00_scope.md R9): non-empty, low and later high, last level 1. -/
def resetSeqOk (l : List (Level × Nat)) : Bool :=
  lowThenHigh l && (match l.getLast? with
    | some (level, _) => level
    | none => false)

/-- The five byte lists of a class are non-empty (00_scope.md R8). -/
def lutListsNonempty (t : ByLutName (List Byte)) : Bool :=
  lutNames.all fun n => !(t.get n).isEmpty

/-- The constraints on the V1 fields of `P` (00_scope.md R8). -/
def VariantTable.valid : VariantTable → Bool
  | .v1 t => lutListsNonempty t.lut.full && lutListsNonempty t.lut.part && lutListsNonempty t.lut.gray
  | .v2 => true

/-- The bounds of `BUSY_BUDGET`: a finite one is at most 0xFFFFFFFE (10_state.md R42). -/
def budgetOk : Option Nat → Bool
  | none => true
  | some b => decide (b ≤ 0xFFFFFFFE)

/-- The constraints a configuration must satisfy (00_scope.md R6, R7, R8, R9; 10_state.md R42). -/
def Cfg.valid (c : Cfg) : Bool :=
  decide (c.width % 8 = 0) && decide (8 ≤ c.width) && decide (c.width ≤ 65528) &&
  decide (1 ≤ c.height) && decide (c.height ≤ 65535) &&
  decide (10 ≤ c.pollDelayMs) && decide (c.pollDelayMs ≤ 99) &&
  decide (c.idleLevels.v1 ≠ c.idleLevels.v2) &&
  decide (c.forceFullEvery ≤ 65535) && budgetOk c.busyBudget &&
  resetSeqOk c.p.resetSeq && c.p.variantTable.valid

end Sys2Proof
end

