-- ==== Sys2Proof/Machine/State.lean ====
section
/-! DEFINITION. The machine's state as plain data, the reasons a step can stop, and block reset. -/

namespace Sys2Proof.Machine

/-- The panel state (10_state.md R26). -/
inductive PState where
  | uninitialized
  | resetting
  | initialized
  | sleeping
  deriving DecidableEq, Repr

/-- The orchestrator sub-state (10_state.md R32). -/
inductive OState where
  | idle
  | bufferWrite
  | commandPrimary
  | commandSecondary
  | refreshTrigger
  | busyWait
  deriving DecidableEq, Repr

/-- The result codes (60_exceptions.md R200). -/
inductive ResultCode where
  | ok
  | illegalOperation
  | unsupportedOnVariant
  | invalidState
  | invalidArgument
  | outOfBoundsWrite
  | outOfBoundsRead
  | busInitFailure
  | panelTimeout
  deriving DecidableEq, Repr

/-- The output pins (00_scope.md R11). -/
inductive Pin where
  | rst
  | dc
  | cs
  deriving DecidableEq, Repr

/-- An environment event (10_state.md R36). -/
inductive Event where
  | pin (p : Pin) (level : Level)
  | busyRead (b : Level)
  | xfer (bytes : List Byte)
  | delay (ms : Nat)
  | busInit (s : Byte)
  deriving DecidableEq, Repr

/-- A response: its first word and the words appended to it (30_encoding.md R94). -/
structure Response where
  r0 : Word
  data : List Word
  deriving DecidableEq, Repr

/-- What the block drives and draws at the panel link: the pin latches (10_state.md R33), the event log
(R36), and the draws still to come (00_scope.md R11). -/
structure Bus where
  rst : Level
  dc : Level
  cs : Level
  log : List Event
  /-- The BUSY levels the Panel will drive, next first. -/
  busyIn : List Level
  /-- How many BUSY levels were drawn as free values (entry 4). -/
  busyDrawn : Nat
  /-- The `bus_init` statuses the Bus Transport will return, next first. -/
  statusIn : List Byte
  /-- How many statuses were drawn as free values (entry 4). -/
  statusDrawn : Nat
  deriving DecidableEq, Repr

/-- One action of the sequencer inside an operation: the protocol steps of 00_scope.md R9, the reset
pulse (41_panel_protocol.md R135), and the writes of engine state the pseudocode places between them. -/
inductive Act where
  /-- `SendCommandI(op8)` (41_panel_protocol.md R131). -/
  | cmd (op8 : Byte)
  /-- `SendDataI(bytes)` (41_panel_protocol.md R132). -/
  | data (bytes : List Byte)
  /-- `Delay(ms)` (00_scope.md R11). -/
  | delay (ms : Nat)
  /-- `WaitIdleI()` (41_panel_protocol.md R133). -/
  | waitIdle
  /-- `ResetPulse()` (41_panel_protocol.md R135). -/
  | resetPulse
  /-- `ostate <- o` (42_refresh.md R180). -/
  | setOState (o : OState)
  /-- `lut_class <- c`, `none` being NONE (41_panel_protocol.md R136). -/
  | setLut (c : Option LutClass)
  /-- `pcount <- 0` (42_refresh.md R174). -/
  | clearPcount
  /-- `pcount <- min(pcount + 1, 0xFFFF)` (42_refresh.md R175). -/
  | bumpPcount
  /-- `mode <- m; pcount <- 0; pstate <- Initialized` (41_panel_protocol.md R141). -/
  | enterMode (m : Mode)
  /-- `busy_pending <- 0; pstate <- Sleeping` (41_panel_protocol.md R142). -/
  | enterSleep
  deriving DecidableEq, Repr

/-- The operands of one `DrawBody` (42_refresh.md R178). -/
structure Band where
  x : Nat
  y : Nat
  w : Nat
  h : Nat
  img : List Word
  deriving DecidableEq, Repr

/-- What is left of an operation that a poll without a budget holds (70_reset_and_hazards.md R238,
entry 5): its OPC and length for `Finish`, the actions left, and the `DrawBody`s after them. -/
structure InFlight where
  opc : Byte
  len : Nat
  acts : List Act
  bands : List Band
  deriving DecidableEq, Repr

/-- The state of the block: the tuple of 10_state.md R20, the configuration every step reads
(00_scope.md R6), the host's descriptor stream and the responses (30_encoding.md R80, R94), and the
operation in flight. -/
structure State where
  cfg : Cfg
  fb : Memory
  pstate : PState
  mode : Mode
  busyPending : Bool
  lutClass : Option LutClass
  pcount : BitVec 16
  ostate : OState
  bus : Bus
  lastOpc : Byte
  lastResult : ResultCode
  errsticky : BitVec 9
  dp : Nat
  stream : List Word
  responses : List Response
  inFlight : Option InFlight
  deriving DecidableEq, Repr

/-- No step stops with a fault: an error of this block is a result code, after which the Engine goes on
(60_exceptions.md R202, R213). Nobody raises one. -/
inductive Fault where
  deriving DecidableEq, Repr

/-- Why a step has no meaning. -/
inductive Refusal where
  /-- Raised by `exec`'s arm of an instruction that has no meaning yet; safe. No arm raises it. -/
  | notModelled (mnemonic : String)
  /-- Raised by `step` on a configuration that breaks a constraint: it "describes no instance of this
  hardware, and a model refuses it" (00_scope.md R7); safe. -/
  | invalidConfig
  deriving DecidableEq, Repr

/-- Block reset of an instance with configuration `c` (10_state.md R47, 70_reset_and_hazards.md R230).
The streams of the host and of the environment are empty (entries 4, 9, 14). -/
def State.resetWith (c : Cfg) : State where
  cfg := c
  fb := []
  pstate := .uninitialized
  mode := .blackWhite
  busyPending := false
  lutClass := none
  pcount := 0
  ostate := .idle
  bus :=
    { rst := true, dc := false, cs := true, log := [], busyIn := [], busyDrawn := 0, statusIn := [],
      statusDrawn := 0 }
  lastOpc := 0
  lastResult := .ok
  errsticky := 0
  dp := 0
  stream := []
  responses := []
  inFlight := none

/-- The protocol table `P_T` of 95_test_vectors.md section 0 for V1. -/
def testTable : ProtocolTable where
  resetSeq := [(false, 10), (true, 10)]
  initSeqs :=
    { blackWhite := some [.cmd 0xA0, .data [0x01]], gray4 := some [.cmd 0xA0, .data [0x03]],
      partialFast := some [.cmd 0xA0, .data [0x02]] }
  opRamPrimary := 0xC1
  fullPrep := []
  fullTrigger := [.cmd 0xD0]
  partialPrep := [.cmd 0xE0]
  partialWindow := .steps
    [.cmd (.lit 0xE1), .data [.div .xs (.lit 8), .ys, .div .xe (.lit 8), .ye]]
  partialTrigger := [.cmd 0xD1]
  partialEpilogue := [.cmd 0xE2]
  sleepSeq := [.cmd 0xF0, .data [0xA5]]
  busyTriggering := [0xD0, 0xD1]
  variantTable := .v1
    { opLut := ⟨0xB0, 0xB1, 0xB2, 0xB3, 0xB4⟩
      lut :=
        { full := ⟨[0x10], [0x11], [0x12], [0x13], [0x14]⟩
          part := ⟨[0x20], [0x21], [0x22], [0x23], [0x24]⟩
          gray := ⟨[0x30], [0x31], [0x32], [0x33], [0x34]⟩ }
      opRamSecondary := 0xC2 }

/-- The configuration T1 of 95_test_vectors.md section 0. `CHUNKING(V2)` and `INIT_FILL(V2)` are those of
T2 there. -/
def testCfg : Cfg where
  width := 16
  height := 4
  chunkings := ⟨.whole, .perByte⟩
  idleLevels := ⟨true, false⟩
  initFills := ⟨.white, .black⟩
  pollDelayMs := 10
  busyBudget := some 3
  forceFullEvery := 2
  hostByteOrder := .big
  p := testTable

/-- The machine right after block reset. DESIGN CHOICE (entry 2): of the open configurations it takes T1
of 95_test_vectors.md; a claim for every instance speaks of `State.resetWith`. -/
def State.reset : State := State.resetWith testCfg

end Sys2Proof.Machine
end

