-- ==== Sys2Proof/Machine/Flags.lean ====
section
/-! DEFINITION. The encodings of the status fields and the six read-only registers
(10_state.md R26 to R42), the sticky error bits (R35), and the first word of a response
(30_encoding.md R94). -/

namespace Sys2Proof.Machine

/-- The code of a panel state (10_state.md R26). -/
def PState.code : PState → BitVec 3
  | .uninitialized => 0
  | .resetting => 1
  | .initialized => 2
  | .sleeping => 3

/-- The code of a mode (10_state.md R27). -/
def modeCode : Mode → BitVec 2
  | .blackWhite => 0
  | .gray4 => 1
  | .partialFast => 2

/-- The code of `lut_class`, 3 for NONE (10_state.md R30). -/
def lutStateCode : Option LutClass → BitVec 2
  | some c => lutClassCode c
  | none => 3

/-- The code of `ostate` (10_state.md R32). -/
def OState.code : OState → Nat
  | .idle => 0
  | .bufferWrite => 1
  | .commandPrimary => 2
  | .commandSecondary => 3
  | .refreshTrigger => 4
  | .busyWait => 5

/-- A result code as a number (60_exceptions.md R200). -/
def ResultCode.toNat : ResultCode → Nat
  | .ok => 0
  | .illegalOperation => 1
  | .unsupportedOnVariant => 2
  | .invalidState => 3
  | .invalidArgument => 4
  | .outOfBoundsWrite => 5
  | .outOfBoundsRead => 6
  | .busInitFailure => 7
  | .panelTimeout => 8

/-- A result code as a byte (60_exceptions.md R200). -/
def ResultCode.byte (r : ResultCode) : Byte := BitVec.ofNat 8 r.toNat

/-- `partial_refresh` (10_state.md R28). -/
def partialRefresh (s : State) : Bool := decide (s.mode = .partialFast)

/-- One bit as a field. -/
def bitField (b : Bool) : BitVec 1 := BitVec.ofBool b

/-- STATUS, register 0 (10_state.md R37). -/
def statusWord (s : State) : Word :=
  (0 : BitVec 6) ++ lutStateCode s.lutClass ++ s.lastResult.byte ++ s.lastOpc ++ (0 : BitVec 1) ++
    bitField s.busyPending ++ bitField (partialRefresh s) ++ modeCode s.mode ++ s.pstate.code

/-- The CHUNKING bit of CONFIG (10_state.md R38). -/
def chunkingBit : Chunking → Bool
  | .whole => false
  | .perByte => true

/-- The VARIANT bit of CONFIG (10_state.md R38). -/
def variantBit : Variant → Bool
  | .v1 => false
  | .v2 => true

/-- The INIT_FILL bit of CONFIG (10_state.md R38). -/
def fillBit : Color → Bool
  | .black => false
  | .white => true

/-- CONFIG, register 1 (10_state.md R38). -/
def configWord (c : Cfg) : Word :=
  BitVec.ofNat 16 c.forceFullEvery ++ BitVec.ofNat 8 c.pollDelayMs ++ (0 : BitVec 4) ++
    bitField (fillBit (c.initFills.get c.variant)) ++ bitField c.idleLevel ++
    bitField (chunkingBit c.chunking) ++ bitField (variantBit c.variant)

/-- PCOUNT, register 2 (10_state.md R39). -/
def pcountWord (s : State) : Word := (0 : BitVec 16) ++ s.pcount

/-- ERRSTICKY, register 3 (10_state.md R40). -/
def errstickyWord (s : State) : Word := (0 : BitVec 23) ++ s.errsticky

/-- GEOMETRY, register 4 (10_state.md R41). -/
def geometryWord (c : Cfg) : Word := BitVec.ofNat 16 c.width ++ BitVec.ofNat 16 c.height

/-- BUDGET, register 5 (10_state.md R42). -/
def budgetWord (c : Cfg) : Word :=
  match c.busyBudget with
  | none => 0xFFFFFFFF
  | some b => BitVec.ofNat 32 b

/-- The register of number `n`, `none` for a reserved number (10_state.md section 6). -/
def registerWord (s : State) (n : Nat) : Option Word :=
  match n with
  | 0 => some (statusWord s)
  | 1 => some (configWord s.cfg)
  | 2 => some (pcountWord s)
  | 3 => some (errstickyWord s)
  | 4 => some (geometryWord s.cfg)
  | 5 => some (budgetWord s.cfg)
  | _ => none

/-- `if code != 0: errsticky[code] <- 1` (60_exceptions.md R202, 10_state.md R35). -/
def stickyAfter (e : BitVec 9) (code : ResultCode) : BitVec 9 :=
  if code = .ok then e else e ||| BitVec.twoPow 9 code.toNat

/-- `pcount <- min(pcount + 1, 0xFFFF)` (42_refresh.md R175). -/
def pcountSucc (n : BitVec 16) : BitVec 16 := BitVec.ofNat 16 (min (n.toNat + 1) 0xFFFF)

/-- The first word of a response (30_encoding.md R94). -/
def responseWord (opc : Byte) (pix : Bool) (code : ResultCode) : Word :=
  opc ++ (0 : BitVec 15) ++ bitField pix ++ code.byte

end Sys2Proof.Machine
end

