-- ==== Sys2Proof/Machine/Operands.lean ====
section
/-! DEFINITION. Pixel addressing, bounds, the pixel read and write, the blit, and the window arithmetic
(20_memory.md R62; 40_framebuffer.md R110 to R112; 42_refresh.md R170 to R173). Coordinates are unbounded
naturals, so no sum wraps (30_encoding.md R97). -/

namespace Sys2Proof.Machine

/-- `InBoundsPix(x, y)` (40_framebuffer.md R110). -/
def inBoundsPix (c : Cfg) (x y : Nat) : Bool := decide (x < c.width) && decide (y < c.height)

/-- `InBoundsRect(x, y, w, h)` (40_framebuffer.md R110). -/
def inBoundsRect (c : Cfg) (x y w h : Nat) : Bool :=
  decide (x + w ≤ c.width) && decide (y + h ≤ c.height)

/-- The byte index of `PixelAddr(x, y)` (20_memory.md R62). -/
def pixelIndex (c : Cfg) (x y : Nat) : Nat := y * c.rowBytes + x / 8

/-- The mask of `PixelAddr(x, y)` (20_memory.md R62). -/
def pixelMask (x : Nat) : Byte := 0x80#8 >>> (x % 8)

/-- Framebuffer byte `k`. -/
def fbRead (c : Cfg) (m : Memory) (k : Nat) : Byte := Memory.read c.fillByte m k

/-- `FB[k] <- v`. -/
def fbWrite (c : Cfg) (m : Memory) (k : Nat) (v : Byte) : Memory := Memory.write c.fillByte m k v

/-- `PixelOf(x, y)` (40_framebuffer.md R112). -/
def pixelOf (c : Cfg) (m : Memory) (x y : Nat) : Bool :=
  decide (fbRead c m (pixelIndex c x y) &&& pixelMask x ≠ 0)

/-- A byte with the bits of `mask` set or cleared (20_memory.md R70). -/
def putBits (b mask : Byte) (v : Bool) : Byte := if v then b ||| mask else b &&& ~~~mask

/-- Writes pixel `(x, y)`: a read-modify-write of one byte (20_memory.md R70, 40_framebuffer.md R111). -/
def writePixel (c : Cfg) (m : Memory) (x y : Nat) (v : Bool) : Memory :=
  fbWrite c m (pixelIndex c x y) (putBits (fbRead c m (pixelIndex c x y)) (pixelMask x) v)

/-- The pixels `(x, y) .. (x+w-1, y)` of one row, pixel `x+i` from `pix i`. -/
def writeRow (c : Cfg) (m : Memory) (x y w : Nat) (pix : Nat → Bool) : Memory :=
  (List.range w).foldl (fun m i => writePixel c m (x + i) y (pix i)) m

/-- `BlitCore(x, y, w, h, img)` (40_framebuffer.md R111): rows outer, columns inner. -/
def blitCore (c : Cfg) (m : Memory) (x y w h : Nat) (img : List Word) : Memory :=
  (List.range h).foldl (fun m j => writeRow c m x (y + j) w fun i => imgBit img w i j) m

/-- `Solid(w, h, c)`: the image whose every pixel is `c` (42_refresh.md R179). -/
def solidImage (w h : Nat) (color : Bool) : List Word := packImage w h fun _ _ => color

/-- `[FB[0], ..., FB[N_FB-1]]` (42_refresh.md R174). -/
def fbBytes (c : Cfg) (m : Memory) : List Byte := (List.range c.fbSize).map (fbRead c m)

/-- The whole framebuffer as packed image words (40_framebuffer.md R116). -/
def fbImage (c : Cfg) (m : Memory) : List Word := packImage c.width c.height (pixelOf c m)

/-- `Snap(xs, xe)` (42_refresh.md R170). -/
def snap (xs xe : Nat) : Nat × Nat := (xs - xs % 8, xe - xe % 8 + 8)

/-- `ValidWindow(xs, ys, xe, ye)` (42_refresh.md R171). -/
def validWindow (c : Cfg) (win : Window) : Bool :=
  decide (win.xs < c.width) && decide (win.xs ≤ win.xe) && decide (win.xe ≤ c.width) &&
  decide (win.ys < win.ye) && decide (win.ye ≤ c.height)

/-- `SentWindow(xs, ys, xe, ye)`: snapped, its right edge clamped (42_refresh.md R172). -/
def sentWindow (c : Cfg) (win : Window) : Window where
  xs := (snap win.xs win.xe).1
  ys := win.ys
  xe := min (snap win.xs win.xe).2 c.width
  ye := win.ye

/-- `[a, b)` in ascending order (00_scope.md R10). -/
def interval (a b : Nat) : List Nat := (List.range (b - a)).map (a + ·)

/-- `WindowBytes` of a sent window: rows outer, byte columns inner (42_refresh.md R173). -/
def windowBytes (c : Cfg) (m : Memory) (win : Window) : List Byte :=
  (interval win.ys win.ye).flatMap fun r =>
    (interval (win.xs / 8) (win.xe / 8)).map fun k => fbRead c m (r * c.rowBytes + k)

/-- The bands `(y, h)` of FILL: `ceil(HEIGHT / bh)` of them, at `y = 0, bh, 2*bh, ...`, the last one cut to
the rows that are left (42_refresh.md R179, entry 16). -/
def fillBands (height bh : Nat) : List (Nat × Nat) :=
  (List.range ((height + bh - 1) / bh)).map fun k => (k * bh, min bh (height - k * bh))

end Sys2Proof.Machine
end

