-- ==== Sys2Proof/Machine/Ops.lean ====
section
/-! DEFINITION. The environment primitives (00_scope.md R11), the transport and the busy poll
(41_panel_protocol.md R130 to R133, R135), and the common completion of a descriptor with its errors
(60_exceptions.md R201, R202, R210). -/

namespace Sys2Proof.Machine

/-! ### Environment primitives -/

/-- Appends an event to the log (10_state.md R36). -/
def Bus.emit (b : Bus) (e : Event) : Bus := { b with log := b.log ++ [e] }

/-- Sets an output latch (10_state.md R33). -/
def Bus.setLatch (b : Bus) (p : Pin) (level : Level) : Bus :=
  match p with
  | .rst => { b with rst := level }
  | .dc => { b with dc := level }
  | .cs => { b with cs := level }

/-- `PinWrite(pin, level)` (00_scope.md R11). -/
def Bus.pinWrite (b : Bus) (p : Pin) (level : Level) : Bus := (b.setLatch p level).emit (.pin p level)

/-- The next BUSY level: the next queued one, and after the queue a free value (entry 4). -/
def Bus.busyLevel (b : Bus) : Level :=
  match b.busyIn with
  | l :: _ => l
  | [] => Config.freeBusy b.busyDrawn

/-- The bus after the next BUSY level is drawn. -/
def Bus.dropBusy (b : Bus) : Bus :=
  match b.busyIn with
  | _ :: rest => { b with busyIn := rest }
  | [] => { b with busyDrawn := b.busyDrawn + 1 }

/-- `BusyRead()` (00_scope.md R11): the bus after it; the level read is `Bus.busyLevel` before it. -/
def Bus.busyRead (b : Bus) : Bus := b.dropBusy.emit (.busyRead b.busyLevel)

/-- `Transfer(bytes)` (00_scope.md R11). -/
def Bus.transfer (b : Bus) (bytes : List Byte) : Bus := b.emit (.xfer bytes)

/-- `Delay(ms)` (00_scope.md R11). -/
def Bus.delay (b : Bus) (ms : Nat) : Bus := b.emit (.delay ms)

/-- The next `bus_init` status: the next queued one, and after the queue a free value (entry 4). -/
def Bus.nextStatus (b : Bus) : Byte :=
  match b.statusIn with
  | st :: _ => st
  | [] => Config.freeBusStatus b.statusDrawn

/-- The bus after the next status is drawn. -/
def Bus.dropStatus (b : Bus) : Bus :=
  match b.statusIn with
  | _ :: rest => { b with statusIn := rest }
  | [] => { b with statusDrawn := b.statusDrawn + 1 }

/-- `BusInit()` (00_scope.md R11): the bus after it; the status returned is `Bus.nextStatus` before it. -/
def Bus.busInit (b : Bus) : Bus := b.dropStatus.emit (.busInit b.nextStatus)

/-! ### Transport -/

/-- `Transaction(dc, bytes)` (41_panel_protocol.md R130). -/
def Bus.transaction (b : Bus) (dc : Level) (bytes : List Byte) : Bus :=
  (((b.pinWrite .dc dc).pinWrite .cs false).transfer bytes).pinWrite .cs true

/-- `SendDataI(bytes)` (41_panel_protocol.md R132). -/
def Bus.sendData (b : Bus) (chunking : Chunking) (bytes : List Byte) : Bus :=
  match bytes with
  | [] => b
  | _ :: _ =>
    match chunking with
    | .whole => b.transaction true bytes
    | .perByte => bytes.foldl (fun b d => b.transaction true [d]) b

/-- The pin writes and holds of the reset pulse (41_panel_protocol.md R135). -/
def Bus.pulse (b : Bus) (seq : List (Level × Nat)) : Bus :=
  seq.foldl (fun b e => (b.pinWrite .rst e.1).delay e.2) b

/-- `ResetPulse()` (41_panel_protocol.md R135). -/
def resetPulse (s : State) : State :=
  { s with
    bus := s.bus.pulse s.cfg.p.resetSeq
    busyPending := true
    lutClass := none
    pstate := .resetting }

/-! ### The busy poll -/

/-- How a procedure that may poll BUSY ends. -/
inductive PollResult where
  /-- It ran to its end. -/
  | done (s : State)
  /-- It raised PanelTimeout (41_panel_protocol.md R133). -/
  | timedOut (s : State)
  /-- Its poll has no budget and read the busy level each time: it goes on polling in the next step
  (70_reset_and_hazards.md R238, entry 5). -/
  | held (s : State)
  deriving DecidableEq, Repr

/-- One `BusyRead` of a state. -/
def readBusy (s : State) : State := { s with bus := s.bus.busyRead }

/-- Whether the next BUSY level is the idle level (41_panel_protocol.md R133). -/
def nextIsIdle (s : State) : Bool := decide (s.bus.busyLevel = s.cfg.idleLevel)

/-- The state after a read of the idle level: `busy_pending <- 0` (41_panel_protocol.md R133). -/
def pollIdle (s : State) : State := { readBusy s with busyPending := false }

/-- The state after a read of the busy level and the delay before the next read
(41_panel_protocol.md R133). -/
def pollBusy (s : State) : State :=
  { s with bus := s.bus.busyRead.delay s.cfg.pollDelayMs }

/-- The poll loop of 41_panel_protocol.md R133 under a finite budget, with `left` delays left. -/
def waitBudget : Nat → State → PollResult
  | left, s =>
    if nextIsIdle s then .done (pollIdle s)
    else
      match left with
      | 0 => .timedOut (readBusy s)
      | n + 1 => waitBudget n (pollBusy s)

/-- The poll loop of 41_panel_protocol.md R133 under UNBOUNDED: `queued` is the list of BUSY levels
waiting. It reads through them, and then one level more; if none was idle the poll is not over
(entry 5). -/
def waitUnbounded : List Level → State → PollResult
  | queued, s =>
    if nextIsIdle s then .done (pollIdle s)
    else
      match queued with
      | [] => .held (pollBusy s)
      | _ :: rest => waitUnbounded rest (pollBusy s)

/-- `WaitIdleI()` (41_panel_protocol.md R133). -/
def waitIdleI (s : State) : PollResult :=
  match s.cfg.busyBudget with
  | some b => waitBudget b s
  | none => waitUnbounded s.bus.busyIn s

/-- The transaction of a command byte, and `busy_pending` after it (41_panel_protocol.md R131). -/
def transmitCommand (op8 : Byte) (s : State) : State :=
  { s with
    bus := s.bus.transaction false [op8]
    busyPending := s.busyPending || s.cfg.triggersBusy op8 }

/-- `SendCommandI(op8)`: the command byte under the busy interlock (41_panel_protocol.md R131). -/
def sendCommandI (op8 : Byte) (s : State) : PollResult :=
  if s.busyPending then
    match waitIdleI s with
    | .done s1 => .done (transmitCommand op8 s1)
    | .timedOut s1 => .timedOut s1
    | .held s1 => .held s1
  else .done (transmitCommand op8 s)

/-! ### Completion and errors -/

/-- `Finish(code)` (60_exceptions.md R202) of a descriptor with OPC `opc` and length `len`; `pix` and
`data` are what an OK result adds to the response (30_encoding.md R94). -/
def finish (opc : Byte) (len : Nat) (code : ResultCode) (pix : Bool) (data : List Word) (s : State) :
    State :=
  { s with
    lastOpc := opc
    lastResult := code
    errsticky := stickyAfter s.errsticky code
    ostate := .idle
    responses := s.responses ++ [{ r0 := responseWord opc pix code, data := data }]
    dp := s.dp + len
    inFlight := none }

/-- `Finish(OK)` of an operation whose response carries nothing more. -/
def finishOk (opc : Byte) (len : Nat) (s : State) : State := finish opc len .ok false [] s

/-- `raise E` for an `E` other than PanelTimeout (60_exceptions.md R201): this is the one place an
operation takes an error, and all it does is `Finish(E)`. -/
def raiseError (opc : Byte) (len : Nat) (code : ResultCode) (s : State) : State :=
  finish opc len code false [] s

/-- `raise PanelTimeout`: the writes of 60_exceptions.md R210, then R201. -/
def raiseTimeout (opc : Byte) (len : Nat) (s : State) : State :=
  raiseError opc len .panelTimeout { s with pstate := .resetting, busyPending := true }

end Sys2Proof.Machine
end

