-- ==== Sys2Proof/Machine/Sequencer.lean ====
section
/-! DEFINITION. The sequencer: the actions of an operation run in order, with the three ways to end, and
the action lists of the internal procedures (41_panel_protocol.md R134, R136; 42_refresh.md R174, R175,
R178). -/

namespace Sys2Proof.Machine

/-! ### Running actions -/

/-- One action. -/
def runAct (a : Act) (s : State) : PollResult :=
  match a with
  | .cmd op8 => sendCommandI op8 s
  | .data bytes => .done { s with bus := s.bus.sendData s.cfg.chunking bytes }
  | .delay ms => .done { s with bus := s.bus.delay ms }
  | .waitIdle => waitIdleI s
  | .resetPulse => .done (resetPulse s)
  | .setOState o => .done { s with ostate := o }
  | .setLut c => .done { s with lutClass := c }
  | .clearPcount => .done { s with pcount := 0 }
  | .bumpPcount => .done { s with pcount := pcountSucc s.pcount }
  | .enterMode m => .done { s with mode := m, pcount := 0, pstate := .initialized }
  | .enterSleep => .done { s with busyPending := false, pstate := .sleeping }

/-- How a run of actions ends. -/
inductive RunResult where
  /-- Every action was carried out. -/
  | done (s : State)
  /-- PanelTimeout was raised; the later actions are not issued (60_exceptions.md R201). -/
  | timedOut (s : State)
  /-- A poll without a budget holds; `acts` and `bands` are left, the polling action first (entry 5). -/
  | held (acts : List Act) (bands : List Band) (s : State)
  deriving DecidableEq, Repr

/-- Runs actions in order, stopping at the first that does not run to its end; `bands` is what would
come after them. -/
def runActs (bands : List Band) : List Act → State → RunResult
  | [], s => .done s
  | a :: rest, s =>
    match runAct a s with
    | .done s1 => runActs bands rest s1
    | .timedOut s1 => .timedOut s1
    | .held s1 => .held (a :: rest) bands s1

/-! ### Action lists of the internal procedures -/

/-- `RunSteps` of one protocol step (41_panel_protocol.md R134). -/
def actOfStep : ProtoStep → Act
  | .cmd op8 => .cmd op8
  | .data bytes => .data bytes
  | .delay ms => .delay ms
  | .waitIdle => .waitIdle

/-- `RunSteps(steps)` (41_panel_protocol.md R134). -/
def stepActs (steps : List ProtoStep) : List Act := steps.map actOfStep

/-- `ProgramLut(class)` of a V1 instance (41_panel_protocol.md R136). -/
def programLutActs (t : V1Table) (cls : LutClass) : List Act :=
  [.setLut none] ++
  lutNames.flatMap (fun n => [.cmd (t.opLut.get n), .data ((t.lut.get cls).get n)]) ++
  [.setLut (some cls)]

/-- The LUT class that belongs to a mode (41_panel_protocol.md R141, 42_refresh.md R174). -/
def modeLut : Mode → LutClass
  | .gray4 => .gray
  | .blackWhite => .full
  | .partialFast => .full

/-- The LUT restore before a full transmission, V1 only (42_refresh.md R174). -/
def restoreLutActs (s : State) : List Act :=
  match s.cfg.p.variantTable with
  | .v1 t => if s.lutClass = some (modeLut s.mode) then [] else programLutActs t (modeLut s.mode)
  | .v2 => []

/-- The secondary bank's stream, V1 only (42_refresh.md R174, R175). -/
def secondaryActs (c : Cfg) (bytes : List Byte) : List Act :=
  match c.p.variantTable with
  | .v1 t => [.setOState .commandSecondary, .cmd t.opRamSecondary, .data bytes]
  | .v2 => []

/-- `DisplayFullI()` started in state `s` (42_refresh.md R174). No action of it changes FB, so the stream
is read here (entry 16). -/
def displayFullActs (s : State) : List Act :=
  [.setOState .commandPrimary] ++ restoreLutActs s ++ stepActs s.cfg.p.fullPrep ++
  [.cmd s.cfg.p.opRamPrimary, .data (fbBytes s.cfg s.fb)] ++
  secondaryActs s.cfg (fbBytes s.cfg s.fb) ++
  [.setOState .refreshTrigger] ++ stepActs s.cfg.p.fullTrigger ++
  [.setOState .busyWait, .waitIdle, .clearPcount, .setOState .idle]

/-- The partial LUT of a windowed transmission, V1 only (42_refresh.md R175). -/
def partialLutActs (c : Cfg) : List Act :=
  match c.p.variantTable with
  | .v1 t => programLutActs t .part
  | .v2 => []

/-- `DisplayPartialI(xs, ys, xe, ye)` started in state `s` (42_refresh.md R175). No action of it changes
FB, so the window's bytes are read here (entry 16). -/
def displayPartialActs (win : Window) (s : State) : List Act :=
  [.setOState .commandPrimary] ++ partialLutActs s.cfg ++ stepActs s.cfg.p.partialPrep ++
  stepActs (s.cfg.p.partialWindow.eval (sentWindow s.cfg win)) ++
  [.cmd s.cfg.p.opRamPrimary, .data (windowBytes s.cfg s.fb (sentWindow s.cfg win))] ++
  secondaryActs s.cfg ((windowBytes s.cfg s.fb (sentWindow s.cfg win)).map fun b => ~~~b) ++
  [.setOState .refreshTrigger] ++ stepActs s.cfg.p.partialTrigger ++
  [.setOState .busyWait, .waitIdle] ++ stepActs s.cfg.p.partialEpilogue ++
  [.bumpPcount, .setOState .idle]

/-! ### DrawBody -/

/-- The BufferWrite phase of `DrawBody` (42_refresh.md R178). -/
def bufferWrite (b : Band) (s : State) : State :=
  { s with ostate := .bufferWrite, fb := blitCore s.cfg s.fb b.x b.y b.w b.h b.img }

/-- The window of a `DrawBody`, `(x, y, x + w, y + h)` (42_refresh.md R178). -/
def bandWindow (b : Band) : Window where
  xs := b.x
  ys := b.y
  xe := b.x + b.w
  ye := b.y + b.h

/-- Whether the refresh-count policy asks for a full transmission (42_refresh.md R178, R181). -/
def forcesFull (s : State) : Bool :=
  decide (0 < s.cfg.forceFullEvery) && decide (s.cfg.forceFullEvery ≤ s.pcount.toNat)

/-- The transmission of a `DrawBody`, started after its BufferWrite phase (42_refresh.md R178). -/
def transmitActs (b : Band) (s : State) : List Act :=
  match s.mode with
  | .partialFast => if forcesFull s then displayFullActs s else displayPartialActs (bandWindow b) s
  | .blackWhite => displayFullActs s
  | .gray4 => displayFullActs s

/-- Runs `DrawBody`s one after another (42_refresh.md R178, R179). -/
def runBands : List Band → State → RunResult
  | [], s => .done s
  | b :: rest, s =>
    match runActs rest (transmitActs b (bufferWrite b s)) (bufferWrite b s) with
    | .done s1 => runBands rest s1
    | .timedOut s1 => .timedOut s1
    | .held acts bands s1 => .held acts bands s1

/-- Runs actions, then `DrawBody`s. -/
def runAll (acts : List Act) (bands : List Band) (s : State) : RunResult :=
  match runActs bands acts s with
  | .done s1 => runBands bands s1
  | .timedOut s1 => .timedOut s1
  | .held acts1 bands1 s1 => .held acts1 bands1 s1

/-! ### The end of an operation -/

/-- The state an operation leaves: finished, ended by PanelTimeout, or in flight behind a poll that has
no budget. -/
def settle (opc : Byte) (len : Nat) : RunResult → State
  | .done s => finishOk opc len s
  | .timedOut s => raiseTimeout opc len s
  | .held acts bands s => { s with inFlight := some ⟨opc, len, acts, bands⟩ }

/-- An operation that runs actions and then `DrawBody`s. -/
def runOperation (opc : Byte) (len : Nat) (acts : List Act) (bands : List Band) (s : State) : State :=
  settle opc len (runAll acts bands s)

/-- The next step of an operation in flight: the poll goes on where it was (entry 5). -/
def resumeOperation (f : InFlight) (s : State) : State :=
  runOperation f.opc f.len f.acts f.bands { s with inFlight := none }

end Sys2Proof.Machine
end

