-- ==== Sys2Proof/Machine/Framebuffer.lean ====
section
/-! DEFINITION. The framebuffer operations (40_framebuffer.md R113 to R117). None of them touches the
panel link, and all are valid in every `pstate`. -/

namespace Sys2Proof.Machine

/-- SET_PIXEL (40_framebuffer.md R113). -/
def execSetPixel (v : Bool) (x y : Half) (s : State) : Host.Outcome State Fault Refusal :=
  .next <|
    if inBoundsPix s.cfg x.toNat y.toNat then
      finishOk 0x01 2 { s with fb := writePixel s.cfg s.fb x.toNat y.toNat v }
    else raiseError 0x01 2 .outOfBoundsWrite s

/-- GET_PIXEL (40_framebuffer.md R114). -/
def execGetPixel (x y : Half) (s : State) : Host.Outcome State Fault Refusal :=
  .next <|
    if inBoundsPix s.cfg x.toNat y.toNat then
      finish 0x02 2 .ok (pixelOf s.cfg s.fb x.toNat y.toNat) [] s
    else raiseError 0x02 2 .outOfBoundsRead s

/-- BLIT (40_framebuffer.md R115). -/
def execBlit (x y w h : Half) (img : List Word) (s : State) : Host.Outcome State Fault Refusal :=
  .next <|
    if inBoundsRect s.cfg x.toNat y.toNat w.toNat h.toNat then
      finishOk 0x03 (3 + imageWords w.toNat h.toNat)
        { s with fb := blitCore s.cfg s.fb x.toNat y.toNat w.toNat h.toNat img }
    else raiseError 0x03 (3 + imageWords w.toNat h.toNat) .outOfBoundsWrite s

/-- READ_IMAGE (40_framebuffer.md R116). -/
def execReadImage (s : State) : Host.Outcome State Fault Refusal :=
  .next <| finish 0x04 1 .ok false (fbImage s.cfg s.fb) s

/-- READ_REG (40_framebuffer.md R117): the register is read before this descriptor's own `Finish`. -/
def execReadReg (n : Half) (s : State) : Host.Outcome State Fault Refusal :=
  .next <|
    match registerWord s n.toNat with
    | some val => finish 0x05 1 .ok false [val] s
    | none => raiseError 0x05 1 .illegalOperation s

/-- An illegal descriptor with OPC `opc` and length `len` (30_encoding.md R92, R93; 60_exceptions.md
R203): IllegalOperation and no other effect. -/
def execIllegal (opc : Byte) (len : Nat) (s : State) : State :=
  raiseError opc len .illegalOperation s

end Sys2Proof.Machine
end

