-- ==== Sys2Proof/Machine/Panel.lean ====
section
/-! DEFINITION. The panel protocol operations (41_panel_protocol.md R137 to R143). -/

namespace Sys2Proof.Machine

/-- RESET (41_panel_protocol.md R137). -/
def execReset (s : State) : Host.Outcome State Fault Refusal :=
  .next <| finishOk 0x10 1 (resetPulse s)

/-- The mode `INIT` selects when its two flags are not both set (41_panel_protocol.md R141). -/
def initMode (part gray : Bool) : Mode :=
  if gray then .gray4 else if part then .partialFast else .blackWhite

/-- The LUT that INIT programs, V1 only (41_panel_protocol.md R141). -/
def initLutActs (c : Cfg) (m : Mode) : List Act :=
  match c.p.variantTable with
  | .v1 t => programLutActs t (modeLut m)
  | .v2 => []

/-- INIT after a successful `BusInit` (41_panel_protocol.md R141). -/
def initActs (c : Cfg) (m : Mode) (steps : List ProtoStep) : List Act :=
  [.resetPulse] ++ stepActs steps ++ initLutActs c m ++ [.enterMode m]

/-- INIT once its step list is known: `BusInit`, and the rest if its status is 0
(41_panel_protocol.md R141, 60_exceptions.md R209). -/
def initWith (m : Mode) (steps : List ProtoStep) (s : State) : State :=
  if s.bus.nextStatus = 0 then
    runOperation 0x11 1 (initActs s.cfg m steps) [] { s with bus := s.bus.busInit }
  else raiseError 0x11 1 .busInitFailure { s with bus := s.bus.busInit }

/-- INIT (41_panel_protocol.md R141). -/
def execInit (part gray : Bool) (s : State) : Host.Outcome State Fault Refusal :=
  .next <|
    if part && gray then raiseError 0x11 1 .invalidArgument s
    else
      match s.cfg.initSeq (initMode part gray) with
      | none => raiseError 0x11 1 .unsupportedOnVariant s
      | some steps => initWith (initMode part gray) steps s

/-- SLEEP (41_panel_protocol.md R142). -/
def execSleep (s : State) : Host.Outcome State Fault Refusal :=
  .next <|
    if s.pstate = .initialized then
      runOperation 0x12 1 (stepActs s.cfg.p.sleepSeq ++ [.enterSleep]) [] s
    else raiseError 0x12 1 .invalidState s

/-- WAIT_IDLE (41_panel_protocol.md R140). -/
def execWaitIdle (s : State) : Host.Outcome State Fault Refusal :=
  .next <| runOperation 0x13 1 [.waitIdle] [] s

/-- SEND_COMMAND (41_panel_protocol.md R138). -/
def execSendCommand (op8 : Byte) (s : State) : Host.Outcome State Fault Refusal :=
  .next <| runOperation 0x14 1 [.cmd op8] [] s

/-- SEND_DATA (41_panel_protocol.md R139). -/
def execSendData (bytes : List Byte) (s : State) : Host.Outcome State Fault Refusal :=
  .next <| runOperation 0x15 (1 + dataWords bytes.length) [.data bytes] [] s

/-- SET_LUT (41_panel_protocol.md R143). -/
def execSetLut (cls : LutClass) (s : State) : Host.Outcome State Fault Refusal :=
  .next <|
    match s.cfg.p.variantTable with
    | .v2 => raiseError 0x16 1 .unsupportedOnVariant s
    | .v1 t =>
      if s.pstate = .initialized then runOperation 0x16 1 (programLutActs t cls) [] s
      else raiseError 0x16 1 .invalidState s

end Sys2Proof.Machine
end

