-- ==== Sys2Proof/Machine/Refresh.lean ====
section
/-! DEFINITION. The refresh orchestrator operations (42_refresh.md R176 to R179). -/

namespace Sys2Proof.Machine

/-- DISPLAY_FULL (42_refresh.md R176). -/
def execDisplayFull (s : State) : Host.Outcome State Fault Refusal :=
  .next <|
    if s.pstate = .initialized then runOperation 0x20 1 (displayFullActs s) [] s
    else raiseError 0x20 1 .invalidState s

/-- The window operands of DISPLAY_PARTIAL (30_encoding.md R86, R97). -/
def windowOf (xs ys xe ye : Half) : Window where
  xs := xs.toNat
  ys := ys.toNat
  xe := xe.toNat
  ye := ye.toNat

/-- DISPLAY_PARTIAL (42_refresh.md R177). -/
def execDisplayPartial (xs ys xe ye : Half) (s : State) : Host.Outcome State Fault Refusal :=
  .next <|
    if s.pstate = .initialized then
      if validWindow s.cfg (windowOf xs ys xe ye) then
        runOperation 0x21 3 (displayPartialActs (windowOf xs ys xe ye) s) [] s
      else raiseError 0x21 3 .invalidArgument s
    else raiseError 0x21 3 .invalidState s

/-- The `DrawBody` operands of a DRAW (42_refresh.md R178). -/
def drawBand (x y w h : Half) (img : List Word) : Band where
  x := x.toNat
  y := y.toNat
  w := w.toNat
  h := h.toNat
  img := img

/-- DRAW (42_refresh.md R178). -/
def execDraw (x y w h : Half) (img : List Word) (s : State) : Host.Outcome State Fault Refusal :=
  .next <|
    if s.pstate = .initialized then
      if w.toNat = 0 ∨ h.toNat = 0 then
        raiseError 0x22 (3 + imageWords w.toNat h.toNat) .invalidArgument s
      else if inBoundsRect s.cfg x.toNat y.toNat w.toNat h.toNat then
        runOperation 0x22 (3 + imageWords w.toNat h.toNat) [] [drawBand x y w h img] s
      else raiseError 0x22 (3 + imageWords w.toNat h.toNat) .outOfBoundsWrite s
    else raiseError 0x22 (3 + imageWords w.toNat h.toNat) .invalidState s

/-- The `DrawBody` of one FILL band: the full width, in one colour (42_refresh.md R179). -/
def solidBand (c : Cfg) (color : Bool) (band : Nat × Nat) : Band where
  x := 0
  y := band.1
  w := c.width
  h := band.2
  img := solidImage c.width band.2 color

/-- The `DrawBody`s of FILL, top to bottom (42_refresh.md R179). -/
def fillBodies (c : Cfg) (color : Bool) (bh : Nat) : List Band :=
  (fillBands c.height bh).map (solidBand c color)

/-- FILL (42_refresh.md R179). -/
def execFill (color : Bool) (bandHeight : Half) (s : State) : Host.Outcome State Fault Refusal :=
  .next <|
    if s.pstate = .initialized then
      if bandHeight.toNat = 0 then raiseError 0x23 1 .invalidArgument s
      else runOperation 0x23 1 [] (fillBodies s.cfg color bandHeight.toNat) s
    else raiseError 0x23 1 .invalidState s

end Sys2Proof.Machine
end

