-- ==== Sys2Proof/Machine/Dispatch.lean ====
section
/-! DEFINITION. One arm per operation of the opcode map (30_encoding.md R91). -/

namespace Sys2Proof.Machine

def exec (i : Instr) (s : State) : Host.Outcome State Fault Refusal :=
  match i with
  | .setPixel v x y => Sys2Proof.Machine.execSetPixel v x y s
  | .getPixel x y => Sys2Proof.Machine.execGetPixel x y s
  | .blit x y w h img => Sys2Proof.Machine.execBlit x y w h img s
  | .readImage => Sys2Proof.Machine.execReadImage s
  | .readReg n => Sys2Proof.Machine.execReadReg n s
  | .reset => Sys2Proof.Machine.execReset s
  | .init part gray => Sys2Proof.Machine.execInit part gray s
  | .sleep => Sys2Proof.Machine.execSleep s
  | .waitIdle => Sys2Proof.Machine.execWaitIdle s
  | .sendCommand op8 => Sys2Proof.Machine.execSendCommand op8 s
  | .sendData bytes => Sys2Proof.Machine.execSendData bytes s
  | .setLut cls => Sys2Proof.Machine.execSetLut cls s
  | .displayFull => Sys2Proof.Machine.execDisplayFull s
  | .displayPartial xs ys xe ye => Sys2Proof.Machine.execDisplayPartial xs ys xe ye s
  | .draw x y w h img => Sys2Proof.Machine.execDraw x y w h img s
  | .fill color bandHeight => Sys2Proof.Machine.execFill color bandHeight s

end Sys2Proof.Machine
end

