-- ==== Sys2Proof/Machine/Fetch.lean ====
section
/-! DEFINITION. The descriptor stream: what the Engine finds at `DP` (10_state.md R22, 30_encoding.md
R90), and what the host does to the stream. -/

namespace Sys2Proof.Machine

/-- The descriptor at `DP` (10_state.md R22). -/
def fetch (s : State) : Decoded := decode (s.stream.drop s.dp)

/-- The Engine waits for words that are not there yet: no descriptor is executed and nothing changes
(30_encoding.md R90, entry 6). -/
def waitForWords (s : State) : State := s

/-- The host supplies more words (30_encoding.md R80). -/
def hostSend (words : List Word) (s : State) : State := { s with stream := s.stream ++ words }

/-- The host supplies more words over a byte-wide bus (20_memory.md R64). -/
def hostSendBytes (bytes : List Byte) (s : State) : State :=
  hostSend (assembleWords s.cfg.hostByteOrder bytes) s

/-- The host's stream with `words` standing at `DP`, padded with zero words up to it. -/
def streamAt (words stream : List Word) (dp : Nat) : List Word :=
  stream.take dp ++ List.replicate (dp - stream.length) 0 ++ words

/-- The state whose next descriptor is `words`; no operation is in flight. -/
def placeWords (words : List Word) (s : State) : State :=
  { s with stream := streamAt words s.stream s.dp, inFlight := none }

end Sys2Proof.Machine
end

