-- ==== Sys2Proof/Machine/Step.lean ====
section
/-! DEFINITION. One step of the Engine. -/

namespace Sys2Proof.Machine

/-- One step. An invalid configuration is refused (00_scope.md R7). An operation in flight goes on;
otherwise the descriptor at `DP` is executed as a whole (20_memory.md R69, 10_state.md R22), an illegal
one as IllegalOperation (60_exceptions.md R203), and an incomplete one is waited for (30_encoding.md
R90). -/
def step (s : State) : Host.Outcome State Fault Refusal :=
  if s.cfg.valid then
    match s.inFlight with
    | some f => .next (resumeOperation f s)
    | none =>
      match fetch s with
      | .ok i _ => exec i s
      | .illegal _ opc len => .next (execIllegal opc len s)
      | .truncated => .next (waitForWords s)
  else .refused .invalidConfig

/-- `s` with the instruction whose bits are `w`, numbered as the opcode table numbers them, at the place
`step` fetches its next instruction from: at `DP` in the host's stream, with no operation in flight. -/
def State.withFetchWord (s : State) (nbits w : Nat) : State := placeWords (tableWords nbits w) s

end Sys2Proof.Machine
end

