-- ==== Sys2Proof/Machine/Assembler.lean ====
section
/-! DEFINITION. The assembler: one line of 30_encoding.md R98, or a pseudo-instruction of R99, to its operation
and its words. A value that does not fit its field refuses the line. Lines are lists of characters. -/

namespace Sys2Proof

/-- Blanks between the parts of a line. -/
def isBlank (c : Char) : Bool := decide (c = ' ') || decide (c = '\t')

/-- A part of a line without the blanks around it. -/
def trimBlanks (l : List Char) : List Char := ((l.dropWhile isBlank).reverse.dropWhile isBlank).reverse

/-- The parts of a comma-separated list. -/
def splitCommas : List Char → List (List Char)
  | [] => [[]]
  | c :: rest =>
    if c = ',' then [] :: splitCommas rest
    else
      match splitCommas rest with
      | [] => [[c]]
      | part :: parts => (c :: part) :: parts

/-- The operands of a line; none if nothing stands after the mnemonic. -/
def operandsOf (rest : List Char) : List (List Char) :=
  if (trimBlanks rest).isEmpty then [] else (splitCommas rest).map trimBlanks

/-- The value of a digit, in any base up to 16. -/
def digitValue (c : Char) : Option Nat :=
  if 48 ≤ c.toNat ∧ c.toNat ≤ 57 then some (c.toNat - 48)
  else if 97 ≤ c.toNat ∧ c.toNat ≤ 102 then some (c.toNat - 87)
  else if 65 ≤ c.toNat ∧ c.toNat ≤ 70 then some (c.toNat - 55)
  else none

/-- The number that digits of a base stand for, after the digits already read. -/
def digitsValue (base : Nat) : Nat → List Char → Option Nat
  | acc, [] => some acc
  | acc, c :: rest =>
    match digitValue c with
    | some d => if d < base then digitsValue base (acc * base + d) rest else none
    | none => none

/-- A decimal or `0x` hexadecimal number (30_encoding.md R98). -/
def numberOf : List Char → Option Nat
  | [] => none
  | '0' :: 'x' :: [] => none
  | '0' :: 'x' :: digits => digitsValue 16 0 digits
  | digits => digitsValue 10 0 digits

/-- A number that fits `n` bits; a larger one refuses the line (30_encoding.md R98). -/
def fieldOf (n : Nat) (l : List Char) : Option (BitVec n) :=
  (numberOf l).bind fun v => if v < 2 ^ n then some (BitVec.ofNat n v) else none

/-- A one-bit number. -/
def flagOf (l : List Char) : Option Bool := (fieldOf 1 l).map fun b => b.getLsbD 0

/-- One character of `<bits>`. -/
def bitOf (c : Char) : Option Bool :=
  if c = '0' then some false else if c = '1' then some true else none

/-- The image words of `<bits>`: one character per pixel in the order of R88, `_` ignored. A string of another
length than `w*h` refuses the line (DEDUCED, entry 15). R98 lets `_` "appear between characters" and does not say
what one at the start or the end of `<bits>` is, or one that stands alone; every `_` is dropped wherever it stands
(DESIGN CHOICE, entry 15). -/
def bitsOf (w h : Half) (l : List Char) : Option (List Word) :=
  ((l.filter fun c => decide (c ≠ '_')).mapM bitOf).bind fun bits =>
    if bits.length = w.toNat * h.toNat then
      some (packBits (w.toNat * h.toNat) fun k => bits.getD k false)
    else none

/-- The operation of a format B line from its four numbers and its `<bits>` (30_encoding.md R98). -/
def imageOf (mk : Half → Half → Half → Half → List Word → Instr) (x y w h bits : List Char) : Option Instr :=
  (fieldOf 16 x).bind fun x => (fieldOf 16 y).bind fun y => (fieldOf 16 w).bind fun w =>
  (fieldOf 16 h).bind fun h => (bitsOf w h bits).map fun img => mk x y w h img

/-- A format B line (30_encoding.md R98). R98 does not say how a line of a zero-area image is written: with no
`<bits>` operand at all, as V-F13 of 95_test_vectors.md writes `BLIT 16, 0, 0, 1`, or with an empty one after a
comma. Both are accepted, and a line of four operands stands for no bits (DESIGN CHOICE, entry 15); `bitsOf`
refuses no bits for an image that is not empty. -/
def imageLine (mk : Half → Half → Half → Half → List Word → Instr) : List (List Char) → Option Instr
  | [x, y, w, h] => imageOf mk x y w h []
  | [x, y, w, h, bits] => imageOf mk x y w h bits
  | _ => none

/-- A line without operands. -/
def plainLine (i : Instr) (operands : List (List Char)) : Option Instr :=
  if operands.isEmpty then some i else none

/-- The number of a register, or its name (30_encoding.md R98, 40_framebuffer.md R117). -/
def registerOf (l : List Char) : Option Half :=
  if l = "STATUS".toList then some 0
  else if l = "CONFIG".toList then some 1
  else if l = "PCOUNT".toList then some 2
  else if l = "ERRSTICKY".toList then some 3
  else if l = "GEOMETRY".toList then some 4
  else if l = "BUDGET".toList then some 5
  else fieldOf 16 l

/-- The name of a waveform class (30_encoding.md R98). -/
def classOf (l : List Char) : Option LutClass :=
  if l = "FULL".toList then some .full
  else if l = "PARTIAL".toList then some .part
  else if l = "GRAY".toList then some .gray
  else none

/-- The payload of SEND_DATA: at most 65535 bytes (30_encoding.md R89). -/
def payloadOf (operands : List (List Char)) : Option (List Byte) :=
  (operands.mapM (fieldOf 8)).bind fun bytes => if bytes.length < 65536 then some bytes else none

/-- The operation of a line, from its mnemonic and operands (30_encoding.md R98, R99). -/
def assembleOperands (c : Cfg) (mnemonic : List Char) (operands : List (List Char)) : Option Instr :=
  if mnemonic = "SET_PIXEL".toList then
    match operands with
    | [x, y, v] =>
      (fieldOf 16 x).bind fun x => (fieldOf 16 y).bind fun y => (flagOf v).map fun v => .setPixel v x y
    | _ => none
  else if mnemonic = "GET_PIXEL".toList then
    match operands with
    | [x, y] => (fieldOf 16 x).bind fun x => (fieldOf 16 y).map fun y => .getPixel x y
    | _ => none
  else if mnemonic = "BLIT".toList then imageLine .blit operands
  else if mnemonic = "SET_PIXEL_REGION".toList then imageLine .blit operands
  else if mnemonic = "SET_FRAME_BUFFER".toList then imageLine .blit operands
  else if mnemonic = "READ_IMAGE".toList then plainLine .readImage operands
  else if mnemonic = "TO_IMAGE".toList then plainLine .readImage operands
  else if mnemonic = "READ_REG".toList then
    match operands with
    | [n] => (registerOf n).map .readReg
    | _ => none
  else if mnemonic = "READ_STATUS".toList then plainLine (.readReg 0) operands
  else if mnemonic = "RESET".toList then plainLine .reset operands
  else if mnemonic = "INIT".toList then
    match operands with
    | [p, g] => (flagOf p).bind fun p => (flagOf g).map fun g => .init p g
    | _ => none
  else if mnemonic = "SLEEP".toList then plainLine .sleep operands
  else if mnemonic = "WAIT_IDLE".toList then plainLine .waitIdle operands
  else if mnemonic = "SEND_COMMAND".toList then
    match operands with
    | [op8] => (fieldOf 8 op8).map .sendCommand
    | _ => none
  else if mnemonic = "SEND_DATA".toList then (payloadOf operands).map .sendData
  else if mnemonic = "SET_LUT".toList then
    match operands with
    | [cls] => (classOf cls).map .setLut
    | _ => none
  else if mnemonic = "FULL_SET_LUT".toList then plainLine (.setLut .full) operands
  else if mnemonic = "GRAY_SET_LUT".toList then plainLine (.setLut .gray) operands
  else if mnemonic = "PARTIAL_SET_LUT".toList then plainLine (.setLut .part) operands
  else if mnemonic = "DISPLAY_FULL".toList then plainLine .displayFull operands
  else if mnemonic = "DISPLAY_PARTIAL".toList then
    match operands with
    | [xs, ys, xe, ye] =>
      (fieldOf 16 xs).bind fun xs => (fieldOf 16 ys).bind fun ys => (fieldOf 16 xe).bind fun xe =>
      (fieldOf 16 ye).map fun ye => .displayPartial xs ys xe ye
    | _ => none
  else if mnemonic = "DRAW".toList then imageLine .draw operands
  else if mnemonic = "FILL".toList then
    match operands with
    | [color, bh] => (flagOf color).bind fun color => (fieldOf 16 bh).map fun bh => .fill color bh
    | _ => none
  else if mnemonic = "CLEAR".toList then
    match operands with
    | [color] => (flagOf color).map fun color => .fill color (BitVec.ofNat 16 c.height)
    | _ => none
  else none

/-- The operation of one assembler line for an instance with configuration `c`; `none` refuses the line. -/
def assemble (c : Cfg) (line : List Char) : Option Instr :=
  assembleOperands c ((line.dropWhile isBlank).takeWhile fun ch => !isBlank ch)
    (operandsOf ((line.dropWhile isBlank).dropWhile fun ch => !isBlank ch))

/-- The words of one assembler line (30_encoding.md R98). -/
def assembleLine (c : Cfg) (line : List Char) : Option (List Word) := (assemble c line).map encode

end Sys2Proof
end

