-- ==== Sys2Proof/Safety.lean ====
section
/-! DEFINITION. The terms in which statements about the block are made: what a run shows, the command
stream, what a descriptor records when it completes, a panel that answers idle, the rules of the event
log, and the invariant every step keeps. -/

namespace Sys2Proof.Machine

/-! ### What a run shows -/

/-- An item of the command stream (10_state.md R36). -/
inductive StreamItem where
  | cmd (b : Byte)
  | data (b : Byte)
  | delay (ms : Nat)
  | busyRead (b : Level)
  | busInit (s : Byte)
  deriving DecidableEq, Repr

/-- `cmdstream` of a part of the log that begins while `DC` is `dc` (10_state.md R36). -/
def cmdstreamFrom (dc : Level) : List Event → List StreamItem
  | [] => []
  | .pin .dc level :: rest => cmdstreamFrom level rest
  | .pin .rst _ :: rest => cmdstreamFrom dc rest
  | .pin .cs _ :: rest => cmdstreamFrom dc rest
  | .xfer bytes :: rest => bytes.map (if dc then .data else .cmd) ++ cmdstreamFrom dc rest
  | .delay ms :: rest => .delay ms :: cmdstreamFrom dc rest
  | .busyRead b :: rest => .busyRead b :: cmdstreamFrom dc rest
  | .busInit st :: rest => .busInit st :: cmdstreamFrom dc rest

/-- `cmdstream(log)` (10_state.md R36); `DC` is 0 at block reset (R47). -/
def cmdstream (log : List Event) : List StreamItem := cmdstreamFrom false log

/-- Whether an item is a byte on the link. -/
def StreamItem.onWire : StreamItem → Bool
  | .cmd _ => true
  | .data _ => true
  | .delay _ => false
  | .busyRead _ => false
  | .busInit _ => false

/-- The command and data bytes of a part of the log that begins while `DC` is `dc`. -/
def wireFrom (dc : Level) (events : List Event) : List StreamItem :=
  (cmdstreamFrom dc events).filter StreamItem.onWire

/-- What a run shows (00_scope.md R12). -/
structure Observation where
  fb : List Byte
  registers : List (Option Word)
  responses : List Response
  log : List Event
  deriving DecidableEq, Repr

/-- The observation of a state (00_scope.md R12). -/
def observe (s : State) : Observation where
  fb := fbBytes s.cfg s.fb
  registers := (List.range 6).map (registerWord s)
  responses := s.responses
  log := s.bus.log

/-- The end of a run (70_reset_and_hazards.md R242): the last supplied descriptor is finished. -/
def Ended (s : State) : Prop := s.inFlight = none ∧ s.ostate = .idle ∧ s.stream.length ≤ s.dp

/-! ### What a completed descriptor records -/

/-- The number of a result code, row by row of the table of 60_exceptions.md R200. The statements say a result
with this table and not with the model's own encoding, so that they hold the encoding to it. -/
def resultNumber : ResultCode → Nat
  | .ok => 0x00
  | .illegalOperation => 0x01
  | .unsupportedOnVariant => 0x02
  | .invalidState => 0x03
  | .invalidArgument => 0x04
  | .outOfBoundsWrite => 0x05
  | .outOfBoundsRead => 0x06
  | .busInitFailure => 0x07
  | .panelTimeout => 0x08

/-- The fields of the response's first word (30_encoding.md R94). -/
structure ResponseFields (r0 : Word) (opc : Byte) (pix : Bool) (code : ResultCode) : Prop where
  opc : r0.extractLsb' 24 8 = opc
  zero : r0.extractLsb' 9 15 = 0
  pix : r0.getLsbD 8 = pix
  result : r0.extractLsb' 0 8 = BitVec.ofNat 8 (resultNumber code)

/-- `t` is `s` after `Finish(code)` of a descriptor with OPC `opc` and length `len`
(60_exceptions.md R202): its bookkeeping, in the words of the spec. -/
structure Reported (opc : Byte) (len : Nat) (code : ResultCode) (pix : Bool) (data : List Word)
    (s t : State) : Prop where
  lastOpc : t.lastOpc = opc
  lastResult : t.lastResult = code
  sticky : ∀ k, k < 9 → t.errsticky.getLsbD k =
    (s.errsticky.getLsbD k || (decide (code ≠ .ok) && decide (k = resultNumber code)))
  ostate : t.ostate = .idle
  dp : t.dp = s.dp + len
  inFlight : t.inFlight = none
  response : ∃ r0, ResponseFields r0 opc pix code ∧ t.responses = s.responses ++ [⟨r0, data⟩]

/-- Nothing that a completion records differs: no descriptor was reported (60_exceptions.md R202). -/
structure NothingReported (s t : State) : Prop where
  lastOpc : t.lastOpc = s.lastOpc
  lastResult : t.lastResult = s.lastResult
  errsticky : t.errsticky = s.errsticky
  dp : t.dp = s.dp
  responses : t.responses = s.responses

/-- A descriptor with OPC `opc` and length `len` is still in flight, and nothing is reported (entry 5). -/
def StillInFlight (opc : Byte) (len : Nat) (s t : State) : Prop :=
  (∃ f, t.inFlight = some f ∧ f.opc = opc ∧ f.len = len) ∧ NothingReported s t

/-- Nothing of the panel protocol state differs (10_state.md section 4). -/
structure SamePanelState (s t : State) : Prop where
  pstate : t.pstate = s.pstate
  mode : t.mode = s.mode
  busyPending : t.busyPending = s.busyPending
  lutClass : t.lutClass = s.lutClass
  pcount : t.pcount = s.pcount

/-- Every framebuffer byte reads the same. -/
def SameFb (s t : State) : Prop := ∀ k, fbRead t.cfg t.fb k = fbRead s.cfg s.fb k

/-- What no operation ever writes: the configuration and the host's stream. -/
structure SameInputs (s t : State) : Prop where
  cfg : t.cfg = s.cfg
  stream : t.stream = s.stream

/-- `t` is `s` but for the bookkeeping of a descriptor that ended with `code`. -/
structure OnlyReported (opc : Byte) (len : Nat) (code : ResultCode) (s t : State) : Prop where
  reported : Reported opc len code false [] s t
  panel : SamePanelState s t
  fb : SameFb s t
  bus : t.bus = s.bus
  inputs : SameInputs s t

/-- `t` is `s` but for the bookkeeping of a descriptor that ended with OK and answered `data`. -/
structure OnlyAnswered (opc : Byte) (len : Nat) (data : List Word) (s t : State) : Prop where
  reported : Reported opc len .ok false data s t
  panel : SamePanelState s t
  fb : t.fb = s.fb
  bus : t.bus = s.bus
  inputs : SameInputs s t

/-- What an operation that drives the panel link leaves alone there: the reset line, the status draws, and
chip-select, which it deasserts again (41_panel_protocol.md R130). -/
structure LinkFrame (s t : State) : Prop where
  rst : t.bus.rst = s.bus.rst
  cs : s.bus.cs = true → t.bus.cs = true
  statusIn : t.bus.statusIn = s.bus.statusIn
  statusDrawn : t.bus.statusDrawn = s.bus.statusDrawn

/-! ### The six registers -/

/-- The fields of STATUS, register 0 (10_state.md R37), with the codes of R26, R27, R30 and of 60_exceptions.md
R200. -/
structure StatusFields (s : State) (v : Word) : Prop where
  pstate : v.extractLsb' 0 3 = (match s.pstate with
    | .uninitialized => 0#3
    | .resetting => 1#3
    | .initialized => 2#3
    | .sleeping => 3#3)
  mode : v.extractLsb' 3 2 = (match s.mode with
    | .blackWhite => 0#2
    | .gray4 => 1#2
    | .partialFast => 2#2)
  partialMode : v.getLsbD 5 = decide (s.mode = .partialFast)
  busyPending : v.getLsbD 6 = s.busyPending
  reserved7 : v.getLsbD 7 = false
  lastOpc : v.extractLsb' 8 8 = s.lastOpc
  lastResult : v.extractLsb' 16 8 = BitVec.ofNat 8 (resultNumber s.lastResult)
  lutClass : v.extractLsb' 24 2 = (match s.lutClass with
    | some .full => 0#2
    | some .part => 1#2
    | some .gray => 2#2
    | none => 3#2)
  reserved26 : v.extractLsb' 26 6 = 0

/-- The fields of CONFIG, register 1 (10_state.md R38). -/
structure ConfigFields (c : Cfg) (v : Word) : Prop where
  variant : v.getLsbD 0 = decide (c.variant = .v2)
  chunking : v.getLsbD 1 = decide (c.chunkings.get c.variant = .perByte)
  idleLevel : v.getLsbD 2 = c.idleLevels.get c.variant
  initFill : v.getLsbD 3 = decide (c.initFills.get c.variant = .white)
  reserved4 : v.extractLsb' 4 4 = 0
  pollDelay : (v.extractLsb' 8 8).toNat = c.pollDelayMs
  forceFull : (v.extractLsb' 16 16).toNat = c.forceFullEvery

/-- The fields of PCOUNT, register 2 (10_state.md R39). -/
structure PcountFields (s : State) (v : Word) : Prop where
  pcount : v.extractLsb' 0 16 = s.pcount
  reserved16 : v.extractLsb' 16 16 = 0

/-- The fields of ERRSTICKY, register 3 (10_state.md R40). -/
structure ErrstickyFields (s : State) (v : Word) : Prop where
  errsticky : v.extractLsb' 0 9 = s.errsticky
  reserved9 : v.extractLsb' 9 23 = 0

/-- The fields of GEOMETRY, register 4 (10_state.md R41). -/
structure GeometryFields (c : Cfg) (v : Word) : Prop where
  width : (v.extractLsb' 16 16).toNat = c.width
  height : (v.extractLsb' 0 16).toNat = c.height

/-- BUDGET, register 5 (10_state.md R42). -/
structure BudgetFields (c : Cfg) (v : Word) : Prop where
  unbounded : c.busyBudget = none → v = 0xFFFFFFFF
  finite : ∀ b, c.busyBudget = some b → v.toNat = b ∧ b ≤ 0xFFFFFFFE

/-- `v` is the register of number `n` of the state (10_state.md R37 to R42); there is none from 6 on. -/
def RegisterFields (s : State) (n : Nat) (v : Word) : Prop :=
  match n with
  | 0 => StatusFields s v
  | 1 => ConfigFields s.cfg v
  | 2 => PcountFields s v
  | 3 => ErrstickyFields s v
  | 4 => GeometryFields s.cfg v
  | 5 => BudgetFields s.cfg v
  | _ => False

/-- The reserved bits of `w0` for each listed OPC, as 30_encoding.md R82 to R89 name them. -/
def reservedBits : List (Byte × Word) :=
  [(0x01, 0x00FEFFFF), (0x02, 0x00FFFFFF), (0x03, 0x00FFFFFF), (0x04, 0x00FFFFFF), (0x05, 0x00FF0000),
   (0x10, 0x00FFFFFF), (0x11, 0x00FCFFFF), (0x12, 0x00FFFFFF), (0x13, 0x00FFFFFF), (0x14, 0x00FFFF00),
   (0x15, 0x00FF0000), (0x16, 0x00FCFFFF), (0x20, 0x00FFFFFF), (0x21, 0x00FFFFFF), (0x22, 0x00FFFFFF),
   (0x23, 0x00FE0000)]

/-! ### The panel's answers -/

/-- The events of `k` reads of the busy level, each followed by the poll delay (41_panel_protocol.md
R133). -/
def busyPolls (c : Cfg) (k : Nat) : List Event :=
  (List.replicate k [Event.busyRead (!c.idleLevel), Event.delay c.pollDelayMs]).flatten

/-- The events of one bus transaction (41_panel_protocol.md R130). -/
def transactionEvents (dc : Level) (bytes : List Byte) : List Event :=
  [.pin .dc dc, .pin .cs false, .xfer bytes, .pin .cs true]

/-- The events of the reset pulse (41_panel_protocol.md R135). -/
def pulseEvents (seq : List (Level × Nat)) : List Event :=
  seq.flatMap fun e => [.pin .rst e.1, .delay e.2]

/-- A poll that reads the busy level `k` times and then the idle level is within the budget
(41_panel_protocol.md R133). -/
def withinBudget (c : Cfg) (k : Nat) : Prop := ∀ b, c.busyBudget = some b → k ≤ b

/-- The next `n` BUSY levels are queued and idle. -/
def PanelReady (n : Nat) (s : State) : Prop :=
  n ≤ s.bus.busyIn.length ∧ ∀ l ∈ s.bus.busyIn.take n, l = s.cfg.idleLevel

/-- The bytes of a protocol step on the link (41_panel_protocol.md R134). -/
def stepWire : ProtoStep → List StreamItem
  | .cmd op8 => [.cmd op8]
  | .data bytes => bytes.map .data
  | .delay _ => []
  | .waitIdle => []

/-- The events of a data payload under the instance's chunking (41_panel_protocol.md R132). -/
def dataEvents (c : Cfg) (bytes : List Byte) : List Event :=
  match bytes with
  | [] => []
  | _ :: _ =>
    match c.chunkings.get c.variant with
    | .whole => transactionEvents true bytes
    | .perByte => bytes.flatMap fun b => transactionEvents true [b]

/-- Every event of a protocol step list, started with `busy_pending` as given, when each read of BUSY answers the
idle level (41_panel_protocol.md R131 to R134): a command byte after a pending busy state is preceded by
one read, a WaitIdle step is one read, and a Delay step is one delay. -/
def stepsEvents (c : Cfg) : Bool → List ProtoStep → List Event
  | _, [] => []
  | pending, .cmd op8 :: rest =>
    (if pending then [.busyRead c.idleLevel] else []) ++ transactionEvents false [op8] ++
      stepsEvents c (decide (op8 ∈ c.p.busyTriggering)) rest
  | pending, .data bytes :: rest => dataEvents c bytes ++ stepsEvents c pending rest
  | pending, .delay ms :: rest => [.delay ms] ++ stepsEvents c pending rest
  | _, .waitIdle :: rest => [.busyRead c.idleLevel] ++ stepsEvents c false rest

/-- The protocol steps of `ProgramLut(class)`: the five pairs (41_panel_protocol.md R136). -/
def lutSteps (t : V1Table) (cls : LutClass) : List ProtoStep :=
  [.cmd t.opLut.vcom, .data (t.lut.get cls).vcom, .cmd t.opLut.ww, .data (t.lut.get cls).ww,
   .cmd t.opLut.bw, .data (t.lut.get cls).bw, .cmd t.opLut.wb, .data (t.lut.get cls).wb,
   .cmd t.opLut.bb, .data (t.lut.get cls).bb]

/-- The LUT that INIT programs in mode `m`, V1 only (41_panel_protocol.md R141). -/
def initLutSteps (c : Cfg) (m : Mode) : List ProtoStep :=
  match c.p.variantTable with
  | .v1 t => lutSteps t (if m = .gray4 then .gray else .full)
  | .v2 => []

/-- The phases of a transmission (42_refresh.md R180). -/
def transmissionPhases (c : Cfg) : List OState :=
  [.commandPrimary] ++ (if c.variant = .v1 then [.commandSecondary] else []) ++
    [.refreshTrigger, .busyWait, .idle]

/-- The protocol steps of each phase of `DisplayFullI`, started with `lut_class = lut` in mode `m`, for the frame
`bytes` (42_refresh.md R174, R180). -/
def fullPhaseSteps (c : Cfg) (m : Mode) (lut : Option LutClass) (bytes : List Byte) : OState → List ProtoStep
  | .idle => []
  | .bufferWrite => []
  | .commandPrimary =>
    (match c.p.variantTable with
      | .v1 t =>
        if lut = some (if m = .gray4 then .gray else .full) then []
        else lutSteps t (if m = .gray4 then .gray else .full)
      | .v2 => []) ++
    c.p.fullPrep ++ [.cmd c.p.opRamPrimary, .data bytes]
  | .commandSecondary =>
    match c.p.variantTable with
    | .v1 t => [.cmd t.opRamSecondary, .data bytes]
    | .v2 => []
  | .refreshTrigger => c.p.fullTrigger
  | .busyWait => [.waitIdle]

/-- The protocol steps of each phase of `DisplayPartialI`, for the sent window `win` and its bytes; the epilogue
comes after the wait (42_refresh.md R175, R180). -/
def partialPhaseSteps (c : Cfg) (win : Window) (bytes : List Byte) : OState → List ProtoStep
  | .idle => []
  | .bufferWrite => []
  | .commandPrimary =>
    (match c.p.variantTable with
      | .v1 t => lutSteps t .part
      | .v2 => []) ++
    c.p.partialPrep ++ c.p.partialWindow.eval win ++ [.cmd c.p.opRamPrimary, .data bytes]
  | .commandSecondary =>
    match c.p.variantTable with
    | .v1 t => [.cmd t.opRamSecondary, .data (bytes.map fun b => ~~~b)]
    | .v2 => []
  | .refreshTrigger => c.p.partialTrigger
  | .busyWait => [.waitIdle] ++ c.p.partialEpilogue

/-- The protocol steps of a transmission, phase after phase (42_refresh.md R180). -/
def phasedSteps (c : Cfg) (steps : OState → List ProtoStep) : List ProtoStep :=
  (transmissionPhases c).flatMap steps

/-- The frame of a state, byte by byte (42_refresh.md R174). -/
def frameBytesSpec (c : Cfg) (m : Memory) : List Byte :=
  (List.range (c.width / 8 * c.height)).map (fbRead c m)

/-- The bytes of a window, rows outer and byte columns inner (42_refresh.md R173): row `ys + i`, byte column
`xs/8 + j`. -/
def windowBytesSpec (c : Cfg) (m : Memory) (win : Window) : List Byte :=
  (List.range (win.ye - win.ys)).flatMap fun i =>
    (List.range ((win.xe - win.xs) / 8)).map fun j =>
      fbRead c m ((win.ys + i) * (c.width / 8) + (win.xs / 8 + j))

/-- `busy_pending` after a step list during which the panel answers idle (41_panel_protocol.md R131, R133). -/
def pendingAfterSteps (c : Cfg) : Bool → List ProtoStep → Bool
  | pending, [] => pending
  | _, .cmd op8 :: rest => pendingAfterSteps c (decide (op8 ∈ c.p.busyTriggering)) rest
  | pending, .data _ :: rest => pendingAfterSteps c pending rest
  | pending, .delay _ :: rest => pendingAfterSteps c pending rest
  | _, .waitIdle :: rest => pendingAfterSteps c false rest

/-- At most so many polls are made by a full transmission: five LUT commands, two banks, the wait, and one for
each protocol step (42_refresh.md R174). -/
def fullPolls (c : Cfg) : Nat := c.p.fullPrep.length + c.p.fullTrigger.length + 8

/-- At most so many polls are made by a windowed transmission (42_refresh.md R175). -/
def partialPolls (c : Cfg) (win : Window) : Nat :=
  c.p.partialPrep.length + (c.p.partialWindow.eval win).length + c.p.partialTrigger.length +
    c.p.partialEpilogue.length + 8

/-- The DRAWs of a FILL from row `y` on, each ended with OK, lead from `s` to `u` (42_refresh.md R179). -/
inductive DrawsBands (color : Bool) (bh : Nat) : Nat → State → State → Prop where
  | done (y : Nat) (s : State) (h : s.cfg.height ≤ y) : DrawsBands color bh y s s
  | band (y : Nat) (s t u : State) (hy : y < s.cfg.height)
      (hd : exec (.draw 0 (BitVec.ofNat 16 y) (BitVec.ofNat 16 s.cfg.width)
        (BitVec.ofNat 16 (min bh (s.cfg.height - y)))
        (solidImage s.cfg.width (min bh (s.cfg.height - y)) color)) s = .next t)
      (hf : t.inFlight = none) (hr : t.lastResult = .ok)
      (hrest : DrawsBands color bh (y + min bh (s.cfg.height - y)) t u) : DrawsBands color bh y s u

/-- The phase an action enters. -/
def Act.phase : Act → Option OState
  | .setOState o => some o
  | _ => none

/-- The protocol step that an action is. -/
def Act.protoStep : Act → Option ProtoStep
  | .cmd op8 => some (.cmd op8)
  | .data bytes => some (.data bytes)
  | .delay ms => some (.delay ms)
  | .waitIdle => some .waitIdle
  | _ => none

/-- `t` holds a transmission with the phases `steps` that began at `s` (42_refresh.md R180): `ostate` is one of its
phases, the bytes on the link are those of the earlier phases and then of the part `done` of this one, and what
is left is the rest of this phase and then the later ones. -/
def HeldInPhase (steps : OState → List ProtoStep) (acts : List Act) (s t : State) : Prop :=
  ∃ before after done rest ev,
    transmissionPhases s.cfg = before ++ t.ostate :: after ∧
    steps t.ostate = done ++ rest ∧ rest ≠ [] ∧
    t.bus.log = s.bus.log ++ ev ∧
    wireFrom s.bus.dc ev = (before.flatMap steps ++ done).flatMap stepWire ∧
    acts.filterMap Act.phase = after ∧
    acts.filterMap Act.protoStep = rest ++ after.flatMap steps

/-- `t` ended a transmission with the phases `steps` that began at `s`: whatever the panel answered on the way,
the bytes on the link are those of the phases in their order (42_refresh.md R180). -/
def EndedPhases (steps : OState → List ProtoStep) (s t : State) : Prop :=
  ∃ ev, t.bus.log = s.bus.log ++ ev ∧ wireFrom s.bus.dc ev = (phasedSteps s.cfg steps).flatMap stepWire

/-- The operations that can end with PanelTimeout (60_exceptions.md R210). -/
def pollingOpcodes : List Byte := [0x14, 0x13, 0x11, 0x12, 0x16, 0x20, 0x21, 0x22, 0x23]

/-! ### Rules of the event log -/

/-- The level a pin has after the events, from the level before them (10_state.md R33). -/
def levelAfter (p : Pin) : Level → List Event → Level
  | level, [] => level
  | level, .pin q l :: rest => levelAfter p (if q = p then l else level) rest
  | level, .xfer _ :: rest => levelAfter p level rest
  | level, .busyRead _ :: rest => levelAfter p level rest
  | level, .delay _ :: rest => levelAfter p level rest
  | level, .busInit _ :: rest => levelAfter p level rest

/-- No command byte is transferred while the panel may be busy (70_reset_and_hazards.md R234): `pending`
is set by the reset line and by a busy-triggering command byte, and cleared by a read of the idle
level. -/
def interlockHolds (c : Cfg) : Bool → Level → List Event → Bool
  | _, _, [] => true
  | pending, _, .pin .dc level :: rest => interlockHolds c pending level rest
  | _, dc, .pin .rst _ :: rest => interlockHolds c true dc rest
  | pending, dc, .pin .cs _ :: rest => interlockHolds c pending dc rest
  | pending, dc, .xfer bytes :: rest =>
    if dc then interlockHolds c pending dc rest
    else !pending && interlockHolds c (bytes.any c.triggersBusy) dc rest
  | pending, dc, .busyRead b :: rest =>
    interlockHolds c (pending && decide (b ≠ c.idleLevel)) dc rest
  | pending, dc, .delay _ :: rest => interlockHolds c pending dc rest
  | pending, dc, .busInit _ :: rest => interlockHolds c pending dc rest

/-- Whether the panel may be busy after the events, as `interlockHolds` follows it (70_reset_and_hazards.md
R234). -/
def pendingAfter (c : Cfg) : Bool → Level → List Event → Bool
  | pending, _, [] => pending
  | pending, _, .pin .dc level :: rest => pendingAfter c pending level rest
  | _, dc, .pin .rst _ :: rest => pendingAfter c true dc rest
  | pending, dc, .pin .cs _ :: rest => pendingAfter c pending dc rest
  | pending, dc, .xfer bytes :: rest =>
    if dc then pendingAfter c pending dc rest else pendingAfter c (bytes.any c.triggersBusy) dc rest
  | pending, dc, .busyRead b :: rest => pendingAfter c (pending && decide (b ≠ c.idleLevel)) dc rest
  | pending, dc, .delay _ :: rest => pendingAfter c pending dc rest
  | pending, dc, .busInit _ :: rest => pendingAfter c pending dc rest

/-- The events are whole transactions and, between them, events that are no part of one. A transaction is the four
events of 41_panel_protocol.md R130 with nothing in between: DC, chip-select 0, one transfer that is not empty,
chip-select 1. -/
inductive Framed : List Event → Prop where
  | nil : Framed []
  | transaction (dc : Level) (bytes : List Byte) (rest : List Event) (hb : bytes ≠ []) (h : Framed rest) :
      Framed (transactionEvents dc bytes ++ rest)
  | rst (level : Level) (rest : List Event) (h : Framed rest) : Framed (.pin .rst level :: rest)
  | busyRead (b : Level) (rest : List Event) (h : Framed rest) : Framed (.busyRead b :: rest)
  | delay (ms : Nat) (rest : List Event) (h : Framed rest) : Framed (.delay ms :: rest)
  | busInit (st : Byte) (rest : List Event) (h : Framed rest) : Framed (.busInit st :: rest)

/-! ### From one step to the next -/

/-- The step from `s` to `t` enters Sleeping, which clears `busy_pending` (41_panel_protocol.md R142). -/
def EntersSleep (s t : State) : Prop := s.pstate ≠ .sleeping ∧ t.pstate = .sleeping

/-- A run of steps none of which enters Sleeping. -/
inductive StepsAwake : State → State → Prop where
  | refl (s : State) : StepsAwake s s
  | step (s t u : State) (h : step s = .next t) (hs : ¬ EntersSleep s t) (rest : StepsAwake t u) :
      StepsAwake s u

/-- The free BUSY levels from draw `a` on, up to draw `b` (entry 4). -/
def freeLevels (a b : Nat) : List Level := (List.range (b - a)).map fun k => Config.freeBusy (a + k)

/-- `s` with the BUSY levels `queued` to come, and after them the free levels from draw `drawn` on. -/
def State.withLevels (queued : List Level) (drawn : Nat) (s : State) : State :=
  { s with
    bus := { s.bus with
      busyIn := queued
      busyDrawn := drawn } }

/-- `s` with the levels queued that it had, then the free levels it drew on the way to `t`, then `more`: the panel
answers as it did up to `t`, and then `more`. -/
def answeredUpTo (s t : State) (more : List Level) : State :=
  s.withLevels (s.bus.busyIn ++ freeLevels s.bus.busyDrawn t.bus.busyDrawn ++ more) t.bus.busyDrawn

/-! ### The invariant -/

/-- `lut_class` is programmed by this action. -/
def Act.programsLut : Act → Bool
  | .setLut (some _) => true
  | _ => false

/-- The action enters Initialized or Sleeping. -/
def Act.entersPState : Act → Bool
  | .enterMode _ => true
  | .enterSleep => true
  | _ => false

/-- What holds of an operation in flight. -/
structure InFlight.Ok (s : State) (f : InFlight) : Prop where
  /-- Only a poll without a budget holds (70_reset_and_hazards.md R238). -/
  unbounded : s.cfg.busyBudget = none
  /-- V2 programs no LUT (10_state.md R30). -/
  lutOfV1 : s.cfg.variant = .v2 → ∀ a ∈ f.acts, a.programsLut = false
  /-- Every rectangle still to be written lies in the buffer (10_state.md R24). -/
  bandsInside : ∀ b ∈ f.bands, inBoundsRect s.cfg b.x b.y b.w b.h = true
  /-- INIT's pulse came before its first poll (41_panel_protocol.md R141). -/
  pulseDone : Act.resetPulse ∉ f.acts
  /-- Only INIT, after its pulse, enters Initialized (10_state.md R48). -/
  modeByInit : ∀ m, Act.enterMode m ∈ f.acts → f.opc = 0x11 ∧ s.pstate = .resetting
  /-- Only SLEEP, from Initialized, enters Sleeping (10_state.md R48). -/
  sleepBySleep : Act.enterSleep ∈ f.acts → f.opc = 0x12 ∧ s.pstate = .initialized
  /-- Entering a state is the last thing an operation does (41_panel_protocol.md R141, R142). -/
  entersLast : ∀ a ∈ f.acts.dropLast, a.entersPState = false
  /-- INIT and SLEEP draw nothing. -/
  entersAlone : (∃ a ∈ f.acts, a.entersPState = true) → f.bands = []

/-- The invariant every step keeps. -/
structure Inv (s : State) : Prop where
  /-- The framebuffer is in its canonical form. -/
  fbCanonical : Memory.wf s.cfg.fillByte s.fb = true
  /-- Every write to FB landed below N_FB (10_state.md R24). -/
  fbInside : Memory.below s.cfg.fbSize s.fb = true
  /-- "Bit 0 is always 0" (10_state.md R35). -/
  stickyBit0 : s.errsticky.getLsbD 0 = false
  /-- The last error is sticky (10_state.md R35). -/
  stickyLast : s.lastResult ≠ .ok → s.errsticky.getLsbD (resultNumber s.lastResult) = true
  /-- "For V2 it is always 3" (10_state.md R30). -/
  lutOfV2 : s.cfg.variant = .v2 → s.lutClass = none
  /-- "The host sees `ostate = Idle` only" (10_state.md R32). -/
  restIdle : s.inFlight = none → s.ostate = .idle
  /-- Chip-select is deasserted between operations (41_panel_protocol.md R130). -/
  csHigh : s.bus.cs = true
  /-- The reset line is high between operations (00_scope.md R9). -/
  rstHigh : s.bus.rst = true
  /-- The latches hold the last level written to each pin (10_state.md R33, R47). -/
  rstLatch : s.bus.rst = levelAfter .rst true s.bus.log
  dcLatch : s.bus.dc = levelAfter .dc false s.bus.log
  csLatch : s.bus.cs = levelAfter .cs true s.bus.log
  /-- An operation in flight is one that a poll without a budget holds. -/
  flight : ∀ f, s.inFlight = some f → InFlight.Ok s f

end Sys2Proof.Machine
end

