-- ==== Sys2Proof/Certificates/Slice0/Obligations.lean ====
section
/-! DEFINITION. The statements about the block, from the numbered rules of the spec. "This configuration is
valid" (`s.cfg.valid`) and "the framebuffer is canonical" (`Memory.wf`) are the only premises about the
state that no rule names; the second is part of the invariant `Inv`, which every step keeps
(`Obligations.StepKeepsInvariant`). The queues `busyIn` and `statusIn` are the model's form of the free draws
(entry 4). -/

open Sys2Proof Sys2Proof.Machine

/-! ### Encoding -/

/-- The encoding examples of 30_encoding.md R100: each line's words, as the assembler and the encoder give them,
and the operation the decoder reads from them. -/
def Obligations.EncodingExamples : Prop :=
  (assembleLine testCfg "SET_PIXEL 3, 0, 1".toList = some [0x01010000, 0x00030000] ∧
    encode (.setPixel true 3 0) = [0x01010000, 0x00030000] ∧ decode [0x01010000, 0x00030000] = .ok (.setPixel true 3 0) 2) ∧
  (assembleLine testCfg "INIT 1, 0".toList = some [0x11010000] ∧
    encode (.init true false) = [0x11010000] ∧ decode [0x11010000] = .ok (.init true false) 1) ∧
  (assembleLine testCfg "FILL 1, 128".toList = some [0x23010080] ∧
    encode (.fill true 128) = [0x23010080] ∧ decode [0x23010080] = .ok (.fill true 128) 1) ∧
  (assembleLine testCfg "DISPLAY_PARTIAL 3, 10, 20, 12".toList = some [0x21000000, 0x0003000A, 0x0014000C] ∧
    encode (.displayPartial 3 10 20 12) = [0x21000000, 0x0003000A, 0x0014000C] ∧ decode [0x21000000, 0x0003000A, 0x0014000C] = .ok (.displayPartial 3 10 20 12) 3) ∧
  (assembleLine testCfg ("DRAW 8, 8, 8, 8, ".toList ++ List.replicate 64 '0') = some [0x22000000, 0x00080008, 0x00080008, 0, 0] ∧
    encode (.draw 8 8 8 8 [0, 0]) = [0x22000000, 0x00080008, 0x00080008, 0, 0] ∧ decode [0x22000000, 0x00080008, 0x00080008, 0, 0] = .ok (.draw 8 8 8 8 [0, 0]) 5) ∧
  (assembleLine testCfg "SEND_DATA 0x12, 0x34, 0x56".toList = some [0x15000003, 0x12345600] ∧
    encode (.sendData [0x12, 0x34, 0x56]) = [0x15000003, 0x12345600] ∧ decode [0x15000003, 0x12345600] = .ok (.sendData [0x12, 0x34, 0x56]) 2) ∧
  (assembleLine testCfg "SEND_COMMAND 0x12".toList = some [0x14000012] ∧
    encode (.sendCommand 0x12) = [0x14000012] ∧ decode [0x14000012] = .ok (.sendCommand 0x12) 1) ∧
  (assembleLine testCfg "READ_REG STATUS".toList = some [0x05000000] ∧
    encode (.readReg 0) = [0x05000000] ∧ decode [0x05000000] = .ok (.readReg 0) 1)

/-- Every well-formed operation, with every operand, decodes from its encoding, whatever words follow
(30_encoding.md sections 2 and 3). -/
def Obligations.DecodeOfEncode : Prop :=
  ∀ (i : Instr) (rest : List Word), i.wellFormed = true →
    decode (encode i ++ rest) = .ok i (lengthOf i)

/-- Every legal descriptor is the encoding of the operation it decodes to, so no bit of it is ignored
(30_encoding.md sections 2 and 4). -/
def Obligations.EncodeOfDecode : Prop :=
  ∀ (words : List Word) (i : Instr) (len : Nat), decode words = .ok i len →
    i.wellFormed = true ∧ len = lengthOf i ∧ words.take len = encode i

/-- 30_encoding.md R92: a reserved OPC. -/
def Obligations.ReservedOpcodeHasNoEffect : Prop :=
  ∀ (s : State) (w0 : Word) (rest : List Word), s.cfg.valid = true → s.inFlight = none →
    s.stream.drop s.dp = w0 :: rest →
    ((opcOf w0).toNat = 0x00 ∨ (0x06 ≤ (opcOf w0).toNat ∧ (opcOf w0).toNat ≤ 0x0F) ∨
      (0x17 ≤ (opcOf w0).toNat ∧ (opcOf w0).toNat ≤ 0x1F) ∨ 0x24 ≤ (opcOf w0).toNat) →
    ∃ t, step s = .next t ∧ OnlyReported (opcOf w0) 1 .illegalOperation s t

/-- The four cases of a listed OPC that is illegal all the same (30_encoding.md section 4). The descriptor is
`w0` and the operand words `ops`, as many as its format's length asks for. -/
def Obligations.IllegalFieldHasNoEffect : Prop :=
  ∀ (s : State) (w0 : Word) (ops rest : List Word), s.cfg.valid = true → s.inFlight = none →
    s.stream.drop s.dp = w0 :: (ops ++ rest) → descriptorLength w0 ops = some (ops.length + 1) →
    ((∃ mask, (opcOf w0, mask) ∈ reservedBits ∧ w0 &&& mask ≠ 0) ∨
      ((opcOf w0 = 0x03 ∨ opcOf w0 = 0x22) ∧
        ∃ k, (hiOf (ops.getD 1 0)).toNat * (loOf (ops.getD 1 0)).toNat ≤ k ∧
          k < 32 * (ops.drop 2).length ∧ imageBit (ops.drop 2) k = true) ∨
      (opcOf w0 = 0x15 ∧ ∃ k, (immOf w0).toNat ≤ k ∧ k < 4 * ops.length ∧ dataByte ops k ≠ 0) ∨
      (opcOf w0 = 0x16 ∧ (fOf w0).extractLsb' 0 2 = 3#2) ∨
      (opcOf w0 = 0x05 ∧ 6 ≤ (immOf w0).toNat)) →
    ∃ t, step s = .next t ∧ OnlyReported (opcOf w0) (ops.length + 1) .illegalOperation s t

/-- A stream that ends before or inside a descriptor leaves the Engine waiting, and nothing changes
(30_encoding.md section 3; a step that changes nothing is the model's form of waiting, entry 6). -/
def Obligations.IncompleteDescriptorWaits : Prop :=
  ∀ (s : State), s.cfg.valid = true → s.inFlight = none →
    (s.stream.drop s.dp = [] ∨
      ∃ w0 rest, s.stream.drop s.dp = w0 :: rest ∧
        ∀ len, descriptorLength w0 rest = some len → rest.length + 1 < len) →
    step s = .next s

/-- A step runs the descriptor at DP: the words of a well-formed operation standing there make the step
that operation (10_state.md section 2, 20_memory.md section 4). -/
def Obligations.StepRunsDecoded : Prop :=
  ∀ (s : State) (i : Instr) (len : Nat), s.cfg.valid = true → s.inFlight = none →
    decode (s.stream.drop s.dp) = .ok i len → step s = exec i s

/-- An instruction placed by `withFetchWord` is the next one that runs, in any state (the model's host
interface, entry 14). -/
def Obligations.PlacedWordRunsNext : Prop :=
  ∀ (s : State) (nbits w : Nat) (i : Instr), s.cfg.valid = true → decodeTableWord nbits w = some i →
    step (s.withFetchWord nbits w) = exec i (s.withFetchWord nbits w)

/-- Bytes of a byte-wide host bus make words: for every word, its four bytes in the order of HOST_BYTE_ORDER append
that word. The spec says only that the byte order is HOST_BYTE_ORDER and that no rule reads a descriptor
byte-wise (20_memory.md section 2); that the first byte is the most significant one under BIG and the least
significant one under LITTLE is the model's choice (entry 8). -/
def Obligations.HostBytesMakeWords : Prop :=
  ∀ (s : State) (w : Word),
    (s.cfg.hostByteOrder = .big →
      (hostSendBytes [w.extractLsb' 24 8, w.extractLsb' 16 8, w.extractLsb' 8 8, w.extractLsb' 0 8] s).stream
        = s.stream ++ [w]) ∧
    (s.cfg.hostByteOrder = .little →
      (hostSendBytes [w.extractLsb' 0 8, w.extractLsb' 8 8, w.extractLsb' 16 8, w.extractLsb' 24 8] s).stream
        = s.stream ++ [w])

/-! ### Reset and the whole machine -/

/-- 10_state.md R47: block reset, for every configuration. -/
def Obligations.BlockResetValues : Prop :=
  ∀ c : Cfg,
    (State.resetWith c).cfg = c ∧
    (∀ k, k < c.fbSize → fbRead c (State.resetWith c).fb k = (c.initFills.get c.variant).byte) ∧
    (State.resetWith c).pstate = .uninitialized ∧ (State.resetWith c).mode = .blackWhite ∧
    (State.resetWith c).busyPending = false ∧ (State.resetWith c).lutClass = none ∧
    (State.resetWith c).pcount = 0 ∧ (State.resetWith c).ostate = .idle ∧
    (State.resetWith c).bus.rst = true ∧ (State.resetWith c).bus.dc = false ∧
    (State.resetWith c).bus.cs = true ∧ (State.resetWith c).lastOpc = 0x00 ∧
    resultNumber (State.resetWith c).lastResult = 0x00 ∧ (State.resetWith c).errsticky = 0 ∧
    (State.resetWith c).dp = 0 ∧ (State.resetWith c).bus.log = []

/-- The invariant holds after block reset of every instance. -/
def Obligations.ResetMeetsInvariant : Prop := ∀ c : Cfg, c.valid = true → Inv (State.resetWith c)

/-- Every step keeps the invariant: FB in its canonical form and inside N_FB, bit 0 of ERRSTICKY 0, the last
error sticky, no LUT class on V2, `ostate` Idle at rest, chip-select and the reset line high at rest, the
latches equal to the last levels in the log, and what an operation in flight may still do. -/
def Obligations.StepKeepsInvariant : Prop :=
  ∀ s t : State, Inv s → step s = .next t → Inv t

/-- No step stops the block: every state of an instance has a next state, and only a configuration that
describes no instance is refused (00_scope.md section 4, 60_exceptions.md section 4). The cited sections say it of
an Engine that executes descriptors. That an Engine that waits for words, or stands at the end of the stream, has
a next state (the same one) is the model's form of waiting (entry 6), and that a held poll has one is its form of
the unbounded wait (entry 5). -/
def Obligations.NothingStopsTheBlock : Prop :=
  ∀ s : State, (s.cfg.valid = true → ∃ t, step s = .next t) ∧
    (s.cfg.valid = false → step s = .refused .invalidConfig)

/-- A step only adds: DP never falls, the log and the responses only grow, no sticky bit is cleared, and the
configuration and the host's words stay (10_state.md sections 2 and 5). -/
def Obligations.StepOnlyAdds : Prop :=
  ∀ s t : State, step s = .next t →
    SameInputs s t ∧ s.dp ≤ t.dp ∧ (∃ ev, t.bus.log = s.bus.log ++ ev) ∧
    (∃ rs, t.responses = s.responses ++ rs) ∧
    (∀ k, k < 9 → s.errsticky.getLsbD k = true → t.errsticky.getLsbD k = true)

/-- What every completed operation records, whatever its result (10_state.md section 5), and when an operation
is not completed: one held by a poll without a budget records nothing yet (the model's form of the
infinite run, entry 5). -/
def Obligations.EveryDescriptorReportsOnce : Prop :=
  ∀ (i : Instr) (s t : State), exec i s = .next t →
    (∃ code pix data, Reported (opcodeOf i) (lengthOf i) code pix data s t) ∨
    (s.cfg.busyBudget = none ∧ StillInFlight (opcodeOf i) (lengthOf i) s t)

/-- What a step reports (60_exceptions.md section 2, 20_memory.md section 4). One that continues an operation in
flight reports that operation, with the OPC and length it has, or keeps it in flight and reports nothing; one
that finds a descriptor at DP reports it with its own OPC and length, or leaves it in flight and reports
nothing; an illegal descriptor is reported as IllegalOperation; and where no descriptor stands complete,
nothing changes. The in-flight form is the model's (entry 5). -/
def Obligations.StepReportsAtMostOnce : Prop :=
  ∀ s t : State, step s = .next t →
    match s.inFlight with
    | some f =>
      (∃ code, (code = .ok ∨ code = .panelTimeout) ∧ Reported f.opc f.len code false [] s t) ∨
        StillInFlight f.opc f.len s t
    | none =>
      match decode (s.stream.drop s.dp) with
      | .ok i len =>
        (∃ code pix data, Reported (opcodeOf i) len code pix data s t) ∨ StillInFlight (opcodeOf i) len s t
      | .illegal _ opc len => Reported opc len .illegalOperation false [] s t
      | .truncated => t = s

/-- `pstate` changes only by a reset pulse, the end of INIT, the end of SLEEP from Initialized, or
PanelTimeout (10_state.md section 8), over one step from every state that meets the invariant. -/
def Obligations.PStateTransitions : Prop :=
  ∀ s t : State, Inv s → step s = .next t → t.pstate ≠ s.pstate →
    (t.pstate = .resetting ∧
      (t.lastOpc = 0x10 ∨ t.lastOpc = 0x11 ∨ t.lastResult = .panelTimeout ∨
        ∃ f, t.inFlight = some f ∧ f.opc = 0x11)) ∨
    (t.pstate = .initialized ∧ t.lastOpc = 0x11 ∧ t.lastResult = .ok ∧ t.inFlight = none) ∨
    (t.pstate = .sleeping ∧ s.pstate = .initialized ∧ t.lastOpc = 0x12 ∧ t.lastResult = .ok ∧
      t.inFlight = none)

/-- The busy interlock (70_reset_and_hazards.md section 3), over one step and over any run of steps. In the events a
step adds, no command byte is transferred while a reset pulse or a busy-triggering command has not been followed
by a read of the idle level; and if one has not been by the end of the step, `busy_pending` is set there, so that
the next step starts from it. Only the entry into Sleeping clears it without a read (41_panel_protocol.md section
2). So over a run of steps none of which enters Sleeping, no command byte in all its events is transferred while
the panel may be busy. -/
def Obligations.NoCommandWhileBusy : Prop :=
  (∀ s t : State, Inv s → step s = .next t →
    ∃ ev, t.bus.log = s.bus.log ++ ev ∧ interlockHolds s.cfg s.busyPending s.bus.dc ev = true ∧
      t.bus.dc = levelAfter .dc s.bus.dc ev ∧
      (pendingAfter s.cfg s.busyPending s.bus.dc ev = true → t.busyPending = true ∨ EntersSleep s t)) ∧
  ∀ s t : State, Inv s → StepsAwake s t →
    ∃ ev, t.bus.log = s.bus.log ++ ev ∧ interlockHolds s.cfg s.busyPending s.bus.dc ev = true

/-- The events a step adds are whole transactions, DC, chip-select 0, one transfer that is not empty and chip-select
1 with nothing in between, and events that are no part of one; and chip-select is deasserted at the end of the
step (41_panel_protocol.md section 1). -/
def Obligations.TransfersAreFramed : Prop :=
  ∀ s t : State, s.bus.cs = true → step s = .next t →
    ∃ ev, t.bus.log = s.bus.log ++ ev ∧ Framed ev ∧ t.bus.cs = true

/-- Under PER_BYTE no transfer carries more than one byte (70_reset_and_hazards.md section 3). -/
def Obligations.PerByteTransfersOneByte : Prop :=
  ∀ s t : State, s.cfg.chunking = .perByte → step s = .next t →
    ∃ ev, t.bus.log = s.bus.log ++ ev ∧ ∀ bytes, Event.xfer bytes ∈ ev → bytes.length = 1

/-- When the panel answers changes none of this: two states that differ only in the BUSY levels to come, and in
how the log went before, both finish the same operation with OK. Then the framebuffer, the panel protocol
state, the responses, DP, the sticky bits and the levels of the control lines are the same, and so are the
command and data bytes put on the link. Nothing is said of the other events of the log (delays, BUSY reads,
writes of the pins). -/
def Obligations.PollTimingIsInvisible : Prop :=
  ∀ (i : Instr) (s t s' t' : State),
    s' = { s with bus := { s.bus with
      log := s'.bus.log, busyIn := s'.bus.busyIn, busyDrawn := s'.bus.busyDrawn } } →
    exec i s = .next t → exec i s' = .next t' →
    t.inFlight = none → t'.inFlight = none → t.lastResult = .ok → t'.lastResult = .ok →
    t'.fb = t.fb ∧ SamePanelState t t' ∧ t'.responses = t.responses ∧ t'.dp = t.dp ∧
    t'.errsticky = t.errsticky ∧
    t'.bus.rst = t.bus.rst ∧ t'.bus.dc = t.bus.dc ∧ t'.bus.cs = t.bus.cs ∧
    ∃ ev ev', t.bus.log = s.bus.log ++ ev ∧ t'.bus.log = s'.bus.log ++ ev' ∧
      wireFrom s.bus.dc ev = wireFrom s.bus.dc ev'

/-- Only SET_PIXEL, BLIT, DRAW and FILL change the framebuffer (20_memory.md section 1). -/
def Obligations.OnlyFourOperationsWriteFb : Prop :=
  ∀ (i : Instr) (s t : State), exec i s = .next t → t.fb ≠ s.fb →
    (∃ v x y, i = .setPixel v x y) ∨ (∃ x y w h img, i = .blit x y w h img) ∨
    (∃ x y w h img, i = .draw x y w h img) ∨ ∃ color bh, i = .fill color bh

/-- The framebuffer operations and READ_REG touch neither the panel link nor the control lines, nor the panel
protocol state (40_framebuffer.md, opening). -/
def Obligations.FramebufferOperationsLeaveThePanel : Prop :=
  ∀ (i : Instr) (s t : State),
    (opcodeOf i = 0x01 ∨ opcodeOf i = 0x02 ∨ opcodeOf i = 0x03 ∨ opcodeOf i = 0x04 ∨ opcodeOf i = 0x05) →
    exec i s = .next t → t.bus = s.bus ∧ SamePanelState s t ∧ SameInputs s t

/-! ### Errors -/

/-- 60_exceptions.md R205: InvalidState. On V2, SET_LUT is UnsupportedOnVariant first (R211). -/
def Obligations.InvalidStateRefuses : Prop :=
  ∀ (i : Instr) (s : State), s.pstate ≠ .initialized →
    (i = .sleep ∨ (s.cfg.variant = .v1 ∧ ∃ c, i = .setLut c) ∨ i = .displayFull ∨
      (∃ xs ys xe ye, i = .displayPartial xs ys xe ye) ∨ (∃ x y w h img, i = .draw x y w h img) ∨
      ∃ color bh, i = .fill color bh) →
    ∃ t, exec i s = .next t ∧ OnlyReported (opcodeOf i) (lengthOf i) .invalidState s t

/-- 60_exceptions.md R204: UnsupportedOnVariant, both causes, in every `pstate`. -/
def Obligations.UnsupportedVariantRefuses : Prop :=
  (∀ (s : State) (c : LutClass), s.cfg.variant = .v2 →
    ∃ t, exec (.setLut c) s = .next t ∧ OnlyReported 0x16 1 .unsupportedOnVariant s t) ∧
  (∀ (s : State) (part gray : Bool), ¬(part = true ∧ gray = true) →
    s.cfg.initSeq (if gray then .gray4 else if part then .partialFast else .blackWhite) = none →
    ∃ t, exec (.init part gray) s = .next t ∧ OnlyReported 0x11 1 .unsupportedOnVariant s t)

/-- 60_exceptions.md R206: InvalidArgument, its four causes; the last three are looked at in Initialized. -/
def Obligations.InvalidArgumentRefuses : Prop :=
  ∀ s : State,
    (∃ t, exec (.init true true) s = .next t ∧ OnlyReported 0x11 1 .invalidArgument s t) ∧
    (s.pstate = .initialized →
      (∀ xs ys xe ye : Half,
        ¬(xs.toNat < s.cfg.width ∧ xs.toNat ≤ xe.toNat ∧ xe.toNat ≤ s.cfg.width ∧
          ys.toNat < ye.toNat ∧ ye.toNat ≤ s.cfg.height) →
        ∃ t, exec (.displayPartial xs ys xe ye) s = .next t ∧
          OnlyReported 0x21 3 .invalidArgument s t) ∧
      (∀ (x y w h : Half) (img : List Word), w = 0 ∨ h = 0 →
        ∃ t, exec (.draw x y w h img) s = .next t ∧ OnlyReported 0x22 3 .invalidArgument s t) ∧
      (∀ color : Bool,
        ∃ t, exec (.fill color 0) s = .next t ∧ OnlyReported 0x23 1 .invalidArgument s t))

/-- 60_exceptions.md R207: OutOfBoundsWrite; nothing is written. The sums are those of naturals, so none
wraps. -/
def Obligations.OutOfBoundsWriteRefuses : Prop :=
  ∀ (s : State) (x y : Half),
    (∀ v : Bool, s.cfg.width ≤ x.toNat ∨ s.cfg.height ≤ y.toNat →
      ∃ t, exec (.setPixel v x y) s = .next t ∧ OnlyReported 0x01 2 .outOfBoundsWrite s t) ∧
    (∀ (w h : Half) (img : List Word),
      s.cfg.width < x.toNat + w.toNat ∨ s.cfg.height < y.toNat + h.toNat →
      (∃ t, exec (.blit x y w h img) s = .next t ∧
        OnlyReported 0x03 (3 + (w.toNat * h.toNat + 31) / 32) .outOfBoundsWrite s t) ∧
      (s.pstate = .initialized → w ≠ 0 → h ≠ 0 →
        ∃ t, exec (.draw x y w h img) s = .next t ∧
          OnlyReported 0x22 (3 + (w.toNat * h.toNat + 31) / 32) .outOfBoundsWrite s t))

/-- 60_exceptions.md R208: OutOfBoundsRead, with PIX 0. -/
def Obligations.OutOfBoundsReadRefuses : Prop :=
  ∀ (s : State) (x y : Half), s.cfg.width ≤ x.toNat ∨ s.cfg.height ≤ y.toNat →
    ∃ t, exec (.getPixel x y) s = .next t ∧ OnlyReported 0x02 2 .outOfBoundsRead s t

/-- 60_exceptions.md R209: BusInitFailure. The one event is BUSINIT(s); the pins and everything else stay. -/
def Obligations.BusInitFailureAborts : Prop :=
  ∀ (s : State) (part gray : Bool) (st : Byte) (rest : List Byte), ¬(part = true ∧ gray = true) →
    s.cfg.initSeq (if gray then .gray4 else if part then .partialFast else .blackWhite) ≠ none →
    s.bus.statusIn = st :: rest → st ≠ 0 →
    ∃ t, exec (.init part gray) s = .next t ∧ Reported 0x11 1 .busInitFailure false [] s t ∧
      SamePanelState s t ∧ t.fb = s.fb ∧ SameInputs s t ∧
      t.bus = { s.bus with log := s.bus.log ++ [.busInit st], statusIn := rest }

/-- What an operation that ends with an error leaves (60_exceptions.md sections 3 and 4). Results other than OK and
PanelTimeout are precise: apart from the bookkeeping, and the BUSINIT event of BusInitFailure, nothing differs.
PanelTimeout can be the result of nine operations and no others. It leaves `pstate` Resetting and `busy_pending`
1, and everything done before the failing poll remains: the log ends with that poll, a LUT programming that was
cut short (of INIT and SET_LUT) leaves `lut_class` NONE, the pixels of a DRAW are written, and so are the bands of
FILL up to the one whose transmission failed. No other operation has written FB, and only earlier bands of a
FILL have changed `pcount`. -/
def Obligations.ErrorsArePrecise : Prop :=
  ∀ (i : Instr) (s t : State), exec i s = .next t → t.inFlight = none →
    (t.lastResult ≠ .ok → t.lastResult ≠ .panelTimeout →
      t.fb = s.fb ∧ SamePanelState s t ∧ SameInputs s t ∧
      t.bus.rst = s.bus.rst ∧ t.bus.dc = s.bus.dc ∧ t.bus.cs = s.bus.cs ∧
      t.bus.log = s.bus.log ++
        (if t.lastResult = .busInitFailure then [.busInit s.bus.nextStatus] else [])) ∧
    (t.lastResult = .panelTimeout →
      opcodeOf i ∈ pollingOpcodes ∧
      t.pstate = .resetting ∧ t.busyPending = true ∧ t.mode = s.mode ∧ SameInputs s t ∧
      (∃ budget ev, s.cfg.busyBudget = some budget ∧
        t.bus.log = s.bus.log ++ ev ++ busyPolls s.cfg budget ++ [.busyRead (!s.cfg.idleLevel)]) ∧
      (opcodeOf i = 0x11 ∨ opcodeOf i = 0x16 → t.lutClass = none) ∧
      (opcodeOf i ≠ 0x23 → t.pcount = s.pcount) ∧
      (opcodeOf i ≠ 0x22 → opcodeOf i ≠ 0x23 → t.fb = s.fb) ∧
      (s.cfg.valid = true → Memory.wf s.cfg.fillByte s.fb = true →
        (∀ x y w h img, i = .draw x y w h img → ∀ px py, px < s.cfg.width → py < s.cfg.height →
          pixelOf t.cfg t.fb px py =
            if x.toNat ≤ px ∧ px < x.toNat + w.toNat ∧ y.toNat ≤ py ∧ py < y.toNat + h.toNat then
              imgBit img w.toNat (px - x.toNat) (py - y.toNat)
            else pixelOf s.cfg s.fb px py) ∧
        ∀ color bh, i = .fill color bh →
          ∃ n, 1 ≤ n ∧ (n - 1) * bh.toNat < s.cfg.height ∧
            ∀ px py, px < s.cfg.width → py < s.cfg.height →
              pixelOf t.cfg t.fb px py = if py < n * bh.toNat then color else pixelOf s.cfg s.fb px py))

/-- A finite budget: WAIT_IDLE reads the busy level BUSY_BUDGET + 1 times, delays BUSY_BUDGET times, and ends
with PanelTimeout (41_panel_protocol.md section 1, 60_exceptions.md section 3). -/
def Obligations.WaitIdleTimesOut : Prop :=
  ∀ (s : State) (budget : Nat) (rest : List Level), s.cfg.busyBudget = some budget →
    s.bus.busyIn = List.replicate (budget + 1) (!s.cfg.idleLevel) ++ rest →
    ∃ t, exec .waitIdle s = .next t ∧ Reported 0x13 1 .panelTimeout false [] s t ∧
      t.pstate = .resetting ∧ t.busyPending = true ∧ t.mode = s.mode ∧ t.lutClass = s.lutClass ∧
      t.pcount = s.pcount ∧ t.fb = s.fb ∧ SameInputs s t ∧
      t.bus = { s.bus with
        log := s.bus.log ++ busyPolls s.cfg budget ++ [.busyRead (!s.cfg.idleLevel)], busyIn := rest }

/-- WAIT_IDLE completes when the idle level comes within the budget, or at all under UNBOUNDED
(41_panel_protocol.md sections 1 and 2). -/
def Obligations.WaitIdleCompletes : Prop :=
  ∀ (s : State) (k : Nat) (rest : List Level), withinBudget s.cfg k →
    s.bus.busyIn = List.replicate k (!s.cfg.idleLevel) ++ s.cfg.idleLevel :: rest →
    ∃ t, exec .waitIdle s = .next t ∧ Reported 0x13 1 .ok false [] s t ∧
      t.busyPending = false ∧ t.pstate = s.pstate ∧ t.mode = s.mode ∧ t.lutClass = s.lutClass ∧
      t.pcount = s.pcount ∧ t.fb = s.fb ∧ SameInputs s t ∧
      t.bus = { s.bus with
        log := s.bus.log ++ busyPolls s.cfg k ++ [.busyRead s.cfg.idleLevel], busyIn := rest }

/-- Under UNBOUNDED no step raises PanelTimeout (60_exceptions.md section 3). -/
def Obligations.UnboundedNeverTimesOut : Prop :=
  ∀ s t : State, s.cfg.busyBudget = none → step s = .next t →
    t.errsticky.getLsbD 8 = s.errsticky.getLsbD 8 ∧
    (t.lastResult = .panelTimeout → t = s ∨ (t.lastResult = s.lastResult ∧ t.responses = s.responses))

/-- Under UNBOUNDED a WAIT_IDLE whose queued levels are all busy reads them all and one free level more: if
that is idle it completes, and if not it is held, with no response and no end
(70_reset_and_hazards.md section 3; where a step stops reading is the model's choice, entry 5). It holds
for either value of the free level. -/
def Obligations.UnboundedPollIsHeld : Prop :=
  ∀ (s : State) (k : Nat), s.cfg.busyBudget = none →
    s.bus.busyIn = List.replicate k (!s.cfg.idleLevel) →
    ∃ t, exec .waitIdle s = .next t ∧ t.fb = s.fb ∧ SameInputs s t ∧
      t.bus.busyIn = [] ∧ t.bus.busyDrawn = s.bus.busyDrawn + 1 ∧
      if Config.freeBusy s.bus.busyDrawn = s.cfg.idleLevel then
        Reported 0x13 1 .ok false [] s t ∧ t.busyPending = false ∧
        t.bus.log = s.bus.log ++ busyPolls s.cfg k ++ [.busyRead s.cfg.idleLevel]
      else
        t.inFlight = some ⟨0x13, 1, [.waitIdle], []⟩ ∧ t.dp = s.dp ∧ t.responses = s.responses ∧
        SamePanelState s t ∧ t.bus.log = s.bus.log ++ busyPolls s.cfg (k + 1)

/-- A held operation (70_reset_and_hazards.md section 3; the holding is the model's form of the unbounded wait, entry
5). A step that does not end it reads the busy level at least once more and answers nothing: the run goes on
without an end state. Once the panel answers idle, for as many reads as what is left can make, the next step ends
it with OK. And the hold leaves no trace: a step that goes on with a held operation, whatever levels `more` the
panel then answers, is the uninterrupted step, or exec of the operation, from where it began, with the levels it
has read so far and then `more`. The whole of both states is the same, FB, panel state, response, log and what is
still in flight. The levels read are those that were queued, all of them, and the free ones after them. -/
def Obligations.HeldOperationKeepsPolling : Prop :=
  (∀ s t : State, Inv s → s.inFlight ≠ none → step s = .next t → t.inFlight ≠ none →
    NothingReported s t ∧
    ∃ ev, t.bus.log = s.bus.log ++ ev ∧ Event.busyRead (!s.cfg.idleLevel) ∈ ev) ∧
  (∀ (s : State) (f : InFlight) (n : Nat), s.cfg.valid = true → s.inFlight = some f →
    (∀ win, partialPolls s.cfg win ≤ n) →
    PanelReady (f.acts.length + f.bands.length * (fullPolls s.cfg + n)) s →
    ∃ t, step s = .next t ∧ Reported f.opc f.len .ok false [] s t) ∧
  (∀ (s t : State) (more : List Level), step s = .next t → t.inFlight ≠ none →
    t.bus.busyIn = [] ∧ step (t.withLevels more t.bus.busyDrawn) = step (answeredUpTo s t more)) ∧
  ∀ (i : Instr) (s t : State) (more : List Level), s.cfg.valid = true → exec i s = .next t → t.inFlight ≠ none →
    t.bus.busyIn = [] ∧ step (t.withLevels more t.bus.busyDrawn) = exec i (answeredUpTo s t more)

/-! ### Framebuffer operations -/

/-- SET_PIXEL inside the buffer: that pixel, as bit `7 - (x mod 8)` of byte `y*(WIDTH/8) + x div 8`, and no
other bit of any byte; nothing else but the bookkeeping (40_framebuffer.md section 2). -/
def Obligations.SetPixelWritesOneBit : Prop :=
  ∀ (s : State) (v : Bool) (x y : Half), s.cfg.valid = true → Memory.wf s.cfg.fillByte s.fb = true →
    x.toNat < s.cfg.width → y.toNat < s.cfg.height →
    ∃ t, exec (.setPixel v x y) s = .next t ∧ Reported 0x01 2 .ok false [] s t ∧
      SamePanelState s t ∧ t.bus = s.bus ∧ SameInputs s t ∧
      ∀ k i, i < 8 → (fbRead t.cfg t.fb k).getLsbD i =
        if k = y.toNat * (s.cfg.width / 8) + x.toNat / 8 ∧ i = 7 - x.toNat % 8 then v
        else (fbRead s.cfg s.fb k).getLsbD i

/-- GET_PIXEL inside the buffer answers the pixel's bit and changes nothing (40_framebuffer.md section 2). -/
def Obligations.GetPixelReadsOneBit : Prop :=
  ∀ (s : State) (x y : Half), x.toNat < s.cfg.width → y.toNat < s.cfg.height →
    ∃ t, exec (.getPixel x y) s = .next t ∧
      Reported 0x02 2 .ok
        ((fbRead s.cfg s.fb (y.toNat * (s.cfg.width / 8) + x.toNat / 8)).getLsbD (7 - x.toNat % 8)) [] s t ∧
      SamePanelState s t ∧ t.bus = s.bus ∧ t.fb = s.fb ∧ SameInputs s t

/-- BLIT inside the buffer: every pixel of the rectangle takes its image bit, every other bit of FB keeps its
value, and nothing else changes but the bookkeeping (40_framebuffer.md sections 1 and 2). A zero-area
image inside the buffer writes nothing. -/
def Obligations.BlitWritesItsRectangle : Prop :=
  ∀ (s : State) (x y w h : Half) (img : List Word), s.cfg.valid = true →
    Memory.wf s.cfg.fillByte s.fb = true →
    x.toNat + w.toNat ≤ s.cfg.width → y.toNat + h.toNat ≤ s.cfg.height →
    ∃ t, exec (.blit x y w h img) s = .next t ∧
      Reported 0x03 (3 + (w.toNat * h.toNat + 31) / 32) .ok false [] s t ∧
      SamePanelState s t ∧ t.bus = s.bus ∧ SameInputs s t ∧
      (∀ px py, px < s.cfg.width → py < s.cfg.height →
        pixelOf t.cfg t.fb px py =
          if x.toNat ≤ px ∧ px < x.toNat + w.toNat ∧ y.toNat ≤ py ∧ py < y.toNat + h.toNat then
            imgBit img w.toNat (px - x.toNat) (py - y.toNat)
          else pixelOf s.cfg s.fb px py) ∧
      ∀ k, s.cfg.fbSize ≤ k → fbRead t.cfg t.fb k = fbRead s.cfg s.fb k

/-- READ_IMAGE answers `ceil(WIDTH*HEIGHT/32)` words, word `m` holding FB bytes `4m .. 4m+3` with the first
one most significant and 0 past the end, and changes nothing (40_framebuffer.md section 2). -/
def Obligations.ReadImageReturnsFb : Prop :=
  ∀ s : State, s.cfg.valid = true →
    ∃ t data, exec .readImage s = .next t ∧ Reported 0x04 1 .ok false data s t ∧
      SamePanelState s t ∧ t.bus = s.bus ∧ t.fb = s.fb ∧ SameInputs s t ∧
      data.length = (s.cfg.width * s.cfg.height + 31) / 32 ∧
      ∀ k, k < 4 * data.length →
        dataByte data k = if k < s.cfg.fbSize then fbRead s.cfg s.fb k else 0

/-- 10_state.md R37: STATUS, field by field, as the READ_REG finds it, before its own completion, and its value
after block reset of every instance. -/
def Obligations.ReadStatusFields : Prop :=
  (∀ c : Cfg, ∃ t, exec (.readReg 0) (State.resetWith c) = .next t ∧
    Reported 0x05 1 .ok false [0x03000000] (State.resetWith c) t) ∧
  ∀ s : State, ∃ t v, exec (.readReg 0) s = .next t ∧ OnlyAnswered 0x05 1 [v] s t ∧ StatusFields s v

/-- 10_state.md R38, R41, R42: the registers hardwired from Cfg, field by field. -/
def Obligations.ReadHardwiredRegisters : Prop :=
  ∀ s : State, s.cfg.valid = true →
    (∃ t v, exec (.readReg 1) s = .next t ∧ OnlyAnswered 0x05 1 [v] s t ∧ ConfigFields s.cfg v) ∧
    (∃ t v, exec (.readReg 4) s = .next t ∧ OnlyAnswered 0x05 1 [v] s t ∧ GeometryFields s.cfg v) ∧
    ∃ t v, exec (.readReg 5) s = .next t ∧ OnlyAnswered 0x05 1 [v] s t ∧ BudgetFields s.cfg v

/-- 10_state.md R39 and R40: PCOUNT and ERRSTICKY, with their values after block reset, and bit `k` of ERRSTICKY
for result code `k`: after a step that completes a descriptor with an error, READ_REG 3 answers the bits before
it with the one of that code set. 40_framebuffer.md R117: READ_REG, from its encoding on. Number `n` stands in
IMM; the six numbers answer their register as it was before this descriptor's own completion, in every
`pstate`, a second READ_REG 0 shows the first one, and every other number is IllegalOperation with no other
effect. -/
def Obligations.ReadCountersAndReserved : Prop :=
  (∀ c : Cfg,
    (∃ t, exec (.readReg 0) (State.resetWith c) = .next t ∧
      Reported 0x05 1 .ok false [0x03000000] (State.resetWith c) t) ∧
    (∃ t, exec (.readReg 2) (State.resetWith c) = .next t ∧
      Reported 0x05 1 .ok false [0] (State.resetWith c) t) ∧
    ∃ t, exec (.readReg 3) (State.resetWith c) = .next t ∧
      Reported 0x05 1 .ok false [0] (State.resetWith c) t) ∧
  (∀ (n : Half) (rest : List Word),
    decode ((0x0500#16 ++ n) :: rest) =
      if n.toNat < 6 then .ok (.readReg n) 1 else .illegal .reservedField 0x05 1) ∧
  (∀ (s : State) (n : Half),
    (n.toNat < 6 → (n.toNat = 1 ∨ n.toNat = 4 ∨ n.toNat = 5 → s.cfg.valid = true) →
      ∃ t v, exec (.readReg n) s = .next t ∧ OnlyAnswered 0x05 1 [v] s t ∧ RegisterFields s n.toNat v) ∧
    (6 ≤ n.toNat →
      ∃ t, exec (.readReg n) s = .next t ∧ OnlyReported 0x05 1 .illegalOperation s t)) ∧
  (∀ s t : State, exec (.readReg 0) s = .next t →
    ∃ u v, exec (.readReg 0) t = .next u ∧ OnlyAnswered 0x05 1 [v] t u ∧
      v.extractLsb' 8 8 = 0x05 ∧ v.extractLsb' 16 8 = 0) ∧
  ∀ s t : State, step s = .next t → s.dp < t.dp → t.lastResult ≠ .ok →
    ∃ u v, exec (.readReg 3) t = .next u ∧ OnlyAnswered 0x05 1 [v] t u ∧
      ∀ k, k < 9 → v.getLsbD k = (s.errsticky.getLsbD k || decide (k = resultNumber t.lastResult))

/-- 40_framebuffer.md R118: the pixel round trip, alone and with a SET_PIXEL of another pixel in between. -/
def Obligations.PixelRoundTrip : Prop :=
  ∀ (s : State) (v : Bool) (x y : Half), s.cfg.valid = true → Memory.wf s.cfg.fillByte s.fb = true →
    x.toNat < s.cfg.width → y.toNat < s.cfg.height →
    ∃ s1, exec (.setPixel v x y) s = .next s1 ∧
      (∃ s2, exec (.getPixel x y) s1 = .next s2 ∧ Reported 0x02 2 .ok v [] s1 s2) ∧
      ∀ (v' : Bool) (x' y' : Half), (x', y') ≠ (x, y) →
        ∃ s2, exec (.setPixel v' x' y') s1 = .next s2 ∧
          ∃ s3, exec (.getPixel x y) s2 = .next s3 ∧ Reported 0x02 2 .ok v [] s2 s3

/-- 40_framebuffer.md R119: the whole-image round trip, both ways. -/
def Obligations.ImageRoundTrip : Prop :=
  ∀ (s : State) (w h : Half), s.cfg.valid = true → Memory.wf s.cfg.fillByte s.fb = true →
    Memory.below s.cfg.fbSize s.fb = true → w.toNat = s.cfg.width → h.toNat = s.cfg.height →
    (∀ img : List Word, (Instr.blit 0 0 w h img).wellFormed = true →
      ∃ s1, exec (.blit 0 0 w h img) s = .next s1 ∧
        ∃ s2, exec .readImage s1 = .next s2 ∧ Reported 0x04 1 .ok false img s1 s2) ∧
    (∃ s1 img, exec .readImage s = .next s1 ∧ Reported 0x04 1 .ok false img s s1 ∧
      ∃ s2, exec (.blit 0 0 w h img) s1 = .next s2 ∧ s2.lastResult = .ok ∧ s2.fb = s.fb)

/-! ### Panel protocol operations -/

/-- RESET: the pulse's events, the latches, and the three writes; the rest stays (41_panel_protocol.md
sections 1 and 2). -/
def Obligations.ResetPulses : Prop :=
  ∀ s : State, ∃ t, exec .reset s = .next t ∧ Reported 0x10 1 .ok false [] s t ∧
    t.bus.log = s.bus.log ++ pulseEvents s.cfg.p.resetSeq ∧
    (∀ level ms, s.cfg.p.resetSeq.getLast? = some (level, ms) → t.bus.rst = level) ∧
    t.busyPending = true ∧ t.lutClass = none ∧ t.pstate = .resetting ∧
    t.mode = s.mode ∧ t.pcount = s.pcount ∧ t.fb = s.fb ∧ SameInputs s t ∧
    t.bus.dc = s.bus.dc ∧ t.bus.cs = s.bus.cs ∧ t.bus.busyIn = s.bus.busyIn ∧
    t.bus.busyDrawn = s.bus.busyDrawn ∧ t.bus.statusIn = s.bus.statusIn ∧
    t.bus.statusDrawn = s.bus.statusDrawn

/-- SEND_COMMAND with no busy state pending: one command transaction, and `busy_pending` set exactly by a
busy-triggering opcode (41_panel_protocol.md sections 1 and 2). -/
def Obligations.SendCommandCompletes : Prop :=
  ∀ (s : State) (op8 : Byte), s.busyPending = false →
    ∃ t, exec (.sendCommand op8) s = .next t ∧ Reported 0x14 1 .ok false [] s t ∧
      t.busyPending = decide (op8 ∈ s.cfg.p.busyTriggering) ∧ t.pstate = s.pstate ∧ t.mode = s.mode ∧
      t.lutClass = s.lutClass ∧ t.pcount = s.pcount ∧ t.fb = s.fb ∧ SameInputs s t ∧
      t.bus = { s.bus with log := s.bus.log ++ transactionEvents false [op8], dc := false, cs := true }

/-- SEND_COMMAND with a busy state pending: the interlock's poll comes first; the byte is sent after the idle
level, and not at all if the budget runs out (41_panel_protocol.md sections 1 and 2). -/
def Obligations.SendCommandWaitsForIdle : Prop :=
  ∀ (s : State) (op8 : Byte), s.busyPending = true →
    (∀ (k : Nat) (rest : List Level), withinBudget s.cfg k →
      s.bus.busyIn = List.replicate k (!s.cfg.idleLevel) ++ s.cfg.idleLevel :: rest →
      ∃ t, exec (.sendCommand op8) s = .next t ∧ Reported 0x14 1 .ok false [] s t ∧
        t.busyPending = decide (op8 ∈ s.cfg.p.busyTriggering) ∧ t.pstate = s.pstate ∧
        t.mode = s.mode ∧ t.lutClass = s.lutClass ∧ t.pcount = s.pcount ∧ t.fb = s.fb ∧
        SameInputs s t ∧
        t.bus = { s.bus with
          log := s.bus.log ++ busyPolls s.cfg k ++ [.busyRead s.cfg.idleLevel] ++
            transactionEvents false [op8]
          dc := false, cs := true, busyIn := rest }) ∧
    (∀ (budget : Nat) (rest : List Level), s.cfg.busyBudget = some budget →
      s.bus.busyIn = List.replicate (budget + 1) (!s.cfg.idleLevel) ++ rest →
      ∃ t, exec (.sendCommand op8) s = .next t ∧ Reported 0x14 1 .panelTimeout false [] s t ∧
        t.pstate = .resetting ∧ t.busyPending = true ∧ t.mode = s.mode ∧ t.lutClass = s.lutClass ∧
        t.pcount = s.pcount ∧ t.fb = s.fb ∧ SameInputs s t ∧
        t.bus = { s.bus with
          log := s.bus.log ++ busyPolls s.cfg budget ++ [.busyRead (!s.cfg.idleLevel)], busyIn := rest })

/-- 41_panel_protocol.md R132, through SEND_DATA, with the framing of R130: no bus activity for an empty
payload, one transaction for all of it under WHOLE, one for each byte under PER_BYTE; for one byte the
two are the same. -/
def Obligations.SendDataCompletes : Prop :=
  ∀ (s : State) (bytes : List Byte),
    ∃ t, exec (.sendData bytes) s = .next t ∧
      Reported 0x15 (1 + (bytes.length + 3) / 4) .ok false [] s t ∧
      SamePanelState s t ∧ t.fb = s.fb ∧ SameInputs s t ∧
      (bytes = [] → t.bus = s.bus) ∧
      (bytes ≠ [] →
        t.bus = { s.bus with
          log := s.bus.log ++
            (match s.cfg.chunkings.get s.cfg.variant with
              | .whole => transactionEvents true bytes
              | .perByte => bytes.flatMap fun b => transactionEvents true [b])
          dc := true, cs := true })

/-- INIT completes when the status is 0 and the panel answers idle: BUSINIT(0), the pulse, and then every event of
the mode's step list and, on V1, of the LUT of the mode's class; `mode`, `pstate`, `pcount` and `lut_class` as
the rule says; FB and the rest stay (41_panel_protocol.md section 2). -/
def Obligations.InitCompletes : Prop :=
  ∀ (s : State) (part gray : Bool) (m : Mode) (steps : List ProtoStep) (rest : List Byte),
    ¬(part = true ∧ gray = true) →
    m = (if gray then .gray4 else if part then .partialFast else .blackWhite) →
    s.cfg.initSeq m = some steps → s.bus.statusIn = 0 :: rest → PanelReady (steps.length + 5) s →
    ∃ t, exec (.init part gray) s = .next t ∧ Reported 0x11 1 .ok false [] s t ∧
      t.pstate = .initialized ∧ t.mode = m ∧ t.pcount = 0 ∧
      t.lutClass = (if s.cfg.variant = .v1 then some (if gray then .gray else .full) else none) ∧
      t.busyPending = (match s.cfg.p.variantTable with
        | .v1 table => decide (table.opLut.bb ∈ s.cfg.p.busyTriggering)
        | .v2 => pendingAfterSteps s.cfg true steps) ∧
      t.fb = s.fb ∧ SameInputs s t ∧ t.bus.statusIn = rest ∧ t.bus.statusDrawn = s.bus.statusDrawn ∧
      (s.bus.cs = true → t.bus.cs = true) ∧
      t.bus.log = s.bus.log ++ [.busInit 0] ++ pulseEvents s.cfg.p.resetSeq ++
        stepsEvents s.cfg true (steps ++ initLutSteps s.cfg m)

/-- SLEEP completes from Initialized when the panel answers idle: every event of SLEEP_SEQ, and the entry into
Sleeping (41_panel_protocol.md section 2). -/
def Obligations.SleepCompletes : Prop :=
  ∀ s : State, s.pstate = .initialized → PanelReady s.cfg.p.sleepSeq.length s →
    ∃ t, exec .sleep s = .next t ∧ Reported 0x12 1 .ok false [] s t ∧
      t.pstate = .sleeping ∧ t.busyPending = false ∧ t.mode = s.mode ∧ t.lutClass = s.lutClass ∧
      t.pcount = s.pcount ∧ t.fb = s.fb ∧ SameInputs s t ∧ LinkFrame s t ∧
      t.bus.log = s.bus.log ++ stepsEvents s.cfg s.busyPending s.cfg.p.sleepSeq

/-- SET_LUT completes on V1 from Initialized when the panel answers idle: every event of the five pairs of the
class (41_panel_protocol.md section 2). -/
def Obligations.SetLutCompletes : Prop :=
  ∀ (s : State) (cls : LutClass) (table : V1Table), s.cfg.p.variantTable = .v1 table →
    s.pstate = .initialized → PanelReady 5 s →
    ∃ t, exec (.setLut cls) s = .next t ∧ Reported 0x16 1 .ok false [] s t ∧
      t.lutClass = some cls ∧ t.busyPending = decide (table.opLut.bb ∈ s.cfg.p.busyTriggering) ∧
      t.pstate = s.pstate ∧ t.mode = s.mode ∧ t.pcount = s.pcount ∧
      t.fb = s.fb ∧ SameInputs s t ∧ LinkFrame s t ∧
      t.bus.log = s.bus.log ++ stepsEvents s.cfg s.busyPending (lutSteps table cls)

/-! ### Refresh operations -/

/-- 42_refresh.md R182: the snapping laws, and the clamp's. -/
def Obligations.SnapLaws : Prop :=
  ∀ (c : Cfg) (xs ys xe ye : Nat), xs ≤ xe →
    (snap xs xe).1 ≤ xs ∧ xe < (snap xs xe).2 ∧ (snap xs xe).1 % 8 = 0 ∧ (snap xs xe).2 % 8 = 0 ∧
    (snap xs xe).1 < (snap xs xe).2 ∧
    (xe ≤ c.width → xe ≤ (sentWindow c ⟨xs, ys, xe, ye⟩).xe)

/-- 42_refresh.md R172: the window sent to the panel. -/
def Obligations.SentWindowLaws : Prop :=
  ∀ (c : Cfg) (win : Window), c.valid = true → win.xs < c.width → win.xs ≤ win.xe → win.xe ≤ c.width →
    win.ys < win.ye → win.ye ≤ c.height →
    sentWindow c win = ⟨win.xs - win.xs % 8, win.ys, min (win.xe - win.xe % 8 + 8) c.width, win.ye⟩ ∧
    (sentWindow c win).xs % 8 = 0 ∧ (sentWindow c win).xe % 8 = 0 ∧ (sentWindow c win).xs ≤ win.xs ∧
    (sentWindow c win).xs < (sentWindow c win).xe ∧
    ((sentWindow c win).xe ≠ (snap win.xs win.xe).2 ↔ win.xe = c.width)

/-- DISPLAY_FULL completes from Initialized when the panel answers idle, with every event of its phases: the LUT
restore on V1, the frame to the primary and, on V1, the same bytes to the secondary bank, the triggers and the
wait; and `pcount` cleared (42_refresh.md sections 2 and 3). -/
def Obligations.DisplayFullCompletes : Prop :=
  ∀ s : State, s.pstate = .initialized →
    PanelReady (fullPolls s.cfg) s →
    ∃ t, exec .displayFull s = .next t ∧ Reported 0x20 1 .ok false [] s t ∧
      t.pcount = 0 ∧ t.busyPending = false ∧ t.pstate = s.pstate ∧ t.mode = s.mode ∧
      t.lutClass = (if s.cfg.variant = .v1 then some (if s.mode = .gray4 then .gray else .full)
        else s.lutClass) ∧
      t.fb = s.fb ∧ SameInputs s t ∧ LinkFrame s t ∧
      t.bus.log = s.bus.log ++ stepsEvents s.cfg s.busyPending
        (phasedSteps s.cfg (fullPhaseSteps s.cfg s.mode s.lutClass (frameBytesSpec s.cfg s.fb)))

/-- DISPLAY_PARTIAL of a valid window completes from Initialized when the panel answers idle, with every event of
its phases: the partial LUT on V1, the window's steps, its bytes to the primary bank and, on V1, their
complements to the secondary bank, the triggers, the wait and the epilogue; and `pcount` one higher, saturating
(42_refresh.md sections 1 to 3). -/
def Obligations.DisplayPartialCompletes : Prop :=
  ∀ (s : State) (xs ys xe ye : Half) (win : Window), s.cfg.valid = true → s.pstate = .initialized →
    xs.toNat < s.cfg.width → xs.toNat ≤ xe.toNat → xe.toNat ≤ s.cfg.width →
    ys.toNat < ye.toNat → ye.toNat ≤ s.cfg.height →
    win = sentWindow s.cfg ⟨xs.toNat, ys.toNat, xe.toNat, ye.toNat⟩ →
    PanelReady (partialPolls s.cfg win) s →
    ∃ t, exec (.displayPartial xs ys xe ye) s = .next t ∧ Reported 0x21 3 .ok false [] s t ∧
      t.pcount.toNat = min (s.pcount.toNat + 1) 0xFFFF ∧
      t.busyPending = pendingAfterSteps s.cfg false s.cfg.p.partialEpilogue ∧
      t.pstate = s.pstate ∧ t.mode = s.mode ∧
      t.lutClass = (if s.cfg.variant = .v1 then some .part else s.lutClass) ∧
      t.fb = s.fb ∧ SameInputs s t ∧ LinkFrame s t ∧
      t.bus.log = s.bus.log ++ stepsEvents s.cfg s.busyPending
        (phasedSteps s.cfg (partialPhaseSteps s.cfg win (windowBytesSpec s.cfg s.fb win)))

/-- DRAW of a non-empty image inside the buffer completes from Initialized when the panel answers idle: the
rectangle takes the image and no other pixel changes; then, in PartialFast mode unless the refresh-count
policy asks for a full one, its window is sent, and otherwise the frame, with every event of the transmission's
phases (42_refresh.md sections 3 and 4). -/
def Obligations.DrawCompletes : Prop :=
  ∀ (s : State) (x y w h : Half) (img : List Word) (win : Window), s.cfg.valid = true →
    Memory.wf s.cfg.fillByte s.fb = true → s.pstate = .initialized → w ≠ 0 → h ≠ 0 →
    x.toNat + w.toNat ≤ s.cfg.width → y.toNat + h.toNat ≤ s.cfg.height →
    win = sentWindow s.cfg ⟨x.toNat, y.toNat, x.toNat + w.toNat, y.toNat + h.toNat⟩ →
    PanelReady (fullPolls s.cfg + partialPolls s.cfg win) s →
    ∃ t, exec (.draw x y w h img) s = .next t ∧
      Reported 0x22 (3 + (w.toNat * h.toNat + 31) / 32) .ok false [] s t ∧
      t.pstate = s.pstate ∧ t.mode = s.mode ∧ SameInputs s t ∧ LinkFrame s t ∧
      (∀ px py, px < s.cfg.width → py < s.cfg.height →
        pixelOf t.cfg t.fb px py =
          if x.toNat ≤ px ∧ px < x.toNat + w.toNat ∧ y.toNat ≤ py ∧ py < y.toNat + h.toNat then
            imgBit img w.toNat (px - x.toNat) (py - y.toNat)
          else pixelOf s.cfg s.fb px py) ∧
      (∀ k, s.cfg.fbSize ≤ k → fbRead t.cfg t.fb k = fbRead s.cfg s.fb k) ∧
      (if s.mode = .partialFast ∧ ¬(0 < s.cfg.forceFullEvery ∧ s.cfg.forceFullEvery ≤ s.pcount.toNat) then
          t.pcount.toNat = min (s.pcount.toNat + 1) 0xFFFF ∧
          t.busyPending = pendingAfterSteps s.cfg false s.cfg.p.partialEpilogue ∧
          t.lutClass = (if s.cfg.variant = .v1 then some .part else s.lutClass) ∧
          t.bus.log = s.bus.log ++ stepsEvents s.cfg s.busyPending
            (phasedSteps s.cfg (partialPhaseSteps s.cfg win (windowBytesSpec s.cfg t.fb win)))
        else
          t.pcount = 0 ∧ t.busyPending = false ∧
          t.lutClass = (if s.cfg.variant = .v1 then some (if s.mode = .gray4 then .gray else .full)
            else s.lutClass) ∧
          t.bus.log = s.bus.log ++ stepsEvents s.cfg s.busyPending
            (phasedSteps s.cfg (fullPhaseSteps s.cfg s.mode s.lutClass (frameBytesSpec s.cfg t.fb))))

/-- FILL completes from Initialized when the panel answers idle in every band: every byte of FB is 0xFF for
white and 0x00 for black (42_refresh.md section 3). What its bands send is said by
`Obligations.FillRunsItsBands`. -/
def Obligations.FillCompletes : Prop :=
  ∀ (s : State) (color : Bool) (bh : Half) (n : Nat), s.cfg.valid = true →
    Memory.wf s.cfg.fillByte s.fb = true → s.pstate = .initialized → bh ≠ 0 →
    (∀ win, partialPolls s.cfg win ≤ n) →
    PanelReady ((s.cfg.height + bh.toNat - 1) / bh.toNat * (fullPolls s.cfg + n)) s →
    ∃ t, exec (.fill color bh) s = .next t ∧ Reported 0x23 1 .ok false [] s t ∧
      (∀ k, k < s.cfg.fbSize → fbRead t.cfg t.fb k = if color then 0xFF else 0x00) ∧
      (∀ k, s.cfg.fbSize ≤ k → fbRead t.cfg t.fb k = fbRead s.cfg s.fb k) ∧
      t.pstate = s.pstate ∧ t.mode = s.mode ∧ (s.cfg.variant = .v2 → t.lutClass = s.lutClass) ∧
      (s.mode ≠ .partialFast → t.pcount = 0 ∧ t.busyPending = false) ∧
      SameInputs s t ∧ LinkFrame s t ∧ ∃ ev, t.bus.log = s.bus.log ++ ev

/-- FILL is its bands: when DRAWs of solid full-width bands of `bh` rows, top to bottom, the last one cut to
the rows left, all end with OK, FILL leaves the same framebuffer, panel state and bus as they do
(42_refresh.md section 3). -/
def Obligations.FillRunsItsBands : Prop :=
  ∀ (s u : State) (color : Bool) (bh : Half), s.cfg.valid = true → s.pstate = .initialized → bh ≠ 0 →
    DrawsBands color bh.toNat 0 s u →
    ∃ t, exec (.fill color bh) s = .next t ∧ Reported 0x23 1 .ok false [] s t ∧
      t.fb = u.fb ∧ SamePanelState u t ∧ t.bus = u.bus ∧ SameInputs s t

/-- 42_refresh.md R183: fill equivalence, from every Initialized state and whatever the panel answers. -/
def Obligations.FillEquivalence : Prop :=
  ∀ (s : State) (color : Bool), s.cfg.valid = true → Memory.wf s.cfg.fillByte s.fb = true →
    s.pstate = .initialized →
    (∃ t u ev,
      exec (.fill color (BitVec.ofNat 16 s.cfg.height)) s = .next t ∧
      exec (.draw 0 0 (BitVec.ofNat 16 s.cfg.width) (BitVec.ofNat 16 s.cfg.height)
        (solidImage s.cfg.width s.cfg.height color)) s = .next u ∧
      (∀ k, fbRead t.cfg t.fb k = fbRead u.cfg u.fb k) ∧ t.bus = u.bus ∧
      t.bus.log = s.bus.log ++ ev ∧ SamePanelState t u) ∧
    ∀ (bh : Half) (t : State), bh ≠ 0 → exec (.fill color bh) s = .next t → t.inFlight = none →
      t.lastResult = .ok →
      ∀ k, k < s.cfg.fbSize → fbRead t.cfg t.fb k = if color then 0xFF else 0x00

/-- The phases of a transmission (42_refresh.md section 4), in three parts. The action lists of both kinds enter
the phases in their order, the Secondary phase on V1 only, after the BufferWrite phase of a blit. Running them
sets `ostate` and the order of the bus events: a DISPLAY_FULL, DISPLAY_PARTIAL or DRAW that is held at a poll has
the `ostate` of the phase it is in, with the bytes of the earlier phases and the done part of this one on the
link, and the rest to come; one that ended with OK has put the bytes of the phases on the link in their order,
whatever the panel answered; and a FILL held at a poll has the `ostate` of the phase its band's transmission is
in. That a held operation can be looked at is the model's form of the unbounded wait (entry 5). -/
def Obligations.TransmissionPhases : Prop :=
  (∀ (s : State) (win : Window),
    (displayFullActs s).filterMap Act.phase = transmissionPhases s.cfg ∧
    (displayPartialActs win s).filterMap Act.phase = transmissionPhases s.cfg ∧
    ∀ b, (bufferWrite b s).ostate = .bufferWrite) ∧
  ∀ s t : State, s.cfg.valid = true → s.pstate = .initialized →
    (exec .displayFull s = .next t →
      (∀ f, t.inFlight = some f →
        HeldInPhase (fullPhaseSteps s.cfg s.mode s.lutClass (frameBytesSpec s.cfg s.fb)) f.acts s t) ∧
      (t.inFlight = none → t.lastResult = .ok →
        EndedPhases (fullPhaseSteps s.cfg s.mode s.lutClass (frameBytesSpec s.cfg s.fb)) s t)) ∧
    (∀ (xs ys xe ye : Half) (win : Window),
      win = sentWindow s.cfg ⟨xs.toNat, ys.toNat, xe.toNat, ye.toNat⟩ →
      exec (.displayPartial xs ys xe ye) s = .next t →
      (∀ f, t.inFlight = some f →
        HeldInPhase (partialPhaseSteps s.cfg win (windowBytesSpec s.cfg s.fb win)) f.acts s t) ∧
      (t.inFlight = none → t.lastResult = .ok →
        EndedPhases (partialPhaseSteps s.cfg win (windowBytesSpec s.cfg s.fb win)) s t)) ∧
    (∀ (x y w h : Half) (img : List Word) (win : Window) (steps : OState → List ProtoStep),
      win = sentWindow s.cfg ⟨x.toNat, y.toNat, x.toNat + w.toNat, y.toNat + h.toNat⟩ →
      steps =
        (if s.mode = .partialFast ∧ ¬(0 < s.cfg.forceFullEvery ∧ s.cfg.forceFullEvery ≤ s.pcount.toNat) then
          partialPhaseSteps s.cfg win (windowBytesSpec s.cfg t.fb win)
        else fullPhaseSteps s.cfg s.mode s.lutClass (frameBytesSpec s.cfg t.fb)) →
      exec (.draw x y w h img) s = .next t →
      (∀ f, t.inFlight = some f → HeldInPhase steps f.acts s t) ∧
      (t.inFlight = none → t.lastResult = .ok → EndedPhases steps s t)) ∧
    ∀ (color : Bool) (bh : Half), exec (.fill color bh) s = .next t → ∀ f, t.inFlight = some f →
      ∃ before, transmissionPhases s.cfg = before ++ t.ostate :: f.acts.filterMap Act.phase
end

