-- ==== Sys2Proof/Laws/State.lean ====
section
/-! SUPPORT. One lemma per field per update of the machine's state, so that no later proof unfolds a
record update. -/

namespace Sys2Proof.Machine

/-! ### The bus -/

@[simp] theorem Bus.emit_rst (b : Bus) (e : Event) : (b.emit e).rst = b.rst := rfl
@[simp] theorem Bus.emit_dc (b : Bus) (e : Event) : (b.emit e).dc = b.dc := rfl
@[simp] theorem Bus.emit_cs (b : Bus) (e : Event) : (b.emit e).cs = b.cs := rfl
@[simp] theorem Bus.emit_log (b : Bus) (e : Event) : (b.emit e).log = b.log ++ [e] := rfl
@[simp] theorem Bus.emit_busyIn (b : Bus) (e : Event) : (b.emit e).busyIn = b.busyIn := rfl
@[simp] theorem Bus.emit_busyDrawn (b : Bus) (e : Event) : (b.emit e).busyDrawn = b.busyDrawn := rfl
@[simp] theorem Bus.emit_statusIn (b : Bus) (e : Event) : (b.emit e).statusIn = b.statusIn := rfl
@[simp] theorem Bus.emit_statusDrawn (b : Bus) (e : Event) : (b.emit e).statusDrawn = b.statusDrawn := rfl

@[simp] theorem Bus.pinWrite_rst_rst (b : Bus) (l : Level) : (b.pinWrite .rst l).rst = l := rfl
@[simp] theorem Bus.pinWrite_rst_dc (b : Bus) (l : Level) : (b.pinWrite .rst l).dc = b.dc := rfl
@[simp] theorem Bus.pinWrite_rst_cs (b : Bus) (l : Level) : (b.pinWrite .rst l).cs = b.cs := rfl
@[simp] theorem Bus.pinWrite_rst_log (b : Bus) (l : Level) : (b.pinWrite .rst l).log = b.log ++ [.pin .rst l] := rfl
@[simp] theorem Bus.pinWrite_rst_busyIn (b : Bus) (l : Level) : (b.pinWrite .rst l).busyIn = b.busyIn := rfl
@[simp] theorem Bus.pinWrite_rst_busyDrawn (b : Bus) (l : Level) : (b.pinWrite .rst l).busyDrawn = b.busyDrawn := rfl
@[simp] theorem Bus.pinWrite_rst_statusIn (b : Bus) (l : Level) : (b.pinWrite .rst l).statusIn = b.statusIn := rfl
@[simp] theorem Bus.pinWrite_rst_statusDrawn (b : Bus) (l : Level) : (b.pinWrite .rst l).statusDrawn = b.statusDrawn := rfl

@[simp] theorem Bus.pinWrite_dc_rst (b : Bus) (l : Level) : (b.pinWrite .dc l).rst = b.rst := rfl
@[simp] theorem Bus.pinWrite_dc_dc (b : Bus) (l : Level) : (b.pinWrite .dc l).dc = l := rfl
@[simp] theorem Bus.pinWrite_dc_cs (b : Bus) (l : Level) : (b.pinWrite .dc l).cs = b.cs := rfl
@[simp] theorem Bus.pinWrite_dc_log (b : Bus) (l : Level) : (b.pinWrite .dc l).log = b.log ++ [.pin .dc l] := rfl
@[simp] theorem Bus.pinWrite_dc_busyIn (b : Bus) (l : Level) : (b.pinWrite .dc l).busyIn = b.busyIn := rfl
@[simp] theorem Bus.pinWrite_dc_busyDrawn (b : Bus) (l : Level) : (b.pinWrite .dc l).busyDrawn = b.busyDrawn := rfl
@[simp] theorem Bus.pinWrite_dc_statusIn (b : Bus) (l : Level) : (b.pinWrite .dc l).statusIn = b.statusIn := rfl
@[simp] theorem Bus.pinWrite_dc_statusDrawn (b : Bus) (l : Level) : (b.pinWrite .dc l).statusDrawn = b.statusDrawn := rfl

@[simp] theorem Bus.pinWrite_cs_rst (b : Bus) (l : Level) : (b.pinWrite .cs l).rst = b.rst := rfl
@[simp] theorem Bus.pinWrite_cs_dc (b : Bus) (l : Level) : (b.pinWrite .cs l).dc = b.dc := rfl
@[simp] theorem Bus.pinWrite_cs_cs (b : Bus) (l : Level) : (b.pinWrite .cs l).cs = l := rfl
@[simp] theorem Bus.pinWrite_cs_log (b : Bus) (l : Level) : (b.pinWrite .cs l).log = b.log ++ [.pin .cs l] := rfl
@[simp] theorem Bus.pinWrite_cs_busyIn (b : Bus) (l : Level) : (b.pinWrite .cs l).busyIn = b.busyIn := rfl
@[simp] theorem Bus.pinWrite_cs_busyDrawn (b : Bus) (l : Level) : (b.pinWrite .cs l).busyDrawn = b.busyDrawn := rfl
@[simp] theorem Bus.pinWrite_cs_statusIn (b : Bus) (l : Level) : (b.pinWrite .cs l).statusIn = b.statusIn := rfl
@[simp] theorem Bus.pinWrite_cs_statusDrawn (b : Bus) (l : Level) : (b.pinWrite .cs l).statusDrawn = b.statusDrawn := rfl

@[simp] theorem Bus.transfer_rst (b : Bus) (bytes : List Byte) : (b.transfer bytes).rst = b.rst := rfl
@[simp] theorem Bus.transfer_dc (b : Bus) (bytes : List Byte) : (b.transfer bytes).dc = b.dc := rfl
@[simp] theorem Bus.transfer_cs (b : Bus) (bytes : List Byte) : (b.transfer bytes).cs = b.cs := rfl
@[simp] theorem Bus.transfer_log (b : Bus) (bytes : List Byte) : (b.transfer bytes).log = b.log ++ [.xfer bytes] := rfl
@[simp] theorem Bus.transfer_busyIn (b : Bus) (bytes : List Byte) : (b.transfer bytes).busyIn = b.busyIn := rfl
@[simp] theorem Bus.transfer_busyDrawn (b : Bus) (bytes : List Byte) : (b.transfer bytes).busyDrawn = b.busyDrawn := rfl
@[simp] theorem Bus.transfer_statusIn (b : Bus) (bytes : List Byte) : (b.transfer bytes).statusIn = b.statusIn := rfl
@[simp] theorem Bus.transfer_statusDrawn (b : Bus) (bytes : List Byte) : (b.transfer bytes).statusDrawn = b.statusDrawn := rfl

@[simp] theorem Bus.delay_rst (b : Bus) (ms : Nat) : (b.delay ms).rst = b.rst := rfl
@[simp] theorem Bus.delay_dc (b : Bus) (ms : Nat) : (b.delay ms).dc = b.dc := rfl
@[simp] theorem Bus.delay_cs (b : Bus) (ms : Nat) : (b.delay ms).cs = b.cs := rfl
@[simp] theorem Bus.delay_log (b : Bus) (ms : Nat) : (b.delay ms).log = b.log ++ [.delay ms] := rfl
@[simp] theorem Bus.delay_busyIn (b : Bus) (ms : Nat) : (b.delay ms).busyIn = b.busyIn := rfl
@[simp] theorem Bus.delay_busyDrawn (b : Bus) (ms : Nat) : (b.delay ms).busyDrawn = b.busyDrawn := rfl
@[simp] theorem Bus.delay_statusIn (b : Bus) (ms : Nat) : (b.delay ms).statusIn = b.statusIn := rfl
@[simp] theorem Bus.delay_statusDrawn (b : Bus) (ms : Nat) : (b.delay ms).statusDrawn = b.statusDrawn := rfl

@[simp] theorem Bus.dropBusy_rst (b : Bus) : (b.dropBusy).rst = b.rst := by
  unfold Bus.dropBusy; split <;> simp_all
@[simp] theorem Bus.dropBusy_dc (b : Bus) : (b.dropBusy).dc = b.dc := by
  unfold Bus.dropBusy; split <;> simp_all
@[simp] theorem Bus.dropBusy_cs (b : Bus) : (b.dropBusy).cs = b.cs := by
  unfold Bus.dropBusy; split <;> simp_all
@[simp] theorem Bus.dropBusy_log (b : Bus) : (b.dropBusy).log = b.log := by
  unfold Bus.dropBusy; split <;> simp_all
@[simp] theorem Bus.dropBusy_busyIn (b : Bus) : (b.dropBusy).busyIn = b.busyIn.tail := by
  unfold Bus.dropBusy; split <;> simp_all
@[simp] theorem Bus.dropBusy_busyDrawn (b : Bus) : (b.dropBusy).busyDrawn = if b.busyIn = [] then b.busyDrawn + 1 else b.busyDrawn := by
  unfold Bus.dropBusy; split <;> simp_all
@[simp] theorem Bus.dropBusy_statusIn (b : Bus) : (b.dropBusy).statusIn = b.statusIn := by
  unfold Bus.dropBusy; split <;> simp_all
@[simp] theorem Bus.dropBusy_statusDrawn (b : Bus) : (b.dropBusy).statusDrawn = b.statusDrawn := by
  unfold Bus.dropBusy; split <;> simp_all

@[simp] theorem Bus.busyRead_rst (b : Bus) : (b.busyRead).rst = b.rst := by
  simp [Bus.busyRead]
@[simp] theorem Bus.busyRead_dc (b : Bus) : (b.busyRead).dc = b.dc := by
  simp [Bus.busyRead]
@[simp] theorem Bus.busyRead_cs (b : Bus) : (b.busyRead).cs = b.cs := by
  simp [Bus.busyRead]
@[simp] theorem Bus.busyRead_log (b : Bus) : (b.busyRead).log = b.log ++ [.busyRead b.busyLevel] := by
  simp [Bus.busyRead]
@[simp] theorem Bus.busyRead_busyIn (b : Bus) : (b.busyRead).busyIn = b.busyIn.tail := by
  simp [Bus.busyRead]
@[simp] theorem Bus.busyRead_busyDrawn (b : Bus) : (b.busyRead).busyDrawn = if b.busyIn = [] then b.busyDrawn + 1 else b.busyDrawn := by
  simp [Bus.busyRead]
@[simp] theorem Bus.busyRead_statusIn (b : Bus) : (b.busyRead).statusIn = b.statusIn := by
  simp [Bus.busyRead]
@[simp] theorem Bus.busyRead_statusDrawn (b : Bus) : (b.busyRead).statusDrawn = b.statusDrawn := by
  simp [Bus.busyRead]

@[simp] theorem Bus.dropStatus_rst (b : Bus) : (b.dropStatus).rst = b.rst := by
  unfold Bus.dropStatus; split <;> simp_all
@[simp] theorem Bus.dropStatus_dc (b : Bus) : (b.dropStatus).dc = b.dc := by
  unfold Bus.dropStatus; split <;> simp_all
@[simp] theorem Bus.dropStatus_cs (b : Bus) : (b.dropStatus).cs = b.cs := by
  unfold Bus.dropStatus; split <;> simp_all
@[simp] theorem Bus.dropStatus_log (b : Bus) : (b.dropStatus).log = b.log := by
  unfold Bus.dropStatus; split <;> simp_all
@[simp] theorem Bus.dropStatus_busyIn (b : Bus) : (b.dropStatus).busyIn = b.busyIn := by
  unfold Bus.dropStatus; split <;> simp_all
@[simp] theorem Bus.dropStatus_busyDrawn (b : Bus) : (b.dropStatus).busyDrawn = b.busyDrawn := by
  unfold Bus.dropStatus; split <;> simp_all
@[simp] theorem Bus.dropStatus_statusIn (b : Bus) : (b.dropStatus).statusIn = b.statusIn.tail := by
  unfold Bus.dropStatus; split <;> simp_all
@[simp] theorem Bus.dropStatus_statusDrawn (b : Bus) : (b.dropStatus).statusDrawn = if b.statusIn = [] then b.statusDrawn + 1 else b.statusDrawn := by
  unfold Bus.dropStatus; split <;> simp_all

@[simp] theorem Bus.busInit_rst (b : Bus) : (b.busInit).rst = b.rst := by
  simp [Bus.busInit]
@[simp] theorem Bus.busInit_dc (b : Bus) : (b.busInit).dc = b.dc := by
  simp [Bus.busInit]
@[simp] theorem Bus.busInit_cs (b : Bus) : (b.busInit).cs = b.cs := by
  simp [Bus.busInit]
@[simp] theorem Bus.busInit_log (b : Bus) : (b.busInit).log = b.log ++ [.busInit b.nextStatus] := by
  simp [Bus.busInit]
@[simp] theorem Bus.busInit_busyIn (b : Bus) : (b.busInit).busyIn = b.busyIn := by
  simp [Bus.busInit]
@[simp] theorem Bus.busInit_busyDrawn (b : Bus) : (b.busInit).busyDrawn = b.busyDrawn := by
  simp [Bus.busInit]
@[simp] theorem Bus.busInit_statusIn (b : Bus) : (b.busInit).statusIn = b.statusIn.tail := by
  simp [Bus.busInit]
@[simp] theorem Bus.busInit_statusDrawn (b : Bus) : (b.busInit).statusDrawn = if b.statusIn = [] then b.statusDrawn + 1 else b.statusDrawn := by
  simp [Bus.busInit]

@[simp] theorem Bus.transaction_rst (b : Bus) (dc : Level) (bytes : List Byte) : (b.transaction dc bytes).rst = b.rst := by
  simp [Bus.transaction]
@[simp] theorem Bus.transaction_dc (b : Bus) (dc : Level) (bytes : List Byte) : (b.transaction dc bytes).dc = dc := by
  simp [Bus.transaction]
@[simp] theorem Bus.transaction_cs (b : Bus) (dc : Level) (bytes : List Byte) : (b.transaction dc bytes).cs = true := by
  simp [Bus.transaction]
@[simp] theorem Bus.transaction_log (b : Bus) (dc : Level) (bytes : List Byte) : (b.transaction dc bytes).log = b.log ++ [.pin .dc dc, .pin .cs false, .xfer bytes, .pin .cs true] := by
  simp [Bus.transaction]
@[simp] theorem Bus.transaction_busyIn (b : Bus) (dc : Level) (bytes : List Byte) : (b.transaction dc bytes).busyIn = b.busyIn := by
  simp [Bus.transaction]
@[simp] theorem Bus.transaction_busyDrawn (b : Bus) (dc : Level) (bytes : List Byte) : (b.transaction dc bytes).busyDrawn = b.busyDrawn := by
  simp [Bus.transaction]
@[simp] theorem Bus.transaction_statusIn (b : Bus) (dc : Level) (bytes : List Byte) : (b.transaction dc bytes).statusIn = b.statusIn := by
  simp [Bus.transaction]
@[simp] theorem Bus.transaction_statusDrawn (b : Bus) (dc : Level) (bytes : List Byte) : (b.transaction dc bytes).statusDrawn = b.statusDrawn := by
  simp [Bus.transaction]

/-! ### The state -/

@[simp] theorem readBusy_cfg (s : State) : (readBusy s).cfg = s.cfg := rfl
@[simp] theorem readBusy_fb (s : State) : (readBusy s).fb = s.fb := rfl
@[simp] theorem readBusy_pstate (s : State) : (readBusy s).pstate = s.pstate := rfl
@[simp] theorem readBusy_mode (s : State) : (readBusy s).mode = s.mode := rfl
@[simp] theorem readBusy_busyPending (s : State) : (readBusy s).busyPending = s.busyPending := rfl
@[simp] theorem readBusy_lutClass (s : State) : (readBusy s).lutClass = s.lutClass := rfl
@[simp] theorem readBusy_pcount (s : State) : (readBusy s).pcount = s.pcount := rfl
@[simp] theorem readBusy_ostate (s : State) : (readBusy s).ostate = s.ostate := rfl
@[simp] theorem readBusy_bus (s : State) : (readBusy s).bus = s.bus.busyRead := rfl
@[simp] theorem readBusy_lastOpc (s : State) : (readBusy s).lastOpc = s.lastOpc := rfl
@[simp] theorem readBusy_lastResult (s : State) : (readBusy s).lastResult = s.lastResult := rfl
@[simp] theorem readBusy_errsticky (s : State) : (readBusy s).errsticky = s.errsticky := rfl
@[simp] theorem readBusy_dp (s : State) : (readBusy s).dp = s.dp := rfl
@[simp] theorem readBusy_stream (s : State) : (readBusy s).stream = s.stream := rfl
@[simp] theorem readBusy_responses (s : State) : (readBusy s).responses = s.responses := rfl
@[simp] theorem readBusy_inFlight (s : State) : (readBusy s).inFlight = s.inFlight := rfl

@[simp] theorem pollIdle_cfg (s : State) : (pollIdle s).cfg = s.cfg := rfl
@[simp] theorem pollIdle_fb (s : State) : (pollIdle s).fb = s.fb := rfl
@[simp] theorem pollIdle_pstate (s : State) : (pollIdle s).pstate = s.pstate := rfl
@[simp] theorem pollIdle_mode (s : State) : (pollIdle s).mode = s.mode := rfl
@[simp] theorem pollIdle_busyPending (s : State) : (pollIdle s).busyPending = false := rfl
@[simp] theorem pollIdle_lutClass (s : State) : (pollIdle s).lutClass = s.lutClass := rfl
@[simp] theorem pollIdle_pcount (s : State) : (pollIdle s).pcount = s.pcount := rfl
@[simp] theorem pollIdle_ostate (s : State) : (pollIdle s).ostate = s.ostate := rfl
@[simp] theorem pollIdle_bus (s : State) : (pollIdle s).bus = s.bus.busyRead := rfl
@[simp] theorem pollIdle_lastOpc (s : State) : (pollIdle s).lastOpc = s.lastOpc := rfl
@[simp] theorem pollIdle_lastResult (s : State) : (pollIdle s).lastResult = s.lastResult := rfl
@[simp] theorem pollIdle_errsticky (s : State) : (pollIdle s).errsticky = s.errsticky := rfl
@[simp] theorem pollIdle_dp (s : State) : (pollIdle s).dp = s.dp := rfl
@[simp] theorem pollIdle_stream (s : State) : (pollIdle s).stream = s.stream := rfl
@[simp] theorem pollIdle_responses (s : State) : (pollIdle s).responses = s.responses := rfl
@[simp] theorem pollIdle_inFlight (s : State) : (pollIdle s).inFlight = s.inFlight := rfl

@[simp] theorem pollBusy_cfg (s : State) : (pollBusy s).cfg = s.cfg := rfl
@[simp] theorem pollBusy_fb (s : State) : (pollBusy s).fb = s.fb := rfl
@[simp] theorem pollBusy_pstate (s : State) : (pollBusy s).pstate = s.pstate := rfl
@[simp] theorem pollBusy_mode (s : State) : (pollBusy s).mode = s.mode := rfl
@[simp] theorem pollBusy_busyPending (s : State) : (pollBusy s).busyPending = s.busyPending := rfl
@[simp] theorem pollBusy_lutClass (s : State) : (pollBusy s).lutClass = s.lutClass := rfl
@[simp] theorem pollBusy_pcount (s : State) : (pollBusy s).pcount = s.pcount := rfl
@[simp] theorem pollBusy_ostate (s : State) : (pollBusy s).ostate = s.ostate := rfl
@[simp] theorem pollBusy_bus (s : State) : (pollBusy s).bus = s.bus.busyRead.delay s.cfg.pollDelayMs := rfl
@[simp] theorem pollBusy_lastOpc (s : State) : (pollBusy s).lastOpc = s.lastOpc := rfl
@[simp] theorem pollBusy_lastResult (s : State) : (pollBusy s).lastResult = s.lastResult := rfl
@[simp] theorem pollBusy_errsticky (s : State) : (pollBusy s).errsticky = s.errsticky := rfl
@[simp] theorem pollBusy_dp (s : State) : (pollBusy s).dp = s.dp := rfl
@[simp] theorem pollBusy_stream (s : State) : (pollBusy s).stream = s.stream := rfl
@[simp] theorem pollBusy_responses (s : State) : (pollBusy s).responses = s.responses := rfl
@[simp] theorem pollBusy_inFlight (s : State) : (pollBusy s).inFlight = s.inFlight := rfl

@[simp] theorem transmitCommand_cfg (op8 : Byte) (s : State) : (transmitCommand op8 s).cfg = s.cfg := rfl
@[simp] theorem transmitCommand_fb (op8 : Byte) (s : State) : (transmitCommand op8 s).fb = s.fb := rfl
@[simp] theorem transmitCommand_pstate (op8 : Byte) (s : State) :
    (transmitCommand op8 s).pstate = s.pstate := rfl
@[simp] theorem transmitCommand_mode (op8 : Byte) (s : State) : (transmitCommand op8 s).mode = s.mode := rfl
@[simp] theorem transmitCommand_busyPending (op8 : Byte) (s : State) :
    (transmitCommand op8 s).busyPending = (s.busyPending || s.cfg.triggersBusy op8) := rfl
@[simp] theorem transmitCommand_lutClass (op8 : Byte) (s : State) :
    (transmitCommand op8 s).lutClass = s.lutClass := rfl
@[simp] theorem transmitCommand_pcount (op8 : Byte) (s : State) :
    (transmitCommand op8 s).pcount = s.pcount := rfl
@[simp] theorem transmitCommand_ostate (op8 : Byte) (s : State) :
    (transmitCommand op8 s).ostate = s.ostate := rfl
@[simp] theorem transmitCommand_bus (op8 : Byte) (s : State) :
    (transmitCommand op8 s).bus = s.bus.transaction false [op8] := rfl
@[simp] theorem transmitCommand_lastOpc (op8 : Byte) (s : State) :
    (transmitCommand op8 s).lastOpc = s.lastOpc := rfl
@[simp] theorem transmitCommand_lastResult (op8 : Byte) (s : State) :
    (transmitCommand op8 s).lastResult = s.lastResult := rfl
@[simp] theorem transmitCommand_errsticky (op8 : Byte) (s : State) :
    (transmitCommand op8 s).errsticky = s.errsticky := rfl
@[simp] theorem transmitCommand_dp (op8 : Byte) (s : State) : (transmitCommand op8 s).dp = s.dp := rfl
@[simp] theorem transmitCommand_stream (op8 : Byte) (s : State) :
    (transmitCommand op8 s).stream = s.stream := rfl
@[simp] theorem transmitCommand_responses (op8 : Byte) (s : State) :
    (transmitCommand op8 s).responses = s.responses := rfl
@[simp] theorem transmitCommand_inFlight (op8 : Byte) (s : State) :
    (transmitCommand op8 s).inFlight = s.inFlight := rfl

@[simp] theorem resetPulse_cfg (s : State) : (resetPulse s).cfg = s.cfg := rfl
@[simp] theorem resetPulse_fb (s : State) : (resetPulse s).fb = s.fb := rfl
@[simp] theorem resetPulse_pstate (s : State) : (resetPulse s).pstate = .resetting := rfl
@[simp] theorem resetPulse_mode (s : State) : (resetPulse s).mode = s.mode := rfl
@[simp] theorem resetPulse_busyPending (s : State) : (resetPulse s).busyPending = true := rfl
@[simp] theorem resetPulse_lutClass (s : State) : (resetPulse s).lutClass = none := rfl
@[simp] theorem resetPulse_pcount (s : State) : (resetPulse s).pcount = s.pcount := rfl
@[simp] theorem resetPulse_ostate (s : State) : (resetPulse s).ostate = s.ostate := rfl
@[simp] theorem resetPulse_bus (s : State) : (resetPulse s).bus = s.bus.pulse s.cfg.p.resetSeq := rfl
@[simp] theorem resetPulse_lastOpc (s : State) : (resetPulse s).lastOpc = s.lastOpc := rfl
@[simp] theorem resetPulse_lastResult (s : State) : (resetPulse s).lastResult = s.lastResult := rfl
@[simp] theorem resetPulse_errsticky (s : State) : (resetPulse s).errsticky = s.errsticky := rfl
@[simp] theorem resetPulse_dp (s : State) : (resetPulse s).dp = s.dp := rfl
@[simp] theorem resetPulse_stream (s : State) : (resetPulse s).stream = s.stream := rfl
@[simp] theorem resetPulse_responses (s : State) : (resetPulse s).responses = s.responses := rfl
@[simp] theorem resetPulse_inFlight (s : State) : (resetPulse s).inFlight = s.inFlight := rfl

@[simp] theorem bufferWrite_cfg (b : Band) (s : State) : (bufferWrite b s).cfg = s.cfg := rfl
@[simp] theorem bufferWrite_fb (b : Band) (s : State) :
    (bufferWrite b s).fb = blitCore s.cfg s.fb b.x b.y b.w b.h b.img := rfl
@[simp] theorem bufferWrite_pstate (b : Band) (s : State) : (bufferWrite b s).pstate = s.pstate := rfl
@[simp] theorem bufferWrite_mode (b : Band) (s : State) : (bufferWrite b s).mode = s.mode := rfl
@[simp] theorem bufferWrite_busyPending (b : Band) (s : State) :
    (bufferWrite b s).busyPending = s.busyPending := rfl
@[simp] theorem bufferWrite_lutClass (b : Band) (s : State) : (bufferWrite b s).lutClass = s.lutClass := rfl
@[simp] theorem bufferWrite_pcount (b : Band) (s : State) : (bufferWrite b s).pcount = s.pcount := rfl
@[simp] theorem bufferWrite_ostate (b : Band) (s : State) : (bufferWrite b s).ostate = .bufferWrite := rfl
@[simp] theorem bufferWrite_bus (b : Band) (s : State) : (bufferWrite b s).bus = s.bus := rfl
@[simp] theorem bufferWrite_lastOpc (b : Band) (s : State) : (bufferWrite b s).lastOpc = s.lastOpc := rfl
@[simp] theorem bufferWrite_lastResult (b : Band) (s : State) :
    (bufferWrite b s).lastResult = s.lastResult := rfl
@[simp] theorem bufferWrite_errsticky (b : Band) (s : State) :
    (bufferWrite b s).errsticky = s.errsticky := rfl
@[simp] theorem bufferWrite_dp (b : Band) (s : State) : (bufferWrite b s).dp = s.dp := rfl
@[simp] theorem bufferWrite_stream (b : Band) (s : State) : (bufferWrite b s).stream = s.stream := rfl
@[simp] theorem bufferWrite_responses (b : Band) (s : State) :
    (bufferWrite b s).responses = s.responses := rfl
@[simp] theorem bufferWrite_inFlight (b : Band) (s : State) : (bufferWrite b s).inFlight = s.inFlight := rfl

@[simp] theorem finish_cfg (opc : Byte) (len : Nat) (code : ResultCode) (pix : Bool) (data : List Word) (s : State) :
    (finish opc len code pix data s).cfg = s.cfg := rfl
@[simp] theorem finish_fb (opc : Byte) (len : Nat) (code : ResultCode) (pix : Bool) (data : List Word) (s : State) :
    (finish opc len code pix data s).fb = s.fb := rfl
@[simp] theorem finish_pstate (opc : Byte) (len : Nat) (code : ResultCode) (pix : Bool) (data : List Word) (s : State) :
    (finish opc len code pix data s).pstate = s.pstate := rfl
@[simp] theorem finish_mode (opc : Byte) (len : Nat) (code : ResultCode) (pix : Bool) (data : List Word) (s : State) :
    (finish opc len code pix data s).mode = s.mode := rfl
@[simp] theorem finish_busyPending (opc : Byte) (len : Nat) (code : ResultCode) (pix : Bool) (data : List Word) (s : State) :
    (finish opc len code pix data s).busyPending = s.busyPending := rfl
@[simp] theorem finish_lutClass (opc : Byte) (len : Nat) (code : ResultCode) (pix : Bool) (data : List Word) (s : State) :
    (finish opc len code pix data s).lutClass = s.lutClass := rfl
@[simp] theorem finish_pcount (opc : Byte) (len : Nat) (code : ResultCode) (pix : Bool) (data : List Word) (s : State) :
    (finish opc len code pix data s).pcount = s.pcount := rfl
@[simp] theorem finish_ostate (opc : Byte) (len : Nat) (code : ResultCode) (pix : Bool) (data : List Word) (s : State) :
    (finish opc len code pix data s).ostate = .idle := rfl
@[simp] theorem finish_bus (opc : Byte) (len : Nat) (code : ResultCode) (pix : Bool) (data : List Word) (s : State) :
    (finish opc len code pix data s).bus = s.bus := rfl
@[simp] theorem finish_lastOpc (opc : Byte) (len : Nat) (code : ResultCode) (pix : Bool) (data : List Word) (s : State) :
    (finish opc len code pix data s).lastOpc = opc := rfl
@[simp] theorem finish_lastResult (opc : Byte) (len : Nat) (code : ResultCode) (pix : Bool) (data : List Word) (s : State) :
    (finish opc len code pix data s).lastResult = code := rfl
@[simp] theorem finish_errsticky (opc : Byte) (len : Nat) (code : ResultCode) (pix : Bool) (data : List Word) (s : State) :
    (finish opc len code pix data s).errsticky = stickyAfter s.errsticky code := rfl
@[simp] theorem finish_dp (opc : Byte) (len : Nat) (code : ResultCode) (pix : Bool) (data : List Word) (s : State) :
    (finish opc len code pix data s).dp = s.dp + len := rfl
@[simp] theorem finish_stream (opc : Byte) (len : Nat) (code : ResultCode) (pix : Bool) (data : List Word) (s : State) :
    (finish opc len code pix data s).stream = s.stream := rfl
@[simp] theorem finish_responses (opc : Byte) (len : Nat) (code : ResultCode) (pix : Bool) (data : List Word) (s : State) :
    (finish opc len code pix data s).responses = s.responses ++ [⟨responseWord opc pix code, data⟩] := rfl
@[simp] theorem finish_inFlight (opc : Byte) (len : Nat) (code : ResultCode) (pix : Bool) (data : List Word) (s : State) :
    (finish opc len code pix data s).inFlight = none := rfl

@[simp] theorem finishOk_cfg (opc : Byte) (len : Nat) (s : State) : (finishOk opc len s).cfg = s.cfg := rfl
@[simp] theorem finishOk_fb (opc : Byte) (len : Nat) (s : State) : (finishOk opc len s).fb = s.fb := rfl
@[simp] theorem finishOk_pstate (opc : Byte) (len : Nat) (s : State) :
    (finishOk opc len s).pstate = s.pstate := rfl
@[simp] theorem finishOk_mode (opc : Byte) (len : Nat) (s : State) : (finishOk opc len s).mode = s.mode := rfl
@[simp] theorem finishOk_busyPending (opc : Byte) (len : Nat) (s : State) :
    (finishOk opc len s).busyPending = s.busyPending := rfl
@[simp] theorem finishOk_lutClass (opc : Byte) (len : Nat) (s : State) :
    (finishOk opc len s).lutClass = s.lutClass := rfl
@[simp] theorem finishOk_pcount (opc : Byte) (len : Nat) (s : State) :
    (finishOk opc len s).pcount = s.pcount := rfl
@[simp] theorem finishOk_ostate (opc : Byte) (len : Nat) (s : State) :
    (finishOk opc len s).ostate = .idle := rfl
@[simp] theorem finishOk_bus (opc : Byte) (len : Nat) (s : State) : (finishOk opc len s).bus = s.bus := rfl
@[simp] theorem finishOk_lastOpc (opc : Byte) (len : Nat) (s : State) :
    (finishOk opc len s).lastOpc = opc := rfl
@[simp] theorem finishOk_lastResult (opc : Byte) (len : Nat) (s : State) :
    (finishOk opc len s).lastResult = .ok := rfl
@[simp] theorem finishOk_errsticky (opc : Byte) (len : Nat) (s : State) :
    (finishOk opc len s).errsticky = s.errsticky := rfl
@[simp] theorem finishOk_dp (opc : Byte) (len : Nat) (s : State) : (finishOk opc len s).dp = s.dp + len := rfl
@[simp] theorem finishOk_stream (opc : Byte) (len : Nat) (s : State) :
    (finishOk opc len s).stream = s.stream := rfl
@[simp] theorem finishOk_responses (opc : Byte) (len : Nat) (s : State) :
    (finishOk opc len s).responses = s.responses ++ [⟨responseWord opc false .ok, []⟩] := rfl
@[simp] theorem finishOk_inFlight (opc : Byte) (len : Nat) (s : State) :
    (finishOk opc len s).inFlight = none := rfl

@[simp] theorem raiseError_cfg (opc : Byte) (len : Nat) (code : ResultCode) (s : State) :
    (raiseError opc len code s).cfg = s.cfg := rfl
@[simp] theorem raiseError_fb (opc : Byte) (len : Nat) (code : ResultCode) (s : State) :
    (raiseError opc len code s).fb = s.fb := rfl
@[simp] theorem raiseError_pstate (opc : Byte) (len : Nat) (code : ResultCode) (s : State) :
    (raiseError opc len code s).pstate = s.pstate := rfl
@[simp] theorem raiseError_mode (opc : Byte) (len : Nat) (code : ResultCode) (s : State) :
    (raiseError opc len code s).mode = s.mode := rfl
@[simp] theorem raiseError_busyPending (opc : Byte) (len : Nat) (code : ResultCode) (s : State) :
    (raiseError opc len code s).busyPending = s.busyPending := rfl
@[simp] theorem raiseError_lutClass (opc : Byte) (len : Nat) (code : ResultCode) (s : State) :
    (raiseError opc len code s).lutClass = s.lutClass := rfl
@[simp] theorem raiseError_pcount (opc : Byte) (len : Nat) (code : ResultCode) (s : State) :
    (raiseError opc len code s).pcount = s.pcount := rfl
@[simp] theorem raiseError_ostate (opc : Byte) (len : Nat) (code : ResultCode) (s : State) :
    (raiseError opc len code s).ostate = .idle := rfl
@[simp] theorem raiseError_bus (opc : Byte) (len : Nat) (code : ResultCode) (s : State) :
    (raiseError opc len code s).bus = s.bus := rfl
@[simp] theorem raiseError_lastOpc (opc : Byte) (len : Nat) (code : ResultCode) (s : State) :
    (raiseError opc len code s).lastOpc = opc := rfl
@[simp] theorem raiseError_lastResult (opc : Byte) (len : Nat) (code : ResultCode) (s : State) :
    (raiseError opc len code s).lastResult = code := rfl
@[simp] theorem raiseError_errsticky (opc : Byte) (len : Nat) (code : ResultCode) (s : State) :
    (raiseError opc len code s).errsticky = stickyAfter s.errsticky code := rfl
@[simp] theorem raiseError_dp (opc : Byte) (len : Nat) (code : ResultCode) (s : State) :
    (raiseError opc len code s).dp = s.dp + len := rfl
@[simp] theorem raiseError_stream (opc : Byte) (len : Nat) (code : ResultCode) (s : State) :
    (raiseError opc len code s).stream = s.stream := rfl
@[simp] theorem raiseError_responses (opc : Byte) (len : Nat) (code : ResultCode) (s : State) :
    (raiseError opc len code s).responses = s.responses ++ [⟨responseWord opc false code, []⟩] := rfl
@[simp] theorem raiseError_inFlight (opc : Byte) (len : Nat) (code : ResultCode) (s : State) :
    (raiseError opc len code s).inFlight = none := rfl

@[simp] theorem raiseTimeout_cfg (opc : Byte) (len : Nat) (s : State) :
    (raiseTimeout opc len s).cfg = s.cfg := rfl
@[simp] theorem raiseTimeout_fb (opc : Byte) (len : Nat) (s : State) :
    (raiseTimeout opc len s).fb = s.fb := rfl
@[simp] theorem raiseTimeout_pstate (opc : Byte) (len : Nat) (s : State) :
    (raiseTimeout opc len s).pstate = .resetting := rfl
@[simp] theorem raiseTimeout_mode (opc : Byte) (len : Nat) (s : State) :
    (raiseTimeout opc len s).mode = s.mode := rfl
@[simp] theorem raiseTimeout_busyPending (opc : Byte) (len : Nat) (s : State) :
    (raiseTimeout opc len s).busyPending = true := rfl
@[simp] theorem raiseTimeout_lutClass (opc : Byte) (len : Nat) (s : State) :
    (raiseTimeout opc len s).lutClass = s.lutClass := rfl
@[simp] theorem raiseTimeout_pcount (opc : Byte) (len : Nat) (s : State) :
    (raiseTimeout opc len s).pcount = s.pcount := rfl
@[simp] theorem raiseTimeout_ostate (opc : Byte) (len : Nat) (s : State) :
    (raiseTimeout opc len s).ostate = .idle := rfl
@[simp] theorem raiseTimeout_bus (opc : Byte) (len : Nat) (s : State) :
    (raiseTimeout opc len s).bus = s.bus := rfl
@[simp] theorem raiseTimeout_lastOpc (opc : Byte) (len : Nat) (s : State) :
    (raiseTimeout opc len s).lastOpc = opc := rfl
@[simp] theorem raiseTimeout_lastResult (opc : Byte) (len : Nat) (s : State) :
    (raiseTimeout opc len s).lastResult = .panelTimeout := rfl
@[simp] theorem raiseTimeout_errsticky (opc : Byte) (len : Nat) (s : State) :
    (raiseTimeout opc len s).errsticky = stickyAfter s.errsticky .panelTimeout := rfl
@[simp] theorem raiseTimeout_dp (opc : Byte) (len : Nat) (s : State) :
    (raiseTimeout opc len s).dp = s.dp + len := rfl
@[simp] theorem raiseTimeout_stream (opc : Byte) (len : Nat) (s : State) :
    (raiseTimeout opc len s).stream = s.stream := rfl
@[simp] theorem raiseTimeout_responses (opc : Byte) (len : Nat) (s : State) :
    (raiseTimeout opc len s).responses = s.responses ++ [⟨responseWord opc false .panelTimeout, []⟩] := rfl
@[simp] theorem raiseTimeout_inFlight (opc : Byte) (len : Nat) (s : State) :
    (raiseTimeout opc len s).inFlight = none := rfl

@[simp] theorem hostSend_cfg (words : List Word) (s : State) : (hostSend words s).cfg = s.cfg := rfl
@[simp] theorem hostSend_fb (words : List Word) (s : State) : (hostSend words s).fb = s.fb := rfl
@[simp] theorem hostSend_pstate (words : List Word) (s : State) : (hostSend words s).pstate = s.pstate := rfl
@[simp] theorem hostSend_mode (words : List Word) (s : State) : (hostSend words s).mode = s.mode := rfl
@[simp] theorem hostSend_busyPending (words : List Word) (s : State) :
    (hostSend words s).busyPending = s.busyPending := rfl
@[simp] theorem hostSend_lutClass (words : List Word) (s : State) :
    (hostSend words s).lutClass = s.lutClass := rfl
@[simp] theorem hostSend_pcount (words : List Word) (s : State) : (hostSend words s).pcount = s.pcount := rfl
@[simp] theorem hostSend_ostate (words : List Word) (s : State) : (hostSend words s).ostate = s.ostate := rfl
@[simp] theorem hostSend_bus (words : List Word) (s : State) : (hostSend words s).bus = s.bus := rfl
@[simp] theorem hostSend_lastOpc (words : List Word) (s : State) :
    (hostSend words s).lastOpc = s.lastOpc := rfl
@[simp] theorem hostSend_lastResult (words : List Word) (s : State) :
    (hostSend words s).lastResult = s.lastResult := rfl
@[simp] theorem hostSend_errsticky (words : List Word) (s : State) :
    (hostSend words s).errsticky = s.errsticky := rfl
@[simp] theorem hostSend_dp (words : List Word) (s : State) : (hostSend words s).dp = s.dp := rfl
@[simp] theorem hostSend_stream (words : List Word) (s : State) :
    (hostSend words s).stream = s.stream ++ words := rfl
@[simp] theorem hostSend_responses (words : List Word) (s : State) :
    (hostSend words s).responses = s.responses := rfl
@[simp] theorem hostSend_inFlight (words : List Word) (s : State) :
    (hostSend words s).inFlight = s.inFlight := rfl

@[simp] theorem placeWords_cfg (words : List Word) (s : State) : (placeWords words s).cfg = s.cfg := rfl
@[simp] theorem placeWords_fb (words : List Word) (s : State) : (placeWords words s).fb = s.fb := rfl
@[simp] theorem placeWords_pstate (words : List Word) (s : State) :
    (placeWords words s).pstate = s.pstate := rfl
@[simp] theorem placeWords_mode (words : List Word) (s : State) : (placeWords words s).mode = s.mode := rfl
@[simp] theorem placeWords_busyPending (words : List Word) (s : State) :
    (placeWords words s).busyPending = s.busyPending := rfl
@[simp] theorem placeWords_lutClass (words : List Word) (s : State) :
    (placeWords words s).lutClass = s.lutClass := rfl
@[simp] theorem placeWords_pcount (words : List Word) (s : State) :
    (placeWords words s).pcount = s.pcount := rfl
@[simp] theorem placeWords_ostate (words : List Word) (s : State) :
    (placeWords words s).ostate = s.ostate := rfl
@[simp] theorem placeWords_bus (words : List Word) (s : State) : (placeWords words s).bus = s.bus := rfl
@[simp] theorem placeWords_lastOpc (words : List Word) (s : State) :
    (placeWords words s).lastOpc = s.lastOpc := rfl
@[simp] theorem placeWords_lastResult (words : List Word) (s : State) :
    (placeWords words s).lastResult = s.lastResult := rfl
@[simp] theorem placeWords_errsticky (words : List Word) (s : State) :
    (placeWords words s).errsticky = s.errsticky := rfl
@[simp] theorem placeWords_dp (words : List Word) (s : State) : (placeWords words s).dp = s.dp := rfl
@[simp] theorem placeWords_stream (words : List Word) (s : State) :
    (placeWords words s).stream = streamAt words s.stream s.dp := rfl
@[simp] theorem placeWords_responses (words : List Word) (s : State) :
    (placeWords words s).responses = s.responses := rfl
@[simp] theorem placeWords_inFlight (words : List Word) (s : State) :
    (placeWords words s).inFlight = none := rfl

end Sys2Proof.Machine
end

