-- ==== Sys2Proof/Laws/Sequencer.lean ====
section
/-! SUPPORT. What the sequencer can do, said once: a relation that every action keeps is kept by a poll, a
run of actions, a run of bands and a whole operation, and the frame of each. -/

namespace Sys2Proof.Machine

/-- The state a poll leaves. -/
def PollResult.state : PollResult → State
  | .done s => s
  | .timedOut s => s
  | .held s => s

/-- The state a run leaves. -/
def RunResult.state : RunResult → State
  | .done s => s
  | .timedOut s => s
  | .held _ _ s => s

/-- What is left of a run. -/
def RunResult.left : RunResult → Option (List Act × List Band)
  | .done _ => none
  | .timedOut _ => none
  | .held acts bands _ => some (acts, bands)

/-! ### Relations kept by every part -/

section Rel

variable (R : State → State → Prop)

theorem waitBudget_rel (ht : ∀ {a b c}, R a b → R b c → R a c) (hr : ∀ s, R s (readBusy s))
    (hi : ∀ s, nextIsIdle s = true → R s (pollIdle s)) (hb : ∀ s, R s (pollBusy s)) :
    ∀ n s, R s (waitBudget n s).state := by
  intro n
  induction n with
  | zero =>
    intro s
    unfold waitBudget
    split
    · exact hi s (by assumption)
    · exact hr s
  | succ n ih =>
    intro s
    unfold waitBudget
    split
    · exact hi s (by assumption)
    · exact ht (hb s) (ih _)

theorem waitUnbounded_rel (ht : ∀ {a b c}, R a b → R b c → R a c)
    (hi : ∀ s, nextIsIdle s = true → R s (pollIdle s)) (hb : ∀ s, R s (pollBusy s)) :
    ∀ q s, R s (waitUnbounded q s).state := by
  intro q
  induction q with
  | nil =>
    intro s
    unfold waitUnbounded
    split
    · exact hi s (by assumption)
    · exact hb s
  | cons l q ih =>
    intro s
    unfold waitUnbounded
    split
    · exact hi s (by assumption)
    · exact ht (hb s) (ih _)

/-- A relation that each read of a poll keeps is kept by the poll. -/
theorem waitIdleI_rel (ht : ∀ {a b c}, R a b → R b c → R a c) (hr : ∀ s, R s (readBusy s))
    (hi : ∀ s, nextIsIdle s = true → R s (pollIdle s)) (hb : ∀ s, R s (pollBusy s)) (s : State) : R s (waitIdleI s).state := by
  unfold waitIdleI
  split
  · exact waitBudget_rel R ht hr hi hb _ s
  · exact waitUnbounded_rel R ht hi hb _ s

theorem waitBudget_done_pending {n : Nat} {s s1 : State} (h : waitBudget n s = .done s1) :
    s1.busyPending = false := by
  induction n generalizing s with
  | zero =>
    unfold waitBudget at h
    split at h
    · cases h; rfl
    · simp at h
  | succ n ih =>
    unfold waitBudget at h
    split at h
    · cases h; rfl
    · exact ih h

theorem waitUnbounded_done_pending {q : List Level} {s s1 : State} (h : waitUnbounded q s = .done s1) :
    s1.busyPending = false := by
  induction q generalizing s with
  | nil =>
    unfold waitUnbounded at h
    split at h
    · cases h; rfl
    · simp at h
  | cons l q ih =>
    unfold waitUnbounded at h
    split at h
    · cases h; rfl
    · exact ih h

/-- A poll that ends has read the idle level (41_panel_protocol.md R133). -/
theorem waitIdleI_done_pending {s s1 : State} (h : waitIdleI s = .done s1) : s1.busyPending = false := by
  unfold waitIdleI at h
  split at h
  · exact waitBudget_done_pending h
  · exact waitUnbounded_done_pending h

/-- A relation that a poll keeps, and that a command's transaction keeps while no busy state is pending, is
kept by a command. -/
theorem sendCommandI_rel (ht : ∀ {a b c}, R a b → R b c → R a c) (hw : ∀ s, R s (waitIdleI s).state)
    {op8 : Byte} (hc : ∀ s, s.busyPending = false → R s (transmitCommand op8 s)) (s : State) :
    R s (sendCommandI op8 s).state := by
  unfold sendCommandI
  split
  · have := hw s
    cases h : waitIdleI s with
    | done s1 => rw [h] at this; exact ht this (hc s1 (waitIdleI_done_pending h))
    | timedOut s1 => rw [h] at this; exact this
    | held s1 => rw [h] at this; exact this
  · exact hc s (by simpa using ‹¬s.busyPending = true›)

/-- A relation that every action of a run keeps is kept by the run. -/
theorem runActs_rel (h0 : ∀ s, R s s) (ht : ∀ {a b c}, R a b → R b c → R a c) (bands : List Band)
    {acts : List Act} (ha : ∀ a ∈ acts, ∀ s, R s (runAct a s).state) (s : State) :
    R s (runActs bands acts s).state := by
  induction acts generalizing s with
  | nil => exact h0 s
  | cons a acts ih =>
    have := ha a List.mem_cons_self s
    unfold runActs
    cases h : runAct a s with
    | done s1 =>
      rw [h] at this
      exact ht this (ih (fun b hb => ha b (List.mem_cons_of_mem _ hb)) s1)
    | timedOut s1 => rw [h] at this; exact this
    | held s1 => rw [h] at this; exact this

/-- A relation kept by every BufferWrite and every transmission is kept by a run of bands. -/
theorem runBands_rel (h0 : ∀ s, R s s) (ht : ∀ {a b c}, R a b → R b c → R a c) {bands : List Band}
    (hb : ∀ b ∈ bands, ∀ rest s, R s (runActs rest (transmitActs b (bufferWrite b s)) (bufferWrite b s)).state)
    (s : State) : R s (runBands bands s).state := by
  induction bands generalizing s with
  | nil => exact h0 s
  | cons b bands ih =>
    have := hb b List.mem_cons_self bands s
    unfold runBands
    cases h : runActs bands (transmitActs b (bufferWrite b s)) (bufferWrite b s) with
    | done s1 =>
      rw [h] at this
      exact ht this (ih (fun c hc => hb c (List.mem_cons_of_mem _ hc)) s1)
    | timedOut s1 => rw [h] at this; exact this
    | held acts bs s1 => rw [h] at this; exact this

/-- A relation kept by a run of actions and by a run of bands is kept by both in a row. -/
theorem runAll_rel (ht : ∀ {a b c}, R a b → R b c → R a c) {acts : List Act} {bands : List Band} {s : State}
    (ha : R s (runActs bands acts s).state) (hb : ∀ s, R s (runBands bands s).state) :
    R s (runAll acts bands s).state := by
  unfold runAll
  cases h : runActs bands acts s with
  | done s1 => rw [h] at ha; exact ht ha (hb s1)
  | timedOut s1 => rw [h] at ha; exact ha
  | held a b s1 => rw [h] at ha; exact ha

end Rel

/-! ### The frame of a run -/

/-- What no action writes, FB apart. -/
structure RunFrame (s t : State) : Prop where
  cfg : t.cfg = s.cfg
  lastOpc : t.lastOpc = s.lastOpc
  lastResult : t.lastResult = s.lastResult
  errsticky : t.errsticky = s.errsticky
  dp : t.dp = s.dp
  stream : t.stream = s.stream
  responses : t.responses = s.responses
  inFlight : t.inFlight = s.inFlight

theorem RunFrame.refl (s : State) : RunFrame s s := ⟨rfl, rfl, rfl, rfl, rfl, rfl, rfl, rfl⟩

theorem RunFrame.trans {a b c : State} (h : RunFrame a b) (h' : RunFrame b c) : RunFrame a c :=
  ⟨h'.cfg.trans h.cfg, h'.lastOpc.trans h.lastOpc, h'.lastResult.trans h.lastResult,
    h'.errsticky.trans h.errsticky, h'.dp.trans h.dp, h'.stream.trans h.stream,
    h'.responses.trans h.responses, h'.inFlight.trans h.inFlight⟩

/-- What no action writes: no action touches FB. -/
structure ActFrame (s t : State) : Prop extends RunFrame s t where
  fb : t.fb = s.fb

theorem ActFrame.refl (s : State) : ActFrame s s := ⟨RunFrame.refl s, rfl⟩

theorem ActFrame.trans {a b c : State} (h : ActFrame a b) (h' : ActFrame b c) : ActFrame a c :=
  ⟨h.toRunFrame.trans h'.toRunFrame, h'.fb.trans h.fb⟩

theorem ActFrame.of_rfl {s t : State} (h1 : t.cfg = s.cfg := by rfl) (h2 : t.lastOpc = s.lastOpc := by rfl)
    (h3 : t.lastResult = s.lastResult := by rfl) (h4 : t.errsticky = s.errsticky := by rfl)
    (h5 : t.dp = s.dp := by rfl) (h6 : t.stream = s.stream := by rfl)
    (h7 : t.responses = s.responses := by rfl) (h8 : t.inFlight = s.inFlight := by rfl)
    (h9 : t.fb = s.fb := by rfl) : ActFrame s t :=
  ⟨⟨h1, h2, h3, h4, h5, h6, h7, h8⟩, h9⟩

theorem waitIdleI_frame (s : State) : ActFrame s (waitIdleI s).state :=
  waitIdleI_rel ActFrame ActFrame.trans (fun _ => .of_rfl) (fun _ _ => .of_rfl) (fun _ => .of_rfl) s

theorem runAct_frame (a : Act) (s : State) : ActFrame s (runAct a s).state := by
  cases a with
  | cmd op8 => exact sendCommandI_rel ActFrame ActFrame.trans waitIdleI_frame (fun _ _ => .of_rfl) s
  | waitIdle => exact waitIdleI_frame s
  | data bytes => exact .of_rfl
  | delay ms => exact .of_rfl
  | resetPulse => exact .of_rfl
  | setOState o => exact .of_rfl
  | setLut c => exact .of_rfl
  | clearPcount => exact .of_rfl
  | bumpPcount => exact .of_rfl
  | enterMode m => exact .of_rfl
  | enterSleep => exact .of_rfl

theorem runActs_frame (bands : List Band) (acts : List Act) (s : State) :
    ActFrame s (runActs bands acts s).state :=
  runActs_rel ActFrame ActFrame.refl ActFrame.trans bands (fun a _ s => runAct_frame a s) s

theorem runBands_frame (bands : List Band) (s : State) : RunFrame s (runBands bands s).state :=
  runBands_rel RunFrame RunFrame.refl RunFrame.trans
    (fun b _ rest s =>
      RunFrame.trans (b := bufferWrite b s) ⟨rfl, rfl, rfl, rfl, rfl, rfl, rfl, rfl⟩
        (runActs_frame rest _ _).toRunFrame) s

theorem runAll_frame (acts : List Act) (bands : List Band) (s : State) :
    RunFrame s (runAll acts bands s).state :=
  runAll_rel RunFrame RunFrame.trans (runActs_frame bands acts s).toRunFrame (runBands_frame bands)

/-- Actions alone leave FB unchanged. -/
theorem runAll_fb (acts : List Act) (s : State) : (runAll acts [] s).state.fb = s.fb := by
  have := (runActs_frame [] acts s).fb
  unfold runAll
  cases h : runActs [] acts s <;> rw [h] at this <;> exact this

/-! ### The three ends of an operation -/

/-- How an operation ends: done, PanelTimeout, or in flight. -/
theorem runOperation_cases (opc : Byte) (len : Nat) (acts : List Act) (bands : List Band) (s : State) :
    (∃ s1, runAll acts bands s = .done s1 ∧ runOperation opc len acts bands s = finishOk opc len s1) ∨
    (∃ s1, runAll acts bands s = .timedOut s1 ∧
      runOperation opc len acts bands s = raiseTimeout opc len s1) ∨
    (∃ acts1 bands1 s1, runAll acts bands s = .held acts1 bands1 s1 ∧
      runOperation opc len acts bands s = { s1 with inFlight := some ⟨opc, len, acts1, bands1⟩ }) := by
  unfold runOperation
  cases h : runAll acts bands s with
  | done s1 => exact .inl ⟨s1, rfl, rfl⟩
  | timedOut s1 => exact .inr (.inl ⟨s1, rfl, rfl⟩)
  | held a b s1 => exact .inr (.inr ⟨a, b, s1, rfl, rfl⟩)

/-! ### Which polls can end how -/

/-- A poll under a finite budget is never held. -/
theorem waitBudget_ne_held (n : Nat) (s s1 : State) : waitBudget n s ≠ .held s1 := by
  induction n generalizing s with
  | zero => unfold waitBudget; split <;> simp
  | succ n ih => unfold waitBudget; split <;> simp [ih]

/-- A poll under UNBOUNDED never times out (60_exceptions.md R210). -/
theorem waitUnbounded_ne_timedOut (q : List Level) (s s1 : State) : waitUnbounded q s ≠ .timedOut s1 := by
  induction q generalizing s with
  | nil => unfold waitUnbounded; split <;> simp
  | cons l q ih => unfold waitUnbounded; split <;> simp [ih]

theorem waitIdleI_held {s s1 : State} (h : waitIdleI s = .held s1) : s.cfg.busyBudget = none := by
  unfold waitIdleI at h
  split at h
  · exact absurd h (waitBudget_ne_held _ _ _)
  · assumption

theorem waitIdleI_timedOut {s s1 : State} (h : waitIdleI s = .timedOut s1) :
    ∃ b, s.cfg.busyBudget = some b := by
  unfold waitIdleI at h
  split at h
  · exact ⟨_, by assumption⟩
  · exact absurd h (waitUnbounded_ne_timedOut _ _ _)

theorem runAct_held {a : Act} {s s1 : State} (h : runAct a s = .held s1) : s.cfg.busyBudget = none := by
  cases a with
  | cmd op8 =>
    simp only [runAct, sendCommandI] at h
    split at h
    · cases hw : waitIdleI s with
      | done s2 => simp [hw] at h
      | timedOut s2 => simp [hw] at h
      | held s2 => exact waitIdleI_held hw
    · simp at h
  | waitIdle => exact waitIdleI_held h
  | _ => simp [runAct] at h

theorem runAct_timedOut {a : Act} {s s1 : State} (h : runAct a s = .timedOut s1) :
    ∃ b, s.cfg.busyBudget = some b := by
  cases a with
  | cmd op8 =>
    simp only [runAct, sendCommandI] at h
    split at h
    · cases hw : waitIdleI s with
      | done s2 => simp [hw] at h
      | timedOut s2 => exact waitIdleI_timedOut hw
      | held s2 => simp [hw] at h
    · simp at h
  | waitIdle => exact waitIdleI_timedOut h
  | _ => simp [runAct] at h

/-- An action that holds is one that polls, and it holds nothing else. -/
theorem runAct_held_polls {a : Act} {s s1 : State} (h : runAct a s = .held s1) :
    (∃ op8, a = .cmd op8) ∨ a = .waitIdle := by
  cases a with
  | cmd op8 => exact .inl ⟨op8, rfl⟩
  | waitIdle => exact .inr rfl
  | _ => simp [runAct] at h

/-- What a run that holds leaves: a suffix of its actions, the poll first, under UNBOUNDED. -/
theorem runActs_held {bands bands1 : List Band} {acts acts1 : List Act} {s s1 : State}
    (h : runActs bands acts s = .held acts1 bands1 s1) :
    bands1 = bands ∧ acts1 <:+ acts ∧ s.cfg.busyBudget = none ∧
      ∃ a rest, acts1 = a :: rest ∧ ((∃ op8, a = .cmd op8) ∨ a = .waitIdle) := by
  induction acts generalizing s with
  | nil => simp [runActs] at h
  | cons a acts ih =>
    unfold runActs at h
    cases hr : runAct a s with
    | done s2 =>
      simp only [hr] at h
      obtain ⟨h1, h2, h3, h4⟩ := ih h
      have := (runAct_frame a s).cfg
      rw [hr] at this
      exact ⟨h1, h2.trans (List.suffix_cons _ _), by rw [← this]; exact h3, h4⟩
    | timedOut s2 => simp [hr] at h
    | held s2 =>
      simp only [hr, RunResult.held.injEq] at h
      obtain ⟨rfl, rfl, rfl⟩ := h
      exact ⟨rfl, List.suffix_rfl, runAct_held hr, a, acts, rfl, runAct_held_polls hr⟩

theorem runActs_timedOut {bands : List Band} {acts : List Act} {s s1 : State}
    (h : runActs bands acts s = .timedOut s1) : ∃ b, s.cfg.busyBudget = some b := by
  induction acts generalizing s with
  | nil => simp [runActs] at h
  | cons a acts ih =>
    unfold runActs at h
    cases hr : runAct a s with
    | done s2 =>
      simp only [hr] at h
      have := (runAct_frame a s).cfg
      rw [hr] at this
      obtain ⟨b, hb⟩ := ih h
      exact ⟨b, by rw [← this]; exact hb⟩
    | timedOut s2 => exact runAct_timedOut hr
    | held s2 => simp [hr] at h

theorem runBands_timedOut {bands : List Band} {s s1 : State} (h : runBands bands s = .timedOut s1) :
    ∃ b, s.cfg.busyBudget = some b := by
  induction bands generalizing s with
  | nil => simp [runBands] at h
  | cons b bands ih =>
    unfold runBands at h
    cases hr : runActs bands (transmitActs b (bufferWrite b s)) (bufferWrite b s) with
    | done s2 =>
      simp only [hr] at h
      have := (runActs_frame bands (transmitActs b (bufferWrite b s)) (bufferWrite b s)).cfg
      rw [hr] at this
      obtain ⟨n, hn⟩ := ih h
      exact ⟨n, by rw [show s.cfg = s2.cfg from this.symm]; exact hn⟩
    | timedOut s2 => exact runActs_timedOut (s := bufferWrite b s) hr
    | held a bs s2 => simp [hr] at h

/-- Only a finite budget times out (60_exceptions.md R210). -/
theorem runAll_timedOut {acts : List Act} {bands : List Band} {s s1 : State}
    (h : runAll acts bands s = .timedOut s1) : ∃ b, s.cfg.busyBudget = some b := by
  unfold runAll at h
  cases hr : runActs bands acts s with
  | done s2 =>
    simp only [hr] at h
    have := (runActs_frame bands acts s).cfg
    rw [hr] at this
    obtain ⟨b, hb⟩ := runBands_timedOut h
    exact ⟨b, by rw [← this]; exact hb⟩
  | timedOut s2 => exact runActs_timedOut hr
  | held a b s2 => simp [hr] at h

end Sys2Proof.Machine
end

