-- ==== Sys2Proof/Laws/Acts.lean ====
section
/-! SUPPORT. Which actions the action lists hold, and what a run that holds leaves. -/

namespace Sys2Proof.Machine

/-- An action that changes `pstate` and `mode` in no case: not the reset pulse, not the entry into a panel
state. -/
def Act.plain : Act → Bool
  | .resetPulse => false
  | .enterMode _ => false
  | .enterSleep => false
  | _ => true

theorem Act.entersPState_of_plain {a : Act} (h : a.plain = true) : a.entersPState = false := by
  cases a <;> simp_all [Act.plain, Act.entersPState]

theorem plain_actOfStep (st : ProtoStep) : (actOfStep st).plain = true := by cases st <;> rfl

theorem programsLut_actOfStep (st : ProtoStep) : (actOfStep st).programsLut = false := by cases st <;> rfl

theorem plain_stepActs {steps : List ProtoStep} {a : Act} (h : a ∈ stepActs steps) : a.plain = true := by
  obtain ⟨st, -, rfl⟩ := List.mem_map.1 h
  exact plain_actOfStep st

theorem programsLut_stepActs {steps : List ProtoStep} {a : Act} (h : a ∈ stepActs steps) :
    a.programsLut = false := by
  obtain ⟨st, -, rfl⟩ := List.mem_map.1 h
  exact programsLut_actOfStep st

/-- The five pairs, written out (41_panel_protocol.md R136). -/
theorem programLutActs_eq (t : V1Table) (cls : LutClass) : programLutActs t cls =
    [.setLut none, .cmd t.opLut.vcom, .data (t.lut.get cls).vcom, .cmd t.opLut.ww, .data (t.lut.get cls).ww,
      .cmd t.opLut.bw, .data (t.lut.get cls).bw, .cmd t.opLut.wb, .data (t.lut.get cls).wb,
      .cmd t.opLut.bb, .data (t.lut.get cls).bb, .setLut (some cls)] := rfl

theorem plain_programLutActs {t : V1Table} {cls : LutClass} {a : Act} (h : a ∈ programLutActs t cls) :
    a.plain = true := by
  rw [programLutActs_eq] at h
  fin_cases h <;> rfl

theorem variant_v1_iff (c : Cfg) : c.variant = .v1 ↔ ∃ t, c.p.variantTable = .v1 t := by
  unfold Cfg.variant
  cases h : c.p.variantTable <;> simp [VariantTable.variant]

theorem variant_v2_iff (c : Cfg) : c.variant = .v2 ↔ c.p.variantTable = .v2 := by
  unfold Cfg.variant
  cases h : c.p.variantTable <;> simp [VariantTable.variant]

theorem restoreLutActs_eq (s : State) : restoreLutActs s = [] ∨
    ∃ t, s.cfg.p.variantTable = .v1 t ∧ restoreLutActs s = programLutActs t (modeLut s.mode) := by
  unfold restoreLutActs
  split
  · split
    · exact .inl rfl
    · exact .inr ⟨_, ‹_›, rfl⟩
  · exact .inl rfl

theorem secondaryActs_eq (c : Cfg) (bytes : List Byte) : secondaryActs c bytes = [] ∨
    ∃ t : V1Table, secondaryActs c bytes =
      [.setOState .commandSecondary, .cmd t.opRamSecondary, .data bytes] := by
  unfold secondaryActs
  split
  · exact .inr ⟨_, rfl⟩
  · exact .inl rfl

theorem partialLutActs_eq (c : Cfg) : partialLutActs c = [] ∨
    ∃ t, c.p.variantTable = .v1 t ∧ partialLutActs c = programLutActs t .part := by
  unfold partialLutActs
  split
  · exact .inr ⟨_, ‹_›, rfl⟩
  · exact .inl rfl

theorem initLutActs_eq (c : Cfg) (m : Mode) : initLutActs c m = [] ∨
    ∃ t, c.p.variantTable = .v1 t ∧ initLutActs c m = programLutActs t (modeLut m) := by
  unfold initLutActs
  split
  · exact .inr ⟨_, ‹_›, rfl⟩
  · exact .inl rfl

/-- An action of a transmission is plain, and programs a LUT on V1 only. -/
def TransmitAct (c : Cfg) (a : Act) : Prop :=
  a.plain = true ∧ (c.variant = .v2 → a.programsLut = false)

theorem transmitAct_stepActs {c : Cfg} {steps : List ProtoStep} {a : Act} (h : a ∈ stepActs steps) :
    TransmitAct c a := ⟨plain_stepActs h, fun _ => programsLut_stepActs h⟩

theorem transmitAct_programLut {c : Cfg} {t : V1Table} (hv : c.p.variantTable = .v1 t) {cls : LutClass}
    {a : Act} (h : a ∈ programLutActs t cls) : TransmitAct c a :=
  ⟨plain_programLutActs h, fun h2 => by rw [variant_v2_iff, hv] at h2; cases h2⟩

theorem transmitAct_secondary {c : Cfg} {bytes : List Byte} {a : Act} (h : a ∈ secondaryActs c bytes) :
    TransmitAct c a := by
  rcases secondaryActs_eq c bytes with e | ⟨t, e⟩ <;> rw [e] at h
  · cases h
  · fin_cases h <;> exact ⟨rfl, fun _ => rfl⟩

theorem transmitAct_restoreLut {s : State} {a : Act} (h : a ∈ restoreLutActs s) : TransmitAct s.cfg a := by
  rcases restoreLutActs_eq s with e | ⟨t, hv, e⟩ <;> rw [e] at h
  · cases h
  · exact transmitAct_programLut hv h

theorem transmitAct_partialLut {c : Cfg} {a : Act} (h : a ∈ partialLutActs c) : TransmitAct c a := by
  rcases partialLutActs_eq c with e | ⟨t, hv, e⟩ <;> rw [e] at h
  · cases h
  · exact transmitAct_programLut hv h

theorem transmitAct_initLut {c : Cfg} {m : Mode} {a : Act} (h : a ∈ initLutActs c m) : TransmitAct c a := by
  rcases initLutActs_eq c m with e | ⟨t, hv, e⟩ <;> rw [e] at h
  · cases h
  · exact transmitAct_programLut hv h

theorem transmitAct_displayFull {s : State} {a : Act} (h : a ∈ displayFullActs s) : TransmitAct s.cfg a := by
  simp only [displayFullActs, List.mem_append] at h
  rcases h with ((((((h | h) | h) | h) | h) | h) | h) | h
  · fin_cases h; exact ⟨rfl, fun _ => rfl⟩
  · exact transmitAct_restoreLut h
  · exact transmitAct_stepActs h
  · fin_cases h <;> exact ⟨rfl, fun _ => rfl⟩
  · exact transmitAct_secondary h
  · fin_cases h; exact ⟨rfl, fun _ => rfl⟩
  · exact transmitAct_stepActs h
  · fin_cases h <;> exact ⟨rfl, fun _ => rfl⟩

theorem transmitAct_displayPartial {win : Window} {s : State} {a : Act} (h : a ∈ displayPartialActs win s) :
    TransmitAct s.cfg a := by
  simp only [displayPartialActs, List.mem_append] at h
  rcases h with (((((((((h | h) | h) | h) | h) | h) | h) | h) | h) | h) | h
  · fin_cases h; exact ⟨rfl, fun _ => rfl⟩
  · exact transmitAct_partialLut h
  · exact transmitAct_stepActs h
  · exact transmitAct_stepActs h
  · fin_cases h <;> exact ⟨rfl, fun _ => rfl⟩
  · exact transmitAct_secondary h
  · fin_cases h; exact ⟨rfl, fun _ => rfl⟩
  · exact transmitAct_stepActs h
  · fin_cases h <;> exact ⟨rfl, fun _ => rfl⟩
  · exact transmitAct_stepActs h
  · fin_cases h <;> exact ⟨rfl, fun _ => rfl⟩

/-- The two transmissions a `DrawBody` chooses from. -/
theorem transmitActs_cases (b : Band) (s : State) :
    ((s.mode ≠ .partialFast ∨ forcesFull s = true) ∧ transmitActs b s = displayFullActs s) ∨
    (s.mode = .partialFast ∧ forcesFull s = false ∧
      transmitActs b s = displayPartialActs (bandWindow b) s) := by
  unfold transmitActs
  cases hm : s.mode with
  | partialFast =>
    cases hf : forcesFull s <;> simp
  | blackWhite => simp
  | gray4 => simp

theorem transmitAct_transmit {b : Band} {s : State} {a : Act} (h : a ∈ transmitActs b s) :
    TransmitAct s.cfg a := by
  rcases transmitActs_cases b s with ⟨-, e⟩ | ⟨-, -, e⟩ <;> rw [e] at h
  · exact transmitAct_displayFull h
  · exact transmitAct_displayPartial h

/-! ### Runs over appended actions -/

/-- A run of `a ++ b` is a run of `a` and then one of `b`. -/
theorem runActs_append (bands : List Band) (a b : List Act) (s : State) :
    runActs bands (a ++ b) s =
      match runActs bands a s with
      | .done s1 => runActs bands b s1
      | .timedOut s1 => .timedOut s1
      | .held acts bs s1 => .held (acts ++ b) bs s1 := by
  induction a generalizing s with
  | nil => rfl
  | cons x a ih =>
    simp only [List.cons_append, runActs]
    cases h : runAct x s with
    | done s1 => exact ih s1
    | timedOut s1 => rfl
    | held s1 => rfl

theorem runActs_append_done {bands : List Band} {a b : List Act} {s s1 : State}
    (h : runActs bands a s = .done s1) : runActs bands (a ++ b) s = runActs bands b s1 := by
  rw [runActs_append, h]

/-- What a run of bands that holds leaves: the end of a band's transmission, the poll first, and the bands
after it. -/
theorem runBands_held {bands bands1 : List Band} {acts1 : List Act} {s s1 : State}
    (h : runBands bands s = .held acts1 bands1 s1) :
    s.cfg.busyBudget = none ∧ bands1 <:+ bands ∧
      (∃ b s2, s2.cfg = s.cfg ∧ acts1 <:+ transmitActs b (bufferWrite b s2)) ∧
      ∃ a rest, acts1 = a :: rest ∧ ((∃ op8, a = .cmd op8) ∨ a = .waitIdle) := by
  induction bands generalizing s with
  | nil => simp [runBands] at h
  | cons b bands ih =>
    unfold runBands at h
    cases hr : runActs bands (transmitActs b (bufferWrite b s)) (bufferWrite b s) with
    | done s2 =>
      simp only [hr] at h
      have hc := (runActs_frame bands (transmitActs b (bufferWrite b s)) (bufferWrite b s)).cfg
      rw [hr] at hc
      have hc : s2.cfg = s.cfg := hc
      obtain ⟨h1, h2, ⟨b', s3, h3, h4⟩, h5⟩ := ih h
      exact ⟨hc ▸ h1, h2.trans (List.suffix_cons _ _), ⟨b', s3, h3.trans hc, h4⟩, h5⟩
    | timedOut s2 => simp [hr] at h
    | held a bs s2 =>
      simp only [hr, RunResult.held.injEq] at h
      obtain ⟨rfl, rfl, rfl⟩ := h
      obtain ⟨rfl, h2, h3, h4⟩ := runActs_held hr
      exact ⟨h3, List.suffix_cons _ _, ⟨b, s, rfl, h2⟩, h4⟩

/-- What an operation that holds leaves: the end of its actions with all its bands, or the end of a band's
transmission and the bands after it. -/
theorem runAll_held {acts acts1 : List Act} {bands bands1 : List Band} {s s1 : State}
    (h : runAll acts bands s = .held acts1 bands1 s1) :
    s.cfg.busyBudget = none ∧
      ((acts1 <:+ acts ∧ bands1 = bands) ∨
       ((∃ b s2, s2.cfg = s.cfg ∧ acts1 <:+ transmitActs b (bufferWrite b s2)) ∧ bands1 <:+ bands ∧
          bands ≠ [])) ∧
      ∃ a rest, acts1 = a :: rest ∧ ((∃ op8, a = .cmd op8) ∨ a = .waitIdle) := by
  unfold runAll at h
  cases hr : runActs bands acts s with
  | done s2 =>
    simp only [hr] at h
    have hc := (runActs_frame bands acts s).cfg
    rw [hr] at hc
    have hc : s2.cfg = s.cfg := hc
    have hne : bands ≠ [] := by rintro rfl; simp [runBands] at h
    obtain ⟨h1, h2, ⟨b', s3, h3, h4⟩, h5⟩ := runBands_held h
    exact ⟨hc ▸ h1, .inr ⟨⟨b', s3, h3.trans hc, h4⟩, h2, hne⟩, h5⟩
  | timedOut s2 => simp [hr] at h
  | held a bs s2 =>
    simp only [hr, RunResult.held.injEq] at h
    obtain ⟨rfl, rfl, rfl⟩ := h
    obtain ⟨rfl, h2, h3, h4⟩ := runActs_held hr
    exact ⟨h3, .inl ⟨h2, rfl⟩, h4⟩

end Sys2Proof.Machine
end

