-- ==== Sys2Proof/Laws/Cases.lean ====
section
/-! SUPPORT. What `exec` and `step` can do, said once: every operation either finishes at once or runs actions,
with the conditions under which it does. -/

namespace Sys2Proof.Machine

/-- The operations that run actions: the actions, the bands, and the state they start in. -/
inductive Starts : Instr → State → List Act → List Band → State → Prop where
  | init (part gray : Bool) (steps : List ProtoStep) (s : State) (hf : ¬(part = true ∧ gray = true))
      (hs : s.cfg.initSeq (initMode part gray) = some steps) (h0 : s.bus.nextStatus = 0) :
      Starts (.init part gray) s (initActs s.cfg (initMode part gray) steps) []
        { s with bus := s.bus.busInit }
  | sleep (s : State) (hp : s.pstate = .initialized) :
      Starts .sleep s (stepActs s.cfg.p.sleepSeq ++ [.enterSleep]) [] s
  | waitIdle (s : State) : Starts .waitIdle s [.waitIdle] [] s
  | sendCommand (op8 : Byte) (s : State) : Starts (.sendCommand op8) s [.cmd op8] [] s
  | sendData (bytes : List Byte) (s : State) : Starts (.sendData bytes) s [.data bytes] [] s
  | setLut (cls : LutClass) (t : V1Table) (s : State) (hv : s.cfg.p.variantTable = .v1 t)
      (hp : s.pstate = .initialized) : Starts (.setLut cls) s (programLutActs t cls) [] s
  | displayFull (s : State) (hp : s.pstate = .initialized) :
      Starts .displayFull s (displayFullActs s) [] s
  | displayPartial (xs ys xe ye : Half) (s : State) (hp : s.pstate = .initialized)
      (hw : validWindow s.cfg (windowOf xs ys xe ye) = true) :
      Starts (.displayPartial xs ys xe ye) s (displayPartialActs (windowOf xs ys xe ye) s) [] s
  | draw (x y w h : Half) (img : List Word) (s : State) (hp : s.pstate = .initialized)
      (hz : ¬(w.toNat = 0 ∨ h.toNat = 0))
      (hb : inBoundsRect s.cfg x.toNat y.toNat w.toNat h.toNat = true) :
      Starts (.draw x y w h img) s [] [drawBand x y w h img] s
  | fill (color : Bool) (bh : Half) (s : State) (hp : s.pstate = .initialized) (hb : bh.toNat ≠ 0) :
      Starts (.fill color bh) s [] (fillBodies s.cfg color bh.toNat) s

/-- The operations that finish at once: the result, what the response carries, and the state that is
finished. -/
inductive Finishes : Instr → State → ResultCode → Bool → List Word → State → Prop where
  | error (i : Instr) (code : ResultCode) (s : State) (h1 : code ≠ .ok) (h2 : code ≠ .panelTimeout)
      (h3 : code ≠ .busInitFailure) : Finishes i s code false [] s
  | busInit (part gray : Bool) (s : State) (h0 : s.bus.nextStatus ≠ 0) :
      Finishes (.init part gray) s .busInitFailure false [] { s with bus := s.bus.busInit }
  | setPixel (v : Bool) (x y : Half) (s : State) (hb : inBoundsPix s.cfg x.toNat y.toNat = true) :
      Finishes (.setPixel v x y) s .ok false []
        { s with fb := writePixel s.cfg s.fb x.toNat y.toNat v }
  | getPixel (x y : Half) (s : State) (hb : inBoundsPix s.cfg x.toNat y.toNat = true) :
      Finishes (.getPixel x y) s .ok (pixelOf s.cfg s.fb x.toNat y.toNat) [] s
  | blit (x y w h : Half) (img : List Word) (s : State)
      (hb : inBoundsRect s.cfg x.toNat y.toNat w.toNat h.toNat = true) :
      Finishes (.blit x y w h img) s .ok false []
        { s with fb := blitCore s.cfg s.fb x.toNat y.toNat w.toNat h.toNat img }
  | readImage (s : State) : Finishes .readImage s .ok false (fbImage s.cfg s.fb) s
  | readReg (n : Half) (v : Word) (s : State) (hv : registerWord s n.toNat = some v) :
      Finishes (.readReg n) s .ok false [v] s
  | reset (s : State) : Finishes .reset s .ok false [] (resetPulse s)

/-- What an operation does. -/
theorem exec_cases {i : Instr} {s t : State} (h : exec i s = .next t) :
    (∃ acts bands s0, Starts i s acts bands s0 ∧
      t = runOperation (opcodeOf i) (lengthOf i) acts bands s0) ∨
    (∃ code pix data s0, Finishes i s code pix data s0 ∧
      t = finish (opcodeOf i) (lengthOf i) code pix data s0) := by
  have err : ∀ {code : ResultCode}, code ≠ .ok → code ≠ .panelTimeout → code ≠ .busInitFailure →
      t = raiseError (opcodeOf i) (lengthOf i) code s →
      (∃ acts bands s0, Starts i s acts bands s0 ∧
        t = runOperation (opcodeOf i) (lengthOf i) acts bands s0) ∨
      (∃ code pix data s0, Finishes i s code pix data s0 ∧
        t = finish (opcodeOf i) (lengthOf i) code pix data s0) :=
    fun h1 h2 h3 ht => .inr ⟨_, _, _, _, .error i _ s h1 h2 h3, ht⟩
  cases i with
  | setPixel v x y =>
    simp only [exec, execSetPixel, Host.Outcome.next.injEq] at h
    split at h
    · exact .inr ⟨_, _, _, _, .setPixel v x y s ‹_›, h.symm⟩
    · exact err (by simp) (by simp) (by simp) h.symm
  | getPixel x y =>
    simp only [exec, execGetPixel, Host.Outcome.next.injEq] at h
    split at h
    · exact .inr ⟨_, _, _, _, .getPixel x y s ‹_›, h.symm⟩
    · exact err (by simp) (by simp) (by simp) h.symm
  | blit x y w hh img =>
    simp only [exec, execBlit, Host.Outcome.next.injEq] at h
    split at h
    · exact .inr ⟨_, _, _, _, .blit x y w hh img s ‹_›, h.symm⟩
    · exact err (by simp) (by simp) (by simp) h.symm
  | readImage =>
    simp only [exec, execReadImage, Host.Outcome.next.injEq] at h
    exact .inr ⟨_, _, _, _, .readImage s, h.symm⟩
  | readReg n =>
    simp only [exec, execReadReg, Host.Outcome.next.injEq] at h
    split at h
    · exact .inr ⟨_, _, _, _, .readReg n _ s ‹_›, h.symm⟩
    · exact err (by simp) (by simp) (by simp) h.symm
  | reset =>
    simp only [exec, execReset, Host.Outcome.next.injEq] at h
    exact .inr ⟨_, _, _, _, .reset s, h.symm⟩
  | init part gray =>
    simp only [exec, execInit, Host.Outcome.next.injEq] at h
    split at h
    · exact err (by simp) (by simp) (by simp) h.symm
    · rename_i hf
      split at h
      · exact err (by simp) (by simp) (by simp) h.symm
      · rename_i steps hs
        simp only [initWith] at h
        split at h
        · exact .inl ⟨_, _, _, .init part gray steps s (by simpa using hf) hs ‹_›, h.symm⟩
        · exact .inr ⟨_, _, _, _, .busInit part gray s ‹_›, h.symm⟩
  | sleep =>
    simp only [exec, execSleep, Host.Outcome.next.injEq] at h
    split at h
    · exact .inl ⟨_, _, _, .sleep s ‹_›, h.symm⟩
    · exact err (by simp) (by simp) (by simp) h.symm
  | waitIdle =>
    simp only [exec, execWaitIdle, Host.Outcome.next.injEq] at h
    exact .inl ⟨_, _, _, .waitIdle s, h.symm⟩
  | sendCommand op8 =>
    simp only [exec, execSendCommand, Host.Outcome.next.injEq] at h
    exact .inl ⟨_, _, _, .sendCommand op8 s, h.symm⟩
  | sendData bytes =>
    simp only [exec, execSendData, Host.Outcome.next.injEq] at h
    exact .inl ⟨_, _, _, .sendData bytes s, h.symm⟩
  | setLut cls =>
    simp only [exec, execSetLut, Host.Outcome.next.injEq] at h
    split at h
    · exact err (by simp) (by simp) (by simp) h.symm
    · split at h
      · exact .inl ⟨_, _, _, .setLut cls _ s ‹_› ‹_›, h.symm⟩
      · exact err (by simp) (by simp) (by simp) h.symm
  | displayFull =>
    simp only [exec, execDisplayFull, Host.Outcome.next.injEq] at h
    split at h
    · exact .inl ⟨_, _, _, .displayFull s ‹_›, h.symm⟩
    · exact err (by simp) (by simp) (by simp) h.symm
  | displayPartial xs ys xe ye =>
    simp only [exec, execDisplayPartial, Host.Outcome.next.injEq] at h
    split at h
    · split at h
      · exact .inl ⟨_, _, _, .displayPartial xs ys xe ye s ‹_› ‹_›, h.symm⟩
      · exact err (by simp) (by simp) (by simp) h.symm
    · exact err (by simp) (by simp) (by simp) h.symm
  | draw x y w hh img =>
    simp only [exec, execDraw, Host.Outcome.next.injEq] at h
    split at h
    · split at h
      · exact err (by simp) (by simp) (by simp) h.symm
      · split at h
        · exact .inl ⟨_, _, _, .draw x y w hh img s ‹_› ‹_› ‹_›, h.symm⟩
        · exact err (by simp) (by simp) (by simp) h.symm
    · exact err (by simp) (by simp) (by simp) h.symm
  | fill color bh =>
    simp only [exec, execFill, Host.Outcome.next.injEq] at h
    split at h
    · split at h
      · exact err (by simp) (by simp) (by simp) h.symm
      · exact .inl ⟨_, _, _, .fill color bh s ‹_› ‹_›, h.symm⟩
    · exact err (by simp) (by simp) (by simp) h.symm

/-- What a step does. -/
theorem step_cases {s t : State} (h : step s = .next t) : s.cfg.valid = true ∧
    ((∃ f, s.inFlight = some f ∧ t = resumeOperation f s) ∨
     (s.inFlight = none ∧
      ((∃ i len, fetch s = .ok i len ∧ exec i s = .next t) ∨
       (∃ why opc len, fetch s = .illegal why opc len ∧ t = execIllegal opc len s) ∨
       (fetch s = .truncated ∧ t = s)))) := by
  unfold step at h
  split at h
  · refine ⟨‹_›, ?_⟩
    split at h
    · rename_i f hf
      exact .inl ⟨f, hf, (Host.Outcome.next.inj h).symm⟩
    · rename_i hf
      refine .inr ⟨hf, ?_⟩
      split at h
      · exact .inl ⟨_, _, ‹_›, h⟩
      · exact .inr (.inl ⟨_, _, _, ‹_›, (Host.Outcome.next.inj h).symm⟩)
      · exact .inr (.inr ⟨‹_›, (Host.Outcome.next.inj h).symm⟩)
  · cases h

end Sys2Proof.Machine
end

