-- ==== Sys2Proof/Laws/Memory.lean ====
section
/-! SUPPORT. The laws of the framebuffer's storage: read after write, the canonical form is kept, and
canonical memories that read alike are equal. -/

namespace Sys2Proof.Machine

theorem Memory.wfFrom_mono {fill : Byte} {lo lo' : Nat} {m : Memory} (h : lo' ≤ lo)
    (hw : Memory.wfFrom fill lo m = true) : Memory.wfFrom fill lo' m = true := by
  cases m with
  | nil => rfl
  | cons c rest =>
    obtain ⟨k, b⟩ := c
    simp only [Memory.wfFrom, Bool.and_eq_true, decide_eq_true_eq] at hw ⊢
    exact ⟨⟨by omega, hw.1.2⟩, hw.2⟩

/-- Below the first index of a canonical memory everything reads as the fill. -/
theorem Memory.read_of_lt {fill : Byte} {m : Memory} {lo a : Nat}
    (hw : Memory.wfFrom fill lo m = true) (h : a < lo) : Memory.read fill m a = fill := by
  induction m generalizing lo with
  | nil => rfl
  | cons c rest ih =>
    obtain ⟨k, b⟩ := c
    simp only [Memory.wfFrom, Bool.and_eq_true, decide_eq_true_eq] at hw
    have : a ≠ k := by omega
    simpa [Memory.read, this] using ih hw.2 (by omega)

/-- A read after a write, for every index. It needs the canonical form: the write may remove a cell. -/
theorem Memory.read_write {fill : Byte} {m : Memory} {lo : Nat} (hw : Memory.wfFrom fill lo m = true)
    (a : Nat) (v : Byte) (a' : Nat) :
    Memory.read fill (Memory.write fill m a v) a' = if a' = a then v else Memory.read fill m a' := by
  induction m generalizing lo with
  | nil => by_cases hv : v = fill <;> by_cases ha : a' = a <;> simp [Memory.write, Memory.read, hv, ha]
  | cons c rest ih =>
    obtain ⟨k, b⟩ := c
    simp only [Memory.wfFrom, Bool.and_eq_true, decide_eq_true_eq] at hw
    have hrest : ∀ {x}, x ≤ k → Memory.read fill rest x = fill := fun hx =>
      Memory.read_of_lt hw.2 (by omega)
    unfold Memory.write
    split
    · next hlt =>
      by_cases ha : a' = a
      · subst ha
        have hne : a' ≠ k := by omega
        by_cases hv : v = fill <;> simp [Memory.read, hv, hne, hrest (Nat.le_of_lt hlt)]
      · by_cases hv : v = fill <;> simp [Memory.read, hv, ha]
    · split
      · next _ heq =>
        subst heq
        by_cases ha : a' = a
        · subst ha
          by_cases hv : v = fill <;> simp [Memory.read, hv, hrest (Nat.le_refl _)]
        · by_cases hv : v = fill <;> simp [Memory.read, hv, ha]
      · next _ hne =>
        by_cases hk : a' = k
        · have : a' ≠ a := by omega
          simp [Memory.read, hk]
          intro h; omega
        · simp [Memory.read, hk, ih hw.2]

theorem Memory.wfFrom_write {fill : Byte} {m : Memory} {lo : Nat}
    (hw : Memory.wfFrom fill lo m = true) {a : Nat} (ha : lo ≤ a) (v : Byte) :
    Memory.wfFrom fill lo (Memory.write fill m a v) = true := by
  induction m generalizing lo with
  | nil => by_cases hv : v = fill <;> simp [Memory.write, Memory.wfFrom, hv, ha]
  | cons c rest ih =>
    obtain ⟨k, b⟩ := c
    simp only [Memory.wfFrom, Bool.and_eq_true, decide_eq_true_eq] at hw
    unfold Memory.write
    split
    · by_cases hv : v = fill
      · simp [Memory.wfFrom, hv, hw]
      · simp only [hv, if_false, Memory.wfFrom, Bool.and_eq_true, decide_eq_true_eq]
        exact ⟨⟨ha, hv⟩, ⟨by omega, hw.1.2⟩, hw.2⟩
    · split
      · by_cases hv : v = fill
        · simp only [hv, if_true]
          exact Memory.wfFrom_mono (by omega) hw.2
        · simp only [hv, if_false, Memory.wfFrom, Bool.and_eq_true, decide_eq_true_eq]
          exact ⟨⟨hw.1.1, hv⟩, hw.2⟩
      · simp only [Memory.wfFrom, Bool.and_eq_true, decide_eq_true_eq]
        exact ⟨hw.1, ih hw.2 (by omega)⟩

/-- Every write keeps the canonical form. -/
theorem Memory.wf_write {fill : Byte} {m : Memory} (hw : Memory.wf fill m = true) (a : Nat) (v : Byte) :
    Memory.wf fill (Memory.write fill m a v) = true :=
  Memory.wfFrom_write hw (Nat.zero_le a) v

theorem Memory.below_cons (n k : Nat) (b : Byte) (m : Memory) :
    Memory.below n ((k, b) :: m) = (decide (k < n) && Memory.below n m) := rfl

/-- A write below `n` lists no index from `n` on. -/
theorem Memory.below_write {fill : Byte} {m : Memory} {n : Nat} (hb : Memory.below n m = true) {a : Nat}
    (ha : a < n) (v : Byte) : Memory.below n (Memory.write fill m a v) = true := by
  induction m with
  | nil => by_cases hv : v = fill <;> simp [Memory.write, Memory.below, hv, ha]
  | cons c rest ih =>
    obtain ⟨k, b⟩ := c
    rw [Memory.below_cons, Bool.and_eq_true, decide_eq_true_eq] at hb
    have hrest := ih hb.2
    unfold Memory.write
    split
    · by_cases hv : v = fill <;> simp [hv, Memory.below_cons, hb, ha]
    · split
      · by_cases hv : v = fill <;> simp [hv, Memory.below_cons, hb]
      · rw [Memory.below_cons, hrest]
        simp [hb]

theorem Memory.wf_nil (fill : Byte) : Memory.wf fill [] = true := rfl

theorem Memory.below_nil (n : Nat) : Memory.below n [] = true := rfl

/-- Canonical memories that read alike at every index are the same list. -/
theorem Memory.eq_of_read_eq {fill : Byte} {m m' : Memory} {lo : Nat}
    (hw : Memory.wfFrom fill lo m = true) (hw' : Memory.wfFrom fill lo m' = true)
    (h : ∀ a, Memory.read fill m a = Memory.read fill m' a) : m = m' := by
  induction m generalizing lo m' with
  | nil =>
    cases m' with
    | nil => rfl
    | cons c rest =>
      obtain ⟨k, b⟩ := c
      simp only [Memory.wfFrom, Bool.and_eq_true, decide_eq_true_eq] at hw'
      exact absurd (by simpa [Memory.read] using (h k).symm) hw'.1.2
  | cons c rest ih =>
    obtain ⟨k, b⟩ := c
    simp only [Memory.wfFrom, Bool.and_eq_true, decide_eq_true_eq] at hw
    cases m' with
    | nil => exact absurd (by simpa [Memory.read] using h k) hw.1.2
    | cons c' rest' =>
      obtain ⟨k', b'⟩ := c'
      simp only [Memory.wfFrom, Bool.and_eq_true, decide_eq_true_eq] at hw'
      have hk : k = k' := by
        rcases Nat.lt_trichotomy k k' with hlt | heq | hgt
        · have := h k
          rw [Memory.read, if_pos rfl, Memory.read, if_neg (by omega),
            Memory.read_of_lt hw'.2 (by omega)] at this
          exact absurd this hw.1.2
        · exact heq
        · have := h k'
          rw [Memory.read, if_neg (by omega), Memory.read_of_lt hw.2 (by omega), Memory.read,
            if_pos rfl] at this
          exact absurd this.symm hw'.1.2
      subst hk
      have hb : b = b' := by simpa [Memory.read] using h k
      subst hb
      have : rest = rest' := ih hw.2 hw'.2 fun a => by
        by_cases ha : a = k
        · subst ha
          rw [Memory.read_of_lt hw.2 (by omega), Memory.read_of_lt hw'.2 (by omega)]
        · simpa [Memory.read, ha] using h a
      rw [this]

end Sys2Proof.Machine
end

