-- ==== Sys2Proof/Laws/Pixel.lean ====
section
/-! SUPPORT. The laws of the framebuffer as pixels: what a pixel write, a row and a blit do to every pixel
and to every byte, and that they keep the canonical form (40_framebuffer.md R111 to R113). -/

namespace Sys2Proof.Machine

/-! ### Bits of a byte -/

theorem getLsbD_pixelMask (x i : Nat) : (pixelMask x).getLsbD i = decide (i = 7 - x % 8) := by
  have h : x % 8 < 8 := Nat.mod_lt _ (by decide)
  unfold pixelMask
  generalize x % 8 = r at h
  have h128 : ∀ j, (0x80#8).getLsbD j = decide (j = 7) := by
    intro j
    by_cases hj : j < 8
    · interval_cases j <;> rfl
    · rw [BitVec.getLsbD_of_ge _ _ (by omega)]
      simp; omega
  rw [BitVec.getLsbD_ushiftRight, h128]
  simp; omega

theorem getLsbD_putBits (b : Byte) (x : Nat) (v : Bool) {i : Nat} (hi : i < 8) :
    (putBits b (pixelMask x) v).getLsbD i = if i = 7 - x % 8 then v else b.getLsbD i := by
  unfold putBits
  cases v <;> by_cases h : i = 7 - x % 8 <;>
    simp only [if_true, if_false, Bool.false_eq_true, BitVec.getLsbD_and, BitVec.getLsbD_or,
      BitVec.getLsbD_not, getLsbD_pixelMask, h, hi, decide_true, decide_false, Bool.not_true,
      Bool.and_false, Bool.or_true, Bool.or_false, Bool.not_false, Bool.and_true]

theorem and_pixelMask_ne_zero (b : Byte) (x : Nat) :
    (b &&& pixelMask x ≠ 0) ↔ b.getLsbD (7 - x % 8) = true := by
  constructor
  · intro h
    by_contra hb
    apply h
    apply BitVec.eq_of_getLsbD_eq
    intro i hi
    simp only [BitVec.getLsbD_and, getLsbD_pixelMask]
    by_cases hx : i = 7 - x % 8
    · subst hx; simpa using hb
    · simp [hx]
  · intro h h0
    have := congrArg (fun b : Byte => b.getLsbD (7 - x % 8)) h0
    simp [getLsbD_pixelMask, h] at this

/-- A pixel is one bit of one byte (10_state.md R25). -/
theorem pixelOf_eq_bit (c : Cfg) (m : Memory) (x y : Nat) :
    pixelOf c m x y = (fbRead c m (pixelIndex c x y)).getLsbD (7 - x % 8) := by
  rw [Bool.eq_iff_iff]
  simp only [pixelOf, decide_eq_true_eq]
  exact and_pixelMask_ne_zero _ _

/-! ### Geometry -/

theorem rowBytes_mul {c : Cfg} (hg : c.width % 8 = 0) : 8 * c.rowBytes = c.width := by
  unfold Cfg.rowBytes; omega

theorem pixelIndex_div {c : Cfg} (hg : c.width % 8 = 0) {x : Nat} (hx : x < c.width) (y : Nat) :
    pixelIndex c x y / c.rowBytes = y ∧ pixelIndex c x y % c.rowBytes = x / 8 := by
  have h8 := rowBytes_mul hg
  have hlt : x / 8 < c.rowBytes := by omega
  have hpos : 0 < c.rowBytes := by omega
  unfold pixelIndex
  rw [Nat.add_comm, Nat.add_mul_div_right _ _ hpos, Nat.add_mul_mod_self_right]
  exact ⟨by rw [Nat.div_eq_of_lt hlt, Nat.zero_add], Nat.mod_eq_of_lt hlt⟩

theorem pixelIndex_inj {c : Cfg} (hg : c.width % 8 = 0) {x x' y y' : Nat} (hx : x < c.width)
    (hx' : x' < c.width) : pixelIndex c x y = pixelIndex c x' y' ↔ x / 8 = x' / 8 ∧ y = y' := by
  constructor
  · intro h
    have h1 := pixelIndex_div hg hx y
    have h2 := pixelIndex_div hg hx' y'
    rw [h] at h1
    exact ⟨h1.2.symm.trans h2.2, h1.1.symm.trans h2.1⟩
  · rintro ⟨h, rfl⟩
    simp [pixelIndex, h]

/-- PixelAddr lands below N_FB (20_memory.md R62). -/
theorem pixelIndex_lt {c : Cfg} (hg : c.width % 8 = 0) {x y : Nat} (hx : x < c.width)
    (hy : y < c.height) : pixelIndex c x y < c.fbSize := by
  have h8 := rowBytes_mul hg
  have hlt : x / 8 < c.rowBytes := by omega
  have hmul : (y + 1) * c.rowBytes ≤ c.height * c.rowBytes := Nat.mul_le_mul_right _ hy
  have hs : c.fbSize = c.height * c.rowBytes := by
    unfold Cfg.fbSize Cfg.rowBytes; exact Nat.mul_comm _ _
  unfold pixelIndex
  rw [hs]
  have : (y + 1) * c.rowBytes = y * c.rowBytes + c.rowBytes := Nat.succ_mul _ _
  omega

/-- Every framebuffer bit is a pixel: bit `i` of byte `k`. -/
theorem pixel_of_byte {c : Cfg} (hg : c.width % 8 = 0) {k i : Nat} (hk : k < c.fbSize) (hi : i < 8) :
    8 * (k % c.rowBytes) + (7 - i) < c.width ∧ k / c.rowBytes < c.height ∧
    pixelIndex c (8 * (k % c.rowBytes) + (7 - i)) (k / c.rowBytes) = k ∧
    7 - (8 * (k % c.rowBytes) + (7 - i)) % 8 = i := by
  have h8 := rowBytes_mul hg
  have hs : c.fbSize = c.rowBytes * c.height := rfl
  have hpos : 0 < c.rowBytes := by
    rcases Nat.eq_zero_or_pos c.rowBytes with h0 | h0
    · rw [hs, h0, Nat.zero_mul] at hk; omega
    · exact h0
  have hmod := Nat.mod_lt k hpos
  refine ⟨by omega, ?_, ?_, by omega⟩
  · rw [Nat.div_lt_iff_lt_mul hpos, Nat.mul_comm]; omega
  · unfold pixelIndex
    have hdiv : (8 * (k % c.rowBytes) + (7 - i)) / 8 = k % c.rowBytes := by omega
    rw [hdiv, Nat.mul_comm]
    exact Nat.div_add_mod k c.rowBytes

/-! ### One pixel -/

theorem fbRead_writePixel {c : Cfg} {m : Memory} (hw : Memory.wf c.fillByte m = true) (x y : Nat)
    (v : Bool) (k : Nat) :
    fbRead c (writePixel c m x y v) k =
      if k = pixelIndex c x y then putBits (fbRead c m k) (pixelMask x) v else fbRead c m k := by
  unfold writePixel fbWrite
  rw [fbRead, Memory.read_write hw]
  by_cases h : k = pixelIndex c x y
  · simp [h]
  · simp [h, fbRead]

theorem wf_writePixel {c : Cfg} {m : Memory} (hw : Memory.wf c.fillByte m = true) (x y : Nat) (v : Bool) :
    Memory.wf c.fillByte (writePixel c m x y v) = true :=
  Memory.wf_write hw _ _

theorem below_writePixel {c : Cfg} {m : Memory} (hg : c.width % 8 = 0)
    (hb : Memory.below c.fbSize m = true) {x y : Nat} (hx : x < c.width) (hy : y < c.height) (v : Bool) :
    Memory.below c.fbSize (writePixel c m x y v) = true :=
  Memory.below_write hb (pixelIndex_lt hg hx hy) _

/-- A pixel write changes that pixel and no other (40_framebuffer.md R113). -/
theorem pixelOf_writePixel {c : Cfg} {m : Memory} (hg : c.width % 8 = 0)
    (hw : Memory.wf c.fillByte m = true) {x x' : Nat} (hx : x < c.width) (hx' : x' < c.width) (y y' : Nat)
    (v : Bool) :
    pixelOf c (writePixel c m x y v) x' y' = if x' = x ∧ y' = y then v else pixelOf c m x' y' := by
  rw [pixelOf_eq_bit, pixelOf_eq_bit, fbRead_writePixel hw]
  by_cases h : pixelIndex c x' y' = pixelIndex c x y
  · rw [if_pos h, getLsbD_putBits _ _ _ (by omega)]
    have hxy := (pixelIndex_inj hg hx' hx).1 h
    by_cases hb : 7 - x' % 8 = 7 - x % 8
    · have : x' = x := by omega
      simp [this, hxy.2]
    · have : x' ≠ x := fun h => hb (by rw [h])
      simp [hb, this]
  · have : ¬(x' = x ∧ y' = y) := fun h' => h (by rw [h'.1, h'.2])
    simp [h, this]

/-! ### A fold of pixel writes keeps the form -/

theorem foldl_keeps {α β : Type} {P : β → Prop} {f : β → α → β} {l : List α}
    (hf : ∀ a ∈ l, ∀ b, P b → P (f b a)) : ∀ b, P b → P (l.foldl f b) := by
  induction l with
  | nil => exact fun _ h => h
  | cons a l ih =>
    intro b hb
    exact ih (fun a' ha' => hf a' (List.mem_cons_of_mem _ ha')) _ (hf a List.mem_cons_self b hb)

theorem wf_writeRow {c : Cfg} {m : Memory} (hw : Memory.wf c.fillByte m = true) (x y w : Nat)
    (pix : Nat → Bool) : Memory.wf c.fillByte (writeRow c m x y w pix) = true :=
  foldl_keeps (P := fun m => Memory.wf c.fillByte m = true) (fun _ _ _ h => wf_writePixel h _ _ _) m hw

/-- A blit keeps the canonical form. -/
theorem wf_blitCore {c : Cfg} {m : Memory} (hw : Memory.wf c.fillByte m = true) (x y w h : Nat)
    (img : List Word) : Memory.wf c.fillByte (blitCore c m x y w h img) = true :=
  foldl_keeps (P := fun m => Memory.wf c.fillByte m = true) (fun _ _ _ h => wf_writeRow h _ _ _ _) m hw

/-- A blit inside the buffer writes below N_FB only (10_state.md R24). -/
theorem below_blitCore {c : Cfg} {m : Memory} (hg : c.width % 8 = 0)
    (hb : Memory.below c.fbSize m = true) {x y w h : Nat} (hin : inBoundsRect c x y w h = true)
    (img : List Word) : Memory.below c.fbSize (blitCore c m x y w h img) = true := by
  simp only [inBoundsRect, Bool.and_eq_true, decide_eq_true_eq] at hin
  refine foldl_keeps (P := fun m => Memory.below c.fbSize m = true) (fun j hj m hm => ?_) m hb
  refine foldl_keeps (P := fun m => Memory.below c.fbSize m = true) (fun i hi m hm => ?_) m hm
  rw [List.mem_range] at hi hj
  exact below_writePixel hg hm (by omega) (by omega) _

/-! ### A row and a rectangle -/

/-- A row write sets the pixels of the row and no other. -/
theorem pixelOf_writeRow {c : Cfg} {m : Memory} (hg : c.width % 8 = 0)
    (hw : Memory.wf c.fillByte m = true) {x w : Nat} (hin : x + w ≤ c.width) (y : Nat) (pix : Nat → Bool)
    {x' : Nat} (hx' : x' < c.width) (y' : Nat) :
    pixelOf c (writeRow c m x y w pix) x' y' =
      if y' = y ∧ x ≤ x' ∧ x' < x + w then pix (x' - x) else pixelOf c m x' y' := by
  induction w with
  | zero =>
    have : ¬(y' = y ∧ x ≤ x' ∧ x' < x + 0) := by omega
    rw [if_neg this]; rfl
  | succ w ih =>
    have hrow : writeRow c m x y (w + 1) pix =
        writePixel c (writeRow c m x y w pix) (x + w) y (pix w) := by
      simp [writeRow, List.range_succ]
    rw [hrow, pixelOf_writePixel hg (wf_writeRow hw _ _ _ _) (by omega) hx', ih (by omega)]
    by_cases h1 : x' = x + w ∧ y' = y
    · have h2 : y' = y ∧ x ≤ x' ∧ x' < x + (w + 1) := by omega
      have h3 : x' - x = w := by omega
      rw [if_pos h1, if_pos h2, h3]
    · rw [if_neg h1]
      by_cases h2 : y' = y ∧ x ≤ x' ∧ x' < x + w
      · rw [if_pos h2, if_pos (by omega)]
      · rw [if_neg h2, if_neg (by omega)]

/-- A blit sets the pixels of its rectangle from the image and no other pixel (40_framebuffer.md R111). -/
theorem pixelOf_blitCore {c : Cfg} {m : Memory} (hg : c.width % 8 = 0)
    (hw : Memory.wf c.fillByte m = true) {x y w h : Nat} (hin : inBoundsRect c x y w h = true)
    (img : List Word) {x' : Nat} (hx' : x' < c.width) (y' : Nat) :
    pixelOf c (blitCore c m x y w h img) x' y' =
      if (x ≤ x' ∧ x' < x + w) ∧ y ≤ y' ∧ y' < y + h then imgBit img w (x' - x) (y' - y)
      else pixelOf c m x' y' := by
  simp only [inBoundsRect, Bool.and_eq_true, decide_eq_true_eq] at hin
  have hxw := hin.1
  clear hin
  induction h with
  | zero =>
    rw [if_neg (by omega)]; rfl
  | succ h ih =>
    have hblit : blitCore c m x y w (h + 1) img =
        writeRow c (blitCore c m x y w h img) x (y + h) w fun i => imgBit img w i h := by
      simp [blitCore, List.range_succ]
    rw [hblit, pixelOf_writeRow hg (wf_blitCore hw _ _ _ _ _) hxw _ _ hx', ih]
    by_cases h1 : y' = y + h ∧ x ≤ x' ∧ x' < x + w
    · have h3 : y' - y = h := by omega
      rw [if_pos h1, if_pos (by omega), h3]
    · rw [if_neg h1]
      by_cases h2 : (x ≤ x' ∧ x' < x + w) ∧ y ≤ y' ∧ y' < y + h
      · rw [if_pos h2, if_pos (by omega)]
      · rw [if_neg h2, if_neg (by omega)]

/-- A blit inside the buffer leaves every index from N_FB on. -/
theorem fbRead_blitCore_ge {c : Cfg} {m : Memory} (hg : c.width % 8 = 0)
    (hw : Memory.wf c.fillByte m = true) {x y w h : Nat} (hin : inBoundsRect c x y w h = true)
    (img : List Word) {k : Nat} (hk : c.fbSize ≤ k) :
    fbRead c (blitCore c m x y w h img) k = fbRead c m k := by
  simp only [inBoundsRect, Bool.and_eq_true, decide_eq_true_eq] at hin
  refine (foldl_keeps (P := fun m' => Memory.wf c.fillByte m' = true ∧ fbRead c m' k = fbRead c m k)
    (fun j hj m' hm' => ?_) m ⟨hw, rfl⟩).2
  refine foldl_keeps (P := fun m' => Memory.wf c.fillByte m' = true ∧ fbRead c m' k = fbRead c m k)
    (fun i hi m' hm' => ?_) m' hm'
  rw [List.mem_range] at hi hj
  have hlt : pixelIndex c (x + i) (y + j) < c.fbSize := pixelIndex_lt hg (by omega) (by omega)
  refine ⟨wf_writePixel hm'.1 _ _ _, ?_⟩
  rw [fbRead_writePixel hm'.1, if_neg (by omega)]
  exact hm'.2

/-! ### From pixels back to bytes -/

/-- Two framebuffers with the same pixels have the same bytes. -/
theorem fbRead_eq_of_pixels {c : Cfg} {m m' : Memory} (hg : c.width % 8 = 0)
    (h : ∀ x y, x < c.width → y < c.height → pixelOf c m x y = pixelOf c m' x y) {k : Nat}
    (hk : k < c.fbSize) : fbRead c m k = fbRead c m' k := by
  apply BitVec.eq_of_getLsbD_eq
  intro i hi
  obtain ⟨hx, hy, hidx, hbit⟩ := pixel_of_byte hg hk hi
  have := h _ _ hx hy
  rwa [pixelOf_eq_bit, pixelOf_eq_bit, hidx, hbit] at this

/-- An index from N_FB on reads as the fill. -/
theorem fbRead_of_ge {c : Cfg} {m : Memory} (hb : Memory.below c.fbSize m = true) {k : Nat}
    (hk : c.fbSize ≤ k) : fbRead c m k = c.fillByte := by
  unfold fbRead
  induction m with
  | nil => rfl
  | cons cell rest ih =>
    obtain ⟨a, b⟩ := cell
    rw [Memory.below_cons, Bool.and_eq_true, decide_eq_true_eq] at hb
    have : k ≠ a := by omega
    simpa [Memory.read, this] using ih hb.2

/-- Two framebuffers inside the buffer with the same pixels read alike at every index. -/
theorem fbRead_eq_of_pixels_of_below {c : Cfg} {m m' : Memory} (hg : c.width % 8 = 0)
    (hb : Memory.below c.fbSize m = true) (hb' : Memory.below c.fbSize m' = true)
    (h : ∀ x y, x < c.width → y < c.height → pixelOf c m x y = pixelOf c m' x y) (k : Nat) :
    fbRead c m k = fbRead c m' k := by
  rcases Nat.lt_or_ge k c.fbSize with hk | hk
  · exact fbRead_eq_of_pixels hg h hk
  · rw [fbRead_of_ge hb hk, fbRead_of_ge hb' hk]

/-- Two canonical framebuffers inside the buffer with the same pixels are the same. -/
theorem fb_eq_of_pixels {c : Cfg} {m m' : Memory} (hg : c.width % 8 = 0)
    (hw : Memory.wf c.fillByte m = true) (hw' : Memory.wf c.fillByte m' = true)
    (hb : Memory.below c.fbSize m = true) (hb' : Memory.below c.fbSize m' = true)
    (h : ∀ x y, x < c.width → y < c.height → pixelOf c m x y = pixelOf c m' x y) : m = m' :=
  Memory.eq_of_read_eq hw hw' (fbRead_eq_of_pixels_of_below hg hb hb' h)

end Sys2Proof.Machine
end

