-- ==== Sys2Proof/Laws/Report.lean ====
section
/-! SUPPORT. What the completion of a descriptor records (60_exceptions.md R202), field by field, and the fields
of the register words. -/

namespace Sys2Proof.Machine

theorem ResultCode.toNat_lt (r : ResultCode) : r.toNat < 9 := by cases r <;> decide

theorem ResultCode.toNat_inj {a b : ResultCode} (h : a.toNat = b.toNat) : a = b := by
  cases a <;> cases b <;> simp_all [ResultCode.toNat]

/-- The model's result codes are numbered as the table of 60_exceptions.md R200. -/
theorem resultNumber_eq (r : ResultCode) : resultNumber r = r.toNat := by cases r <;> rfl

theorem resultNumber_lt (r : ResultCode) : resultNumber r < 9 := by cases r <;> decide

/-- The sticky bits after a completion (10_state.md R35). -/
theorem getLsbD_stickyAfter (e : BitVec 9) (code : ResultCode) {k : Nat} (hk : k < 9) :
    (stickyAfter e code).getLsbD k =
      (e.getLsbD k || (decide (code ≠ .ok) && decide (k = resultNumber code))) := by
  rw [resultNumber_eq]
  unfold stickyAfter
  split
  · simp_all
  · rename_i hc
    rw [BitVec.getLsbD_or, BitVec.getLsbD_twoPow]
    simp [hc, hk, eq_comm, ResultCode.toNat_lt]

/-- The fields of a response's first word (30_encoding.md R94). -/
theorem responseFields (opc : Byte) (pix : Bool) (code : ResultCode) :
    ResponseFields (responseWord opc pix code) opc pix code := by
  constructor
  · apply BitVec.eq_of_getLsbD_eq
    intro i hi
    simp only [responseWord, BitVec.getLsbD_append, BitVec.getLsbD_extractLsb']
    simp [hi, show ¬ 24 + i < 8 by omega, show ¬ 24 + i - 8 < 1 by omega,
      show ¬ 24 + i - 8 - 1 < 15 by omega, show 24 + i - 8 - 1 - 15 = i by omega]
  · apply BitVec.eq_of_getLsbD_eq
    intro i hi
    simp only [responseWord, BitVec.getLsbD_append, BitVec.getLsbD_extractLsb']
    simp [hi, show ¬ 9 + i < 8 by omega, show ¬ 9 + i - 8 < 1 by omega, show 9 + i - 8 - 1 < 15 by omega]
  · simp only [responseWord, bitField, BitVec.getLsbD_append]
    simp
  · apply BitVec.eq_of_getLsbD_eq
    intro i hi
    simp only [responseWord, BitVec.getLsbD_append, BitVec.getLsbD_extractLsb']
    rw [resultNumber_eq]
    simp [hi, ResultCode.byte]

/-- The bookkeeping of a run that has not been finished yet is the one it started with. -/
theorem reported_finish {opc : Byte} {len : Nat} {code : ResultCode} {pix : Bool} {data : List Word}
    {s s0 : State} (h1 : s0.errsticky = s.errsticky) (h2 : s0.dp = s.dp)
    (h3 : s0.responses = s.responses) :
    Reported opc len code pix data s (finish opc len code pix data s0) where
  lastOpc := rfl
  lastResult := rfl
  sticky := fun k hk => by rw [finish_errsticky, h1]; exact getLsbD_stickyAfter _ _ hk
  ostate := rfl
  dp := by rw [finish_dp, h2]
  inFlight := rfl
  response := ⟨_, responseFields opc pix code, by rw [finish_responses, h3]⟩

/-- An error other than PanelTimeout changes the bookkeeping only. -/
theorem onlyReported_raiseError (opc : Byte) (len : Nat) (code : ResultCode) (s : State) :
    OnlyReported opc len code s (raiseError opc len code s) where
  reported := reported_finish rfl rfl rfl
  panel := ⟨rfl, rfl, rfl, rfl, rfl⟩
  fb := fun _ => rfl
  bus := rfl
  inputs := ⟨rfl, rfl⟩

/-- What a run leaves is finished with the bookkeeping of the state before it. -/
theorem reported_of_runFrame {opc : Byte} {len : Nat} {code : ResultCode} {pix : Bool} {data : List Word}
    {s s0 : State} (h : RunFrame s s0) : Reported opc len code pix data s (finish opc len code pix data s0) :=
  reported_finish h.errsticky h.dp h.responses

end Sys2Proof.Machine
end

