-- ==== Sys2Proof/Laws/Trace.lean ====
section
/-! SUPPORT. The event log, part by part: the rules of the log over appended parts, and what each action adds to
it. -/

namespace Sys2Proof.Machine

/-! ### The rules of the log, part by part -/

theorem levelAfter_append (p : Pin) (l : Level) (a b : List Event) :
    levelAfter p l (a ++ b) = levelAfter p (levelAfter p l a) b := by
  induction a generalizing l with
  | nil => rfl
  | cons e a ih => cases e <;> simp [levelAfter, ih]

theorem cmdstreamFrom_append (dc : Level) (a b : List Event) :
    cmdstreamFrom dc (a ++ b) = cmdstreamFrom dc a ++ cmdstreamFrom (levelAfter .dc dc a) b := by
  induction a generalizing dc with
  | nil => rfl
  | cons e a ih =>
    cases e with
    | pin p l => cases p <;> simp [cmdstreamFrom, levelAfter, ih]
    | _ => simp [cmdstreamFrom, levelAfter, ih]

theorem wireFrom_append (dc : Level) (a b : List Event) :
    wireFrom dc (a ++ b) = wireFrom dc a ++ wireFrom (levelAfter .dc dc a) b := by
  simp [wireFrom, cmdstreamFrom_append]

theorem pendingAfter_append (c : Cfg) (p : Bool) (dc : Level) (a b : List Event) :
    pendingAfter c p dc (a ++ b) = pendingAfter c (pendingAfter c p dc a) (levelAfter .dc dc a) b := by
  induction a generalizing p dc with
  | nil => rfl
  | cons e a ih =>
    cases e with
    | pin q l => cases q <;> simp [pendingAfter, levelAfter, ih]
    | xfer bytes => simp only [List.cons_append, pendingAfter, levelAfter]; split <;> exact ih _ _
    | _ => simp only [List.cons_append, pendingAfter, levelAfter, ih]

theorem interlockHolds_append (c : Cfg) (p : Bool) (dc : Level) (a b : List Event) :
    interlockHolds c p dc (a ++ b) =
      (interlockHolds c p dc a && interlockHolds c (pendingAfter c p dc a) (levelAfter .dc dc a) b) := by
  induction a generalizing p dc with
  | nil => simp [interlockHolds, pendingAfter, levelAfter]
  | cons e a ih =>
    cases e with
    | pin q l => cases q <;> simp [interlockHolds, pendingAfter, levelAfter, ih]
    | xfer bytes =>
      simp only [List.cons_append, interlockHolds, pendingAfter, levelAfter]
      split <;> simp [ih, Bool.and_assoc]
    | _ => simp [interlockHolds, pendingAfter, levelAfter, ih]

/-- Fewer busy states pending allow more. -/
theorem interlockHolds_of_pending (c : Cfg) {p : Bool} {dc : Level} {ev : List Event}
    (h : interlockHolds c true dc ev = true) : interlockHolds c p dc ev = true := by
  induction ev generalizing p dc with
  | nil => rfl
  | cons e ev ih =>
    cases p with
    | true => exact h
    | false =>
      cases e with
      | pin q l =>
        cases q with
        | rst => exact h
        | dc => exact ih h
        | cs => exact ih h
      | xfer bytes =>
        simp only [interlockHolds] at h ⊢
        split at h
        · rw [if_pos ‹_›]; exact ih h
        · simp at h
      | busyRead b =>
        simp only [interlockHolds, Bool.true_and, Bool.false_and] at h ⊢
        by_cases hb : b = c.idleLevel
        · simpa [hb] using h
        · exact ih (by simpa [hb] using h)
      | delay ms => exact ih h
      | busInit st => exact ih h

theorem Framed.append {a b : List Event} (h : Framed a) (h' : Framed b) : Framed (a ++ b) := by
  induction h with
  | nil => exact h'
  | transaction dc bytes rest hb _ ih => rw [List.append_assoc]; exact .transaction dc bytes _ hb ih
  | rst level rest _ ih => exact .rst level _ ih
  | busyRead b rest _ ih => exact .busyRead b _ ih
  | delay ms rest _ ih => exact .delay ms _ ih
  | busInit st rest _ ih => exact .busInit st _ ih

/-- Framed events end with chip-select deasserted, if it was so before them. -/
theorem Framed.levelAfter {ev : List Event} (h : Framed ev) : levelAfter .cs true ev = true := by
  induction h with
  | nil => rfl
  | transaction dc bytes rest hb _ ih => exact ih
  | rst level rest _ ih => exact ih
  | busyRead b rest _ ih => exact ih
  | delay ms rest _ ih => exact ih
  | busInit st rest _ ih => exact ih

/-! ### What a part of a run adds to the log -/

/-- The events a part of a run adds, and how they are framed and latched. -/
structure Logged (s t : State) (ev : List Event) : Prop where
  log : t.bus.log = s.bus.log ++ ev
  cfg : t.cfg = s.cfg
  rst : t.bus.rst = levelAfter .rst s.bus.rst ev
  dc : t.bus.dc = levelAfter .dc s.bus.dc ev
  cs : t.bus.cs = levelAfter .cs s.bus.cs ev
  framed : Framed ev
  perByte : s.cfg.chunking = .perByte → ∀ bytes, Event.xfer bytes ∈ ev → bytes.length = 1

/-- The same, and they keep the busy interlock. -/
structure Traced (s t : State) (ev : List Event) : Prop extends Logged s t ev where
  interlock : interlockHolds s.cfg s.busyPending s.bus.dc ev = true

/-- The same, with `busy_pending` set at the end if the panel may be busy then. -/
structure Tracked (s t : State) (ev : List Event) : Prop extends Traced s t ev where
  pending : pendingAfter s.cfg s.busyPending s.bus.dc ev = true → t.busyPending = true

theorem Logged.trans {s t u : State} {a b : List Event} (h : Logged s t a) (h' : Logged t u b) :
    Logged s u (a ++ b) where
  log := by rw [h'.log, h.log, List.append_assoc]
  cfg := h'.cfg.trans h.cfg
  rst := by rw [h'.rst, h.rst, levelAfter_append]
  dc := by rw [h'.dc, h.dc, levelAfter_append]
  cs := by rw [h'.cs, h.cs, levelAfter_append]
  framed := h.framed.append h'.framed
  perByte := by
    intro hc bytes hm
    rcases List.mem_append.1 hm with hm | hm
    · exact h.perByte hc bytes hm
    · exact h'.perByte (by rw [h.cfg]; exact hc) bytes hm

/-- Only the bus and the configuration matter. -/
theorem Logged.of_bus {s t u : State} {ev : List Event} (h : Logged s t ev) (hb : u.bus = t.bus)
    (hc : u.cfg = t.cfg) : Logged s u ev :=
  ⟨hb ▸ h.log, hc.trans h.cfg, hb ▸ h.rst, hb ▸ h.dc, hb ▸ h.cs, h.framed, h.perByte⟩

theorem Traced.of_bus {s t u : State} {ev : List Event} (h : Traced s t ev) (hb : u.bus = t.bus)
    (hc : u.cfg = t.cfg) : Traced s u ev :=
  ⟨h.toLogged.of_bus hb hc, h.interlock⟩

theorem Traced.trans {s t u : State} {a b : List Event} (h : Tracked s t a) (h' : Traced t u b) :
    Traced s u (a ++ b) where
  toLogged := h.toLogged.trans h'.toLogged
  interlock := by
    rw [interlockHolds_append, h.interlock, Bool.true_and, ← h.dc, ← h.cfg]
    cases hp : pendingAfter s.cfg s.busyPending s.bus.dc a with
    | true =>
      rw [h.cfg, hp, ← h.cfg]
      have := h'.interlock
      rwa [h.pending hp] at this
    | false =>
      rw [h.cfg, hp, ← h.cfg]
      cases hb : t.busyPending with
      | false => have := h'.interlock; rwa [hb] at this
      | true => have := h'.interlock; rw [hb] at this; exact interlockHolds_of_pending _ this

theorem pendingAfter_mono (c : Cfg) {p p' : Bool} {dc : Level} {ev : List Event} (hp : p = true → p' = true)
    (h : pendingAfter c p dc ev = true) : pendingAfter c p' dc ev = true := by
  induction ev generalizing p p' dc with
  | nil => exact hp h
  | cons e ev ih =>
    cases e with
    | pin q l =>
      cases q with
      | rst => exact h
      | dc => exact ih hp h
      | cs => exact ih hp h
    | xfer bytes =>
      simp only [pendingAfter] at h ⊢
      split at h
      · rw [if_pos ‹_›]; exact ih hp h
      · rw [if_neg ‹_›]; exact h
    | busyRead b =>
      refine ih ?_ h
      intro hb
      simp only [Bool.and_eq_true] at hb ⊢
      exact ⟨hp hb.1, hb.2⟩
    | delay ms => exact ih hp h
    | busInit st => exact ih hp h

theorem Tracked.trans {s t u : State} {a b : List Event} (h : Tracked s t a) (h' : Tracked t u b) :
    Tracked s u (a ++ b) where
  toTraced := Traced.trans h h'.toTraced
  pending := by
    intro hp
    rw [pendingAfter_append, ← h.dc, ← h.cfg] at hp
    refine h'.pending (pendingAfter_mono _ ?_ hp)
    intro hq
    exact h.pending (by rw [← h.cfg]; exact hq)

/-- Something is added to the log that keeps its rules. -/
def Tracks (s t : State) : Prop := ∃ ev, Tracked s t ev

theorem Tracks.refl (s : State) : Tracks s s :=
  ⟨[], ⟨⟨⟨by simp, rfl, rfl, rfl, rfl, .nil, by simp⟩, rfl⟩, id⟩⟩

theorem Tracks.trans {a b c : State} (h : Tracks a b) (h' : Tracks b c) : Tracks a c := by
  obtain ⟨x, hx⟩ := h
  obtain ⟨y, hy⟩ := h'
  exact ⟨_, hx.trans hy⟩

/-- The state differs only where the log's rules do not look. -/
theorem Tracks.of_same {s t : State} (hb : t.bus = s.bus) (hp : s.busyPending = true → t.busyPending = true)
    (hc : t.cfg = s.cfg) : Tracks s t :=
  ⟨[], ⟨⟨⟨by simp [hb], hc, by rw [hb]; rfl, by rw [hb]; rfl, by rw [hb]; rfl, .nil, by simp⟩, rfl⟩, hp⟩⟩

theorem tracked_transaction_data (s t : State) {bytes : List Byte} (hb : bytes ≠ [])
    (h1 : s.cfg.chunking = .perByte → bytes.length = 1) (ht : t = { s with bus := s.bus.transaction true bytes }) :
    Tracked s t (transactionEvents true bytes) := by
  subst ht
  refine ⟨⟨⟨by simp [transactionEvents], rfl, by simp [transactionEvents, levelAfter],
    by simp [transactionEvents, levelAfter], by simp [transactionEvents, levelAfter], ?_, ?_⟩, rfl⟩, ?_⟩
  · simpa using Framed.transaction true bytes [] hb .nil
  · intro hc b hm
    simp only [transactionEvents, List.mem_cons, reduceCtorEq, Event.xfer.injEq, false_or, List.not_mem_nil,
      or_false] at hm
    subst hm
    exact h1 hc
  · exact id

theorem tracks_transmitCommand (op8 : Byte) (s : State) (h : s.busyPending = false) :
    Tracks s (transmitCommand op8 s) := by
  refine ⟨transactionEvents false [op8], ⟨⟨⟨by simp [transmitCommand, transactionEvents], rfl,
    by simp [transmitCommand, transactionEvents, levelAfter],
    by simp [transmitCommand, transactionEvents, levelAfter],
    by simp [transmitCommand, transactionEvents, levelAfter],
    .transaction false [op8] [] (by simp) .nil, ?_⟩, by simp [transactionEvents, interlockHolds, h]⟩, ?_⟩⟩
  · intro _ b hm
    simp only [transactionEvents, List.mem_cons, reduceCtorEq, Event.xfer.injEq, false_or, List.not_mem_nil,
      or_false] at hm
    subst hm
    rfl
  · simp [transactionEvents, pendingAfter, transmitCommand]
    exact Or.inr

theorem tracks_readBusy (s : State) : Tracks s (readBusy s) := by
  refine ⟨[.busyRead s.bus.busyLevel], ⟨⟨⟨by simp [readBusy], rfl, by simp [readBusy, levelAfter],
    by simp [readBusy, levelAfter], by simp [readBusy, levelAfter], .busyRead _ _ .nil, by simp⟩, rfl⟩, ?_⟩⟩
  simp only [pendingAfter, Bool.and_eq_true]
  exact fun h => h.1

theorem tracks_pollIdle (s : State) (h : nextIsIdle s = true) : Tracks s (pollIdle s) := by
  refine ⟨[.busyRead s.bus.busyLevel], ⟨⟨⟨by simp [pollIdle], rfl, by simp [pollIdle, levelAfter],
    by simp [pollIdle, levelAfter], by simp [pollIdle, levelAfter], .busyRead _ _ .nil, by simp⟩, rfl⟩, ?_⟩⟩
  simp only [nextIsIdle, decide_eq_true_eq] at h
  simp [pendingAfter, h]

theorem tracks_delay (ms : Nat) (s : State) : Tracks s { s with bus := s.bus.delay ms } :=
  ⟨[.delay ms], ⟨⟨⟨by simp, rfl, by simp [levelAfter], by simp [levelAfter], by simp [levelAfter],
    .delay _ _ .nil, by simp⟩, rfl⟩, id⟩⟩

theorem tracks_pollBusy (s : State) : Tracks s (pollBusy s) :=
  (tracks_readBusy s).trans (tracks_delay s.cfg.pollDelayMs (readBusy s))

theorem tracks_waitIdleI (s : State) : Tracks s (waitIdleI s).state :=
  waitIdleI_rel Tracks Tracks.trans tracks_readBusy tracks_pollIdle tracks_pollBusy s

theorem tracks_sendData (bytes : List Byte) (s : State) :
    Tracks s { s with bus := s.bus.sendData s.cfg.chunking bytes } := by
  cases bytes with
  | nil => exact Tracks.refl s
  | cons b bytes =>
    cases hc : s.cfg.chunking with
    | whole => exact ⟨_, tracked_transaction_data s _ (List.cons_ne_nil b bytes) (by simp [hc]) rfl⟩
    | perByte =>
      simp only [Bus.sendData]
      generalize b :: bytes = l
      clear hc b bytes
      induction l generalizing s with
      | nil => exact Tracks.refl s
      | cons d l ih =>
        refine Tracks.trans (b := { s with bus := s.bus.transaction true [d] })
          ⟨_, tracked_transaction_data s _ (List.cons_ne_nil d []) (by simp) rfl⟩ ?_
        exact ih { s with bus := s.bus.transaction true [d] }

theorem tracks_resetPulse (s : State) : Tracks s (resetPulse s) := by
  have key : ∀ (seq : List (Level × Nat)) (s : State), s.busyPending = true →
      Tracks s { s with bus := s.bus.pulse seq } := by
    intro seq
    induction seq with
    | nil => exact fun s _ => Tracks.refl s
    | cons e seq ih =>
      intro s hs
      refine Tracks.trans (b := { s with bus := (s.bus.pinWrite .rst e.1).delay e.2 })
        ⟨[.pin .rst e.1, .delay e.2], ⟨⟨⟨by simp, rfl, by simp [levelAfter], by simp [levelAfter],
          by simp [levelAfter], .rst _ _ (.delay _ _ .nil), by simp⟩, rfl⟩, fun _ => hs⟩⟩ ?_
      exact ih { s with bus := (s.bus.pinWrite .rst e.1).delay e.2 } hs
  refine Tracks.trans (b := { s with busyPending := true, lutClass := none, pstate := .resetting })
    (Tracks.of_same rfl (fun _ => rfl) rfl) ?_
  exact key s.cfg.p.resetSeq { s with busyPending := true, lutClass := none, pstate := .resetting } rfl

/-- Every action but the entry into Sleeping keeps the rules of the log and tracks `busy_pending`. -/
theorem tracks_runAct {a : Act} (ha : a ≠ .enterSleep) (s : State) : Tracks s (runAct a s).state := by
  cases a with
  | cmd op8 => exact sendCommandI_rel Tracks Tracks.trans tracks_waitIdleI (tracks_transmitCommand op8) s
  | data bytes => exact tracks_sendData bytes s
  | delay ms => exact tracks_delay ms s
  | waitIdle => exact tracks_waitIdleI s
  | resetPulse => exact tracks_resetPulse s
  | setOState o => exact Tracks.of_same rfl id rfl
  | setLut c => exact Tracks.of_same rfl id rfl
  | clearPcount => exact Tracks.of_same rfl id rfl
  | bumpPcount => exact Tracks.of_same rfl id rfl
  | enterMode m => exact Tracks.of_same rfl id rfl
  | enterSleep => exact absurd rfl ha

theorem tracks_runActs (bands : List Band) {acts : List Act} (h : .enterSleep ∉ acts) (s : State) :
    Tracks s (runActs bands acts s).state :=
  runActs_rel Tracks Tracks.refl Tracks.trans bands
    (fun _ ha s => tracks_runAct (fun he => h (he ▸ ha)) s) s

/-- Something is added to the log, framed and latched. -/
def Logs (s t : State) : Prop := ∃ ev, Logged s t ev

theorem Logs.refl (s : State) : Logs s s := ⟨[], by simp, rfl, rfl, rfl, rfl, .nil, by simp⟩

theorem Logs.trans {a b c : State} (h : Logs a b) (h' : Logs b c) : Logs a c := by
  obtain ⟨x, hx⟩ := h
  obtain ⟨y, hy⟩ := h'
  exact ⟨_, hx.trans hy⟩

theorem Tracks.logs {s t : State} (h : Tracks s t) : Logs s t := h.imp fun _ h => h.toLogged

theorem Logs.of_same {s t : State} (hb : t.bus = s.bus) (hc : t.cfg = s.cfg) : Logs s t :=
  ⟨[], by simp [hb], hc, by rw [hb]; rfl, by rw [hb]; rfl, by rw [hb]; rfl, .nil, by simp⟩

/-- Every action adds to the log only what is framed and latched. -/
theorem logs_runAct (a : Act) (s : State) : Logs s (runAct a s).state := by
  by_cases ha : a = .enterSleep
  · subst ha; exact Logs.of_same rfl rfl
  · exact (tracks_runAct ha s).logs

theorem logs_runActs (bands : List Band) (acts : List Act) (s : State) :
    Logs s (runActs bands acts s).state :=
  runActs_rel Logs Logs.refl Logs.trans bands (fun a _ s => logs_runAct a s) s

theorem logs_runBands (bands : List Band) (s : State) : Logs s (runBands bands s).state :=
  runBands_rel Logs Logs.refl Logs.trans
    (fun b _ rest s => Logs.trans (b := bufferWrite b s) (Logs.of_same rfl rfl) (logs_runActs rest _ _)) s

theorem logs_runAll (acts : List Act) (bands : List Band) (s : State) :
    Logs s (runAll acts bands s).state :=
  runAll_rel Logs Logs.trans (logs_runActs bands acts s) (logs_runBands bands)

/-- What an operation adds to the log. -/
theorem logs_runOperation (opc : Byte) (len : Nat) (acts : List Act) (bands : List Band) (s : State) :
    Logs s (runOperation opc len acts bands s) := by
  have := logs_runAll acts bands s
  rcases runOperation_cases opc len acts bands s with ⟨s1, h, e⟩ | ⟨s1, h, e⟩ | ⟨a, b, s1, h, e⟩ <;>
    rw [h] at this <;> rw [e] <;> exact this.trans (Logs.of_same rfl rfl)

end Sys2Proof.Machine
end

