-- ==== Sys2Proof/Laws/Invariant.lean ====
section
/-! SUPPORT. What a run keeps of the invariant, part by part. -/

namespace Sys2Proof.Machine

/-- The part of the invariant that holds inside an operation too, for configuration `c`. -/
structure Mid (c : Cfg) (s : State) : Prop where
  cfg : s.cfg = c
  valid : c.valid = true
  fbCanonical : Memory.wf c.fillByte s.fb = true
  fbInside : Memory.below c.fbSize s.fb = true
  lutOfV2 : c.variant = .v2 → s.lutClass = none
  rstHigh : s.bus.rst = true

theorem valid_width {c : Cfg} (h : c.valid = true) : c.width % 8 = 0 := by
  simp only [Cfg.valid, Bool.and_eq_true, decide_eq_true_eq] at h
  exact h.1.1.1.1.1.1.1.1.1.1.1

theorem valid_resetSeq {c : Cfg} (h : c.valid = true) :
    ∃ ms, c.p.resetSeq.getLast? = some (true, ms) := by
  simp only [Cfg.valid, Bool.and_eq_true] at h
  have := h.1.2
  simp only [resetSeqOk, Bool.and_eq_true] at this
  cases hl : c.p.resetSeq.getLast? with
  | none => rw [hl] at this; simp at this
  | some e =>
    obtain ⟨l, ms⟩ := e
    rw [hl] at this
    exact ⟨ms, by rw [show l = true from this.2]⟩

/-- The pulse leaves the reset line at its last level (41_panel_protocol.md R135). -/
theorem pulse_rst (seq : List (Level × Nat)) (b : Bus) {l : Level} {ms : Nat}
    (h : seq.getLast? = some (l, ms)) : (b.pulse seq).rst = l := by
  rw [List.getLast?_eq_some_iff] at h
  obtain ⟨ys, rfl⟩ := h
  simp [Bus.pulse, List.foldl_append]

theorem sendData_rst (b : Bus) (ch : Chunking) (bytes : List Byte) : (b.sendData ch bytes).rst = b.rst := by
  cases bytes with
  | nil => rfl
  | cons d l =>
    cases ch with
    | whole => simp [Bus.sendData]
    | perByte =>
      simp only [Bus.sendData]
      generalize d :: l = l
      induction l generalizing b with
      | nil => rfl
      | cons d l ih => rw [List.foldl_cons, ih]; simp

/-- The relation "if the invariant's part holds before, it holds after". -/
def KeepsMid (c : Cfg) (s t : State) : Prop := Mid c s → Mid c t

theorem KeepsMid.refl (c : Cfg) (s : State) : KeepsMid c s s := id

theorem KeepsMid.trans {c : Cfg} {s t u : State} (h : KeepsMid c s t) (h' : KeepsMid c t u) :
    KeepsMid c s u := fun hs => h' (h hs)

theorem KeepsMid.of_same {c : Cfg} {s t : State} (h1 : t.cfg = s.cfg) (h2 : t.fb = s.fb)
    (h3 : t.lutClass = s.lutClass) (h4 : t.bus.rst = s.bus.rst) : KeepsMid c s t :=
  fun h => ⟨h1.trans h.cfg, h.valid, h2 ▸ h.fbCanonical, h2 ▸ h.fbInside, h3 ▸ h.lutOfV2, h4 ▸ h.rstHigh⟩

theorem keepsMid_waitIdleI (c : Cfg) (s : State) : KeepsMid c s (waitIdleI s).state :=
  waitIdleI_rel (KeepsMid c) KeepsMid.trans (fun _ => .of_same rfl rfl rfl (by simp [readBusy]))
    (fun _ _ => .of_same rfl rfl rfl (by simp [pollIdle]))
    (fun _ => .of_same rfl rfl rfl (by simp [pollBusy])) s

/-- An action keeps the invariant's part, if it programs a LUT on V1 only. -/
theorem keepsMid_runAct {c : Cfg} {a : Act} (ha : c.variant = .v2 → a.programsLut = false) (s : State) :
    KeepsMid c s (runAct a s).state := by
  cases a with
  | cmd op8 =>
    exact sendCommandI_rel (KeepsMid c) KeepsMid.trans (keepsMid_waitIdleI c)
      (fun _ _ => .of_same rfl rfl rfl (by simp [transmitCommand])) s
  | data bytes => exact .of_same rfl rfl rfl (sendData_rst _ _ _)
  | delay ms => exact .of_same rfl rfl rfl rfl
  | waitIdle => exact keepsMid_waitIdleI c s
  | resetPulse =>
    intro h
    obtain ⟨ms, hl⟩ := valid_resetSeq h.valid
    exact ⟨h.cfg, h.valid, h.fbCanonical, h.fbInside, fun _ => rfl, pulse_rst _ _ (by rw [h.cfg]; exact hl)⟩
  | setOState o => exact .of_same rfl rfl rfl rfl
  | setLut l =>
    intro h
    refine ⟨h.cfg, h.valid, h.fbCanonical, h.fbInside, fun hv => ?_, h.rstHigh⟩
    cases l with
    | none => rfl
    | some l => exact absurd (ha hv) (by simp [Act.programsLut])
  | clearPcount => exact .of_same rfl rfl rfl rfl
  | bumpPcount => exact .of_same rfl rfl rfl rfl
  | enterMode m => exact .of_same rfl rfl rfl rfl
  | enterSleep => exact .of_same rfl rfl rfl rfl

theorem keepsMid_runActs {c : Cfg} (bands : List Band) {acts : List Act}
    (ha : c.variant = .v2 → ∀ a ∈ acts, a.programsLut = false) (s : State) :
    KeepsMid c s (runActs bands acts s).state :=
  runActs_rel (KeepsMid c) (KeepsMid.refl c) KeepsMid.trans bands
    (fun a hm s => keepsMid_runAct (fun hv => ha hv a hm) s) s

theorem keepsMid_bufferWrite {c : Cfg} {b : Band} (hb : inBoundsRect c b.x b.y b.w b.h = true) (s : State) :
    KeepsMid c s (bufferWrite b s) := by
  intro h
  have hfb : (bufferWrite b s).fb = blitCore c s.fb b.x b.y b.w b.h b.img := by simp [h.cfg]
  exact ⟨h.cfg, h.valid, by rw [hfb]; exact wf_blitCore h.fbCanonical _ _ _ _ _,
    by rw [hfb]; exact below_blitCore (valid_width h.valid) h.fbInside hb _, h.lutOfV2, h.rstHigh⟩

theorem keepsMid_runBands {c : Cfg} {bands : List Band}
    (hb : ∀ b ∈ bands, inBoundsRect c b.x b.y b.w b.h = true) (s : State) :
    KeepsMid c s (runBands bands s).state := by
  refine runBands_rel (KeepsMid c) (KeepsMid.refl c) KeepsMid.trans (fun b hm rest s h => ?_) s
  have h' := keepsMid_bufferWrite (hb b hm) s h
  refine keepsMid_runActs rest (fun hv a ha => ?_) _ h'
  exact (transmitAct_transmit ha).2 (by rw [show (bufferWrite b s).cfg = s.cfg from rfl, h.cfg]; exact hv)

/-- A whole run keeps the invariant's part. -/
theorem keepsMid_runAll {c : Cfg} {acts : List Act} {bands : List Band}
    (ha : c.variant = .v2 → ∀ a ∈ acts, a.programsLut = false)
    (hb : ∀ b ∈ bands, inBoundsRect c b.x b.y b.w b.h = true) (s : State) :
    KeepsMid c s (runAll acts bands s).state :=
  runAll_rel (KeepsMid c) KeepsMid.trans (keepsMid_runActs bands ha s) (keepsMid_runBands hb)

/-! ### `pstate` and `mode` -/

/-- `pstate` and `mode` stay. -/
def SameMode (s t : State) : Prop := t.pstate = s.pstate ∧ t.mode = s.mode

theorem SameMode.refl (s : State) : SameMode s s := ⟨rfl, rfl⟩

theorem SameMode.trans {a b c : State} (h : SameMode a b) (h' : SameMode b c) : SameMode a c :=
  ⟨h'.1.trans h.1, h'.2.trans h.2⟩

theorem sameMode_waitIdleI (s : State) : SameMode s (waitIdleI s).state :=
  waitIdleI_rel SameMode SameMode.trans (fun _ => ⟨rfl, rfl⟩) (fun _ _ => ⟨rfl, rfl⟩) (fun _ => ⟨rfl, rfl⟩) s

theorem sameMode_runAct {a : Act} (ha : a.plain = true) (s : State) : SameMode s (runAct a s).state := by
  cases a with
  | cmd op8 =>
    exact sendCommandI_rel SameMode SameMode.trans sameMode_waitIdleI (fun _ _ => ⟨rfl, rfl⟩) s
  | waitIdle => exact sameMode_waitIdleI s
  | resetPulse => simp [Act.plain] at ha
  | enterMode m => simp [Act.plain] at ha
  | enterSleep => simp [Act.plain] at ha
  | _ => exact ⟨rfl, rfl⟩

theorem sameMode_runActs (bands : List Band) {acts : List Act} (ha : ∀ a ∈ acts, a.plain = true)
    (s : State) : SameMode s (runActs bands acts s).state :=
  runActs_rel SameMode SameMode.refl SameMode.trans bands (fun a hm s => sameMode_runAct (ha a hm) s) s

/-- No band changes `pstate` or `mode`. -/
theorem sameMode_runBands (bands : List Band) (s : State) : SameMode s (runBands bands s).state :=
  runBands_rel SameMode SameMode.refl SameMode.trans
    (fun b _ rest s => SameMode.trans (b := bufferWrite b s) ⟨rfl, rfl⟩
      (sameMode_runActs rest (fun _ ha => (transmitAct_transmit ha).1) _)) s

theorem sameMode_runAll {acts : List Act} (ha : ∀ a ∈ acts, a.plain = true) (bands : List Band) (s : State) :
    SameMode s (runAll acts bands s).state :=
  runAll_rel SameMode SameMode.trans (sameMode_runActs bands ha s) (sameMode_runBands bands)

/-! ### An action after a run -/

/-- A run whose last action never polls, as the run before it and that action. -/
theorem runAll_concat (acts : List Act) (a : Act) (s : State) {f : State → State}
    (ha : ∀ s, runAct a s = .done (f s)) :
    runAll (acts ++ [a]) [] s =
      match runActs [] acts s with
      | .done s1 => .done (f s1)
      | .timedOut s1 => .timedOut s1
      | .held l b s1 => .held (l ++ [a]) b s1 := by
  unfold runAll
  rw [runActs_append]
  cases runActs [] acts s with
  | done s1 => simp [runActs, ha, runBands]
  | timedOut s1 => rfl
  | held l b s1 => rfl

/-! ### A whole operation keeps the invariant -/

/-- The invariant's part of an instance at rest. -/
theorem Inv.mid {s : State} (h : Inv s) (hv : s.cfg.valid = true) : Mid s.cfg s :=
  ⟨rfl, hv, h.fbCanonical, h.fbInside, h.lutOfV2, h.rstHigh⟩

/-- A run that keeps the invariant's part, once finished, keeps the invariant. -/
theorem inv_finish {s s1 : State} {opc : Byte} {len : Nat} {code : ResultCode} {pix : Bool}
    {data : List Word} (hi : Inv s) (hm : Mid s.cfg s1) (hl : Logs s s1)
    (he : s1.errsticky = s.errsticky) : Inv (finish opc len code pix data s1) := by
  obtain ⟨ev, hl⟩ := hl
  have hc := hl.cfg
  refine ⟨by simpa [hc] using hm.fbCanonical, by simpa [hc] using hm.fbInside, ?_, ?_,
    by simpa [hc] using hm.lutOfV2, by simp, ?_, ?_, ?_, ?_, ?_, by simp⟩
  · rw [finish_errsticky, getLsbD_stickyAfter _ _ (by decide), he, hi.stickyBit0]
    cases code <;> rfl
  · intro h
    rw [finish_lastResult] at h ⊢
    rw [finish_errsticky, getLsbD_stickyAfter _ _ (resultNumber_lt _)]
    simp [h]
  · simp only [finish_bus]; rw [hl.cs, hi.csHigh]; exact hl.framed.levelAfter
  · simpa using hm.rstHigh
  · simp only [finish_bus]; rw [hl.rst, hl.log, levelAfter_append, ← hi.rstLatch]
  · simp only [finish_bus]; rw [hl.dc, hl.log, levelAfter_append, ← hi.dcLatch]
  · simp only [finish_bus]; rw [hl.cs, hl.log, levelAfter_append, ← hi.csLatch]

/-- A run that keeps the invariant's part, once held, keeps the invariant. -/
theorem inv_held {s s1 : State} {f : InFlight} (hi : Inv s) (hm : Mid s.cfg s1) (hl : Logs s s1)
    (he : s1.errsticky = s.errsticky) (hr : s1.lastResult = s.lastResult)
    (hf : InFlight.Ok { s1 with inFlight := some f } f) : Inv { s1 with inFlight := some f } := by
  obtain ⟨ev, hl⟩ := hl
  have hc := hl.cfg
  refine ⟨by simpa [hc] using hm.fbCanonical, by simpa [hc] using hm.fbInside, ?_, ?_,
    by simpa [hc] using hm.lutOfV2, by simp, ?_, ?_, ?_, ?_, ?_, ?_⟩
  · simpa [he] using hi.stickyBit0
  · simpa [he, hr] using hi.stickyLast
  · show s1.bus.cs = true; rw [hl.cs, hi.csHigh]; exact hl.framed.levelAfter
  · simpa using hm.rstHigh
  · show s1.bus.rst = levelAfter .rst true s1.bus.log; rw [hl.rst, hl.log, levelAfter_append, ← hi.rstLatch]
  · show s1.bus.dc = levelAfter .dc false s1.bus.log; rw [hl.dc, hl.log, levelAfter_append, ← hi.dcLatch]
  · show s1.bus.cs = levelAfter .cs true s1.bus.log; rw [hl.cs, hl.log, levelAfter_append, ← hi.csLatch]
  · intro g hg; cases hg; exact hf

/-- What is true of every run an operation starts or resumes: a LUT is programmed on V1 only, every
rectangle lies in the buffer, and the actions are plain but for INIT's pulse and its last action, and SLEEP's
last action. -/
structure RunOk (c : Cfg) (opc : Byte) (acts : List Act) (bands : List Band) (s0 : State) : Prop where
  lut : c.variant = .v2 → ∀ a ∈ acts, a.programsLut = false
  inside : ∀ b ∈ bands, inBoundsRect c b.x b.y b.w b.h = true
  shape : (∀ a ∈ acts, a.plain = true) ∨
    (bands = [] ∧ opc = 0x11 ∧ ∃ m l, acts = l ++ [.enterMode m] ∧
      ((∀ a ∈ l, a.plain = true) ∧ s0.pstate = .resetting ∨ ∃ l', l = .resetPulse :: l' ∧ ∀ a ∈ l', a.plain = true)) ∨
    (bands = [] ∧ opc = 0x12 ∧ s0.pstate = .initialized ∧ ∃ l, acts = l ++ [.enterSleep] ∧ ∀ a ∈ l, a.plain = true)

theorem not_plain_mem {l : List Act} (h : ∀ a ∈ l, a.plain = true) :
    Act.resetPulse ∉ l ∧ (∀ m, Act.enterMode m ∉ l) ∧ Act.enterSleep ∉ l :=
  ⟨fun hm => by have := h _ hm; simp [Act.plain] at this, fun m hm => by have := h _ hm; simp [Act.plain] at this,
   fun hm => by have := h _ hm; simp [Act.plain] at this⟩

theorem runActs_held_state {bands bands1 : List Band} {acts acts1 : List Act} {s s1 : State}
    (h : runActs bands acts s = .held acts1 bands1 s1) (hp : ∀ a ∈ acts, a.plain = true) :
    s1.pstate = s.pstate ∧ s1.mode = s.mode := by
  have := sameMode_runActs bands hp s
  rw [h] at this
  exact this

/-- A run that an operation starts or resumes keeps the invariant, however it ends. -/
theorem inv_runOperation {s s0 : State} {opc : Byte} {len : Nat} {acts : List Act} {bands : List Band}
    (hi : Inv s) (hm : Mid s.cfg s0) (hl : Logs s s0) (he : s0.errsticky = s.errsticky)
    (hr : s0.lastResult = s.lastResult) (hok : RunOk s.cfg opc acts bands s0) :
    Inv (runOperation opc len acts bands s0) := by
  have hframe := runAll_frame acts bands s0
  have hmid := keepsMid_runAll hok.lut hok.inside s0 hm
  have hlog := hl.trans (logs_runAll acts bands s0)
  rcases runOperation_cases opc len acts bands s0 with ⟨s1, h, e⟩ | ⟨s1, h, e⟩ | ⟨a, b, s1, h, e⟩ <;>
    rw [h] at hframe hmid hlog <;> rw [e]
  · exact inv_finish hi hmid hlog (hframe.errsticky.trans he)
  · exact inv_finish (s1 := { s1 with pstate := .resetting, busyPending := true }) hi
      (KeepsMid.of_same (s := s1) rfl rfl rfl rfl hmid) (hlog.trans (Logs.of_same rfl rfl)) (hframe.errsticky.trans he)
  · refine inv_held hi hmid hlog (hframe.errsticky.trans he) (hframe.lastResult.trans hr) ?_
    have hcfg : s1.cfg = s.cfg := hmid.cfg
    obtain ⟨hub, hcase, hd, rest, hcons, hpoll⟩ := runAll_held h
    have hunb : s1.cfg.busyBudget = none := by rw [hcfg, ← hm.cfg]; exact hub
    -- bands inside
    have hbands : ∀ x ∈ b, inBoundsRect s1.cfg x.x x.y x.w x.h = true := by
      intro x hx
      rw [hcfg]
      rcases hcase with ⟨-, rfl⟩ | ⟨-, hs, -⟩
      · exact hok.inside x hx
      · exact hok.inside x (hs.subset hx)
    have hlut : s1.cfg.variant = .v2 → ∀ x ∈ a, x.programsLut = false := by
      intro hv x hx
      rw [hcfg] at hv
      rcases hcase with ⟨hs, -⟩ | ⟨⟨bd, s2, h2, hs⟩, -, -⟩
      · exact hok.lut hv x (hs.subset hx)
      · exact (transmitAct_transmit (hs.subset hx)).2 (by
          show s2.cfg.variant = .v2
          rw [h2, hm.cfg]; exact hv)
    have mkPlain : (∀ x ∈ a, x.plain = true) → InFlight.Ok { s1 with inFlight := some ⟨opc, len, a, b⟩ } ⟨opc, len, a, b⟩ := by
      intro hp
      obtain ⟨n1, n2, n3⟩ := not_plain_mem hp
      exact ⟨hunb, hlut, hbands, n1, fun m hm => absurd hm (n2 m), fun hm => absurd hm n3,
        fun x hx => Act.entersPState_of_plain (hp x (List.dropLast_subset _ hx)),
        fun ⟨x, hx, hx'⟩ => by rw [Act.entersPState_of_plain (hp x hx)] at hx'; cases hx'⟩
    rcases hok.shape with hp | ⟨rfl, rfl, m, l, rfl, hl'⟩ | ⟨rfl, rfl, hps, l, rfl, hp⟩
    · apply mkPlain
      intro x hx
      rcases hcase with ⟨hs, -⟩ | ⟨⟨bd, s2, h2, hs⟩, -, -⟩
      · exact hp x (hs.subset hx)
      · exact (transmitAct_transmit (hs.subset hx)).1
    · rw [runAll_concat l (.enterMode m) s0 (f := fun s => { s with mode := m, pcount := 0, pstate := .initialized }) (fun _ => rfl)] at h
      cases hrun : runActs [] l s0 with
      | done s2 => simp [hrun] at h
      | timedOut s2 => simp [hrun] at h
      | held a' b' s2 =>
        simp only [hrun, RunResult.held.injEq] at h
        obtain ⟨rfl, rfl, rfl⟩ := h
        have key : (∀ x ∈ a', x.plain = true) ∧ s2.pstate = .resetting := by
          rcases hl' with ⟨hp, hps⟩ | ⟨l', rfl, hp⟩
          · obtain ⟨-, hsuf, -, -⟩ := runActs_held hrun
            exact ⟨fun x hx => hp x (hsuf.subset hx), (runActs_held_state hrun hp).1.trans hps⟩
          · simp only [runActs, runAct] at hrun
            obtain ⟨-, hsuf, -, -⟩ := runActs_held hrun
            exact ⟨fun x hx => hp x (hsuf.subset hx), (runActs_held_state hrun hp).1⟩
        obtain ⟨n1, n2, n3⟩ := not_plain_mem key.1
        have hb : b' = [] := (runActs_held hrun).1
        subst hb
        refine ⟨hunb, hlut, hbands, by simp [n1], fun _ _ => ⟨rfl, key.2⟩, fun hm => ?_, ?_, fun _ => rfl⟩
        · simp [n3] at hm
        · simp only [List.dropLast_concat]
          exact fun x hx => Act.entersPState_of_plain (key.1 x hx)
    · rw [runAll_concat l .enterSleep s0 (f := fun s => { s with busyPending := false, pstate := .sleeping }) (fun _ => rfl)] at h
      cases hrun : runActs [] l s0 with
      | done s2 => simp [hrun] at h
      | timedOut s2 => simp [hrun] at h
      | held a' b' s2 =>
        simp only [hrun, RunResult.held.injEq] at h
        obtain ⟨rfl, rfl, rfl⟩ := h
        obtain ⟨hb, hsuf, -, -⟩ := runActs_held hrun
        subst hb
        have hp' : ∀ x ∈ a', x.plain = true := fun x hx => hp x (hsuf.subset hx)
        obtain ⟨n1, n2, n3⟩ := not_plain_mem hp'
        refine ⟨hunb, hlut, hbands, by simp [n1], fun m hm => ?_, fun _ => ⟨rfl, (runActs_held_state hrun hp).1.trans hps⟩, ?_, fun _ => rfl⟩
        · simp [n2] at hm
        · simp only [List.dropLast_concat]
          exact fun x hx => Act.entersPState_of_plain (hp' x hx)

/-- What is left of a held operation is such a run. -/
theorem runOk_resume {s : State} {f : InFlight} (h : InFlight.Ok s f) :
    RunOk s.cfg f.opc f.acts f.bands { s with inFlight := none } := by
  refine ⟨h.lutOfV1, h.bandsInside, ?_⟩
  have hdrop : ∀ a ∈ f.acts.dropLast, a.plain = true := by
    intro a ha
    have h1 := h.entersLast a ha
    cases a with
    | resetPulse => exact absurd (List.dropLast_subset _ ha) h.pulseDone
    | enterMode m => simp [Act.entersPState] at h1
    | enterSleep => simp [Act.entersPState] at h1
    | _ => rfl
  by_cases hall : ∀ a ∈ f.acts, a.plain = true
  · exact .inl hall
  · push Not at hall
    obtain ⟨a, ha, hna⟩ := hall
    have hne : f.acts ≠ [] := List.ne_nil_of_mem ha
    have hsplit := List.dropLast_append_getLast hne
    have hlast : a = f.acts.getLast hne := by
      rw [← hsplit] at ha
      rcases List.mem_append.1 ha with ha | ha
      · exact absurd (hdrop a ha) hna
      · simpa using ha
    cases a with
    | resetPulse => exact absurd ha h.pulseDone
    | enterMode m =>
      obtain ⟨h1, h2⟩ := h.modeByInit m ha
      exact .inr (.inl ⟨h.entersAlone ⟨_, ha, rfl⟩, h1, m, f.acts.dropLast, by rw [hlast]; exact hsplit.symm,
        .inl ⟨hdrop, h2⟩⟩)
    | enterSleep =>
      obtain ⟨h1, h2⟩ := h.sleepBySleep ha
      exact .inr (.inr ⟨h.entersAlone ⟨_, ha, rfl⟩, h1, h2, f.acts.dropLast, by rw [hlast]; exact hsplit.symm,
        hdrop⟩)
    | _ => simp [Act.plain] at hna

/-- The bands of FILL lie in the buffer (42_refresh.md R179). -/
theorem fillBands_inside {height bh : Nat} {p : Nat × Nat} (hp : p ∈ fillBands height bh) (h0 : bh ≠ 0) :
    p.1 < height ∧ p.1 + p.2 ≤ height := by
  obtain ⟨k, hk, rfl⟩ := List.mem_map.1 hp
  rw [List.mem_range] at hk
  have h1 : k * bh + bh ≤ height + bh - 1 := by
    calc k * bh + bh = (k + 1) * bh := by ring
      _ ≤ (height + bh - 1) / bh * bh := Nat.mul_le_mul_right _ hk
      _ ≤ _ := Nat.div_mul_le_self _ _
  have h3 : 0 < bh := Nat.pos_of_ne_zero h0
  have h2 : min bh (height - k * bh) ≤ height - k * bh := Nat.min_le_right _ _
  constructor <;> simp only <;> omega

theorem band_inside_fill {c : Cfg} {color : Bool} {bh : Nat} {b : Band} (h0 : bh ≠ 0)
    (hb : b ∈ fillBodies c color bh) : inBoundsRect c b.x b.y b.w b.h = true := by
  obtain ⟨p, hp, rfl⟩ := List.mem_map.1 hb
  have := fillBands_inside hp h0
  simp [inBoundsRect, solidBand, this.2]

/-- What an operation starts is such a run. -/
theorem runOk_start {i : Instr} {s s0 : State} {acts : List Act} {bands : List Band}
    (h : Starts i s acts bands s0) : RunOk s.cfg (opcodeOf i) acts bands s0 := by
  cases h with
  | init part gray steps s hf hs h0 =>
    refine ⟨?_, by simp, .inr (.inl ⟨rfl, rfl, initMode part gray, [.resetPulse] ++ stepActs steps ++ initLutActs s.cfg (initMode part gray), rfl, .inr ⟨_, rfl, ?_⟩⟩)⟩
    · intro hv a ha
      simp only [initActs, List.mem_append] at ha
      rcases ha with ((h | h) | h) | h
      · fin_cases h; rfl
      · exact programsLut_stepActs h
      · exact (transmitAct_initLut h).2 hv
      · fin_cases h; rfl
    · intro a ha
      simp only [List.nil_append, List.append_eq, List.mem_append] at ha
      rcases ha with h | h
      · exact plain_stepActs h
      · exact (transmitAct_initLut h).1
  | sleep s hp =>
    refine ⟨?_, by simp, .inr (.inr ⟨rfl, rfl, hp, _, rfl, fun a ha => plain_stepActs ha⟩)⟩
    intro hv a ha
    rcases List.mem_append.1 ha with h | h
    · exact programsLut_stepActs h
    · fin_cases h; rfl
  | waitIdle s => exact ⟨by simp [Act.programsLut], by simp, .inl (by simp [Act.plain])⟩
  | sendCommand op8 s => exact ⟨by simp [Act.programsLut], by simp, .inl (by simp [Act.plain])⟩
  | sendData bytes s => exact ⟨by simp [Act.programsLut], by simp, .inl (by simp [Act.plain])⟩
  | setLut cls t s hv hp =>
    exact ⟨fun h2 a ha => (transmitAct_programLut hv ha).2 h2, by simp, .inl fun a ha => plain_programLutActs ha⟩
  | displayFull s hp =>
    exact ⟨fun h2 a ha => (transmitAct_displayFull ha).2 h2, by simp, .inl fun a ha => (transmitAct_displayFull ha).1⟩
  | displayPartial xs ys xe ye s hp hw =>
    exact ⟨fun h2 a ha => (transmitAct_displayPartial ha).2 h2, by simp, .inl fun a ha => (transmitAct_displayPartial ha).1⟩
  | draw x y w h img s hp hz hb =>
    exact ⟨by simp, by simpa [drawBand] using hb, .inl (by simp)⟩
  | fill color bh s hp hb =>
    exact ⟨by simp, fun b hb' => band_inside_fill hb hb', .inl (by simp)⟩

/-- The state a run starts in keeps the invariant's part. -/
theorem starts_mid {i : Instr} {s s0 : State} {acts : List Act} {bands : List Band} (h : Starts i s acts bands s0) :
    KeepsMid s.cfg s s0 ∧ Logs s s0 ∧ s0.errsticky = s.errsticky ∧ s0.lastResult = s.lastResult := by
  cases h with
  | init part gray steps s hf hs h0 =>
    exact ⟨.of_same rfl rfl rfl (by simp), ⟨[.busInit s.bus.nextStatus], by simp, rfl, by simp [levelAfter], by simp [levelAfter], by simp [levelAfter], .busInit _ _ .nil, by simp⟩, rfl, rfl⟩
  | _ => exact ⟨.refl _ _, Logs.refl _, rfl, rfl⟩

/-- The state that is finished at once keeps the invariant's part. -/
theorem finishes_mid {i : Instr} {s s0 : State} {code pix data} (h : Finishes i s code pix data s0) :
    KeepsMid s.cfg s s0 ∧ Logs s s0 ∧ s0.errsticky = s.errsticky ∧ s0.lastResult = s.lastResult := by
  cases h with
  | error i code s h1 h2 h3 => exact ⟨.refl _ _, Logs.refl _, rfl, rfl⟩
  | busInit part gray s h0 =>
    exact ⟨.of_same rfl rfl rfl (by simp), ⟨[.busInit s.bus.nextStatus], by simp, rfl, by simp [levelAfter], by simp [levelAfter], by simp [levelAfter], .busInit _ _ .nil, by simp⟩, rfl, rfl⟩
  | setPixel v x y s hb =>
    simp only [inBoundsPix, Bool.and_eq_true, decide_eq_true_eq] at hb
    exact ⟨fun h => ⟨rfl, h.valid, wf_writePixel h.fbCanonical _ _ _, below_writePixel (valid_width h.valid) h.fbInside hb.1 hb.2 _, h.lutOfV2, h.rstHigh⟩, Logs.of_same rfl rfl, rfl, rfl⟩
  | blit x y w hh img s hb =>
    exact ⟨fun h => ⟨rfl, h.valid, wf_blitCore h.fbCanonical _ _ _ _ _, below_blitCore (valid_width h.valid) h.fbInside hb _, h.lutOfV2, h.rstHigh⟩, Logs.of_same rfl rfl, rfl, rfl⟩
  | getPixel => exact ⟨.refl _ _, Logs.refl _, rfl, rfl⟩
  | readImage => exact ⟨.refl _ _, Logs.refl _, rfl, rfl⟩
  | readReg => exact ⟨.refl _ _, Logs.refl _, rfl, rfl⟩
  | reset s => exact ⟨keepsMid_runAct (a := .resetPulse) (fun _ => rfl) s, logs_runAct .resetPulse s, rfl, rfl⟩

/-- What a step adds to the log is framed and latched. -/
theorem step_logs {s t : State} (h : step s = .next t) : Logs s t := by
  obtain ⟨hv, ⟨f, hf, rfl⟩ | ⟨hn, ⟨i, len, hfe, he⟩ | ⟨why, opc, len, hfe, rfl⟩ | ⟨-, rfl⟩⟩⟩ := step_cases h
  · exact Logs.trans (b := { s with inFlight := none }) (Logs.of_same rfl rfl) (logs_runOperation _ _ _ _ _)
  · rcases exec_cases he with ⟨acts, bands, s0, hs, rfl⟩ | ⟨code, pix, data, s0, hs, rfl⟩
    · exact (starts_mid hs).2.1.trans (logs_runOperation _ _ _ _ _)
    · exact (finishes_mid hs).2.1.trans (Logs.of_same rfl rfl)
  · exact Logs.of_same rfl rfl
  · exact Logs.refl _

/-- `Traced`, with `busy_pending` set at the end if the panel may be busy then, unless Sleeping was entered
(41_panel_protocol.md R142). -/
def TracedAwake (s t : State) : Prop :=
  ∃ ev, Traced s t ev ∧
    (pendingAfter s.cfg s.busyPending s.bus.dc ev = true → t.busyPending = true ∨ EntersSleep s t)

theorem Tracks.awake {s t : State} (h : Tracks s t) : TracedAwake s t :=
  h.imp fun _ h => ⟨h.toTraced, fun hp => .inl (h.pending hp)⟩

theorem TracedAwake.of_bus {s t u : State} (h : TracedAwake s t) (hb : u.bus = t.bus) (hc : u.cfg = t.cfg)
    (hp : t.busyPending = true → u.busyPending = true)
    (hs : EntersSleep s t → u.busyPending = true ∨ EntersSleep s u) : TracedAwake s u := by
  obtain ⟨ev, h1, h2⟩ := h
  exact ⟨ev, h1.of_bus hb hc, fun h => (h2 h).elim (fun h => .inl (hp h)) hs⟩

/-- A run keeps the busy interlock and tracks `busy_pending`; the entry into Sleeping, which clears it, comes
last. -/
theorem tracedAwake_runAll {acts : List Act} {bands : List Band} {s : State}
    (h : .enterSleep ∉ acts ∨
      (bands = [] ∧ s.pstate = .initialized ∧ ∃ l, acts = l ++ [.enterSleep] ∧ .enterSleep ∉ l)) :
    TracedAwake s (runAll acts bands s).state := by
  rcases h with h | ⟨rfl, hs, l, rfl, h⟩
  · refine Tracks.awake (runAll_rel Tracks Tracks.trans (tracks_runActs bands h s) (fun s => ?_))
    refine runBands_rel Tracks Tracks.refl Tracks.trans (fun b hm rest s => ?_) s
    refine Tracks.trans (b := bufferWrite b s) (Tracks.of_same rfl id rfl) (tracks_runActs rest (fun hm => ?_) _)
    have := (transmitAct_transmit hm).1
    simp [Act.plain] at this
  · rw [runAll_concat l .enterSleep s (f := fun s => { s with busyPending := false, pstate := .sleeping }) (fun _ => rfl)]
    have := tracks_runActs [] h s
    cases hr : runActs [] l s with
    | done s1 =>
      rw [hr] at this
      obtain ⟨ev, he⟩ := this
      exact ⟨ev, he.toTraced.of_bus (t := s1) rfl rfl, fun _ => .inr ⟨by simp [hs], rfl⟩⟩
    | timedOut s1 => rw [hr] at this; exact this.awake
    | held a b s1 => rw [hr] at this; exact this.awake

theorem runOk_noSleep {c opc acts bands s0} (h : RunOk c opc acts bands s0) :
    .enterSleep ∉ acts ∨
      (bands = [] ∧ s0.pstate = .initialized ∧ ∃ l, acts = l ++ [.enterSleep] ∧ .enterSleep ∉ l) := by
  rcases h.shape with hp | ⟨rfl, rfl, m, l, rfl, hl'⟩ | ⟨rfl, rfl, hps, l, rfl, hp⟩
  · exact .inl (not_plain_mem hp).2.2
  · left
    rcases hl' with ⟨hp, -⟩ | ⟨l', rfl, hp⟩
    · simp [(not_plain_mem hp).2.2]
    · simp [(not_plain_mem hp).2.2]
  · exact .inr ⟨rfl, hps, l, rfl, (not_plain_mem hp).2.2⟩

theorem tracedAwake_runOperation {c opc len} {acts : List Act} {bands : List Band} {s : State}
    (h : RunOk c opc acts bands s) : TracedAwake s (runOperation opc len acts bands s) := by
  have he := tracedAwake_runAll (runOk_noSleep h)
  rcases runOperation_cases opc len acts bands s with ⟨s1, h, e⟩ | ⟨s1, h, e⟩ | ⟨a, b, s1, h, e⟩ <;>
    rw [h] at he <;> rw [e]
  · exact he.of_bus (t := s1) rfl rfl id .inr
  · exact he.of_bus (t := s1) rfl rfl (fun _ => rfl) fun _ => .inl rfl
  · exact he.of_bus (t := s1) rfl rfl id .inr

end Sys2Proof.Machine
end

