-- ==== Sys2Proof/Laws/Poll.lean ====
section
/-! SUPPORT. The busy poll on known BUSY levels (41_panel_protocol.md R133). -/

namespace Sys2Proof.Machine

/-- The state after `k` reads of the busy level with their delays, `rest` being the levels still queued. -/
def polled (k : Nat) (rest : List Level) (s : State) : State :=
  { s with bus := { s.bus with log := s.bus.log ++ busyPolls s.cfg k, busyIn := rest } }

@[simp] theorem polled_cfg (k : Nat) (rest : List Level) (s : State) : (polled k rest s).cfg = s.cfg := rfl

theorem busyPolls_succ (c : Cfg) (k : Nat) : busyPolls c (k + 1) =
    [.busyRead (!c.idleLevel), .delay c.pollDelayMs] ++ busyPolls c k := by
  simp [busyPolls, List.replicate_succ]

theorem busyPolls_zero (c : Cfg) : busyPolls c 0 = [] := rfl

theorem polled_zero (s : State) : polled 0 s.bus.busyIn s = s := by
  simp [polled, busyPolls_zero]

theorem polled_polled (j k : Nat) (r r' : List Level) (s : State) :
    polled j r' (polled k r s) = polled (k + j) r' s := by
  have : busyPolls s.cfg k ++ busyPolls s.cfg j = busyPolls s.cfg (k + j) := by
    rw [busyPolls, busyPolls, busyPolls, ← List.flatten_append, List.replicate_append_replicate]
  simp [polled, this]

/-- A queued level is the next one. -/
theorem busyLevel_of_queue {b : Bus} {l : Level} {rest : List Level} (h : b.busyIn = l :: rest) :
    b.busyLevel = l := by simp [Bus.busyLevel, h]

theorem busyRead_of_queue {b : Bus} {l : Level} {rest : List Level} (h : b.busyIn = l :: rest) :
    b.busyRead = { b with log := b.log ++ [.busyRead l], busyIn := rest } := by
  simp [Bus.busyRead, Bus.dropBusy, Bus.busyLevel, h, Bus.emit]

theorem nextIsIdle_of_queue {s : State} {l : Level} {rest : List Level} (h : s.bus.busyIn = l :: rest) :
    nextIsIdle s = decide (l = s.cfg.idleLevel) := by simp [nextIsIdle, busyLevel_of_queue h]

theorem pollBusy_of_queue {s : State} {rest : List Level}
    (h : s.bus.busyIn = (!s.cfg.idleLevel) :: rest) : pollBusy s = polled 1 rest s := by
  simp [pollBusy, busyRead_of_queue h, polled, busyPolls, Bus.delay, Bus.emit]

theorem pollIdle_of_queue {s : State} {rest : List Level} (h : s.bus.busyIn = s.cfg.idleLevel :: rest) :
    pollIdle s = { s with
      busyPending := false
      bus := { s.bus with log := s.bus.log ++ [.busyRead s.cfg.idleLevel], busyIn := rest } } := by
  simp [pollIdle, readBusy, busyRead_of_queue h]

/-- A poll reads through `k` queued busy levels. -/
theorem waitBudget_polls (k : Nat) : ∀ {n : Nat} {s : State} {rest : List Level},
    s.bus.busyIn = List.replicate k (!s.cfg.idleLevel) ++ rest →
    waitBudget (n + k) s = waitBudget n (polled k rest s) := by
  induction k with
  | zero =>
    intro n s rest h
    rw [show rest = s.bus.busyIn by simpa using h.symm, polled_zero]
    rfl
  | succ k ih =>
    intro n s rest h
    rw [List.replicate_succ, List.cons_append] at h
    rw [← Nat.add_assoc, waitBudget, nextIsIdle_of_queue h, pollBusy_of_queue h]
    simp only [Bool.not_eq_eq_eq_not, Bool.eq_not_self, decide_false, Bool.false_eq_true, if_false]
    rw [ih (s := polled 1 (List.replicate k (!s.cfg.idleLevel) ++ rest) s) (rest := rest) rfl, polled_polled,
      Nat.add_comm 1 k]

/-- A poll without a budget reads through `k` queued busy levels. -/
theorem waitUnbounded_polls (k : Nat) : ∀ {s : State} {rest : List Level},
    s.bus.busyIn = List.replicate k (!s.cfg.idleLevel) ++ rest →
    waitUnbounded s.bus.busyIn s = waitUnbounded rest (polled k rest s) := by
  induction k with
  | zero =>
    intro s rest h
    rw [show rest = s.bus.busyIn by simpa using h.symm, polled_zero]
  | succ k ih =>
    intro s rest h
    rw [List.replicate_succ, List.cons_append] at h
    rw [h, waitUnbounded, nextIsIdle_of_queue h, pollBusy_of_queue h]
    simp only [Bool.not_eq_eq_eq_not, Bool.eq_not_self, decide_false, Bool.false_eq_true, if_false]
    have := ih (s := polled 1 (List.replicate k (!s.cfg.idleLevel) ++ rest) s) (rest := rest) rfl
    rw [polled_polled, Nat.add_comm 1 k] at this
    exact this

theorem waitBudget_idle {n : Nat} {s : State} {rest : List Level}
    (h : s.bus.busyIn = s.cfg.idleLevel :: rest) : waitBudget n s = .done (pollIdle s) := by
  unfold waitBudget
  rw [nextIsIdle_of_queue h]
  simp

theorem waitUnbounded_idle {q : List Level} {s : State} {rest : List Level}
    (h : s.bus.busyIn = s.cfg.idleLevel :: rest) : waitUnbounded q s = .done (pollIdle s) := by
  unfold waitUnbounded
  rw [nextIsIdle_of_queue h]
  simp

/-- A poll that reads `k` busy levels within the budget and then the idle level. -/
theorem waitIdleI_of_queue {k : Nat} {s : State} {rest : List Level} (hb : withinBudget s.cfg k)
    (h : s.bus.busyIn = List.replicate k (!s.cfg.idleLevel) ++ s.cfg.idleLevel :: rest) :
    waitIdleI s = .done (pollIdle (polled k (s.cfg.idleLevel :: rest) s)) := by
  unfold waitIdleI
  split
  · rename_i b hbud
    obtain ⟨n, rfl⟩ := Nat.exists_eq_add_of_le (hb b hbud)
    rw [Nat.add_comm k n, waitBudget_polls k h, waitBudget_idle (rest := rest) rfl]
  · rw [waitUnbounded_polls k h, waitUnbounded_idle (rest := rest) rfl]

/-- A poll that reads busy levels until its budget is spent (41_panel_protocol.md R133). -/
theorem waitIdleI_spent {budget : Nat} {s : State} {rest : List Level}
    (hb : s.cfg.busyBudget = some budget)
    (h : s.bus.busyIn = List.replicate (budget + 1) (!s.cfg.idleLevel) ++ rest) :
    waitIdleI s = .timedOut (readBusy (polled budget ((!s.cfg.idleLevel) :: rest) s)) := by
  have h' : s.bus.busyIn = List.replicate budget (!s.cfg.idleLevel) ++ (!s.cfg.idleLevel) :: rest := by
    rw [h, List.replicate_succ', List.append_assoc]
    rfl
  unfold waitIdleI
  rw [hb]
  show waitBudget budget s = _
  have := waitBudget_polls budget (n := 0) h'
  rw [Nat.zero_add] at this
  rw [this, waitBudget, nextIsIdle_of_queue (rest := rest) rfl]
  simp

/-- A poll without a budget that is held has read the busy level. -/
theorem waitUnbounded_held {q : List Level} {s s1 : State} (h : waitUnbounded q s = .held s1) :
    ∃ ev, s1.bus.log = s.bus.log ++ ev ∧ Event.busyRead (!s.cfg.idleLevel) ∈ ev := by
  have busy : ∀ s : State, ¬ nextIsIdle s = true → s.bus.busyLevel = !s.cfg.idleLevel := by
    intro s hs
    simp only [nextIsIdle, decide_eq_true_eq] at hs
    cases hb : s.bus.busyLevel <;> cases hi : s.cfg.idleLevel <;> simp_all
  induction q generalizing s with
  | nil =>
    unfold waitUnbounded at h
    split at h
    · cases h
    · cases h
      exact ⟨[.busyRead s.bus.busyLevel, .delay s.cfg.pollDelayMs], by simp, by simp [busy s ‹_›]⟩
  | cons l q ih =>
    unfold waitUnbounded at h
    split at h
    · cases h
    · obtain ⟨ev, h1, h2⟩ := ih h
      exact ⟨[.busyRead s.bus.busyLevel, .delay s.cfg.pollDelayMs] ++ ev, by simp [h1],
        List.mem_append_right _ h2⟩

/-- An action that holds has read the busy level. -/
theorem runAct_held_busy {a : Act} {s s1 : State} (h : runAct a s = .held s1) :
    ∃ ev, s1.bus.log = s.bus.log ++ ev ∧ Event.busyRead (!s.cfg.idleLevel) ∈ ev := by
  have poll : waitIdleI s = .held s1 →
      ∃ ev, s1.bus.log = s.bus.log ++ ev ∧ Event.busyRead (!s.cfg.idleLevel) ∈ ev := by
    intro h
    unfold waitIdleI at h
    split at h
    · exact absurd h (waitBudget_ne_held _ _ _)
    · exact waitUnbounded_held h
  cases a with
  | cmd op8 =>
    simp only [runAct, sendCommandI] at h
    split at h
    · cases hw : waitIdleI s with
      | done s2 => simp [hw] at h
      | timedOut s2 => simp [hw] at h
      | held s2 => rw [hw] at h; exact poll (hw.trans h)
    · simp at h
  | waitIdle => exact poll h
  | _ => simp [runAct] at h

theorem runActs_held_busy {bands b1 : List Band} {acts a1 : List Act} {s s1 : State}
    (h : runActs bands acts s = .held a1 b1 s1) :
    ∃ ev, s1.bus.log = s.bus.log ++ ev ∧ Event.busyRead (!s.cfg.idleLevel) ∈ ev := by
  induction acts generalizing s with
  | nil => simp [runActs] at h
  | cons a acts ih =>
    unfold runActs at h
    have hl := logs_runAct a s
    cases hr : runAct a s with
    | done s2 =>
      rw [hr] at hl
      simp only [hr] at h
      obtain ⟨ev, h1, h2⟩ := ih h
      obtain ⟨ev0, h0⟩ := hl
      have hc : s2.cfg = s.cfg := h0.cfg
      exact ⟨ev0 ++ ev, by rw [h1, show s2.bus.log = _ from h0.log, List.append_assoc],
        List.mem_append_right _ (hc ▸ h2)⟩
    | timedOut s2 => simp [hr] at h
    | held s2 =>
      simp only [hr, RunResult.held.injEq] at h
      obtain ⟨-, -, rfl⟩ := h
      exact runAct_held_busy hr

theorem runBands_held_busy {bands b1 : List Band} {a1 : List Act} {s s1 : State}
    (h : runBands bands s = .held a1 b1 s1) :
    ∃ ev, s1.bus.log = s.bus.log ++ ev ∧ Event.busyRead (!s.cfg.idleLevel) ∈ ev := by
  induction bands generalizing s with
  | nil => simp [runBands] at h
  | cons b bands ih =>
    unfold runBands at h
    have hl := logs_runActs bands (transmitActs b (bufferWrite b s)) (bufferWrite b s)
    cases hr : runActs bands (transmitActs b (bufferWrite b s)) (bufferWrite b s) with
    | done s2 =>
      rw [hr] at hl
      simp only [hr] at h
      obtain ⟨ev, h1, h2⟩ := ih h
      obtain ⟨ev0, h0⟩ := hl
      have hc : s2.cfg = s.cfg := h0.cfg
      exact ⟨ev0 ++ ev, by rw [h1, show s2.bus.log = _ from h0.log, List.append_assoc]; rfl,
        List.mem_append_right _ (hc ▸ h2)⟩
    | timedOut s2 => simp [hr] at h
    | held a bs s2 =>
      simp only [hr, RunResult.held.injEq] at h
      obtain ⟨-, -, rfl⟩ := h
      exact runActs_held_busy (s := bufferWrite b s) hr

/-- An operation that is held has read the busy level (70_reset_and_hazards.md R238). -/
theorem runAll_held_busy {bands b1 : List Band} {acts a1 : List Act} {s s1 : State}
    (h : runAll acts bands s = .held a1 b1 s1) :
    ∃ ev, s1.bus.log = s.bus.log ++ ev ∧ Event.busyRead (!s.cfg.idleLevel) ∈ ev := by
  unfold runAll at h
  have hl := logs_runActs bands acts s
  cases hr : runActs bands acts s with
  | done s2 =>
    rw [hr] at hl
    simp only [hr] at h
    obtain ⟨ev, h1, h2⟩ := runBands_held_busy h
    obtain ⟨ev0, h0⟩ := hl
    have hc : s2.cfg = s.cfg := h0.cfg
    exact ⟨ev0 ++ ev, by rw [h1, show s2.bus.log = _ from h0.log, List.append_assoc],
      List.mem_append_right _ (hc ▸ h2)⟩
  | timedOut s2 => simp [hr] at h
  | held a bs s2 =>
    simp only [hr, RunResult.held.injEq] at h
    obtain ⟨-, -, rfl⟩ := h
    exact runActs_held_busy hr

end Sys2Proof.Machine
end

