-- ==== Sys2Proof/Laws/Ready.lean ====
section
/-! SUPPORT. A run of actions to its end: the registers and the link bytes it leaves, whatever the panel answered
on the way, and that a ready panel lets every run end. -/

namespace Sys2Proof.Machine

/-! ### What a run that ends leaves -/

/-- The engine registers an action can write. -/
structure Regs where
  pstate : PState
  mode : Mode
  busyPending : Bool
  lutClass : Option LutClass
  pcount : BitVec 16
  ostate : OState

/-- The engine registers of a state. -/
def regsOf (s : State) : Regs := ⟨s.pstate, s.mode, s.busyPending, s.lutClass, s.pcount, s.ostate⟩

/-- The registers after an action that ended. -/
def Regs.after (c : Cfg) (r : Regs) : Act → Regs
  | .cmd op8 => { r with busyPending := c.triggersBusy op8 }
  | .data _ => r
  | .delay _ => r
  | .waitIdle => { r with busyPending := false }
  | .resetPulse => { r with busyPending := true, lutClass := none, pstate := .resetting }
  | .setOState o => { r with ostate := o }
  | .setLut l => { r with lutClass := l }
  | .clearPcount => { r with pcount := 0 }
  | .bumpPcount => { r with pcount := pcountSucc r.pcount }
  | .enterMode m => { r with mode := m, pcount := 0, pstate := .initialized }
  | .enterSleep => { r with busyPending := false, pstate := .sleeping }

/-- The bytes an action puts on the link. -/
def Act.wire : Act → List StreamItem
  | .cmd op8 => [.cmd op8]
  | .data bytes => bytes.map .data
  | .delay _ => []
  | .waitIdle => []
  | .resetPulse => []
  | .setOState _ => []
  | .setLut _ => []
  | .clearPcount => []
  | .bumpPcount => []
  | .enterMode _ => []
  | .enterSleep => []

/-- The output latches. -/
structure Pins where
  rst : Level
  dc : Level
  cs : Level

/-- The output latches of a state. -/
def pinsOf (s : State) : Pins := ⟨s.bus.rst, s.bus.dc, s.bus.cs⟩

/-- The output latches after an action that ended. -/
def Pins.after (c : Cfg) (p : Pins) : Act → Pins
  | .cmd _ => { p with dc := false, cs := true }
  | .data bytes => if bytes.isEmpty then p else { p with dc := true, cs := true }
  | .delay _ => p
  | .waitIdle => p
  | .resetPulse => { p with rst := levelAfter .rst p.rst (pulseEvents c.p.resetSeq) }
  | .setOState _ => p
  | .setLut _ => p
  | .clearPcount => p
  | .bumpPcount => p
  | .enterMode _ => p
  | .enterSleep => p

/-- `t` is what a run of `acts` from `s` leaves when it ends. -/
structure Ran (acts : List Act) (s t : State) : Prop where
  frame : ActFrame s t
  regs : regsOf t = acts.foldl (Regs.after s.cfg) (regsOf s)
  pins : pinsOf t = acts.foldl (Pins.after s.cfg) (pinsOf s)
  statusIn : t.bus.statusIn = s.bus.statusIn
  statusDrawn : t.bus.statusDrawn = s.bus.statusDrawn
  wire : ∃ ev, Logged s t ev ∧ wireFrom s.bus.dc ev = acts.flatMap Act.wire

theorem Ran.nil (s : State) : Ran [] s s :=
  ⟨ActFrame.refl s, rfl, rfl, rfl, rfl, [], ⟨by simp, rfl, rfl, rfl, rfl, .nil, by simp⟩, rfl⟩

theorem Ran.append {a b : List Act} {s t u : State} (h : Ran a s t) (h' : Ran b t u) : Ran (a ++ b) s u where
  frame := h.frame.trans h'.frame
  regs := by rw [h'.regs, h.frame.cfg, h.regs, List.foldl_append]
  pins := by rw [h'.pins, h.frame.cfg, h.pins, List.foldl_append]
  statusIn := h'.statusIn.trans h.statusIn
  statusDrawn := h'.statusDrawn.trans h.statusDrawn
  wire := by
    obtain ⟨x, hx, hx'⟩ := h.wire
    obtain ⟨y, hy, hy'⟩ := h'.wire
    exact ⟨x ++ y, hx.trans hy, by rw [wireFrom_append, hx', ← hx.dc, hy', List.flatMap_append]⟩

/-- A poll adds to the log only events without link bytes, and moves no pin. -/
def Polls (s t : State) : Prop :=
  (∃ ev, Logged s t ev ∧ ∀ dc, wireFrom dc ev = []) ∧ pinsOf t = pinsOf s ∧
    t.bus.statusIn = s.bus.statusIn ∧ t.bus.statusDrawn = s.bus.statusDrawn

theorem Polls.trans {a b c : State} (h : Polls a b) (h' : Polls b c) : Polls a c := by
  obtain ⟨⟨x, hx, hx'⟩, h1, h2, h3⟩ := h
  obtain ⟨⟨y, hy, hy'⟩, h4, h5, h6⟩ := h'
  exact ⟨⟨x ++ y, hx.trans hy, fun dc => by rw [wireFrom_append, hx', hy']; rfl⟩, h4.trans h1, h5.trans h2,
    h6.trans h3⟩

theorem polls_readBusy (s : State) : Polls s (readBusy s) :=
  ⟨⟨[.busyRead s.bus.busyLevel], ⟨by simp [readBusy], rfl, by simp [readBusy, levelAfter],
    by simp [readBusy, levelAfter], by simp [readBusy, levelAfter], .busyRead _ _ .nil, by simp⟩, fun _ => rfl⟩,
    by simp [readBusy, pinsOf], by simp [readBusy], by simp [readBusy]⟩

theorem polls_pollIdle (s : State) : Polls s (pollIdle s) :=
  Polls.trans (polls_readBusy s) ⟨⟨[], ⟨by simp [pollIdle], rfl, by simp [pollIdle, levelAfter],
    by simp [pollIdle, levelAfter], by simp [pollIdle, levelAfter], .nil, by simp⟩, fun _ => rfl⟩,
    by simp [pollIdle, pinsOf], by simp [pollIdle], by simp [pollIdle]⟩

theorem polls_pollBusy (s : State) : Polls s (pollBusy s) :=
  Polls.trans (polls_readBusy s) ⟨⟨[.delay s.cfg.pollDelayMs], ⟨by simp [pollBusy], rfl,
    by simp [pollBusy, levelAfter], by simp [pollBusy, levelAfter], by simp [pollBusy, levelAfter],
    .delay _ _ .nil, by simp⟩, fun _ => rfl⟩, by simp [pollBusy, pinsOf], by simp [pollBusy], by simp [pollBusy]⟩

theorem polls_waitIdleI (s : State) : Polls s (waitIdleI s).state :=
  waitIdleI_rel Polls Polls.trans polls_readBusy (fun s _ => polls_pollIdle s) polls_pollBusy s

/-- No read of a poll writes a register other than `busy_pending`. -/
theorem regs_waitIdleI {s t : State} (h : waitIdleI s = .done t) :
    regsOf t = { regsOf s with busyPending := false } := by
  have key : ∀ s, { regsOf (waitIdleI s).state with busyPending := false } =
      { regsOf s with busyPending := false } := fun s =>
    waitIdleI_rel (fun s t => ({ regsOf t with busyPending := false } : Regs) =
      { regsOf s with busyPending := false }) (fun h h' => h'.trans h) (fun _ => rfl) (fun _ _ => rfl)
      (fun _ => rfl) s
  have h1 := key s
  have h2 := waitIdleI_done_pending h
  rw [h] at h1
  rw [← h1]
  show regsOf t = { regsOf t with busyPending := false }
  unfold regsOf
  rw [h2]

theorem ran_waitIdle {s t : State} (h : waitIdleI s = .done t) : Ran [.waitIdle] s t := by
  have hf := waitIdleI_frame s
  have hp := polls_waitIdleI s
  rw [h] at hf hp
  obtain ⟨⟨ev, h1, h2⟩, h3, h4, h5⟩ := hp
  exact ⟨hf, regs_waitIdleI h, h3, h4, h5, ev, h1, h2 _⟩

theorem ran_transmitCommand (op8 : Byte) (s : State) (hb : s.busyPending = false) :
    Ran [.cmd op8] s (transmitCommand op8 s) := by
  refine ⟨.of_rfl, ?_, by simp [transmitCommand, pinsOf, Pins.after], by simp [transmitCommand], by simp [transmitCommand],
    transactionEvents false [op8], ?_, ?_⟩
  · simp [regsOf, transmitCommand, Regs.after, hb]
  · exact ⟨by simp [transmitCommand, transactionEvents], rfl,
      by simp [transmitCommand, transactionEvents, levelAfter],
      by simp [transmitCommand, transactionEvents, levelAfter],
      by simp [transmitCommand, transactionEvents, levelAfter], .transaction false [op8] [] (by simp) .nil,
      by simp [transactionEvents]⟩
  · simp [wireFrom, cmdstreamFrom, transactionEvents, StreamItem.onWire, Act.wire]

theorem ran_sendData (bytes : List Byte) (s : State) :
    Ran [.data bytes] s { s with bus := s.bus.sendData s.cfg.chunking bytes } := by
  have one : ∀ (s : State) (l : List Byte), l ≠ [] → (s.cfg.chunking = .perByte → l.length = 1) →
      Ran [.data l] s { s with bus := s.bus.transaction true l } := by
    intro s l hl h1
    refine ⟨.of_rfl, rfl, by simp [pinsOf, Pins.after, hl], by simp, by simp, transactionEvents true l,
      (tracked_transaction_data s _ hl h1 rfl).toLogged, ?_⟩
    simp [wireFrom, cmdstreamFrom, transactionEvents, Act.wire, StreamItem.onWire, List.filter_eq_self]
  cases bytes with
  | nil =>
    exact ⟨.of_rfl, rfl, rfl, rfl, rfl, [], ⟨by simp [Bus.sendData], rfl, rfl, rfl, rfl, .nil, by simp⟩, rfl⟩
  | cons b bytes =>
    cases hc : s.cfg.chunking with
    | whole => exact one s _ (List.cons_ne_nil _ _) (by simp [hc])
    | perByte =>
      simp only [Bus.sendData]
      generalize b :: bytes = l
      clear hc b bytes
      induction l generalizing s with
      | nil =>
        exact ⟨.of_rfl, rfl, rfl, rfl, rfl, [], ⟨by simp, rfl, rfl, rfl, rfl, .nil, by simp⟩, rfl⟩
      | cons d l ih =>
        have := (one s [d] (by simp) (by simp)).append (ih { s with bus := s.bus.transaction true [d] })
        refine ⟨this.frame, this.regs, ?_, this.statusIn, this.statusDrawn, ?_⟩
        · refine this.pins.trans ?_
          cases l <;> simp [Pins.after]
        obtain ⟨ev, h1, h2⟩ := this.wire
        exact ⟨ev, h1, by rw [h2]; simp [Act.wire]⟩

theorem wireFrom_pulse (dc : Level) (seq : List (Level × Nat)) : wireFrom dc (pulseEvents seq) = [] := by
  induction seq with
  | nil => rfl
  | cons e seq ih =>
    show wireFrom dc ([.pin .rst e.1, .delay e.2] ++ pulseEvents seq) = []
    rw [wireFrom_append]
    exact ih

/-- The events of the reset pulse (41_panel_protocol.md R135). -/
theorem pulse_bus (seq : List (Level × Nat)) (b : Bus) :
    (b.pulse seq).log = b.log ++ pulseEvents seq ∧ (b.pulse seq).dc = b.dc ∧ (b.pulse seq).cs = b.cs ∧
      (b.pulse seq).busyIn = b.busyIn ∧ (b.pulse seq).busyDrawn = b.busyDrawn ∧
      (b.pulse seq).statusIn = b.statusIn ∧ (b.pulse seq).statusDrawn = b.statusDrawn := by
  induction seq generalizing b with
  | nil => simp [Bus.pulse, pulseEvents]
  | cons e seq ih =>
    obtain ⟨h1, h2, h3, h4, h5, h6, h7⟩ := ih ((b.pinWrite .rst e.1).delay e.2)
    simp only [Bus.pulse, List.foldl_cons] at *
    exact ⟨by rw [h1]; simp [pulseEvents], h2, h3, h4, h5, h6, h7⟩

theorem ran_resetPulse (s : State) : Ran [.resetPulse] s (resetPulse s) := by
  obtain ⟨h1, h2, h3, h4, h5, h6, h7⟩ := pulse_bus s.cfg.p.resetSeq s.bus
  obtain ⟨ev, hev⟩ := logs_runAct .resetPulse s
  have : ev = pulseEvents s.cfg.p.resetSeq := by
    have := hev.log
    rw [show (runAct .resetPulse s).state.bus.log = _ from h1] at this
    exact (List.append_cancel_left this).symm
  exact ⟨.of_rfl, rfl, by
      unfold pinsOf
      simp only [List.foldl_cons, List.foldl_nil, Pins.after, Pins.mk.injEq]
      exact ⟨by rw [← this]; exact hev.rst, h2, h3⟩, h6, h7, ev, hev,
    by rw [this]; exact wireFrom_pulse _ _⟩

/-- A register write that touches nothing else. -/
theorem ran_silent {a : Act} {s t : State} (hf : ActFrame s t) (hr : regsOf t = (regsOf s).after s.cfg a)
    (hb : t.bus = s.bus) (hw : a.wire = []) (hp : ∀ c p, Pins.after c p a = p := by intros; rfl) :
    Ran [a] s t :=
  ⟨hf, hr, by simp [hp, pinsOf, hb], by rw [hb], by rw [hb], [],
    ⟨by simp [hb], hf.cfg, by rw [hb]; rfl, by rw [hb]; rfl, by rw [hb]; rfl, .nil, by simp⟩,
    by simp [wireFrom, cmdstreamFrom, hw]⟩

/-- What an action that ended leaves. -/
theorem ran_runAct {a : Act} {s t : State} (h : runAct a s = .done t) : Ran [a] s t := by
  cases a with
  | cmd op8 =>
    simp only [runAct, sendCommandI] at h
    split at h
    · cases hw : waitIdleI s with
      | done s1 =>
        simp only [hw, PollResult.done.injEq] at h
        subst h
        have h1 := ran_waitIdle hw
        have h2 := ran_transmitCommand op8 s1 (waitIdleI_done_pending hw)
        have h3 := h1.append h2
        refine ⟨h3.frame, ?_, h3.pins, h3.statusIn, h3.statusDrawn, ?_⟩
        · rw [h3.regs]; rfl
        · exact h3.wire
      | timedOut s1 => simp [hw] at h
      | held s1 => simp [hw] at h
    · simp only [PollResult.done.injEq] at h
      subst h
      exact ran_transmitCommand op8 s (by simpa using ‹¬s.busyPending = true›)
  | data bytes => cases h; exact ran_sendData bytes s
  | delay ms =>
    cases h
    exact ⟨.of_rfl, rfl, rfl, rfl, rfl, [.delay ms], ⟨by simp, rfl, rfl, rfl, rfl, .delay _ _ .nil, by simp⟩, rfl⟩
  | waitIdle => exact ran_waitIdle h
  | resetPulse => cases h; exact ran_resetPulse s
  | setOState o => cases h; exact ran_silent .of_rfl rfl rfl rfl
  | setLut l => cases h; exact ran_silent .of_rfl rfl rfl rfl
  | clearPcount => cases h; exact ran_silent .of_rfl rfl rfl rfl
  | bumpPcount => cases h; exact ran_silent .of_rfl rfl rfl rfl
  | enterMode m => cases h; exact ran_silent .of_rfl rfl rfl rfl
  | enterSleep => cases h; exact ran_silent .of_rfl rfl rfl rfl

/-- What a run that ended leaves. -/
theorem ran_runActs {bands : List Band} {acts : List Act} {s t : State}
    (h : runActs bands acts s = .done t) : Ran acts s t := by
  induction acts generalizing s with
  | nil => cases h; exact Ran.nil _
  | cons a acts ih =>
    unfold runActs at h
    cases hr : runAct a s with
    | done s1 => simp only [hr] at h; exact (ran_runAct hr).append (ih h)
    | timedOut s1 => simp [hr] at h
    | held s1 => simp [hr] at h

/-- A run without a reset pulse leaves the reset line. -/
theorem Ran.rst {acts : List Act} {s t : State} (h : Ran acts s t) (hn : Act.resetPulse ∉ acts) :
    t.bus.rst = s.bus.rst := by
  have key : ∀ (p : Pins), Act.resetPulse ∉ acts → (acts.foldl (Pins.after s.cfg) p).rst = p.rst := by
    clear h hn
    induction acts with
    | nil => exact fun _ _ => rfl
    | cons a acts ih =>
      intro p hn
      rw [List.foldl_cons, ih _ fun hm => hn (List.mem_cons_of_mem _ hm)]
      cases a with
      | resetPulse => exact absurd List.mem_cons_self hn
      | data bytes => simp only [Pins.after]; split <;> rfl
      | _ => rfl
  have := key (pinsOf s) hn
  rw [← h.pins] at this
  exact this

/-- The link frame of a run without a reset pulse. -/
theorem Ran.linkFrame {acts : List Act} {s t : State} (h : Ran acts s t) (hn : Act.resetPulse ∉ acts) :
    LinkFrame s t := by
  obtain ⟨ev, h1, -⟩ := h.wire
  refine ⟨h.rst hn, fun hc => ?_, h.statusIn, h.statusDrawn⟩
  rw [h1.cs, hc]
  exact h1.framed.levelAfter

/-! ### A ready panel -/

/-- At most how many BUSY levels an action reads when each is idle. -/
def Act.polls : Act → Nat
  | .cmd _ => 1
  | .waitIdle => 1
  | _ => 0

/-- At most how many BUSY levels a run reads when each is idle. -/
def pollsOf (acts : List Act) : Nat := (acts.map Act.polls).sum

theorem pollsOf_append (a b : List Act) : pollsOf (a ++ b) = pollsOf a + pollsOf b := by
  simp [pollsOf]

theorem pollsOf_stepActs (steps : List ProtoStep) : pollsOf (stepActs steps) ≤ steps.length := by
  induction steps with
  | nil => exact le_rfl
  | cons st steps ih =>
    have : pollsOf (stepActs (st :: steps)) = (actOfStep st).polls + pollsOf (stepActs steps) := by
      simp [pollsOf, stepActs]
    have h1 : (actOfStep st).polls ≤ 1 := by cases st <;> simp [actOfStep, Act.polls]
    rw [this, List.length_cons]
    omega

theorem pollsOf_programLut (t : V1Table) (cls : LutClass) : pollsOf (programLutActs t cls) = 5 := rfl

theorem PanelReady.mono {m n : Nat} {s : State} (h : PanelReady n s) (hm : m ≤ n) : PanelReady m s :=
  ⟨hm.trans h.1, fun l hl => h.2 l ((List.take_subset_take_left _ hm) hl)⟩

theorem PanelReady.of_same {n : Nat} {s t : State} (h : PanelReady n s) (hb : t.bus.busyIn = s.bus.busyIn)
    (hc : t.cfg = s.cfg) : PanelReady n t := by
  unfold PanelReady at *
  rw [hb, hc]
  exact h

theorem PanelReady.idle_cons {n : Nat} {s : State} (h : PanelReady (n + 1) s) :
    ∃ rest, s.bus.busyIn = s.cfg.idleLevel :: rest ∧
      ∀ t : State, t.bus.busyIn = rest → t.cfg = s.cfg → PanelReady n t := by
  obtain ⟨h1, h2⟩ := h
  cases hb : s.bus.busyIn with
  | nil => simp [hb] at h1
  | cons l rest =>
    rw [hb] at h1 h2
    have hl : l = s.cfg.idleLevel := h2 l (by simp)
    refine ⟨rest, by rw [hl], fun t hb' hc => ⟨by simpa [hb'] using h1, fun x hx => ?_⟩⟩
    rw [hb'] at hx
    rw [hc]
    exact h2 x (by simp [hx])

/-- A poll of a ready panel is one read of the idle level (41_panel_protocol.md R133). -/
theorem waitIdleI_ready {n : Nat} {s : State} (h : PanelReady (n + 1) s) :
    ∃ t, waitIdleI s = .done t ∧ PanelReady n t ∧
      t.bus.log = s.bus.log ++ [.busyRead s.cfg.idleLevel] := by
  obtain ⟨rest, hb, hr⟩ := h.idle_cons
  have := waitIdleI_of_queue (k := 0) (s := s) (rest := rest) (fun b _ => Nat.zero_le b) (by simpa using hb)
  rw [pollIdle_of_queue (s := polled 0 (s.cfg.idleLevel :: rest) s) (rest := rest) rfl] at this
  exact ⟨_, this, hr _ rfl rfl, by simp [polled, busyPolls_zero]⟩

/-- With a ready panel an action ends. -/
theorem runAct_ready {a : Act} {n : Nat} {s : State} (h : PanelReady (n + a.polls) s) :
    ∃ t, runAct a s = .done t ∧ PanelReady n t := by
  cases a with
  | cmd op8 =>
    simp only [runAct, sendCommandI]
    split
    · obtain ⟨t, h1, h2, -⟩ := waitIdleI_ready h
      exact ⟨transmitCommand op8 t, by rw [h1], h2.of_same (by simp [transmitCommand]) rfl⟩
    · exact ⟨_, rfl, (h.mono (Nat.le_add_right _ _)).of_same (by simp [transmitCommand]) rfl⟩
  | waitIdle =>
    obtain ⟨t, h1, h2, -⟩ := waitIdleI_ready h
    exact ⟨t, h1, h2⟩
  | data bytes =>
    refine ⟨_, rfl, PanelReady.of_same h ?_ rfl⟩
    show (s.bus.sendData s.cfg.chunking bytes).busyIn = s.bus.busyIn
    cases bytes with
    | nil => rfl
    | cons d l =>
      cases s.cfg.chunking with
      | whole => simp [Bus.sendData]
      | perByte =>
        simp only [Bus.sendData]
        generalize s.bus = b
        generalize d :: l = l
        induction l generalizing b with
        | nil => rfl
        | cons d l ih => rw [List.foldl_cons, ih]; simp
  | resetPulse =>
    exact ⟨_, rfl, PanelReady.of_same h (pulse_bus s.cfg.p.resetSeq s.bus).2.2.2.1 rfl⟩
  | _ => exact ⟨_, rfl, PanelReady.of_same h rfl rfl⟩

/-- With a ready panel a run ends. -/
theorem runActs_ready (bands : List Band) {acts : List Act} {n : Nat} {s : State}
    (h : PanelReady (n + pollsOf acts) s) : ∃ t, runActs bands acts s = .done t ∧ PanelReady n t := by
  induction acts generalizing s with
  | nil => exact ⟨s, rfl, by simpa [pollsOf] using h⟩
  | cons a acts ih =>
    have hp : pollsOf (a :: acts) = pollsOf acts + a.polls := by simp [pollsOf, Nat.add_comm]
    rw [hp, ← Nat.add_assoc] at h
    obtain ⟨s1, h1, h2⟩ := runAct_ready h
    obtain ⟨t, h3, h4⟩ := ih h2
    exact ⟨t, by simp [runActs, h1, h3], h4⟩

/-! ### Every event of a run with a ready panel -/

theorem pendingAfterSteps_append (c : Cfg) (p : Bool) (a b : List ProtoStep) :
    pendingAfterSteps c p (a ++ b) = pendingAfterSteps c (pendingAfterSteps c p a) b := by
  induction a generalizing p with
  | nil => rfl
  | cons st a ih => cases st <;> exact ih _

theorem stepsEvents_append (c : Cfg) (p : Bool) (a b : List ProtoStep) :
    stepsEvents c p (a ++ b) = stepsEvents c p a ++ stepsEvents c (pendingAfterSteps c p a) b := by
  induction a generalizing p with
  | nil => rfl
  | cons st a ih => cases st <;> simp [stepsEvents, pendingAfterSteps, ih]

/-- The events of a data payload (41_panel_protocol.md R132). -/
theorem sendData_log (b : Bus) (c : Cfg) (bytes : List Byte) :
    (b.sendData c.chunking bytes).log = b.log ++ dataEvents c bytes := by
  unfold Bus.sendData dataEvents Cfg.chunking
  cases bytes with
  | nil => simp
  | cons d l =>
    cases c.chunkings.get c.variant with
    | whole => simp [transactionEvents]
    | perByte =>
      simp only
      generalize d :: l = l
      induction l generalizing b with
      | nil => simp
      | cons d l ih => rw [List.foldl_cons, ih]; simp [transactionEvents]

/-- The protocol steps that actions are, in order. -/
def protoSteps (acts : List Act) : List ProtoStep := acts.filterMap Act.protoStep

theorem protoSteps_append (a b : List Act) : protoSteps (a ++ b) = protoSteps a ++ protoSteps b := by
  simp [protoSteps]

/-- The link bytes of actions are those of their protocol steps. -/
theorem wire_protoSteps (acts : List Act) :
    acts.flatMap Act.wire = (protoSteps acts).flatMap stepWire := by
  induction acts with
  | nil => rfl
  | cons a acts ih =>
    rw [List.flatMap_cons, ih]
    cases a <;> rfl

/-- `busy_pending` after an action that is not the pulse or the entry into a panel state. -/
theorem pending_runAct {a : Act} {s t : State} (ha : a.plain = true) (h : runAct a s = .done t) :
    t.busyPending = pendingAfterSteps s.cfg s.busyPending (protoSteps [a]) := by
  have := congrArg Regs.busyPending (ran_runAct h).regs
  change t.busyPending = _ at this
  rw [this]
  cases a <;> first | rfl | simp [Act.plain] at ha

/-- Every event of such an action when the panel is ready. -/
theorem log_runAct_ready {a : Act} {n : Nat} {s t : State} (ha : a.plain = true)
    (hr : PanelReady (n + a.polls) s) (h : runAct a s = .done t) :
    t.bus.log = s.bus.log ++ stepsEvents s.cfg s.busyPending (protoSteps [a]) := by
  cases a with
  | cmd op8 =>
    simp only [runAct, sendCommandI] at h
    split at h
    · rename_i hb
      obtain ⟨u, h1, -, h3⟩ := waitIdleI_ready hr
      simp only [h1, PollResult.done.injEq] at h
      subst h
      simp [transmitCommand, protoSteps, Act.protoStep, stepsEvents, transactionEvents, hb, h3]
    · rename_i hb
      cases h
      simp [transmitCommand, protoSteps, Act.protoStep, stepsEvents, transactionEvents, hb]
  | waitIdle =>
    obtain ⟨u, h1, -, h3⟩ := waitIdleI_ready hr
    rw [show runAct .waitIdle s = waitIdleI s from rfl, h1] at h
    cases h
    exact h3
  | data bytes =>
    cases h
    simp [protoSteps, Act.protoStep, stepsEvents, sendData_log]
  | delay ms => cases h; simp [protoSteps, Act.protoStep, stepsEvents]
  | resetPulse => simp [Act.plain] at ha
  | enterMode m => simp [Act.plain] at ha
  | enterSleep => simp [Act.plain] at ha
  | _ => cases h; exact (List.append_nil _).symm

/-- Every event of a run of such actions when the panel is ready (41_panel_protocol.md R134). -/
theorem log_runActs_ready {bands : List Band} {acts : List Act} {n : Nat} {s t : State}
    (ha : ∀ a ∈ acts, a.plain = true) (hr : PanelReady (n + pollsOf acts) s)
    (h : runActs bands acts s = .done t) :
    t.bus.log = s.bus.log ++ stepsEvents s.cfg s.busyPending (protoSteps acts) := by
  induction acts generalizing s with
  | nil => cases h; simp [protoSteps, stepsEvents]
  | cons a acts ih =>
    have hp : pollsOf (a :: acts) = pollsOf acts + a.polls := by simp [pollsOf, Nat.add_comm]
    rw [hp, ← Nat.add_assoc] at hr
    obtain ⟨s1, h1, h2⟩ := runAct_ready hr
    unfold runActs at h
    rw [h1] at h
    have hc : s1.cfg = s.cfg := (ran_runAct h1).frame.cfg
    have ha1 := ha a List.mem_cons_self
    rw [ih (fun b hb => ha b (List.mem_cons_of_mem _ hb)) h2 h, log_runAct_ready ha1 hr h1, hc,
      pending_runAct ha1 h1, List.append_assoc, ← stepsEvents_append, ← protoSteps_append]
    rfl

/-- A run that ended, then one action that never polls. -/
theorem runActs_concat_done {bands : List Band} {acts : List Act} {a : Act} {s t : State}
    (h : runActs bands (acts ++ [a]) s = .done t) :
    ∃ s1, runActs bands acts s = .done s1 ∧ runAct a s1 = .done t := by
  rw [runActs_append] at h
  cases hr : runActs bands acts s with
  | done s1 =>
    simp only [hr, runActs] at h
    cases ha : runAct a s1 with
    | done s2 => simp only [ha, RunResult.done.injEq] at h; exact ⟨s1, rfl, h ▸ ha⟩
    | timedOut s2 => simp [ha] at h
    | held s2 => simp [ha] at h
  | timedOut s1 => simp [hr] at h
  | held x y s1 => simp [hr] at h

/-- A run of actions alone ends an operation. -/
theorem runOperation_done {opc : Byte} {len : Nat} {acts : List Act} {s t : State}
    (h : runActs [] acts s = .done t) : runOperation opc len acts [] s = finishOk opc len t := by
  simp [runOperation, runAll, h, runBands, settle]

end Sys2Proof.Machine
end

