-- ==== Sys2Proof/Laws/Bands.lean ====
section
/-! SUPPORT. Runs of bands: a run does not look at the bookkeeping of descriptors, and what bands leave in FB. -/

namespace Sys2Proof.Machine

/-! ### A run does not look at the bookkeeping -/

/-- A state without the bookkeeping of its descriptors and without the host's streams. -/
def forget (s : State) : State :=
  { s with
    lastOpc := 0
    lastResult := .ok
    errsticky := 0
    dp := 0
    stream := []
    responses := []
    inFlight := none }

/-- A poll's result without the bookkeeping. -/
def PollResult.forget : PollResult → PollResult
  | .done s => .done (Machine.forget s)
  | .timedOut s => .timedOut (Machine.forget s)
  | .held s => .held (Machine.forget s)

/-- A run's result without the bookkeeping. -/
def RunResult.forget : RunResult → RunResult
  | .done s => .done (Machine.forget s)
  | .timedOut s => .timedOut (Machine.forget s)
  | .held a b s => .held a b (Machine.forget s)

theorem waitBudget_forget (n : Nat) (s : State) : waitBudget n (forget s) = (waitBudget n s).forget := by
  induction n generalizing s with
  | zero =>
    unfold waitBudget
    rw [show nextIsIdle (forget s) = nextIsIdle s from rfl]
    split <;> rfl
  | succ n ih =>
    unfold waitBudget
    rw [show nextIsIdle (forget s) = nextIsIdle s from rfl]
    split
    · rfl
    · exact ih (pollBusy s)

theorem waitUnbounded_forget (q : List Level) (s : State) :
    waitUnbounded q (forget s) = (waitUnbounded q s).forget := by
  induction q generalizing s with
  | nil =>
    unfold waitUnbounded
    rw [show nextIsIdle (forget s) = nextIsIdle s from rfl]
    split <;> rfl
  | cons l q ih =>
    unfold waitUnbounded
    rw [show nextIsIdle (forget s) = nextIsIdle s from rfl]
    split
    · rfl
    · exact ih (pollBusy s)

theorem waitIdleI_forget (s : State) : waitIdleI (forget s) = (waitIdleI s).forget := by
  unfold waitIdleI
  rw [show (forget s).cfg = s.cfg from rfl]
  split
  · exact waitBudget_forget _ s
  · exact waitUnbounded_forget _ s

theorem runAct_forget (a : Act) (s : State) : runAct a (forget s) = (runAct a s).forget := by
  cases a with
  | cmd op8 =>
    simp only [runAct, sendCommandI]
    rw [show (forget s).busyPending = s.busyPending from rfl, waitIdleI_forget]
    split
    · cases waitIdleI s <;> rfl
    · rfl
  | waitIdle => exact waitIdleI_forget s
  | _ => rfl

/-- A run of actions does not look at the bookkeeping. -/
theorem runActs_forget (bands : List Band) (acts : List Act) (s : State) :
    runActs bands acts (forget s) = (runActs bands acts s).forget := by
  induction acts generalizing s with
  | nil => rfl
  | cons a acts ih =>
    simp only [runActs, runAct_forget]
    cases runAct a s with
    | done s1 => exact ih s1
    | timedOut s1 => rfl
    | held s1 => rfl

/-- A run of bands does not look at the bookkeeping. -/
theorem runBands_forget (bands : List Band) (s : State) :
    runBands bands (forget s) = (runBands bands s).forget := by
  induction bands generalizing s with
  | nil => rfl
  | cons b bands ih =>
    simp only [runBands]
    rw [show bufferWrite b (forget s) = forget (bufferWrite b s) from rfl,
      show transmitActs b (forget (bufferWrite b s)) = transmitActs b (bufferWrite b s) from rfl, runActs_forget]
    cases runActs bands (transmitActs b (bufferWrite b s)) (bufferWrite b s) with
    | done s1 => exact ih s1
    | timedOut s1 => rfl
    | held a bs s1 => rfl

/-- States that differ only in the bookkeeping and in `ostate` run the same bands alike. -/
theorem runBands_of_forget {b : Band} {bands : List Band} {s s' : State}
    (h : forget { s with ostate := .idle } = forget { s' with ostate := .idle }) :
    (runBands (b :: bands) s).forget = (runBands (b :: bands) s').forget := by
  have key : ∀ s : State, runBands (b :: bands) { s with ostate := .idle } = runBands (b :: bands) s :=
    fun _ => rfl
  rw [← key s, ← key s', ← runBands_forget, ← runBands_forget, h]

/-! ### What a run of bands leaves in FB -/

/-- FB after a run of bands that ended: the blits, in order. -/
theorem runBands_fb {bands : List Band} {s t : State} (h : runBands bands s = .done t) :
    t.fb = bands.foldl (fun m b => blitCore s.cfg m b.x b.y b.w b.h b.img) s.fb := by
  induction bands generalizing s with
  | nil => cases h; rfl
  | cons b bands ih =>
    unfold runBands at h
    have hf := runActs_frame bands (transmitActs b (bufferWrite b s)) (bufferWrite b s)
    cases hr : runActs bands (transmitActs b (bufferWrite b s)) (bufferWrite b s) with
    | done s1 =>
      simp only [hr] at h
      rw [hr] at hf
      rw [ih h, show s1.cfg = s.cfg from hf.cfg, show s1.fb = _ from hf.fb]
      rfl
    | timedOut s1 => simp [hr] at h
    | held a bs s1 => simp [hr] at h

/-- With a ready panel a run of bands ends. -/
theorem runBands_ready {bands : List Band} {c : Cfg} {k n : Nat}
    (hk : ∀ b ∈ bands, ∀ s : State, s.cfg = c → pollsOf (transmitActs b s) ≤ k) {s : State} (hc : s.cfg = c)
    (h : PanelReady (n + bands.length * k) s) :
    ∃ t, runBands bands s = .done t ∧ PanelReady n t := by
  induction bands generalizing s with
  | nil => exact ⟨s, rfl, by simpa using h⟩
  | cons b bands ih =>
    have hb := hk b List.mem_cons_self (bufferWrite b s) hc
    rw [List.length_cons, Nat.succ_mul] at h
    have h' : PanelReady (n + bands.length * k + pollsOf (transmitActs b (bufferWrite b s)))
        (bufferWrite b s) := (h.mono (by omega)).of_same rfl rfl
    obtain ⟨s1, h1, h2⟩ := runActs_ready bands h'
    have hf := runActs_frame bands (transmitActs b (bufferWrite b s)) (bufferWrite b s)
    rw [h1] at hf
    obtain ⟨t, h3, h4⟩ := ih (fun b hb => hk b (List.mem_cons_of_mem _ hb))
      (show s1.cfg = c from hf.cfg.trans hc) h2
    exact ⟨t, by simp [runBands, h1, h3], h4⟩

/-- The link frame composes. -/
theorem LinkFrame.trans {s t u : State} (h : LinkFrame s t) (h' : LinkFrame t u) : LinkFrame s u :=
  ⟨h'.rst.trans h.rst, fun hc => h'.cs (h.cs hc), h'.statusIn.trans h.statusIn,
    h'.statusDrawn.trans h.statusDrawn⟩

/-- Transmissions have no reset pulse. -/
theorem resetPulse_not_mem_transmit (b : Band) (s : State) : Act.resetPulse ∉ transmitActs b s := fun hm => by
  have := (transmitAct_transmit hm).1
  simp [Act.plain] at this

/-- The link frame of a run of bands that ended. -/
theorem runBands_linkFrame {bands : List Band} {s t : State} (h : runBands bands s = .done t) :
    LinkFrame s t := by
  induction bands generalizing s with
  | nil => cases h; exact ⟨rfl, id, rfl, rfl⟩
  | cons b bands ih =>
    unfold runBands at h
    cases hr : runActs bands (transmitActs b (bufferWrite b s)) (bufferWrite b s) with
    | done s1 =>
      simp only [hr] at h
      have h1 := (ran_runActs hr).linkFrame (resetPulse_not_mem_transmit _ _)
      exact LinkFrame.trans ⟨h1.1, h1.2, h1.3, h1.4⟩ (ih h)
    | timedOut s1 => simp [hr] at h
    | held a bs s1 => simp [hr] at h

end Sys2Proof.Machine
end

