-- ==== Sys2Proof/Laws/Fields.lean ====
section
/-! SUPPORT. The laws of the word fields and of the image and payload packings (30_encoding.md R81, R88,
R89). -/

namespace Sys2Proof

/-! ### Fields -/

@[simp] theorem opcOf_headWord (opc f : Byte) (imm : Half) : opcOf (headWord opc f imm) = opc := by
  apply BitVec.eq_of_getLsbD_eq
  intro i hi
  have h1 : ¬ 24 + i < 16 := by omega
  have h2 : ¬ 24 + i - 16 < 8 := by omega
  have h3 : 24 + i - 16 - 8 = i := by omega
  simp only [opcOf, headWord, BitVec.getLsbD_append, BitVec.getLsbD_extractLsb']
  simp [hi, h1, h2, h3]

@[simp] theorem fOf_headWord (opc f : Byte) (imm : Half) : fOf (headWord opc f imm) = f := by
  apply BitVec.eq_of_getLsbD_eq
  intro i hi
  simp only [fOf, headWord, BitVec.getLsbD_append, BitVec.getLsbD_extractLsb']
  simp [hi]

@[simp] theorem immOf_headWord (opc f : Byte) (imm : Half) : immOf (headWord opc f imm) = imm := by
  apply BitVec.eq_of_getLsbD_eq
  intro i hi
  simp only [immOf, headWord, BitVec.getLsbD_append, BitVec.getLsbD_extractLsb']
  simp [hi]

@[simp] theorem hiOf_coordWord (hi lo : Half) : hiOf (coordWord hi lo) = hi := by
  apply BitVec.eq_of_getLsbD_eq
  intro i hi'
  simp only [hiOf, coordWord, BitVec.getLsbD_append, BitVec.getLsbD_extractLsb']
  simp [hi']

@[simp] theorem loOf_coordWord (hi lo : Half) : loOf (coordWord hi lo) = lo := by
  apply BitVec.eq_of_getLsbD_eq
  intro i hi'
  simp only [loOf, coordWord, BitVec.getLsbD_append, BitVec.getLsbD_extractLsb']
  simp [hi']

/-- The three fields are the whole first word. -/
theorem headWord_fields (w : Word) : headWord (opcOf w) (fOf w) (immOf w) = w := by
  apply BitVec.eq_of_getLsbD_eq
  intro i hi
  simp only [headWord, opcOf, fOf, immOf, BitVec.getLsbD_append, BitVec.getLsbD_extractLsb']
  by_cases h1 : i < 16
  · simp [h1]
  · by_cases h2 : i - 16 < 8
    · have : 16 + (i - 16) = i := by omega
      simp [h1, h2, this]
    · have h3 : i - 16 - 8 < 8 := by omega
      have : 24 + (i - 16 - 8) = i := by omega
      simp [h1, h2, h3, this]

/-- The two halves are the whole coordinate word. -/
theorem coordWord_fields (w : Word) : coordWord (hiOf w) (loOf w) = w := by
  apply BitVec.eq_of_getLsbD_eq
  intro i hi
  simp only [coordWord, hiOf, loOf, BitVec.getLsbD_append, BitVec.getLsbD_extractLsb']
  by_cases h1 : i < 16
  · simp [h1]
  · have h3 : i - 16 < 16 := by omega
    have : 16 + (i - 16) = i := by omega
    simp [h1, h3, this]

/-! ### Payload bytes -/

@[simp] theorem bytesOfWord_wordOfBytes (a b c d : Byte) :
    bytesOfWord (wordOfBytes a b c d) = [a, b, c, d] := by
  simp only [bytesOfWord, List.cons.injEq, and_true]
  refine ⟨?_, ?_, ?_, ?_⟩ <;> apply BitVec.eq_of_getLsbD_eq <;> intro i hi
  · have h1 : ¬ 24 + i < 16 := by omega
    have h2 : ¬ 24 + i - 16 < 8 := by omega
    have h3 : 24 + i - 16 - 8 = i := by omega
    simp only [wordOfBytes, BitVec.getLsbD_append, BitVec.getLsbD_extractLsb']
    simp [hi, h1, h2, h3]
  · simp only [wordOfBytes, BitVec.getLsbD_append, BitVec.getLsbD_extractLsb']
    simp [hi]
  · have h1 : 8 + i < 16 := by omega
    simp only [wordOfBytes, BitVec.getLsbD_append, BitVec.getLsbD_extractLsb']
    simp [hi, h1]
  · have h1 : i < 16 := by omega
    simp only [wordOfBytes, BitVec.getLsbD_append, BitVec.getLsbD_extractLsb']
    simp [hi, h1]

theorem wordOfBytes_bytesOfWord (w : Word) :
    wordOfBytes (w.extractLsb' 24 8) (w.extractLsb' 16 8) (w.extractLsb' 8 8) (w.extractLsb' 0 8) = w := by
  apply BitVec.eq_of_getLsbD_eq
  intro i hi
  simp only [wordOfBytes, BitVec.getLsbD_append, BitVec.getLsbD_extractLsb']
  by_cases h1 : i < 8
  · have : i < 16 := by omega
    simp [h1, this]
  · by_cases h2 : i < 16
    · have h3 : i - 8 < 8 := by omega
      have : 8 + (i - 8) = i := by omega
      simp [h1, h2, h3, this]
    · by_cases h3 : i - 16 < 8
      · have : 16 + (i - 16) = i := by omega
        simp [h2, h3, this]
      · have h4 : i - 16 - 8 < 8 := by omega
        have : 24 + (i - 16 - 8) = i := by omega
        simp [h2, h3, h4, this]

theorem dataWords_add_four (n : Nat) : dataWords (n + 4) = dataWords n + 1 := by
  unfold dataWords; omega

theorem length_packBytes (bytes : List Byte) : (packBytes bytes).length = dataWords bytes.length := by
  induction bytes using packBytes.induct with
  | case1 => rfl
  | case2 => simp [packBytes, dataWords]
  | case3 => simp [packBytes, dataWords]
  | case4 => simp [packBytes, dataWords]
  | case5 a b c d rest ih => simp [packBytes, ih, dataWords_add_four]

/-- The bytes of packed bytes: the bytes, then zeros to the end of the last word. -/
theorem bytes_packBytes (bytes : List Byte) : ∃ k, (packBytes bytes).flatMap bytesOfWord =
    bytes ++ List.replicate k 0 := by
  induction bytes using packBytes.induct with
  | case1 => exact ⟨0, rfl⟩
  | case2 a => exact ⟨3, by simp [packBytes, List.replicate]⟩
  | case3 a b => exact ⟨2, by simp [packBytes, List.replicate]⟩
  | case4 a b c => exact ⟨1, by simp [packBytes, List.replicate]⟩
  | case5 a b c d rest ih =>
    obtain ⟨k, hk⟩ := ih
    exact ⟨k, by simp [packBytes, hk]⟩

/-- Unpacking packed bytes gives them back. -/
theorem unpackBytes_packBytes (bytes : List Byte) :
    unpackBytes bytes.length (packBytes bytes) = bytes := by
  obtain ⟨k, hk⟩ := bytes_packBytes bytes
  simp [unpackBytes, hk]

theorem dataPaddingZero_packBytes (bytes : List Byte) :
    dataPaddingZero bytes.length (packBytes bytes) = true := by
  obtain ⟨k, hk⟩ := bytes_packBytes bytes
  simp [dataPaddingZero, hk]

theorem length_flatMap_bytesOfWord (words : List Word) :
    (words.flatMap bytesOfWord).length = 4 * words.length := by
  induction words with
  | nil => rfl
  | cons w words ih => simp [ih, bytesOfWord]; omega

theorem length_unpackBytes {n : Nat} {words : List Word} (h : words.length = dataWords n) :
    (unpackBytes n words).length = n := by
  unfold unpackBytes
  rw [List.length_take, length_flatMap_bytesOfWord, h]
  unfold dataWords
  omega

/-- Packing the bytes of data words whose padding is 0 gives the words back. -/
theorem packBytes_unpackBytes {n : Nat} {words : List Word} (h : words.length = dataWords n)
    (hp : dataPaddingZero n words = true) : packBytes (unpackBytes n words) = words := by
  induction words generalizing n with
  | nil => simp [unpackBytes, packBytes]
  | cons w words ih =>
    by_cases h4 : 4 ≤ n
    · obtain ⟨m, rfl⟩ : ∃ m, n = m + 4 := ⟨n - 4, by omega⟩
      have hl : words.length = dataWords m := by
        rw [dataWords_add_four] at h; simpa using h
      have hp' : dataPaddingZero m words = true := by
        simpa [dataPaddingZero, bytesOfWord] using hp
      have := ih hl hp'
      simp only [unpackBytes, List.flatMap_cons, bytesOfWord, List.cons_append, List.nil_append,
        List.take_succ_cons, packBytes] at this ⊢
      rw [this, wordOfBytes_bytesOfWord]
    · have hw : words = [] := by
        have : dataWords n ≤ 1 := by unfold dataWords; omega
        have : words.length = 0 := by simp at h; omega
        exact List.eq_nil_of_length_eq_zero this
      subst hw
      have hn : n ≠ 0 := by rintro rfl; simp [dataWords] at h
      have hw := wordOfBytes_bytesOfWord w
      have h123 : n = 1 ∨ n = 2 ∨ n = 3 := by omega
      rcases h123 with rfl | rfl | rfl <;>
        simp [dataPaddingZero, bytesOfWord] at hp <;>
        simp [unpackBytes, packBytes, bytesOfWord, hp] at hw ⊢ <;> exact hw

/-- Payload byte `k` is the field 30_encoding.md R89 names. -/
theorem getElem?_bytes (words : List Word) (k : Nat) (hk : k < 4 * words.length) :
    (words.flatMap bytesOfWord)[k]? = some (dataByte words k) := by
  induction words generalizing k with
  | nil => simp at hk
  | cons w words ih =>
    simp only [List.flatMap_cons, bytesOfWord, List.cons_append, List.nil_append]
    match k with
    | 0 => simp [dataByte]
    | 1 => simp [dataByte]
    | 2 => simp [dataByte]
    | 3 => simp [dataByte]
    | k + 4 =>
      have := ih k (by simp at hk; omega)
      have h1 : (k + 4) / 4 = k / 4 + 1 := by omega
      have h2 : (k + 4) % 4 = k % 4 := by omega
      simpa [dataByte, h1, h2] using this

/-! ### Image bits -/

theorem getLsbD_wordOfBits (f : Nat → Bool) {b : Nat} (hb : b < 32) :
    (wordOfBits f).getLsbD (31 - b) = f b := by
  have h : 31 - b < 32 := by omega
  have h' : 31 - (31 - b) = b := by omega
  simp [wordOfBits, h, h']

@[simp] theorem length_packBits (n : Nat) (bit : Nat → Bool) :
    (packBits n bit).length = (n + 31) / 32 := by
  simp [packBits]

/-- Image bit `k` of packed bits, and 0 after the last one. -/
theorem imageBit_packBits (n : Nat) (bit : Nat → Bool) (k : Nat) :
    imageBit (packBits n bit) k = (decide (k < n) && bit k) := by
  unfold imageBit
  have hmod : k % 32 < 32 := Nat.mod_lt _ (by decide)
  by_cases hk : k / 32 < (n + 31) / 32
  · rw [List.getD_eq_getElem _ _ (by simpa using hk)]
    simp only [packBits, List.getElem_map, List.getElem_range]
    rw [getLsbD_wordOfBits _ hmod, Nat.div_add_mod]
  · rw [List.getD_eq_default _ _ (by simpa using hk)]
    have : ¬ k < n := by omega
    simp [this]

theorem imagePaddingZero_packBits (w h : Nat) (bit : Nat → Bool) :
    imagePaddingZero w h (packBits (w * h) bit) = true := by
  simp [imagePaddingZero, imageBit_packBits]

/-- Two word lists of the same length with the same image bits are the same. -/
theorem words_eq_of_imageBit {ws ws' : List Word} (hl : ws.length = ws'.length)
    (h : ∀ k, imageBit ws k = imageBit ws' k) : ws = ws' := by
  apply List.ext_getElem hl
  intro m hm hm'
  apply BitVec.eq_of_getLsbD_eq
  intro i hi
  have := h (32 * m + (31 - i))
  have h1 : (32 * m + (31 - i)) / 32 = m := by omega
  have h2 : 31 - (32 * m + (31 - i)) % 32 = i := by omega
  simpa only [imageBit, h1, h2, List.getD_eq_getElem _ _ hm, List.getD_eq_getElem _ _ hm'] using this

/-- Packing the image bits of words whose padding is 0 gives the words back. -/
theorem packBits_imageBit {w h : Nat} {words : List Word} (hl : words.length = imageWords w h)
    (hp : imagePaddingZero w h words = true) {bit : Nat → Bool}
    (hb : ∀ k, k < w * h → bit k = imageBit words k) : packBits (w * h) bit = words := by
  apply words_eq_of_imageBit (by simpa [imageWords] using hl.symm)
  intro k
  rw [imageBit_packBits]
  by_cases hk : k < w * h
  · simp [hk, hb k hk]
  · simp only [hk, decide_false, Bool.false_and]
    by_cases hk2 : k < 32 * imageWords w h
    · simp only [imagePaddingZero, List.all_eq_true, List.mem_range, Bool.not_eq_true'] at hp
      have := hp (k - w * h) (by omega)
      rw [show w * h + (k - w * h) = k by omega] at this
      exact this.symm
    · have : ¬ k / 32 < words.length := by omega
      rw [imageBit, List.getD_eq_default _ _ (Nat.le_of_not_lt this)]
      simp

/-- Pixel `(i, j)` of a packed image. -/
theorem imgBit_packImage {w h : Nat} (pix : Nat → Nat → Bool) {i j : Nat} (hi : i < w) (hj : j < h) :
    imgBit (packImage w h pix) w i j = pix i j := by
  have hlt : j * w + i < w * h := by
    have := Nat.mul_le_mul_right w (show j + 1 ≤ h from hj)
    have hc : (j + 1) * w = j * w + w := Nat.succ_mul _ _
    rw [Nat.mul_comm w h]; omega
  have hmod : (j * w + i) % w = i := by
    rw [Nat.add_comm, Nat.add_mul_mod_self_right, Nat.mod_eq_of_lt hi]
  have hdiv : (j * w + i) / w = j := by
    rw [Nat.add_comm, Nat.add_mul_div_right _ _ (by omega), Nat.div_eq_of_lt hi, Nat.zero_add]
  rw [imgBit, packImage, imageBit_packBits]
  simp [hlt, hmod, hdiv]

end Sys2Proof
end

