-- ==== Sys2Proof/Laws/Decode.lean ====
section
/-! SUPPORT. The shape of the decoder: a complete descriptor decodes by its words alone, and the flags of
F come back. -/

namespace Sys2Proof

/-- A descriptor whose words are all there decodes to what its own words say, whatever follows. -/
theorem decode_of_body {w0 : Word} {ops rest : List Word}
    (hl : descriptorLength w0 (ops ++ rest) = some (ops.length + 1)) :
    decode (w0 :: (ops ++ rest)) =
      match decodeBody w0 ops with
      | .ok i => .ok i (ops.length + 1)
      | .error why => .illegal why (opcOf w0) (ops.length + 1) := by
  have hlt : ¬ (ops ++ rest).length + 1 < ops.length + 1 := by simp
  have ht : (ops ++ rest).take (ops.length + 1 - 1) = ops := by simp
  cases hb : decodeBody w0 ops <;> simp only [decode, hl, hlt, if_false, ht, hb]

/-- What a decoded operation says of the words it came from. -/
theorem decode_eq_ok {words : List Word} {i : Instr} {len : Nat} (h : decode words = .ok i len) :
    ∃ w0 rest, words = w0 :: rest ∧ descriptorLength w0 rest = some len ∧ len ≤ rest.length + 1 ∧
      decodeBody w0 (rest.take (len - 1)) = .ok i := by
  cases words with
  | nil => simp [decode] at h
  | cons w0 rest =>
    simp only [decode] at h
    cases hl : descriptorLength w0 rest with
    | none => simp [hl] at h
    | some n =>
      simp only [hl] at h
      split at h
      · simp at h
      · cases hb : decodeBody w0 (rest.take (n - 1)) with
        | error why => simp [hb] at h
        | ok j =>
          simp only [hb, Decoded.ok.injEq] at h
          obtain ⟨rfl, rfl⟩ := h
          exact ⟨w0, rest, rfl, hl, by omega, hb⟩

/-- A body that decodes has a listed OPC and no reserved bit. -/
theorem decodeBody_eq_ok {w0 : Word} {ops : List Word} {i : Instr} (h : decodeBody w0 ops = .ok i) :
    (formatOf (opcOf w0)).isSome = true ∧ w0 &&& reservedMask (opcOf w0) = 0 ∧
      decodeFields w0 ops = .ok i := by
  unfold decodeBody at h
  split at h
  · simp at h
  · split at h
    · simp at h
    · next h1 h2 =>
      exact ⟨by cases hf : formatOf (opcOf w0) <;> simp_all, by simpa using h2, h⟩

@[simp] theorem flagByte_getLsbD_zero (b : Bool) : (flagByte b).getLsbD 0 = b := by cases b <;> rfl

theorem flagByte_pair (a b : Bool) :
    (flagByte a ||| flagByte b <<< 1).getLsbD 0 = a ∧ (flagByte a ||| flagByte b <<< 1).getLsbD 1 = b := by
  cases a <;> cases b <;> decide

theorem lutClassOf_code (c : LutClass) :
    lutClassOf (((lutClassCode c).setWidth 8).extractLsb' 0 2) = some c := by
  cases c <;> decide

/-- The reserved bits of a first word are those of its F and IMM fields. -/
theorem headWord_and_reserved (opc f : Byte) (imm : Half) (mf : Byte) (mi : Half) :
    headWord opc f imm &&& headWord 0 mf mi = headWord 0 (f &&& mf) (imm &&& mi) := by
  apply BitVec.eq_of_getLsbD_eq
  intro i hi
  simp only [headWord, BitVec.getLsbD_and, BitVec.getLsbD_append]
  by_cases h1 : i < 16
  · simp [h1]
  · by_cases h2 : i - 16 < 8 <;> simp [h1, h2]

theorem headWord_zero_eq_zero (f : Byte) (imm : Half) : headWord 0 f imm = 0 ↔ f = 0 ∧ imm = 0 := by
  constructor
  · intro h
    exact ⟨(fOf_headWord 0 f imm).symm.trans (by rw [h]; rfl), (immOf_headWord 0 f imm).symm.trans (by rw [h]; rfl)⟩
  · rintro ⟨rfl, rfl⟩
    decide

/-- The reserved-bit test of a first word, on its fields. -/
theorem reserved_iff {opc f : Byte} {imm : Half} {mf : Byte} {mi : Half}
    (hm : reservedMask opc = headWord 0 mf mi) :
    headWord opc f imm &&& reservedMask opc = 0 ↔ f &&& mf = 0 ∧ imm &&& mi = 0 := by
  rw [hm, headWord_and_reserved, headWord_zero_eq_zero]

/-- The OPC of an operation is the OPC of its first word. -/
theorem encode_head (i : Instr) : ∃ w0 ops, encode i = w0 :: ops ∧ opcOf w0 = opcodeOf i := by
  cases i <;> exact ⟨_, _, rfl, by simp [opcodeOf]⟩

/-- The reserved mask of `w0` has no bit in OPC. -/
theorem reservedMask_eq_headWord (opc : Byte) : ∃ mf mi, reservedMask opc = headWord 0 mf mi := by
  refine ⟨fOf (reservedMask opc), immOf (reservedMask opc), ?_⟩
  have h : opcOf (reservedMask opc) = 0 := by
    revert opc; decide +kernel
  have := headWord_fields (reservedMask opc)
  rw [h] at this; exact this.symm

/-- A flag read back from its byte. -/
theorem getElem_flagByte (b : Bool) : (flagByte b)[0] = b := by cases b <;> rfl

/-- A first word from what its fields are. -/
theorem eq_headWord {w : Word} {opc f : Byte} {imm : Half} (h1 : opcOf w = opc) (h2 : fOf w = f) (h3 : immOf w = imm) :
    w = headWord opc f imm := by rw [← h1, ← h2, ← h3, headWord_fields]

/-- The listed operation codes (30_encoding.md R91). -/
theorem formatOf_isSome_cases {opc : Byte} (h : (formatOf opc).isSome = true) :
    opc = 0x01#8 ∨ opc = 0x02#8 ∨ opc = 0x03#8 ∨ opc = 0x04#8 ∨ opc = 0x05#8 ∨ opc = 0x10#8 ∨ opc = 0x11#8 ∨ opc = 0x12#8 ∨
    opc = 0x13#8 ∨ opc = 0x14#8 ∨ opc = 0x15#8 ∨ opc = 0x16#8 ∨ opc = 0x20#8 ∨ opc = 0x21#8 ∨ opc = 0x22#8 ∨ opc = 0x23#8 := by
  revert opc; decide +kernel

/-- No reserved bit of `w0` set, field by field. -/
theorem reserved_fields {w : Word} {opc : Byte} {mf : Byte} {mi : Half} (h1 : opcOf w = opc) (h : w &&& reservedMask opc = 0)
    (hm : reservedMask opc = headWord 0 mf mi) : fOf w &&& mf = 0 ∧ immOf w &&& mi = 0 := by
  have := headWord_fields w
  rw [h1] at this
  rw [← this] at h
  exact (reserved_iff hm).1 h

/-- A padding bit that is 1 (30_encoding.md R88). -/
theorem imagePaddingZero_eq_false_iff {w h : Nat} {words : List Word} : imagePaddingZero w h words = false ↔ ∃ k, w * h ≤ k ∧ k < 32 * imageWords w h ∧ imageBit words k = true := by
  simp only [imagePaddingZero, List.all_eq_false, List.mem_range, Bool.not_eq_true', Bool.not_eq_false]
  constructor
  · rintro ⟨d, hd, hb⟩
    exact ⟨w * h + d, by omega, by omega, by simpa using hb⟩
  · rintro ⟨k, h1, h2, hb⟩
    exact ⟨k - w * h, by omega, by rw [Nat.add_sub_cancel' h1]; simp [hb]⟩

end Sys2Proof
end

