-- ==== Sys2Proof/Laws/Transmit.lean ====
section
/-! SUPPORT. What the procedures of the sequencer leave when they end: the link bytes, the registers, and how
often they poll at most. -/

namespace Sys2Proof.Machine

/-- The protocol steps of a protocol step list (41_panel_protocol.md R134). -/
theorem protoSteps_stepActs (l : List ProtoStep) : protoSteps (stepActs l) = l := by
  induction l with
  | nil => rfl
  | cons a l ih =>
    have : protoSteps (stepActs (a :: l)) = protoSteps [actOfStep a] ++ protoSteps (stepActs l) := by
      rw [← protoSteps_append]; rfl
    rw [this, ih]
    cases a <;> rfl

/-- The protocol steps of `ProgramLut` (41_panel_protocol.md R136). -/
theorem protoSteps_programLut (t : V1Table) (c : LutClass) : protoSteps (programLutActs t c) = lutSteps t c := rfl

/-- A list of plain actions holds no reset pulse. -/
theorem resetPulse_not_mem {l : List Act} (h : ∀ a ∈ l, a.plain = true) : Act.resetPulse ∉ l := fun hm => by
  have := h _ hm; simp [Act.plain] at this

/-- The registers after a protocol step list that ended. -/
theorem regs_steps (c : Cfg) (l : List ProtoStep) (r : Regs) :
    (stepActs l).foldl (Regs.after c) r = { r with busyPending := pendingAfterSteps c r.busyPending l } := by
  induction l generalizing r with
  | nil => rfl
  | cons a l ih =>
    show (stepActs l).foldl (Regs.after c) (Regs.after c r (actOfStep a)) = _
    rw [ih]
    cases a <;> rfl

/-- The registers after `ProgramLut` ended. -/
theorem regs_lut (c : Cfg) (t : V1Table) (cls : LutClass) (r : Regs) :
    (programLutActs t cls).foldl (Regs.after c) r =
    { r with busyPending := c.triggersBusy t.opLut.bb, lutClass := some cls } := by
  rw [programLutActs_eq]; rfl

/-- What a run that ended reports when it finishes with OK. -/
theorem Reported.of_ran {acts s t} {opc : Byte} {len : Nat} (h : Ran acts s t) :
    Reported opc len .ok false [] s (finishOk opc len t) :=
  reported_of_runFrame h.frame.toRunFrame

/-- The registers one by one. -/
theorem regs_eq {s : State} {r : Regs} (h : regsOf s = r) :
    s.pstate = r.pstate ∧ s.mode = r.mode ∧ s.busyPending = r.busyPending ∧ s.lutClass = r.lutClass ∧
    s.pcount = r.pcount := by
  subst h; exact ⟨rfl, rfl, rfl, rfl, rfl⟩

/-- The LUT class of a mode (42_refresh.md R174). -/
theorem modeLut_eq (m : Mode) : modeLut m = if m = .gray4 then .gray else .full := by cases m <;> rfl

/-- The LUT class INIT programs (41_panel_protocol.md R141). -/
theorem modeLut_init (part gray : Bool) (h : ¬(part = true ∧ gray = true)) :
    modeLut (initMode part gray) = if gray then .gray else .full := by
  cases part <;> cases gray <;> simp_all [initMode, modeLut]

/-- The registers after a full transmission that ended (42_refresh.md R174). -/
theorem regs_full (s : State) (r : Regs) (hr : r.lutClass = s.lutClass) :
    (displayFullActs s).foldl (Regs.after s.cfg) r =
    { r with
      busyPending := false, pcount := 0, ostate := .idle,
      lutClass := if s.cfg.variant = .v1 then some (if s.mode = .gray4 then .gray else .full) else s.lutClass } := by
  simp only [displayFullActs, List.foldl_append, regs_steps]
  unfold restoreLutActs secondaryActs Cfg.variant
  cases hvt : s.cfg.p.variantTable with
  | v1 table =>
    simp only [VariantTable.variant, if_true, ← modeLut_eq]
    split
    · rename_i h; simp [Regs.after, hr, h]
    · simp only [regs_lut]; simp [Regs.after]
  | v2 => simp [Regs.after, VariantTable.variant, hr]

/-- The registers after a windowed transmission that ended (42_refresh.md R175). -/
theorem regs_partial (win : Window) (s : State) (r : Regs) (hr : r.lutClass = s.lutClass) :
    (displayPartialActs win s).foldl (Regs.after s.cfg) r =
    { r with
      busyPending := pendingAfterSteps s.cfg false s.cfg.p.partialEpilogue,
      pcount := pcountSucc r.pcount, ostate := .idle,
      lutClass := if s.cfg.variant = .v1 then some .part else s.lutClass } := by
  simp only [displayPartialActs, List.foldl_append, regs_steps]
  unfold partialLutActs secondaryActs Cfg.variant
  cases hvt : s.cfg.p.variantTable with
  | v1 table =>
    simp only [VariantTable.variant, if_true, regs_lut]
    simp [Regs.after]
  | v2 => simp [Regs.after, VariantTable.variant, hr]

/-- The secondary bank's stream polls at most once. -/
theorem polls_secondary (c : Cfg) (b : List Byte) : pollsOf (secondaryActs c b) ≤ 1 := by
  rcases secondaryActs_eq c b with e | ⟨t, e⟩ <;> rw [e] <;> simp [pollsOf, Act.polls]

/-- How often a full transmission polls at most. -/
theorem polls_full (s : State) : pollsOf (displayFullActs s) ≤ fullPolls s.cfg := by
  simp only [displayFullActs, pollsOf_append, fullPolls]
  have h1 := pollsOf_stepActs s.cfg.p.fullPrep
  have h2 := pollsOf_stepActs s.cfg.p.fullTrigger
  have h3 := polls_secondary s.cfg (fbBytes s.cfg s.fb)
  have h4 : pollsOf (restoreLutActs s) ≤ 5 := by
    rcases restoreLutActs_eq s with e | ⟨t, -, e⟩ <;> rw [e]
    · simp [pollsOf]
    · rw [pollsOf_programLut]
  have e1 : pollsOf [.setOState .commandPrimary] = 0 := rfl
  have e2 : pollsOf [.cmd s.cfg.p.opRamPrimary, .data (fbBytes s.cfg s.fb)] = 1 := rfl
  have e3 : pollsOf [.setOState .refreshTrigger] = 0 := rfl
  have e4 : pollsOf [.setOState .busyWait, .waitIdle, .clearPcount, .setOState .idle] = 1 := rfl
  omega

/-- How often a windowed transmission polls at most. -/
theorem polls_partial (win : Window) (s : State) :
    pollsOf (displayPartialActs win s) ≤ partialPolls s.cfg (sentWindow s.cfg win) := by
  simp only [displayPartialActs, pollsOf_append, partialPolls]
  have h1 := pollsOf_stepActs s.cfg.p.partialPrep
  have h2 := pollsOf_stepActs s.cfg.p.partialTrigger
  have h5 := pollsOf_stepActs s.cfg.p.partialEpilogue
  have h6 := pollsOf_stepActs (s.cfg.p.partialWindow.eval (sentWindow s.cfg win))
  have h3 := polls_secondary s.cfg ((windowBytes s.cfg s.fb (sentWindow s.cfg win)).map fun b => ~~~b)
  have h4 : pollsOf (partialLutActs s.cfg) ≤ 5 := by
    rcases partialLutActs_eq s.cfg with e | ⟨t, -, e⟩ <;> rw [e]
    · simp [pollsOf]
    · rw [pollsOf_programLut]
  have e1 : pollsOf [.setOState .commandPrimary] = 0 := rfl
  have e2 : pollsOf [.cmd s.cfg.p.opRamPrimary, .data (windowBytes s.cfg s.fb (sentWindow s.cfg win))] = 1 := rfl
  have e3 : pollsOf [.setOState .refreshTrigger] = 0 := rfl
  have e4 : pollsOf [.setOState .busyWait, .waitIdle] = 1 := rfl
  have e5 : pollsOf [.bumpPcount, .setOState .idle] = 0 := rfl
  omega

/-- The saturating count (42_refresh.md R175). -/
theorem pcountSucc_toNat (n : BitVec 16) : (pcountSucc n).toNat = min (n.toNat + 1) 0xFFFF := by
  simp [pcountSucc]

/-- The bytes of a sent window, counted from its first row and column (42_refresh.md R173). -/
theorem windowBytes_eq (c : Cfg) (hg : c.width % 8 = 0) (m : Memory) (win : Window) :
    windowBytes c m (sentWindow c win) = windowBytesSpec c m (sentWindow c win) := by
  unfold windowBytes windowBytesSpec interval
  rw [List.flatMap_map]
  congr 1
  funext i
  rw [List.map_map]
  have : ((sentWindow c win).xe - (sentWindow c win).xs) / 8 = (sentWindow c win).xe / 8 - (sentWindow c win).xs / 8 := by
    simp only [sentWindow, snap]; omega
  rw [this]
  rfl

end Sys2Proof.Machine
end

