-- ==== Sys2Proof/Laws/Fill.lean ====
section
/-! SUPPORT. DRAW and FILL as runs of `DrawBody`s: what their blits leave in FB and their transmissions in the
registers. -/

namespace Sys2Proof.Machine

/-- The bounds of a valid configuration. -/
theorem valid_parts {c : Cfg} (h : c.valid = true) :
    c.width ≤ 65528 ∧ c.height ≤ 65535 ∧ c.pollDelayMs ≤ 99 ∧ c.forceFullEvery ≤ 65535 ∧
    budgetOk c.busyBudget = true ∧ 1 ≤ c.height ∧ 8 ≤ c.width := by
  simp only [Cfg.valid, Bool.and_eq_true, decide_eq_true_eq] at h
  tauto

/-- A field that is not 0 has a value that is not 0. -/
theorem toNat_ne_zero_of_ne {n : Nat} {x : BitVec n} (h : x ≠ 0) :
    x.toNat ≠ 0 :=
  fun h' => h (BitVec.eq_of_toNat_eq (by simpa using h'))

/-- The registers a full transmission leaves. -/
theorem ran_displayFull {s t : State} (h : Ran (displayFullActs s) s t) :
    t.pcount = 0 ∧ t.busyPending = false ∧
    t.lutClass = (if s.cfg.variant = .v1 then some (if s.mode = .gray4 then .gray else .full) else s.lutClass) := by
  obtain ⟨h1, h2, h3, h4, h5⟩ := regs_eq h.regs
  rw [regs_full s _ rfl] at h1 h2 h3 h4 h5
  exact ⟨h5, h3, h4⟩

/-- A DRAW that passes its checks is the operation of its one `DrawBody` (42_refresh.md R178). -/
theorem draw_op {s : State} {x y w h : Half} {img : List Word} (hp : s.pstate = .initialized) (hw : w ≠ 0)
    (hh : h ≠ 0) (h1 : x.toNat + w.toNat ≤ s.cfg.width)
    (h2 : y.toNat + h.toNat ≤ s.cfg.height) :
    exec (.draw x y w h img) s =
      .next (runOperation 0x22 (3 + imageWords w.toNat h.toNat) [] [drawBand x y w h img] s) := by
  have hb : inBoundsRect s.cfg x.toNat y.toNat w.toNat h.toNat = true := by simp [inBoundsRect, h1, h2]
  have h0 : ¬ (w.toNat = 0 ∨ h.toNat = 0) := by
    rintro (h' | h'); exacts [toNat_ne_zero_of_ne hw h', toNat_ne_zero_of_ne hh h']
  simp only [exec, execDraw, hp, h0, hb, if_true, if_false]

/-- A solid band colours its rows and no other pixel (42_refresh.md R179). -/
theorem solid_pixel {c : Cfg} (hg : c.width % 8 = 0) {m : Memory} (hw : Memory.wf c.fillByte m = true)
    {y h : Nat} (hy : y + h ≤ c.height) (color : Bool) {px : Nat} (hpx : px < c.width) (py : Nat) :
    pixelOf c (blitCore c m 0 y c.width h (solidImage c.width h color)) px py =
      if y ≤ py ∧ py < y + h then color else pixelOf c m px py := by
  have hb : inBoundsRect c 0 y c.width h = true := by simp [inBoundsRect, hy]
  rw [pixelOf_blitCore hg hw hb _ hpx]
  by_cases hh : y ≤ py ∧ py < y + h
  · rw [if_pos (by omega), if_pos hh, solidImage, imgBit_packImage _ (by omega) (by omega)]
  · rw [if_neg (by omega), if_neg hh]

/-- The first `n` bands of a FILL colour the rows they cover (42_refresh.md R179). -/
theorem bands_fold {c : Cfg} (hg : c.width % 8 = 0) {m : Memory} (hw : Memory.wf c.fillByte m = true)
    (color : Bool) {bh : Nat} :
    ∀ n, (∀ k, k < n → k * bh < c.height) →
    let m' := (((List.range n).map fun k => (k * bh, min bh (c.height - k * bh))).map
      (solidBand c color)).foldl (fun m b => blitCore c m b.x b.y b.w b.h b.img) m
    Memory.wf c.fillByte m' = true ∧ ∀ px py, px < c.width →
      pixelOf c m' px py = if py < min (n * bh) c.height then color else pixelOf c m px py := by
  intro n
  induction n with
  | zero => intro _; exact ⟨hw, fun px py _ => by simp⟩
  | succ n ih =>
    intro hn
    obtain ⟨h1, h2⟩ := ih (fun k hk => hn k (by omega))
    have hlt := hn n (by omega)
    simp only [List.range_succ, List.map_append, List.foldl_append, List.map_cons, List.map_nil,
      List.foldl_cons, List.foldl_nil]
    set m1 := (((List.range n).map fun k => (k * bh, min bh (c.height - k * bh))).map
      (solidBand c color)).foldl (fun m b => blitCore c m b.x b.y b.w b.h b.img) m
    refine ⟨wf_blitCore h1 _ _ _ _ _, fun px py hpx => ?_⟩
    show pixelOf c (blitCore c m1 0 (n * bh) c.width (min bh (c.height - n * bh))
      (solidImage c.width (min bh (c.height - n * bh)) color)) px py = _
    rw [solid_pixel hg h1 (by omega) _ hpx, h2 px py hpx, Nat.succ_mul]
    by_cases a : py < n * bh
    · rw [if_neg (by omega), if_pos (by omega), if_pos (by omega)]
    · by_cases b : py < min (n * bh + bh) c.height
      · rw [if_pos (by omega), if_pos b]
      · rw [if_neg (by omega), if_neg (by omega), if_neg b]

/-- `ceil(HEIGHT/bh)` bands: each starts inside the buffer and together they cover it (42_refresh.md R179). -/
theorem fillBands_count {height bh : Nat} (h0 : bh ≠ 0) :
    (∀ k, k < (height + bh - 1) / bh → k * bh < height) ∧ height ≤ (height + bh - 1) / bh * bh := by
  have hpos : 0 < bh := Nat.pos_of_ne_zero h0
  constructor
  · intro k hk
    have := (Nat.le_div_iff_mul_le hpos).1 (show k + 1 ≤ (height + bh - 1) / bh from hk)
    rw [Nat.succ_mul] at this; omega
  · have := Nat.div_add_mod (height + bh - 1) bh
    have h2 := Nat.mod_lt (height + bh - 1) hpos
    rw [Nat.mul_comm] at this; omega

/-- Every byte of FB after all bands of a FILL (42_refresh.md R179). -/
theorem fill_fb {c : Cfg} (hg : c.width % 8 = 0) {m : Memory} (hw : Memory.wf c.fillByte m = true)
    (color : Bool) {bh : Nat} (h0 : bh ≠ 0) :
    ∀ k, k < c.fbSize →
      fbRead c ((fillBodies c color bh).foldl (fun m b => blitCore c m b.x b.y b.w b.h b.img) m) k =
        if color then 0xFF else 0x00 := by
  intro k hk
  obtain ⟨h1, h2⟩ := bands_fold hg hw color ((c.height + bh - 1) / bh) (fillBands_count h0).1
  apply BitVec.eq_of_getLsbD_eq
  intro i hi
  obtain ⟨hx, hy, hidx, hbit⟩ := pixel_of_byte hg hk hi
  have := h2 _ (k / c.rowBytes) hx
  rw [pixelOf_eq_bit, hidx, hbit] at this
  have hc := (fillBands_count (height := c.height) h0).2
  rw [if_pos (by omega)] at this
  rw [fillBodies, fillBands, this]
  have : ∀ i < 8, ∀ color : Bool, color = ((if color then 0xFF else 0x00) : Byte).getLsbD i := by decide
  exact this i hi color

/-- Blits inside the buffer leave every index past it alone. -/
theorem fill_fb_ge {c : Cfg} (hg : c.width % 8 = 0) (bands : List Band)
    (hb : ∀ b ∈ bands, inBoundsRect c b.x b.y b.w b.h = true) {m : Memory}
    (hw : Memory.wf c.fillByte m = true) {k : Nat} (hk : c.fbSize ≤ k) :
    fbRead c (bands.foldl (fun m b => blitCore c m b.x b.y b.w b.h b.img) m) k = fbRead c m k := by
  induction bands generalizing m with
  | nil => rfl
  | cons b bands ih =>
    rw [List.foldl_cons, ih (fun b' h => hb b' (List.mem_cons_of_mem _ h)) (wf_blitCore hw _ _ _ _ _)]
    exact fbRead_blitCore_ge hg hw (hb b List.mem_cons_self) _ hk

/-- A FILL that passes its checks is the operation of its bands (42_refresh.md R179). -/
theorem fill_op {s : State} {color : Bool} {bh : Half} (hp : s.pstate = .initialized) (hb : bh ≠ 0) :
    exec (.fill color bh) s = .next (runOperation 0x23 1 [] (fillBodies s.cfg color bh.toNat) s) := by
  simp only [exec, execFill, hp, if_true, toNat_ne_zero_of_ne hb, if_false]

/-- An operation whose `DrawBody`s all ended finishes with OK. -/
theorem runOperation_bands {opc len bands s} {t : State} (h : runBands bands s = .done t) :
    runOperation opc len [] bands s = finishOk opc len t := by
  simp [runOperation, runAll, runActs, h, settle]

/-- On V2 no `DrawBody` changes `lut_class`. -/
theorem runBands_lut {bands : List Band} {s t : State} (h : runBands bands s = .done t)
    (hv : s.cfg.variant = .v2) : t.lutClass = s.lutClass := by
  induction bands generalizing s with
  | nil => cases h; rfl
  | cons b bands ih =>
    unfold runBands at h
    cases hr : runActs bands (transmitActs b (bufferWrite b s)) (bufferWrite b s) with
    | done s1 =>
      simp only [hr] at h
      have hran := ran_runActs hr
      have hc : s1.cfg = s.cfg := hran.frame.cfg
      rw [ih h (by rw [hc]; exact hv)]
      rcases transmitActs_cases b (bufferWrite b s) with ⟨-, e⟩ | ⟨-, -, e⟩ <;> rw [e] at hran
      · have := (regs_eq hran.regs).2.2.2.1
        rw [regs_full _ _ rfl] at this
        rw [this]; simp [hv]
      · have := (regs_eq hran.regs).2.2.2.1
        rw [regs_partial _ _ _ rfl] at this
        rw [this]; simp [hv]
    | timedOut s1 => simp [hr] at h
    | held a bs s1 => simp [hr] at h

/-- Outside PartialFast mode the last `DrawBody` leaves `pcount` 0 and no busy state pending. -/
theorem runBands_full {bands : List Band} {s t : State} (h : runBands bands s = .done t)
    (hm : s.mode ≠ .partialFast) (hne : bands ≠ []) :
    t.pcount = 0 ∧ t.busyPending = false := by
  induction bands generalizing s with
  | nil => exact absurd rfl hne
  | cons b bands ih =>
    unfold runBands at h
    cases hr : runActs bands (transmitActs b (bufferWrite b s)) (bufferWrite b s) with
    | done s1 =>
      simp only [hr] at h
      have hran := ran_runActs hr
      have hm1 : s1.mode = s.mode := by
        have := (sameMode_runActs bands (acts := transmitActs b (bufferWrite b s))
          (fun _ ha => (transmitAct_transmit ha).1) (bufferWrite b s)).2
        rw [hr] at this; exact this
      cases bands with
      | nil =>
        cases h
        rcases transmitActs_cases b (bufferWrite b s) with ⟨-, e⟩ | ⟨hm', -, -⟩
        · rw [e] at hran
          obtain ⟨g1, g2, -⟩ := ran_displayFull hran
          exact ⟨g1, g2⟩
        · exact absurd hm' hm
      | cons b' bands => exact ih h (by rw [hm1]; exact hm) (by simp)
    | timedOut s1 => simp [hr] at h
    | held a bs s1 => simp [hr] at h

end Sys2Proof.Machine
end

