-- ==== Sys2Proof/Laws/Like.lean ====
section
/-! SUPPORT. Two states that differ only in how the panel answers: what the same operation does from both. -/

namespace Sys2Proof.Machine

/-- Two states that differ only in the log and in the BUSY levels to come. -/
def Like (s s' : State) : Prop := ∃ L Q D, s' = { s with bus := { s.bus with log := L, busyIn := Q, busyDrawn := D } }

/-- The fields two such states share. -/
theorem like_of {s s' : State} (h1 : s'.cfg = s.cfg) (h2 : s'.fb = s.fb) (h3 : regsOf s' = regsOf s)
    (h4 : pinsOf s' = pinsOf s)
   (h5 : s'.bus.statusIn = s.bus.statusIn) (h6 : s'.bus.statusDrawn = s.bus.statusDrawn) (h7 : s'.lastOpc = s.lastOpc) (h8 : s'.lastResult = s.lastResult)
   (h9 : s'.errsticky = s.errsticky) (h10 : s'.dp = s.dp) (h11 : s'.stream = s.stream) (h12 : s'.responses = s.responses) (h13 : s'.inFlight = s.inFlight) : Like s s' := by
  refine ⟨s'.bus.log, s'.bus.busyIn, s'.bus.busyDrawn, ?_⟩
  obtain ⟨c, fb, ps, m, bp, lc, pc, os, ⟨r, d, cs, lg, bi, bd, si, sd⟩, lo, lr, e, dp, st, rs, inf⟩ := s
  obtain ⟨c', fb', ps', m', bp', lc', pc', os', ⟨r', d', cs', lg', bi', bd', si', sd'⟩, lo', lr', e', dp', st', rs', inf'⟩ := s'
  simp only [regsOf, pinsOf, Regs.mk.injEq, Pins.mk.injEq] at *
  simp_all

/-- Runs that end keep states alike. -/
theorem like_ran {acts : List Act} {s s' t t' : State} (hl : Like s s') (h : Ran acts s t)
    (h' : Ran acts s' t') :
    Like t t' := by
  obtain ⟨L, Q, D, rfl⟩ := hl
  have f := h.frame; have f' := h'.frame
  exact like_of (f'.cfg.trans f.cfg.symm) (f'.fb.trans f.fb.symm) (h'.regs.trans h.regs.symm) (h'.pins.trans h.pins.symm)
    (h'.statusIn.trans h.statusIn.symm) (h'.statusDrawn.trans h.statusDrawn.symm) (f'.lastOpc.trans f.lastOpc.symm) (f'.lastResult.trans f.lastResult.symm)
    (f'.errsticky.trans f.errsticky.symm) (f'.dp.trans f.dp.symm) (f'.stream.trans f.stream.symm) (f'.responses.trans f.responses.symm) (f'.inFlight.trans f.inFlight.symm)

/-- Alike after the same work, with the same bytes on the link. -/
structure LikeOnWire (s s' t t' : State) : Prop where
  like : Like t t'
  wire : ∃ ev ev', Logged s t ev ∧ Logged s' t' ev' ∧ wireFrom s.bus.dc ev = wireFrom s.bus.dc ev'

/-- One after the other. -/
theorem likeW_trans {s s' t t' u u' : State} (hs : Like s s') (h : LikeOnWire s s' t t')
    (h' : LikeOnWire t t' u u') :
    LikeOnWire s s' u u' := by
  refine ⟨h'.like, ?_⟩
  obtain ⟨a, a', h1, h2, h3⟩ := h.wire
  obtain ⟨b, b', h4, h5, h6⟩ := h'.wire
  refine ⟨a ++ b, a' ++ b', h1.trans h4, h2.trans h5, ?_⟩
  rw [wireFrom_append, wireFrom_append, h3, ← h1.dc, h6]
  have e1 : t'.bus.dc = t.bus.dc := by obtain ⟨L, Q, D, e⟩ := h.like; rw [e]
  have e2 : s'.bus.dc = s.bus.dc := by obtain ⟨L, Q, D, e⟩ := hs; rw [e]
  rw [← e2, ← h2.dc, e1]

/-- Runs of the same actions that both end. -/
theorem likeW_ran {acts : List Act} {s s' t t' : State} (hl : Like s s') (h : Ran acts s t)
    (h' : Ran acts s' t') :
    LikeOnWire s s' t t' := by
  refine ⟨like_ran hl h h', ?_⟩
  obtain ⟨ev, h1, h2⟩ := h.wire
  obtain ⟨ev', h3, h4⟩ := h'.wire
  have e2 : s'.bus.dc = s.bus.dc := by obtain ⟨L, Q, D, e⟩ := hl; rw [e]
  exact ⟨ev, ev', h1, h3, by rw [h2, ← h4, e2]⟩

/-- Runs of the same `DrawBody`s that both end. -/
theorem likeW_runBands {bands : List Band} {s s' t t' : State} (hl : Like s s')
    (h : runBands bands s = .done t) (h' : runBands bands s' = .done t') :
    LikeOnWire s s' t t' := by
  induction bands generalizing s s' with
  | nil => cases h; cases h'; exact likeW_ran (acts := []) hl (Ran.nil _) (Ran.nil _)
  | cons b bands ih =>
    unfold runBands at h h'
    have hb : Like (bufferWrite b s) (bufferWrite b s') := by obtain ⟨L, Q, D, rfl⟩ := hl; exact ⟨L, Q, D, rfl⟩
    have ha : transmitActs b (bufferWrite b s') = transmitActs b (bufferWrite b s) := by obtain ⟨L, Q, D, rfl⟩ := hl; rfl
    rw [ha] at h'
    cases hr : runActs bands (transmitActs b (bufferWrite b s)) (bufferWrite b s) with
    | done s1 =>
      cases hr' : runActs bands (transmitActs b (bufferWrite b s)) (bufferWrite b s') with
      | done s1' =>
        simp only [hr] at h; simp only [hr'] at h'
        have h1 := likeW_ran hb (ran_runActs hr) (ran_runActs hr')
        have h2 := ih h1.like h h'
        have := likeW_trans hb h1 h2
        exact ⟨this.like, by
          obtain ⟨a, a', x, y, z⟩ := this.wire
          exact ⟨a, a', ⟨x.1, x.2, x.3, x.4, x.5, x.6, x.7⟩, ⟨y.1, y.2, y.3, y.4, y.5, y.6, y.7⟩, z⟩⟩
      | timedOut _ => simp [hr'] at h'
      | held _ _ _ => simp [hr'] at h'
    | timedOut _ => simp [hr] at h
    | held _ _ _ => simp [hr] at h

/-- The same operation, ended with OK from both states. -/
theorem likeW_runOperation {acts : List Act} {bands : List Band} {s s' t t' : State} {opc len}
    (hl : Like s s') (h : runOperation opc len acts bands s = t)
    (h' : runOperation opc len acts bands s' = t')
    (n : t.inFlight = none) (n' : t'.inFlight = none) (o : t.lastResult = .ok) (o' : t'.lastResult = .ok) :
    ∃ u u', LikeOnWire s s' u u' ∧ t = finishOk opc len u ∧ t' = finishOk opc len u' := by
  have done : ∀ {s t : State}, runOperation opc len acts bands s = t → t.inFlight = none → t.lastResult = .ok → ∃ m u, runActs bands acts s = .done m ∧ runBands bands m = .done u ∧ t = finishOk opc len u := by
    intro s t h n o
    rcases runOperation_cases opc len acts bands s with ⟨s1, h1, e⟩ | ⟨s1, h1, e⟩ | ⟨a, b, s1, h1, e⟩ <;> rw [e] at h <;> subst h
    · unfold runAll at h1
      cases hr : runActs bands acts s with
      | done m => simp only [hr] at h1; exact ⟨m, s1, rfl, h1, rfl⟩
      | timedOut _ => simp [hr] at h1
      | held _ _ _ => simp [hr] at h1
    · simp at o
    · simp at n
  obtain ⟨m, u, h1, h2, rfl⟩ := done h n o
  obtain ⟨m', u', h1', h2', rfl⟩ := done h' n' o'
  have a := likeW_ran hl (ran_runActs h1) (ran_runActs h1')
  exact ⟨u, u', likeW_trans hl a (likeW_runBands a.like h2 h2'), rfl, rfl⟩

end Sys2Proof.Machine
end

