-- ==== Sys2Proof/Laws/Outcome.lean ====
section
/-! SUPPORT. What an operation's outcome reports, and the next state of the plain framebuffer operations. -/

namespace Sys2Proof.Machine

/-- What an operation does before its actions touches none of the bookkeeping. -/
theorem Starts.runFrame {i s acts bands s0} (h : Starts i s acts bands s0) : RunFrame s s0 := by
  cases h <;> exact ⟨rfl, rfl, rfl, rfl, rfl, rfl, rfl, rfl⟩

/-- What an operation does before it finishes touches none of the bookkeeping. -/
theorem Finishes.runFrame {i s code pix data s0} (h : Finishes i s code pix data s0) : RunFrame s s0 := by
  cases h <;> exact ⟨rfl, rfl, rfl, rfl, rfl, rfl, rfl, rfl⟩

/-- An operation reports once, unless a poll without a budget holds it. -/
theorem reports_runOperation {s s0 : State} {opc len acts bands} (hf : RunFrame s s0) :
    (∃ code pix data, Reported opc len code pix data s (runOperation opc len acts bands s0)) ∨
    (s.cfg.busyBudget = none ∧ StillInFlight opc len s (runOperation opc len acts bands s0)) := by
  have hfr := hf.trans (runAll_frame acts bands s0)
  rcases runOperation_cases opc len acts bands s0 with ⟨s1, h, e⟩ | ⟨s1, h, e⟩ | ⟨a, b, s1, h, e⟩ <;> rw [h] at hfr <;> rw [e]
  · exact .inl ⟨_, _, _, reported_of_runFrame hfr⟩
  · exact .inl ⟨.panelTimeout, false, [], reported_finish (s0 := { s1 with pstate := .resetting, busyPending := true }) hfr.errsticky hfr.dp hfr.responses⟩
  · have := (runAll_held h).1
    exact .inr ⟨by rw [← hf.cfg]; exact this, ⟨_, rfl, rfl, rfl⟩, hfr.lastOpc, hfr.lastResult, hfr.errsticky, hfr.dp, hfr.responses⟩

/-- The reserved bits the rules name are the decoder's (30_encoding.md R82 to R89). -/
theorem reservedMask_of_mem {o : Byte} {m : Word} (h : (o, m) ∈ reservedBits) :
    reservedMask o = m ∧ (formatOf o).isSome = true := by
  simp only [reservedBits, List.mem_cons, Prod.mk.injEq, List.not_mem_nil, or_false] at h
  rcases h with h | h | h | h | h | h | h | h | h | h | h | h | h | h | h | h <;> obtain ⟨rfl, rfl⟩ := h <;> decide

/-- READ_REG of a defined register (40_framebuffer.md R117). -/
theorem readReg_next {s : State} {n : Half} {v : Word} (h : registerWord s n.toNat = some v) :
    exec (.readReg n) s = .next (finish 0x05 1 .ok false [v] s) := by
  simp only [exec, execReadReg, h]

/-- SET_PIXEL inside the buffer (40_framebuffer.md R113). -/
theorem setPixel_next {s : State} {v : Bool} {x y : Half} (hx : x.toNat < s.cfg.width)
    (hy : y.toNat < s.cfg.height) :
    exec (.setPixel v x y) s = .next
    (finishOk 0x01 2 { s with fb := writePixel s.cfg s.fb x.toNat y.toNat v }) := by
  have hb : inBoundsPix s.cfg x.toNat y.toNat = true := by simp [inBoundsPix, hx, hy]
  simp [exec, execSetPixel, hb]

/-- GET_PIXEL inside the buffer (40_framebuffer.md R114). -/
theorem getPixel_next {s : State} {x y : Half} (hx : x.toNat < s.cfg.width) (hy : y.toNat < s.cfg.height) :
    exec (.getPixel x y) s = .next (finish 0x02 2 .ok (pixelOf s.cfg s.fb x.toNat y.toNat) [] s) := by
  have hb : inBoundsPix s.cfg x.toNat y.toNat = true := by simp [inBoundsPix, hx, hy]
  simp [exec, execGetPixel, hb]

end Sys2Proof.Machine
end

