-- ==== Sys2Proof/Laws/PerInstr.lean ====
section
/-! SUPPORT. Statements about every operation as syntax, one lemma per constructor: the encoder writes as
many words as `lengthOf` says, and the OPC of `opcodeOf`. -/

namespace Sys2Proof.Laws

/-- A well-formed operation is encoded in `lengthOf` words (30_encoding.md R90). -/
def EncodedLength.Statement (i : Instr) : Prop :=
  i.wellFormed = true → (encode i).length = lengthOf i

theorem EncodedLength.setPixel (v : Bool) (x y : Half) : EncodedLength.Statement (.setPixel v x y) :=
  fun _ => rfl

theorem EncodedLength.getPixel (x y : Half) : EncodedLength.Statement (.getPixel x y) := fun _ => rfl

theorem EncodedLength.blit (x y w h : Half) (img : List Word) :
    EncodedLength.Statement (.blit x y w h img) := by
  intro hw
  simp only [Instr.wellFormed, imageOk, Bool.and_eq_true, decide_eq_true_eq] at hw
  simp [encode, lengthOf, hw.1]; omega

theorem EncodedLength.readImage : EncodedLength.Statement .readImage := fun _ => rfl

theorem EncodedLength.readReg (n : Half) : EncodedLength.Statement (.readReg n) := fun _ => rfl

theorem EncodedLength.reset : EncodedLength.Statement .reset := fun _ => rfl

theorem EncodedLength.init (part gray : Bool) : EncodedLength.Statement (.init part gray) := fun _ => rfl

theorem EncodedLength.sleep : EncodedLength.Statement .sleep := fun _ => rfl

theorem EncodedLength.waitIdle : EncodedLength.Statement .waitIdle := fun _ => rfl

theorem EncodedLength.sendCommand (op8 : Byte) : EncodedLength.Statement (.sendCommand op8) := fun _ => rfl

theorem EncodedLength.sendData (bytes : List Byte) : EncodedLength.Statement (.sendData bytes) := by
  intro _
  simp [encode, lengthOf, length_packBytes]; omega

theorem EncodedLength.setLut (c : LutClass) : EncodedLength.Statement (.setLut c) := fun _ => rfl

theorem EncodedLength.displayFull : EncodedLength.Statement .displayFull := fun _ => rfl

theorem EncodedLength.displayPartial (xs ys xe ye : Half) :
    EncodedLength.Statement (.displayPartial xs ys xe ye) := fun _ => rfl

theorem EncodedLength.draw (x y w h : Half) (img : List Word) :
    EncodedLength.Statement (.draw x y w h img) := by
  intro hw
  simp only [Instr.wellFormed, imageOk, Bool.and_eq_true, decide_eq_true_eq] at hw
  simp [encode, lengthOf, hw.1]; omega

theorem EncodedLength.fill (color : Bool) (bh : Half) : EncodedLength.Statement (.fill color bh) :=
  fun _ => rfl

/-- The first word of an operation carries its OPC (30_encoding.md R91). -/
def EncodedOpcode.Statement (i : Instr) : Prop := opcOf ((encode i).headD 0) = opcodeOf i

theorem EncodedOpcode.setPixel (v : Bool) (x y : Half) : EncodedOpcode.Statement (.setPixel v x y) :=
  opcOf_headWord _ _ _

theorem EncodedOpcode.getPixel (x y : Half) : EncodedOpcode.Statement (.getPixel x y) :=
  opcOf_headWord _ _ _

theorem EncodedOpcode.blit (x y w h : Half) (img : List Word) :
    EncodedOpcode.Statement (.blit x y w h img) := opcOf_headWord _ _ _

theorem EncodedOpcode.readImage : EncodedOpcode.Statement .readImage := opcOf_headWord _ _ _

theorem EncodedOpcode.readReg (n : Half) : EncodedOpcode.Statement (.readReg n) := opcOf_headWord _ _ _

theorem EncodedOpcode.reset : EncodedOpcode.Statement .reset := opcOf_headWord _ _ _

theorem EncodedOpcode.init (part gray : Bool) : EncodedOpcode.Statement (.init part gray) :=
  opcOf_headWord _ _ _

theorem EncodedOpcode.sleep : EncodedOpcode.Statement .sleep := opcOf_headWord _ _ _

theorem EncodedOpcode.waitIdle : EncodedOpcode.Statement .waitIdle := opcOf_headWord _ _ _

theorem EncodedOpcode.sendCommand (op8 : Byte) : EncodedOpcode.Statement (.sendCommand op8) :=
  opcOf_headWord _ _ _

theorem EncodedOpcode.sendData (bytes : List Byte) : EncodedOpcode.Statement (.sendData bytes) :=
  opcOf_headWord _ _ _

theorem EncodedOpcode.setLut (c : LutClass) : EncodedOpcode.Statement (.setLut c) := opcOf_headWord _ _ _

theorem EncodedOpcode.displayFull : EncodedOpcode.Statement .displayFull := opcOf_headWord _ _ _

theorem EncodedOpcode.displayPartial (xs ys xe ye : Half) :
    EncodedOpcode.Statement (.displayPartial xs ys xe ye) := opcOf_headWord _ _ _

theorem EncodedOpcode.draw (x y w h : Half) (img : List Word) :
    EncodedOpcode.Statement (.draw x y w h img) := opcOf_headWord _ _ _

theorem EncodedOpcode.fill (color : Bool) (bh : Half) : EncodedOpcode.Statement (.fill color bh) :=
  opcOf_headWord _ _ _

end Sys2Proof.Laws
end

