-- ==== Sys2Proof/Laws/Phases.lean ====
section
/-! SUPPORT. Where a run stops, and the phases of a transmission (42_refresh.md R180): the protocol steps of each,
and what a transmission held inside one shows. -/

namespace Sys2Proof.Machine

/-! ### Where a run stops -/

/-- An action that holds is a poll that holds. -/
theorem waitIdleI_of_held {a : Act} {s t : State} (h : runAct a s = .held t) : waitIdleI s = .held t := by
  cases a with
  | cmd op8 =>
    simp only [runAct, sendCommandI] at h
    split at h
    · cases hw : waitIdleI s with
      | done s1 => simp [hw] at h
      | timedOut s1 => simp [hw] at h
      | held s1 => simp only [hw] at h; exact h
    · simp at h
  | waitIdle => exact h
  | _ => simp [runAct] at h

/-- An action that times out is a poll that times out. -/
theorem waitIdleI_of_timedOut {a : Act} {s t : State} (h : runAct a s = .timedOut t) :
    waitIdleI s = .timedOut t := by
  cases a with
  | cmd op8 =>
    simp only [runAct, sendCommandI] at h
    split at h
    · cases hw : waitIdleI s with
      | done s1 => simp [hw] at h
      | timedOut s1 => simp only [hw] at h; exact h
      | held s1 => simp [hw] at h
    · simp at h
  | waitIdle => exact h
  | _ => simp [runAct] at h

/-- A run that holds: the actions before the poll ended, and the poll holds. -/
theorem runActs_held_split {bands b1 : List Band} {acts a1 : List Act} {s t : State}
    (h : runActs bands acts s = .held a1 b1 t) :
    ∃ pre a rest s1, acts = pre ++ a :: rest ∧ a1 = a :: rest ∧ runActs bands pre s = .done s1 ∧
      runAct a s1 = .held t := by
  induction acts generalizing s with
  | nil => simp [runActs] at h
  | cons a acts ih =>
    unfold runActs at h
    cases hr : runAct a s with
    | done s2 =>
      simp only [hr] at h
      obtain ⟨pre, b, rest, s1, rfl, e, h1, h2⟩ := ih h
      exact ⟨a :: pre, b, rest, s1, rfl, e, by simp [runActs, hr, h1], h2⟩
    | timedOut s2 => simp [hr] at h
    | held s2 =>
      simp only [hr, RunResult.held.injEq] at h
      obtain ⟨rfl, -, rfl⟩ := h
      exact ⟨[], a, acts, s, rfl, rfl, rfl, hr⟩

/-- A run that times out: the actions before the poll ended, and the poll timed out. -/
theorem runActs_timedOut_split {bands : List Band} {acts : List Act} {s t : State}
    (h : runActs bands acts s = .timedOut t) :
    ∃ pre a rest s1, acts = pre ++ a :: rest ∧ runActs bands pre s = .done s1 ∧ waitIdleI s1 = .timedOut t := by
  induction acts generalizing s with
  | nil => simp [runActs] at h
  | cons a acts ih =>
    unfold runActs at h
    cases hr : runAct a s with
    | done s2 =>
      simp only [hr] at h
      obtain ⟨pre, b, rest, s1, rfl, h1, h2⟩ := ih h
      exact ⟨a :: pre, b, rest, s1, rfl, by simp [runActs, hr, h1], h2⟩
    | timedOut s2 =>
      simp only [hr, RunResult.timedOut.injEq] at h
      subst h
      exact ⟨[], a, acts, s, rfl, rfl, waitIdleI_of_timedOut hr⟩
    | held s2 => simp [hr] at h

/-- What comes after a run of actions does not matter to one that ends. -/
theorem runActs_done_bands {bands : List Band} (bands' : List Band) {acts : List Act} {s t : State}
    (h : runActs bands acts s = .done t) : runActs bands' acts s = .done t := by
  induction acts generalizing s with
  | nil => exact h
  | cons a acts ih =>
    unfold runActs at h ⊢
    cases hr : runAct a s with
    | done s1 => simp only [hr] at h ⊢; exact ih h
    | timedOut s1 => simp [hr] at h
    | held s1 => simp [hr] at h

/-- A run of bands that times out: the bands before ended, and the transmission of one timed out. -/
theorem runBands_timedOut_split {bands : List Band} {s t : State} (h : runBands bands s = .timedOut t) :
    ∃ pre b rest s1, bands = pre ++ b :: rest ∧ runBands pre s = .done s1 ∧
      runActs rest (transmitActs b (bufferWrite b s1)) (bufferWrite b s1) = .timedOut t := by
  induction bands generalizing s with
  | nil => simp [runBands] at h
  | cons b bands ih =>
    unfold runBands at h
    cases hr : runActs bands (transmitActs b (bufferWrite b s)) (bufferWrite b s) with
    | done s2 =>
      simp only [hr] at h
      obtain ⟨pre, b', rest, s1, rfl, h1, h2⟩ := ih h
      exact ⟨b :: pre, b', rest, s1, rfl, by simp [runBands, runActs_done_bands pre hr, h1], h2⟩
    | timedOut s2 =>
      simp only [hr, RunResult.timedOut.injEq] at h
      subst h
      exact ⟨[], b, bands, s, rfl, rfl, hr⟩
    | held a bs s2 => simp [hr] at h

/-- A run of bands that holds: the bands before ended, and the transmission of one holds. -/
theorem runBands_held_split {bands b1 : List Band} {a1 : List Act} {s t : State}
    (h : runBands bands s = .held a1 b1 t) :
    ∃ pre b rest s1, bands = pre ++ b :: rest ∧ runBands pre s = .done s1 ∧
      runActs rest (transmitActs b (bufferWrite b s1)) (bufferWrite b s1) = .held a1 b1 t := by
  induction bands generalizing s with
  | nil => simp [runBands] at h
  | cons b bands ih =>
    unfold runBands at h
    cases hr : runActs bands (transmitActs b (bufferWrite b s)) (bufferWrite b s) with
    | done s2 =>
      simp only [hr] at h
      obtain ⟨pre, b', rest, s1, rfl, h1, h2⟩ := ih h
      exact ⟨b :: pre, b', rest, s1, rfl, by simp [runBands, runActs_done_bands pre hr, h1], h2⟩
    | timedOut s2 => simp [hr] at h
    | held a bs s2 =>
      simp only [hr, RunResult.held.injEq] at h
      obtain ⟨rfl, rfl, rfl⟩ := h
      exact ⟨[], b, bands, s, rfl, rfl, hr⟩

/-- No poll moves `ostate`. -/
theorem waitIdleI_ostate (s : State) : (waitIdleI s).state.ostate = s.ostate :=
  waitIdleI_rel (fun s t => t.ostate = s.ostate) (fun h h' => h'.trans h) (fun _ => rfl) (fun _ _ => rfl)
    (fun _ => rfl) s

/-! ### Actions in phases -/

/-- The actions of phases, each entered before its own actions. -/
def phaseActs (blocks : List (OState × List Act)) : List Act := blocks.flatMap fun b => .setOState b.1 :: b.2

/-- The actions of the phases enter no other phase, and their protocol steps are those that `steps` gives. -/
def Phased (steps : OState → List ProtoStep) (blocks : List (OState × List Act)) : Prop :=
  ∀ b ∈ blocks, (∀ a ∈ b.2, a.phase = none) ∧ protoSteps b.2 = steps b.1

theorem phaseActs_cons (b : OState × List Act) (blocks : List (OState × List Act)) :
    phaseActs (b :: blocks) = .setOState b.1 :: (b.2 ++ phaseActs blocks) := by
  simp [phaseActs]

/-- Where an action stands in the phases. -/
theorem phaseActs_split {steps : OState → List ProtoStep} {blocks : List (OState × List Act)} {pre rest : List Act}
    {a : Act} (hb : Phased steps blocks) (ha : a.phase = none) (h : phaseActs blocks = pre ++ a :: rest) :
    ∃ bl1 o p q bl2, blocks = bl1 ++ (o, p ++ a :: q) :: bl2 ∧ pre = phaseActs bl1 ++ .setOState o :: p ∧
      rest = q ++ phaseActs bl2 := by
  induction blocks generalizing pre with
  | nil => cases pre <;> simp [phaseActs] at h
  | cons b blocks ih =>
    obtain ⟨o, l⟩ := b
    rw [phaseActs_cons] at h
    cases pre with
    | nil =>
      simp only [List.nil_append, List.cons.injEq] at h
      rw [← h.1] at ha
      simp [Act.phase] at ha
    | cons x pre =>
      simp only [List.cons_append, List.cons.injEq] at h
      obtain ⟨rfl, h⟩ := h
      have step : ∀ m, pre = l ++ m → phaseActs blocks = m ++ a :: rest →
          ∃ bl1 o1 p q bl2, (o, l) :: blocks = bl1 ++ (o1, p ++ a :: q) :: bl2 ∧
            Act.setOState o :: pre = phaseActs bl1 ++ Act.setOState o1 :: p ∧ rest = q ++ phaseActs bl2 := by
        rintro m rfl h2
        obtain ⟨bl1, o1, p, q, bl2, h3, h4, h5⟩ := ih (fun b hm => hb b (List.mem_cons_of_mem _ hm)) h2
        exact ⟨(o, l) :: bl1, o1, p, q, bl2, by simp [h3], by simp [phaseActs_cons, h4], h5⟩
      rcases List.append_eq_append_iff.1 h with ⟨m, h1, h2⟩ | ⟨m, h1, h2⟩
      · exact step m h1 h2
      · cases m with
        | nil => exact step [] (by simpa using h1.symm) (by simpa using h2.symm)
        | cons y m =>
          simp only [List.cons_append, List.cons.injEq] at h2
          obtain ⟨rfl, rfl⟩ := h2
          exact ⟨[], o, pre, m, blocks, by simp [h1], by simp [phaseActs], rfl⟩

theorem phase_none_filterMap {l : List Act} (h : ∀ a ∈ l, a.phase = none) : l.filterMap Act.phase = [] := by
  rw [List.filterMap_eq_nil_iff]
  exact h

/-- The phases that the actions enter. -/
theorem phases_phaseActs {steps : OState → List ProtoStep} {blocks : List (OState × List Act)}
    (hb : Phased steps blocks) : (phaseActs blocks).filterMap Act.phase = blocks.map Prod.fst := by
  induction blocks with
  | nil => rfl
  | cons b blocks ih =>
    rw [phaseActs_cons, List.filterMap_cons]
    simp only [Act.phase]
    rw [List.filterMap_append, phase_none_filterMap (hb b List.mem_cons_self).1,
      ih fun b hm => hb b (List.mem_cons_of_mem _ hm)]
    rfl

/-- The protocol steps of the phases' actions. -/
theorem protoSteps_phaseActs {steps : OState → List ProtoStep} {blocks : List (OState × List Act)}
    (hb : Phased steps blocks) : protoSteps (phaseActs blocks) = (blocks.map Prod.fst).flatMap steps := by
  induction blocks with
  | nil => rfl
  | cons b blocks ih =>
    have : protoSteps (phaseActs (b :: blocks)) = protoSteps b.2 ++ protoSteps (phaseActs blocks) := by
      rw [phaseActs_cons, ← protoSteps_append]
      rfl
    rw [this, (hb b List.mem_cons_self).2, ih fun b hm => hb b (List.mem_cons_of_mem _ hm)]
    rfl

/-- `ostate` after actions that enter no phase. -/
theorem ostate_foldl (c : Cfg) {l : List Act} (h : ∀ a ∈ l, a.phase = none) (r : Regs) :
    (l.foldl (Regs.after c) r).ostate = r.ostate := by
  induction l generalizing r with
  | nil => rfl
  | cons a l ih =>
    rw [List.foldl_cons, ih fun b hb => h b (List.mem_cons_of_mem _ hb)]
    have := h a List.mem_cons_self
    cases a <;> first | rfl | simp [Act.phase] at this

theorem phase_of_polls {a : Act} (h : (∃ op8, a = .cmd op8) ∨ a = .waitIdle) :
    a.phase = none ∧ protoSteps [a] ≠ [] := by
  rcases h with ⟨op8, rfl⟩ | rfl <;> simp [Act.phase, protoSteps, Act.protoStep]

/-- A transmission that is held (42_refresh.md R180). -/
theorem heldInPhase_of_held {steps : OState → List ProtoStep} {blocks : List (OState × List Act)}
    {bands b1 : List Band} {a1 : List Act} {s t : State} (hb : Phased steps blocks)
    (hp : blocks.map Prod.fst = transmissionPhases s.cfg)
    (h : runActs bands (phaseActs blocks) s = .held a1 b1 t) : HeldInPhase steps a1 s t := by
  obtain ⟨pre, a, rest, s1, e, rfl, h1, h2⟩ := runActs_held_split h
  obtain ⟨ha, hne⟩ := phase_of_polls (runAct_held_polls h2)
  obtain ⟨bl1, o, p, q, bl2, rfl, rfl, rfl⟩ := phaseActs_split hb ha e
  have hblk := hb (o, p ++ a :: q) (by simp)
  have hb2 : Phased steps bl2 := fun b hm => hb b (by simp [hm])
  have hb1 : Phased steps bl1 := fun b hm => hb b (by simp [hm])
  have hran := ran_runActs h1
  have hw := waitIdleI_of_held h2
  have hpl := polls_waitIdleI s1
  have hos := waitIdleI_ostate s1
  rw [hw] at hpl hos
  obtain ⟨⟨ev2, hl2, hw2⟩, -⟩ := hpl
  obtain ⟨ev1, hl1, hw1⟩ := hran.wire
  have ho : t.ostate = o := by
    rw [show t.ostate = s1.ostate from hos]
    have := congrArg Regs.ostate hran.regs
    rw [List.foldl_append, List.foldl_cons, ostate_foldl _ fun x hx => hblk.1 x (by simp [hx])] at this
    exact this
  refine ⟨bl1.map Prod.fst, bl2.map Prod.fst, protoSteps p, protoSteps (a :: q), ev1 ++ ev2, ?_, ?_, ?_,
    (hl1.trans hl2).log, ?_, ?_, ?_⟩
  · rw [← hp, ho]; simp
  · rw [ho, ← hblk.2, protoSteps_append]
  · intro hn
    rw [show a :: q = [a] ++ q from rfl, protoSteps_append] at hn
    exact hne (List.append_eq_nil_iff.1 hn).1
  · have hps : protoSteps (phaseActs bl1 ++ .setOState o :: p) =
        (bl1.map Prod.fst).flatMap steps ++ protoSteps p := by
      rw [protoSteps_append, protoSteps_phaseActs hb1]
      rfl
    rw [wireFrom_append, hw1, hw2, wire_protoSteps, hps, List.append_nil]
  · rw [show a :: (q ++ phaseActs bl2) = (a :: q) ++ phaseActs bl2 from rfl, List.filterMap_append,
      phases_phaseActs hb2, phase_none_filterMap fun x hx => hblk.1 x (by
        rcases List.mem_cons.1 hx with rfl | hx <;> simp [*])]
    rfl
  · show protoSteps (a :: (q ++ phaseActs bl2)) = _
    rw [show a :: (q ++ phaseActs bl2) = (a :: q) ++ phaseActs bl2 from rfl, protoSteps_append,
      protoSteps_phaseActs hb2]

/-- A transmission that ended (42_refresh.md R180). -/
theorem endedPhases_of_done {steps : OState → List ProtoStep} {blocks : List (OState × List Act)}
    {bands : List Band} {s t : State} (hb : Phased steps blocks)
    (hp : blocks.map Prod.fst = transmissionPhases s.cfg)
    (h : runActs bands (phaseActs blocks) s = .done t) : EndedPhases steps s t := by
  obtain ⟨ev, hl, hw⟩ := (ran_runActs h).wire
  exact ⟨ev, hl.log, by rw [hw, wire_protoSteps, protoSteps_phaseActs hb, hp]; rfl⟩

/-! ### The phases of the two transmissions -/

/-- The secondary bank's phase, V1 only. -/
def secondaryBlocks (c : Cfg) (bytes : List Byte) : List (OState × List Act) :=
  match c.p.variantTable with
  | .v1 t => [(.commandSecondary, [.cmd t.opRamSecondary, .data bytes])]
  | .v2 => []

/-- The phases of `DisplayFullI` (42_refresh.md R174). -/
def fullBlocks (s : State) : List (OState × List Act) :=
  [(.commandPrimary, restoreLutActs s ++ stepActs s.cfg.p.fullPrep ++
    [.cmd s.cfg.p.opRamPrimary, .data (fbBytes s.cfg s.fb)])] ++
  secondaryBlocks s.cfg (fbBytes s.cfg s.fb) ++
  [(.refreshTrigger, stepActs s.cfg.p.fullTrigger), (.busyWait, [.waitIdle, .clearPcount]), (.idle, [])]

/-- The phases of `DisplayPartialI` (42_refresh.md R175). -/
def partialBlocks (win : Window) (s : State) : List (OState × List Act) :=
  [(.commandPrimary, partialLutActs s.cfg ++ stepActs s.cfg.p.partialPrep ++
    stepActs (s.cfg.p.partialWindow.eval (sentWindow s.cfg win)) ++
    [.cmd s.cfg.p.opRamPrimary, .data (windowBytes s.cfg s.fb (sentWindow s.cfg win))])] ++
  secondaryBlocks s.cfg ((windowBytes s.cfg s.fb (sentWindow s.cfg win)).map fun b => ~~~b) ++
  [(.refreshTrigger, stepActs s.cfg.p.partialTrigger),
   (.busyWait, [.waitIdle] ++ stepActs s.cfg.p.partialEpilogue ++ [.bumpPcount]), (.idle, [])]

theorem phaseActs_full (s : State) : phaseActs (fullBlocks s) = displayFullActs s := by
  unfold fullBlocks secondaryBlocks displayFullActs secondaryActs phaseActs
  cases s.cfg.p.variantTable <;> simp

theorem phaseActs_partial (win : Window) (s : State) :
    phaseActs (partialBlocks win s) = displayPartialActs win s := by
  unfold partialBlocks secondaryBlocks displayPartialActs secondaryActs phaseActs
  cases s.cfg.p.variantTable <;> simp

theorem phases_full (s : State) : (fullBlocks s).map Prod.fst = transmissionPhases s.cfg := by
  unfold fullBlocks secondaryBlocks transmissionPhases Cfg.variant
  cases s.cfg.p.variantTable <;> simp [VariantTable.variant]

theorem phases_partial (win : Window) (s : State) :
    (partialBlocks win s).map Prod.fst = transmissionPhases s.cfg := by
  unfold partialBlocks secondaryBlocks transmissionPhases Cfg.variant
  cases s.cfg.p.variantTable <;> simp [VariantTable.variant]

theorem phase_stepActs {steps : List ProtoStep} {a : Act} (h : a ∈ stepActs steps) : a.phase = none := by
  obtain ⟨st, -, rfl⟩ := List.mem_map.1 h
  cases st <;> rfl

theorem phase_programLut {t : V1Table} {cls : LutClass} {a : Act} (h : a ∈ programLutActs t cls) :
    a.phase = none := by
  rw [programLutActs_eq] at h
  fin_cases h <;> rfl

theorem phase_restoreLut {s : State} {a : Act} (h : a ∈ restoreLutActs s) : a.phase = none := by
  rcases restoreLutActs_eq s with e | ⟨t, -, e⟩ <;> rw [e] at h
  · cases h
  · exact phase_programLut h

theorem phase_partialLut {c : Cfg} {a : Act} (h : a ∈ partialLutActs c) : a.phase = none := by
  rcases partialLutActs_eq c with e | ⟨t, -, e⟩ <;> rw [e] at h
  · cases h
  · exact phase_programLut h

/-- The frame, byte by byte (42_refresh.md R174). -/
theorem fbBytes_eq (c : Cfg) (m : Memory) : fbBytes c m = frameBytesSpec c m := rfl

theorem phased_full (s : State) :
    Phased (fullPhaseSteps s.cfg s.mode s.lutClass (frameBytesSpec s.cfg s.fb)) (fullBlocks s) := by
  intro b hb
  unfold fullBlocks secondaryBlocks at hb
  simp only [List.mem_append, List.mem_cons, List.not_mem_nil, or_false] at hb
  rcases hb with (rfl | hb) | rfl | rfl | rfl
  · refine ⟨fun a ha => ?_, ?_⟩
    · simp only [List.mem_append, List.mem_cons, List.not_mem_nil, or_false] at ha
      rcases ha with (ha | ha) | rfl | rfl
      · exact phase_restoreLut ha
      · exact phase_stepActs ha
      · rfl
      · rfl
    · simp only [protoSteps_append, protoSteps_stepActs, fullPhaseSteps]
      unfold restoreLutActs
      simp only [modeLut_eq]
      cases hv : s.cfg.p.variantTable with
      | v1 t =>
        simp only
        generalize (if s.mode = .gray4 then LutClass.gray else .full) = need
        split <;> rfl
      | v2 => rfl
  · cases hv : s.cfg.p.variantTable with
    | v1 t =>
      simp only [hv, List.mem_cons, List.not_mem_nil, or_false] at hb
      subst hb
      refine ⟨fun a ha => ?_, ?_⟩
      · fin_cases ha <;> rfl
      · simp only [fullPhaseSteps, hv]; rfl
    | v2 => simp [hv] at hb
  · exact ⟨fun a ha => phase_stepActs ha, protoSteps_stepActs _⟩
  · exact ⟨fun a ha => (by fin_cases ha <;> rfl), rfl⟩
  · exact ⟨fun a ha => (nomatch ha), rfl⟩

theorem phased_partial (win : Window) (s : State) :
    Phased (partialPhaseSteps s.cfg (sentWindow s.cfg win) (windowBytes s.cfg s.fb (sentWindow s.cfg win)))
      (partialBlocks win s) := by
  intro b hb
  unfold partialBlocks secondaryBlocks at hb
  simp only [List.mem_append, List.mem_cons, List.not_mem_nil, or_false] at hb
  rcases hb with (rfl | hb) | rfl | rfl | rfl
  · refine ⟨fun a ha => ?_, ?_⟩
    · simp only [List.mem_append, List.mem_cons, List.not_mem_nil, or_false] at ha
      rcases ha with ((ha | ha) | ha) | rfl | rfl
      · exact phase_partialLut ha
      · exact phase_stepActs ha
      · exact phase_stepActs ha
      · rfl
      · rfl
    · simp only [protoSteps_append, protoSteps_stepActs, partialPhaseSteps]
      unfold partialLutActs
      cases hv : s.cfg.p.variantTable with
      | v1 t => simp only [protoSteps_programLut]; rfl
      | v2 => rfl
  · cases hv : s.cfg.p.variantTable with
    | v1 t =>
      simp only [hv, List.mem_cons, List.not_mem_nil, or_false] at hb
      subst hb
      refine ⟨fun a ha => ?_, ?_⟩
      · fin_cases ha <;> rfl
      · simp only [partialPhaseSteps, hv]; rfl
    | v2 => simp [hv] at hb
  · exact ⟨fun a ha => phase_stepActs ha, protoSteps_stepActs _⟩
  · refine ⟨fun a ha => ?_, ?_⟩
    · simp only [List.mem_append, List.mem_cons, List.not_mem_nil, or_false] at ha
      rcases ha with (rfl | ha) | rfl
      · rfl
      · exact phase_stepActs ha
      · rfl
    · simp only [protoSteps_append, protoSteps_stepActs]
      show _ ++ [] = _
      rw [List.append_nil]
      rfl
  · exact ⟨fun a ha => (nomatch ha), rfl⟩

/-- The protocol steps of a full transmission (42_refresh.md R174). -/
theorem protoSteps_full (s : State) : protoSteps (displayFullActs s) =
    phasedSteps s.cfg (fullPhaseSteps s.cfg s.mode s.lutClass (frameBytesSpec s.cfg s.fb)) := by
  rw [← phaseActs_full, protoSteps_phaseActs (phased_full s), phases_full]
  rfl

/-- The protocol steps of a windowed transmission (42_refresh.md R175). -/
theorem protoSteps_partial (win : Window) (s : State) : protoSteps (displayPartialActs win s) =
    phasedSteps s.cfg
      (partialPhaseSteps s.cfg (sentWindow s.cfg win) (windowBytes s.cfg s.fb (sentWindow s.cfg win))) := by
  rw [← phaseActs_partial, protoSteps_phaseActs (phased_partial win s), phases_partial]
  rfl

end Sys2Proof.Machine
end

