-- ==== Sys2Proof/Laws/Resume.lean ====
section
/-! SUPPORT. An operation held by a poll without a budget, and then resumed, does what it does without the
interruption, when the panel answers the same (70_reset_and_hazards.md R238, entry 5). -/

namespace Sys2Proof.Machine

/-! ### The levels a run has read -/

@[simp] theorem freeLevels_self (a : Nat) : freeLevels a a = [] := by simp [freeLevels]

theorem freeLevels_succ (a : Nat) : freeLevels a (a + 1) = [Config.freeBusy a] := by
  simp [freeLevels]

theorem freeLevels_append {a b c : Nat} (h : a ≤ b) (h' : b ≤ c) :
    freeLevels a c = freeLevels a b ++ freeLevels b c := by
  obtain ⟨m, rfl⟩ := Nat.exists_eq_add_of_le h
  obtain ⟨n, rfl⟩ := Nat.exists_eq_add_of_le h'
  simp only [freeLevels, show a + m + n - a = m + n by omega, show a + m - a = m by omega,
    show a + m + n - (a + m) = n by omega, List.range_add, List.map_append, List.map_map]
  congr 1
  apply List.map_congr_left
  intro k _
  simp [Nat.add_assoc]

@[simp] theorem withLevels_cfg (q : List Level) (d : Nat) (s : State) : (s.withLevels q d).cfg = s.cfg := rfl
@[simp] theorem withLevels_fb (q : List Level) (d : Nat) (s : State) : (s.withLevels q d).fb = s.fb := rfl
@[simp] theorem withLevels_pstate (q : List Level) (d : Nat) (s : State) :
    (s.withLevels q d).pstate = s.pstate := rfl
@[simp] theorem withLevels_busyPending (q : List Level) (d : Nat) (s : State) :
    (s.withLevels q d).busyPending = s.busyPending := rfl
@[simp] theorem withLevels_inFlight (q : List Level) (d : Nat) (s : State) :
    (s.withLevels q d).inFlight = s.inFlight := rfl
@[simp] theorem withLevels_busyIn (q : List Level) (d : Nat) (s : State) :
    (s.withLevels q d).bus.busyIn = q := rfl
@[simp] theorem withLevels_busyDrawn (q : List Level) (d : Nat) (s : State) :
    (s.withLevels q d).bus.busyDrawn = d := rfl

/-- `s` on the way to a state that has drawn up to `d1`: its levels, the free ones it drew, and `more`; from then on
the free levels are those from draw `d` on. -/
def refill (more : List Level) (d d1 : Nat) (s : State) : State :=
  s.withLevels (s.bus.busyIn ++ freeLevels s.bus.busyDrawn d1 ++ more) d

/-- How a part of a run that may poll, `f`, goes on after it was held: with the levels it has read queued first, it
ends where it ended, or goes on as it does from where it was held. -/
def Resumes (f : State → PollResult) (s : State) : Prop :=
  match f s with
  | .done s1 => s.bus.busyDrawn ≤ s1.bus.busyDrawn ∧
      ∀ more d, f (refill more d s1.bus.busyDrawn s) = .done (s1.withLevels (s1.bus.busyIn ++ more) d)
  | .held s1 => s.bus.busyDrawn ≤ s1.bus.busyDrawn ∧ s1.bus.busyIn = [] ∧
      ∀ more d, f (refill more d s1.bus.busyDrawn s) = f (s1.withLevels more d)
  | .timedOut _ => False

/-- A read of BUSY with a level queued. -/
theorem pollBusy_cons {s : State} {l : Level} {q : List Level} (h : s.bus.busyIn = l :: q) (x : List Level) (d : Nat) :
    pollBusy (s.withLevels (l :: x) d) = (pollBusy s).withLevels x d ∧
      pollIdle (s.withLevels (l :: x) d) = (pollIdle s).withLevels x d ∧
      nextIsIdle (s.withLevels (l :: x) d) = nextIsIdle s ∧
      (pollBusy s).bus.busyIn = q ∧ (pollBusy s).bus.busyDrawn = s.bus.busyDrawn ∧
      (pollIdle s).bus.busyIn = q ∧ (pollIdle s).bus.busyDrawn = s.bus.busyDrawn := by
  simp [pollBusy, pollIdle, readBusy, nextIsIdle, State.withLevels, Bus.busyRead, Bus.dropBusy, Bus.busyLevel, Bus.emit,
    Bus.delay, h]
  congr

/-- A free read of BUSY, and the same with that level queued. -/
theorem pollBusy_nil {s : State} (h : s.bus.busyIn = []) (x : List Level) (d : Nat) :
    pollBusy (s.withLevels (Config.freeBusy s.bus.busyDrawn :: x) d) = (pollBusy s).withLevels x d ∧
      pollIdle (s.withLevels (Config.freeBusy s.bus.busyDrawn :: x) d) = (pollIdle s).withLevels x d ∧
      nextIsIdle (s.withLevels (Config.freeBusy s.bus.busyDrawn :: x) d) = nextIsIdle s ∧
      (pollBusy s).bus.busyIn = [] ∧ (pollBusy s).bus.busyDrawn = s.bus.busyDrawn + 1 ∧
      (pollIdle s).bus.busyIn = [] ∧ (pollIdle s).bus.busyDrawn = s.bus.busyDrawn + 1 := by
  simp [pollBusy, pollIdle, readBusy, nextIsIdle, State.withLevels, Bus.busyRead, Bus.dropBusy, Bus.busyLevel, Bus.emit,
    Bus.delay, h]
  congr

/-- A poll under UNBOUNDED (41_panel_protocol.md R133). -/
theorem resumes_waitUnbounded (s : State) : Resumes (fun s => waitUnbounded s.bus.busyIn s) s := by
  obtain ⟨q, hq⟩ : ∃ q, s.bus.busyIn = q := ⟨_, rfl⟩
  induction q generalizing s with
  | nil =>
    obtain ⟨-, -, -, -, h1, h2, h3⟩ := pollBusy_nil hq [] 0
    unfold Resumes
    simp only [hq, waitUnbounded]
    by_cases hn : nextIsIdle s = true
    · simp only [hn, if_true, h2, h3, Nat.le_add_right, true_and, List.nil_append]
      intro more d
      obtain ⟨-, e2, e3, -⟩ := pollBusy_nil hq more d
      simp only [refill, hq, freeLevels_succ, List.nil_append, List.cons_append, withLevels_busyIn]
      unfold waitUnbounded
      rw [e3, if_pos hn, e2]
    · simp only [hn, if_false, h1, Nat.le_add_right, true_and, (pollBusy_nil hq [] 0).2.2.2.1, Bool.false_eq_true]
      intro more d
      obtain ⟨e1, -, e3, -⟩ := pollBusy_nil hq more d
      simp only [refill, hq, freeLevels_succ, List.nil_append, List.cons_append, withLevels_busyIn]
      conv_lhs => unfold waitUnbounded
      rw [e3, if_neg hn, e1]
  | cons l q ih =>
    obtain ⟨-, -, -, h0, h1, h2, h3⟩ := pollBusy_cons hq [] 0
    unfold Resumes
    simp only [hq, waitUnbounded]
    by_cases hn : nextIsIdle s = true
    · simp only [hn, if_true, h2, h3, le_refl, true_and]
      intro more d
      obtain ⟨-, e2, e3, -⟩ := pollBusy_cons hq (q ++ more) d
      simp only [refill, hq, freeLevels_self, List.append_nil, List.cons_append, withLevels_busyIn]
      unfold waitUnbounded
      rw [e3, if_pos hn, e2]
    · have := ih (pollBusy s) h0
      unfold Resumes at this
      simp only [h0, h1] at this
      have step : ∀ more d d1, waitUnbounded (refill more d d1 s).bus.busyIn (refill more d d1 s) =
          waitUnbounded (refill more d d1 (pollBusy s)).bus.busyIn (refill more d d1 (pollBusy s)) := by
        intro more d d1
        obtain ⟨e1, -, e3, -⟩ := pollBusy_cons hq (q ++ freeLevels s.bus.busyDrawn d1 ++ more) d
        simp only [refill, hq, h0, h1, List.cons_append, withLevels_busyIn]
        conv_lhs => unfold waitUnbounded
        simp only [e3, if_neg hn, e1]
      simp only [hn, if_false, Bool.false_eq_true, step]
      exact this


/-- A part of a run that never polls. -/
theorem resumes_of_done {f : State → PollResult} {g : State → State} {s : State} (hf : ∀ s, f s = .done (g s))
    (hg : ∀ q d, g (s.withLevels q d) = (g s).withLevels q d) (hq : (g s).bus.busyIn = s.bus.busyIn)
    (hd : (g s).bus.busyDrawn = s.bus.busyDrawn) : Resumes f s := by
  unfold Resumes
  simp [hf, hd, hq, refill, hg]

theorem Resumes.congr {f g : State → PollResult} {s : State} (hs : f s = g s)
    (h : ∀ q d s1, g s = .held s1 → g (s1.withLevels q d) = f (s1.withLevels q d))
    (hr : ∀ more d d1, g (refill more d d1 s) = f (refill more d d1 s)) (hf : Resumes f s) : Resumes g s := by
  unfold Resumes at *
  rw [hs] at hf
  cases hg : g s with
  | done s1 => simp only [hg, hr] at hf ⊢; exact hf
  | held s1 => simp only [hg, hr] at hf ⊢; exact ⟨hf.1, hf.2.1, fun more d => by rw [h _ _ _ hg]; exact hf.2.2 more d⟩
  | timedOut s1 => simp only [hg] at hf

theorem waitIdleI_unbounded {s : State} (h : s.cfg.busyBudget = none) : waitIdleI s = waitUnbounded s.bus.busyIn s := by
  simp only [waitIdleI, h]

theorem resumes_waitIdleI {s : State} (h : s.cfg.busyBudget = none) : Resumes waitIdleI s := by
  refine Resumes.congr (f := fun s => waitUnbounded s.bus.busyIn s) (waitIdleI_unbounded h).symm
    (fun q d s1 h1 => waitIdleI_unbounded ?_) (fun more d d1 => waitIdleI_unbounded h) (resumes_waitUnbounded s)
  have := (waitIdleI_frame s).cfg
  rw [h1] at this
  exact (congrArg Cfg.busyBudget this).trans h

/-- A poll that is held leaves `busy_pending` as it was. -/
theorem waitIdleI_held_pending {s s1 : State} (h : waitIdleI s = .held s1) : s1.busyPending = s.busyPending := by
  have key : ∀ (q : List Level) (s s1 : State), waitUnbounded q s = .held s1 → s1.busyPending = s.busyPending := by
    intro q
    induction q with
    | nil =>
      intro s s1 h
      unfold waitUnbounded at h
      split at h
      · cases h
      · cases h; rfl
    | cons l q ih =>
      intro s s1 h
      unfold waitUnbounded at h
      split at h
      · cases h
      · exact (ih _ _ h).trans rfl
  rw [waitIdleI_unbounded (waitIdleI_held h)] at h
  exact key _ _ _ h

theorem sendData_withLevels (ch : Chunking) (bytes : List Byte) (q : List Level) (d : Nat) (b : Bus) :
    ({ b with busyIn := q, busyDrawn := d } : Bus).sendData ch bytes =
      { b.sendData ch bytes with busyIn := q, busyDrawn := d } ∧
    (b.sendData ch bytes).busyIn = b.busyIn ∧ (b.sendData ch bytes).busyDrawn = b.busyDrawn := by
  cases bytes with
  | nil => exact ⟨rfl, rfl, rfl⟩
  | cons x bytes =>
    cases ch with
    | whole => exact ⟨rfl, rfl, rfl⟩
    | perByte =>
      simp only [Bus.sendData]
      generalize x :: bytes = l
      induction l generalizing b with
      | nil => exact ⟨rfl, rfl, rfl⟩
      | cons y l ih => exact ih (b.transaction true [y])

theorem pulse_withLevels (seq : List (Level × Nat)) (q : List Level) (d : Nat) (b : Bus) :
    ({ b with busyIn := q, busyDrawn := d } : Bus).pulse seq = { b.pulse seq with busyIn := q, busyDrawn := d } ∧
    (b.pulse seq).busyIn = b.busyIn ∧ (b.pulse seq).busyDrawn = b.busyDrawn := by
  induction seq generalizing b with
  | nil => exact ⟨rfl, rfl, rfl⟩
  | cons e seq ih => exact ih ((b.pinWrite .rst e.1).delay e.2)

theorem resumes_cmd (op8 : Byte) {s : State} (h : s.cfg.busyBudget = none) : Resumes (runAct (.cmd op8)) s := by
  by_cases hp : s.busyPending = true
  · have hw := resumes_waitIdleI h
    unfold Resumes at *
    simp only [runAct, sendCommandI, hp, if_true]
    cases hr : waitIdleI s with
    | done s1 =>
      simp only [hr] at hw ⊢
      refine ⟨hw.1, fun more d => ?_⟩
      simp only [refill, withLevels_busyPending, hp, if_true]
      have := hw.2 more d
      simp only [refill] at this
      simp only [transmitCommand_bus, Bus.transaction_busyDrawn, this]
      rfl
    | held s1 =>
      simp only [hr] at hw ⊢
      refine ⟨hw.1, hw.2.1, fun more d => ?_⟩
      simp only [refill, withLevels_busyPending, hp, waitIdleI_held_pending hr, if_true]
      rw [show waitIdleI (s.withLevels _ d) = _ from hw.2.2 more d]
    | timedOut s1 => simp only [hr] at hw
  · have e : ∀ q d, runAct (.cmd op8) (s.withLevels q d) = .done ((transmitCommand op8 s).withLevels q d) := by
      intro q d
      simp only [runAct, sendCommandI, withLevels_busyPending, hp, if_false, Bool.false_eq_true]
      rfl
    have e0 : runAct (.cmd op8) s = .done (transmitCommand op8 s) := by
      simp only [runAct, sendCommandI, hp, if_false, Bool.false_eq_true]
    unfold Resumes
    simp only [e0, transmitCommand_bus, Bus.transaction_busyDrawn, Bus.transaction_busyIn, le_refl, true_and]
    intro more d
    simp only [refill, e, freeLevels_self, List.append_nil]

theorem resumes_runAct (a : Act) {s : State} (h : s.cfg.busyBudget = none) : Resumes (runAct a) s := by
  cases a with
  | cmd op8 => exact resumes_cmd op8 h
  | waitIdle => exact resumes_waitIdleI h
  | data bytes =>
    have := fun q d => sendData_withLevels s.cfg.chunking bytes q d s.bus
    refine resumes_of_done (g := fun s => { s with bus := s.bus.sendData s.cfg.chunking bytes }) (fun _ => rfl)
      (fun q d => ?_) (this [] 0).2.1 (this [] 0).2.2
    have := (this q d).1
    simp only [State.withLevels] at this ⊢
    rw [this]
  | resetPulse =>
    have := fun q d => pulse_withLevels s.cfg.p.resetSeq q d s.bus
    refine resumes_of_done (g := resetPulse) (fun _ => rfl) (fun q d => ?_) (this [] 0).2.1 (this [] 0).2.2
    have := (this q d).1
    simp only [State.withLevels, resetPulse] at this ⊢
    rw [this]
  | delay ms => exact resumes_of_done (fun _ => rfl) (fun _ _ => rfl) rfl rfl
  | setOState o => exact resumes_of_done (fun _ => rfl) (fun _ _ => rfl) rfl rfl
  | setLut c => exact resumes_of_done (fun _ => rfl) (fun _ _ => rfl) rfl rfl
  | clearPcount => exact resumes_of_done (fun _ => rfl) (fun _ _ => rfl) rfl rfl
  | bumpPcount => exact resumes_of_done (fun _ => rfl) (fun _ _ => rfl) rfl rfl
  | enterMode m => exact resumes_of_done (fun _ => rfl) (fun _ _ => rfl) rfl rfl
  | enterSleep => exact resumes_of_done (fun _ => rfl) (fun _ _ => rfl) rfl rfl

/-! ### Runs -/

/-- The same of a run: `go` is what goes on from where it was held. -/
def RunResumes (f : State → RunResult) (go : List Act → List Band → State → RunResult) (s : State) : Prop :=
  match f s with
  | .done s1 => s.bus.busyDrawn ≤ s1.bus.busyDrawn ∧
      ∀ more d, f (refill more d s1.bus.busyDrawn s) = .done (s1.withLevels (s1.bus.busyIn ++ more) d)
  | .held acts bands s1 => s.bus.busyDrawn ≤ s1.bus.busyDrawn ∧ s1.bus.busyIn = [] ∧
      ∀ more d, f (refill more d s1.bus.busyDrawn s) = go acts bands (s1.withLevels more d)
  | .timedOut _ => False

/-- Levels up to a first state and then up to a second one. -/
theorem refill_trans {s s1 : State} {n : Nat} (h : s.bus.busyDrawn ≤ s1.bus.busyDrawn)
    (h' : s1.bus.busyDrawn ≤ n) (more : List Level) (d : Nat) :
    refill more d n s = refill (freeLevels s1.bus.busyDrawn n ++ more) d s1.bus.busyDrawn s ∧
      s1.withLevels (s1.bus.busyIn ++ (freeLevels s1.bus.busyDrawn n ++ more)) d = refill more d n s1 := by
  simp [refill, freeLevels_append h h']

theorem resumes_runActs (bands : List Band) (acts : List Act) {s : State} (h : s.cfg.busyBudget = none) :
    RunResumes (runActs bands acts) (fun a b s => runActs b a s) s := by
  induction acts generalizing s with
  | nil =>
    unfold RunResumes
    simp [runActs, refill]
  | cons a acts ih =>
    have ha := resumes_runAct a h
    have hc := (runAct_frame a s).cfg
    unfold RunResumes
    unfold Resumes at ha
    cases hr : runAct a s with
    | done s1 =>
      rw [hr] at hc
      have hc : s1.cfg = s.cfg := hc
      have hi := ih (s := s1) (by rw [hc]; exact h)
      unfold RunResumes at hi
      simp only [hr] at ha
      have go : ∀ more d n, s1.bus.busyDrawn ≤ n → runActs bands (a :: acts) (refill more d n s) =
          runActs bands acts (refill more d n s1) := by
        intro more d n hn
        obtain ⟨e1, e2⟩ := refill_trans ha.1 hn more d
        rw [e1, runActs, ha.2, e2]
      simp only [runActs, hr]
      cases hr1 : runActs bands acts s1 with
      | done s2 =>
        simp only [hr1] at hi
        exact ⟨ha.1.trans hi.1, fun more d => (go more d _ hi.1).trans (hi.2 more d)⟩
      | held a1 b1 s2 =>
        simp only [hr1] at hi
        exact ⟨ha.1.trans hi.1, hi.2.1, fun more d => (go more d _ hi.1).trans (hi.2.2 more d)⟩
      | timedOut s2 => simp only [hr1] at hi
    | held s1 =>
      simp only [hr] at ha
      simp only [runActs, hr]
      refine ⟨ha.1, ha.2.1, fun more d => ?_⟩
      simp only [ha.2.2]
    | timedOut s1 => simp only [hr] at ha

theorem resumes_runBands (bands : List Band) {s : State} (h : s.cfg.busyBudget = none) :
    RunResumes (runBands bands) runAll s := by
  induction bands generalizing s with
  | nil =>
    unfold RunResumes
    simp [runBands, refill]
  | cons b bands ih =>
    have hb := resumes_runActs bands (transmitActs b (bufferWrite b s)) (s := bufferWrite b s) h
    have hc := (runActs_frame bands (transmitActs b (bufferWrite b s)) (bufferWrite b s)).cfg
    unfold RunResumes at hb ⊢
    have start : ∀ more d n, runBands (b :: bands) (refill more d n s) =
        match runActs bands (transmitActs b (bufferWrite b s)) (refill more d n (bufferWrite b s)) with
        | .done s1 => runBands bands s1
        | .timedOut s1 => .timedOut s1
        | .held acts bands s1 => .held acts bands s1 := fun _ _ _ => rfl
    cases hr : runActs bands (transmitActs b (bufferWrite b s)) (bufferWrite b s) with
    | done s1 =>
      rw [hr] at hc
      have hc : s1.cfg = s.cfg := hc
      have hi := ih (s := s1) (by rw [hc]; exact h)
      unfold RunResumes at hi
      simp only [hr] at hb
      have go : ∀ more d n, s1.bus.busyDrawn ≤ n → runBands (b :: bands) (refill more d n s) =
          runBands bands (refill more d n s1) := by
        intro more d n hn
        obtain ⟨e1, e2⟩ := refill_trans hb.1 hn more d
        rw [start, e1, hb.2, ← e2]
      simp only [runBands, hr]
      cases hr1 : runBands bands s1 with
      | done s2 =>
        simp only [hr1] at hi
        exact ⟨hb.1.trans hi.1, fun more d => (go more d _ hi.1).trans (hi.2 more d)⟩
      | held a1 b1 s2 =>
        simp only [hr1] at hi
        exact ⟨hb.1.trans hi.1, hi.2.1, fun more d => (go more d _ hi.1).trans (hi.2.2 more d)⟩
      | timedOut s2 => simp only [hr1] at hi
    | held a1 b1 s1 =>
      have hb1 := (runActs_held hr).1
      subst hb1
      simp only [hr] at hb
      simp only [runBands, hr]
      refine ⟨hb.1, hb.2.1, fun more d => ?_⟩
      have := start more d s1.bus.busyDrawn
      rw [hb.2.2] at this
      exact this
    | timedOut s1 => simp only [hr] at hb

/-- What an operation does after it was held is what it does without the hold. -/
theorem resumes_runAll (acts : List Act) (bands : List Band) {s : State} (h : s.cfg.busyBudget = none) :
    RunResumes (runAll acts bands) runAll s := by
  have ha := resumes_runActs bands acts h
  have hc := (runActs_frame bands acts s).cfg
  unfold RunResumes at ha ⊢
  cases hr : runActs bands acts s with
  | done s1 =>
    rw [hr] at hc
    have hc : s1.cfg = s.cfg := hc
    have hi := resumes_runBands bands (s := s1) (by rw [hc]; exact h)
    unfold RunResumes at hi
    simp only [hr] at ha
    have go : ∀ more d n, s1.bus.busyDrawn ≤ n → runAll acts bands (refill more d n s) =
        runBands bands (refill more d n s1) := by
      intro more d n hn
      obtain ⟨e1, e2⟩ := refill_trans ha.1 hn more d
      rw [runAll, e1, ha.2, ← e2]
    simp only [runAll, hr]
    cases hr1 : runBands bands s1 with
    | done s2 =>
      simp only [hr1] at hi
      exact ⟨ha.1.trans hi.1, fun more d => (go more d _ hi.1).trans (hi.2 more d)⟩
    | held a1 b1 s2 =>
      simp only [hr1] at hi
      exact ⟨ha.1.trans hi.1, hi.2.1, fun more d => (go more d _ hi.1).trans (hi.2.2 more d)⟩
    | timedOut s2 => simp only [hr1] at hi
  | held a1 b1 s1 =>
    have hb1 := (runActs_held hr).1
    subst hb1
    simp only [hr] at ha
    simp only [runAll, hr]
    refine ⟨ha.1, ha.2.1, fun more d => ?_⟩
    rw [ha.2.2]
  | timedOut s1 => simp only [hr] at ha

/-! ### Operations -/

/-- What an operation leaves does not depend on the operation that was in flight. -/
theorem runOperation_inFlight (opc : Byte) (len : Nat) (acts : List Act) (bands : List Band) (s : State)
    (f : Option InFlight) :
    runOperation opc len acts bands { s with inFlight := f } = runOperation opc len acts bands s := by
  have h1 := runAll_frame acts bands s
  have h2 := runAll_frame acts bands { s with inFlight := f }
  have hf : (runAll acts bands { s with inFlight := f }).forget = (runAll acts bands s).forget := by
    have key : ∀ s, runAll acts bands (forget s) = (runAll acts bands s).forget := by
      intro s
      simp only [runAll, runActs_forget]
      cases runActs bands acts s with
      | done s1 => exact runBands_forget bands s1
      | timedOut s1 => rfl
      | held a b s1 => rfl
    rw [← key, ← key]
    rfl
  have eq : ∀ {a b : State}, forget a = forget b → RunFrame s b → RunFrame { s with inFlight := f } a →
      { a with inFlight := none } = { b with inFlight := none } := by
    intro a b h hb ha
    obtain ⟨-, a1, a2, a3, a4, a5, a6, -⟩ := ha
    obtain ⟨-, b1, b2, b3, b4, b5, b6, -⟩ := hb
    cases a
    cases b
    simp only [forget, State.mk.injEq] at h a1 a2 a3 a4 a5 a6 b1 b2 b3 b4 b5 b6 ⊢
    simp_all
  unfold runOperation
  cases r1 : runAll acts bands s with
  | done u =>
    cases r2 : runAll acts bands { s with inFlight := f } with
    | done v =>
      rw [r1, r2] at hf
      rw [r1] at h1
      rw [r2] at h2
      have := eq (RunResult.done.inj hf) h1 h2
      show finishOk opc len { v with inFlight := none } = finishOk opc len { u with inFlight := none }
      rw [this]
    | timedOut v => rw [r1, r2] at hf; cases hf
    | held a b v => rw [r1, r2] at hf; cases hf
  | timedOut u =>
    cases r2 : runAll acts bands { s with inFlight := f } with
    | timedOut v =>
      rw [r1, r2] at hf
      rw [r1] at h1
      rw [r2] at h2
      have := eq (RunResult.timedOut.inj hf) h1 h2
      show raiseTimeout opc len { v with inFlight := none } = raiseTimeout opc len { u with inFlight := none }
      rw [this]
    | done v => rw [r1, r2] at hf; cases hf
    | held a b v => rw [r1, r2] at hf; cases hf
  | held a b u =>
    cases r2 : runAll acts bands { s with inFlight := f } with
    | held a' b' v =>
      rw [r1, r2] at hf
      rw [r1] at h1
      rw [r2] at h2
      simp only [RunResult.forget, RunResult.held.injEq] at hf
      obtain ⟨rfl, rfl, hf⟩ := hf
      have := eq hf h1 h2
      exact congrArg (fun x : State => { x with inFlight := some ⟨opc, len, a', b'⟩ }) this
    | timedOut v => rw [r1, r2] at hf; cases hf
    | done v => rw [r1, r2] at hf; cases hf

/-- A held operation, resumed, is the operation without the hold. -/
theorem resume_runOperation {opc : Byte} {len : Nat} {acts : List Act} {bands : List Band} {s t : State}
    {f : InFlight} (h : runOperation opc len acts bands s = t) (hf : t.inFlight = some f) :
    t.bus.busyIn = [] ∧ ∀ more d,
      resumeOperation f (t.withLevels more d) =
        runOperation opc len acts bands (refill more d t.bus.busyDrawn s) := by
  subst h
  rcases runOperation_cases opc len acts bands s with ⟨s1, h, e⟩ | ⟨s1, h, e⟩ | ⟨a, b, s1, h, e⟩ <;> rw [e] at hf ⊢
  · cases hf
  · cases hf
  · obtain rfl := Option.some.inj hf
    have hr := resumes_runAll acts bands (s := s) (runAll_held h).1
    unfold RunResumes at hr
    simp only [h] at hr
    refine ⟨hr.2.1, fun more d => ?_⟩
    have e1 : resumeOperation ⟨opc, len, a, b⟩
        (({ s1 with inFlight := some ⟨opc, len, a, b⟩ } : State).withLevels more d) =
        runOperation opc len a b { s1.withLevels more d with inFlight := none } := rfl
    rw [e1, runOperation_inFlight]
    exact (congrArg (settle opc len) (hr.2.2 more d)).symm

/-- What starts an operation does not depend on the BUSY levels to come. -/
theorem Starts.withLevels {i : Instr} {s s0 : State} {acts : List Act} {bands : List Band}
    (h : Starts i s acts bands s0) (q : List Level) (d : Nat) :
    Starts i (s.withLevels q d) acts bands (s0.withLevels q d) := by
  cases h with
  | init part gray steps s hf hs h0 =>
    have e : (({ s with bus := s.bus.busInit } : State).withLevels q d) =
        { s.withLevels q d with bus := (s.withLevels q d).bus.busInit } := by
      cases hb : s.bus.statusIn <;>
        simp [State.withLevels, Bus.busInit, Bus.dropStatus, Bus.nextStatus, Bus.emit, hb]
    rw [e]
    exact .init part gray steps _ hf hs h0
  | sleep s hp => exact .sleep _ hp
  | waitIdle s => exact .waitIdle _
  | sendCommand op8 s => exact .sendCommand op8 _
  | sendData bytes s => exact .sendData bytes _
  | setLut cls t s hv hp => exact .setLut cls t _ hv hp
  | displayFull s hp => exact .displayFull (s.withLevels q d) hp
  | displayPartial xs ys xe ye s hp hw => exact .displayPartial xs ys xe ye (s.withLevels q d) hp hw
  | draw x y w h img s hp hz hb => exact .draw x y w h img _ hp hz hb
  | fill color bh s hp hb => exact .fill color bh (s.withLevels q d) hp hb

/-- The conditions of `Starts` are those under which the operation runs. -/
theorem exec_of_starts {i : Instr} {s s0 : State} {acts : List Act} {bands : List Band}
    (h : Starts i s acts bands s0) :
    exec i s = .next (runOperation (opcodeOf i) (lengthOf i) acts bands s0) := by
  cases h with
  | init part gray steps s hf hs h0 =>
    have h1 : (part && gray) = false := by cases part <;> cases gray <;> simp_all
    simp only [exec, execInit, h1, hs, initWith, h0, if_true, if_false, Bool.false_eq_true]
    rfl
  | sleep s hp => simp only [exec, execSleep, hp, if_true]; rfl
  | waitIdle s => rfl
  | sendCommand op8 s => rfl
  | sendData bytes s => rfl
  | setLut cls t s hv hp => simp only [exec, execSetLut, hv, hp, if_true]; rfl
  | displayFull s hp => simp only [exec, execDisplayFull, hp, if_true]; rfl
  | displayPartial xs ys xe ye s hp hw => simp only [exec, execDisplayPartial, hp, hw, if_true]; rfl
  | draw x y w h img s hp hz hb => simp only [exec, execDraw, hp, hz, hb, if_true, if_false]; rfl
  | fill color bh s hp hb => simp only [exec, execFill, hp, hb, if_true, if_false]; rfl

/-- Levels that an operation's start does not draw are queued before it. -/
theorem exec_refill {i : Instr} {s s0 : State} {acts : List Act} {bands : List Band}
    (h : Starts i s acts bands s0) (more : List Level) (d n : Nat) :
    exec i (refill more d n s) =
      .next (runOperation (opcodeOf i) (lengthOf i) acts bands (refill more d n s0)) := by
  have e : s0.bus.busyIn = s.bus.busyIn ∧ s0.bus.busyDrawn = s.bus.busyDrawn := by
    cases h with
    | init part gray steps s hf hs h0 => simp
    | _ => exact ⟨rfl, rfl⟩
  rw [refill, refill, e.1, e.2]
  exact exec_of_starts (h.withLevels _ d)

end Sys2Proof.Machine
end

