-- ==== Sys2Proof/Laws/Timeout.lean ====
section
/-! SUPPORT. What an operation that ends with PanelTimeout has done before (60_exceptions.md R210, R212): the failing
poll is the end of its log, and what was done before it remains. -/

namespace Sys2Proof.Machine

/-- The events of a poll that times out (41_panel_protocol.md R133). -/
theorem waitBudget_timedOut_log {n : Nat} {s t : State} (h : waitBudget n s = .timedOut t) :
    t.bus.log = s.bus.log ++ busyPolls s.cfg n ++ [.busyRead (!s.cfg.idleLevel)] := by
  have busy : ∀ s : State, ¬ nextIsIdle s = true → s.bus.busyLevel = !s.cfg.idleLevel := by
    intro s hs
    simp only [nextIsIdle, decide_eq_true_eq] at hs
    cases hb : s.bus.busyLevel <;> cases hi : s.cfg.idleLevel <;> simp_all
  induction n generalizing s with
  | zero =>
    unfold waitBudget at h
    split at h
    · cases h
    · cases h; simp [readBusy, busyPolls_zero, busy s ‹_›]
  | succ n ih =>
    unfold waitBudget at h
    split at h
    · cases h
    · rw [ih h, busyPolls_succ, show (pollBusy s).cfg = s.cfg from rfl]
      simp [pollBusy, busy s ‹_›]

/-- The log of a state that a failing poll has left, after whatever was done from `s` on. -/
def EndsInTimeout (s t : State) : Prop :=
  ∃ budget ev, s.cfg.busyBudget = some budget ∧
    t.bus.log = s.bus.log ++ ev ++ busyPolls s.cfg budget ++ [.busyRead (!s.cfg.idleLevel)]

/-- A poll that times out, after something was logged. -/
theorem endsInTimeout_of_poll {s s1 t : State} (hl : Logs s s1) (h : waitIdleI s1 = .timedOut t) :
    EndsInTimeout s t := by
  obtain ⟨ev, hl⟩ := hl
  unfold waitIdleI at h
  split at h
  · rename_i budget hb
    rw [hl.cfg] at hb
    exact ⟨budget, ev, hb, by rw [waitBudget_timedOut_log h, hl.log, hl.cfg]⟩
  · exact absurd h (waitUnbounded_ne_timedOut _ _ _)

theorem endsInTimeout_runActs {bands : List Band} {acts : List Act} {s s0 t : State} (hl : Logs s s0)
    (h : runActs bands acts s0 = .timedOut t) : EndsInTimeout s t := by
  obtain ⟨pre, a, rest, s1, -, h1, h2⟩ := runActs_timedOut_split h
  have := logs_runActs bands pre s0
  rw [h1] at this
  exact endsInTimeout_of_poll (hl.trans this) h2

theorem endsInTimeout_runBands {bands : List Band} {s s0 t : State} (hl : Logs s s0)
    (h : runBands bands s0 = .timedOut t) : EndsInTimeout s t := by
  obtain ⟨pre, b, rest, s1, -, h1, h2⟩ := runBands_timedOut_split h
  have := logs_runBands pre s0
  rw [h1] at this
  exact endsInTimeout_runActs (hl.trans (this.trans (Logs.of_same (t := bufferWrite b s1) rfl rfl))) h2

/-- An operation that times out has logged the failing poll last (60_exceptions.md R210). -/
theorem endsInTimeout_runAll {acts : List Act} {bands : List Band} {s s0 t : State} (hl : Logs s s0)
    (h : runAll acts bands s0 = .timedOut t) : EndsInTimeout s t := by
  unfold runAll at h
  cases hr : runActs bands acts s0 with
  | done s1 =>
    simp only [hr] at h
    have := logs_runActs bands acts s0
    rw [hr] at this
    exact endsInTimeout_runBands (hl.trans this) h
  | timedOut s1 =>
    simp only [hr, RunResult.timedOut.injEq] at h
    subst h
    exact endsInTimeout_runActs hl hr
  | held a b s1 => simp [hr] at h

/-! ### What comes last does not happen -/

/-- An action that never polls. -/
def Act.silent (a : Act) : Prop := (∀ op8, a ≠ .cmd op8) ∧ a ≠ .waitIdle

/-- A run that times out does so before a tail that never polls. -/
theorem runActs_timedOut_append {bands : List Band} {a b : List Act} {s t : State} (hb : ∀ x ∈ b, x.silent)
    (h : runActs bands (a ++ b) s = .timedOut t) : runActs bands a s = .timedOut t := by
  have silent : ∀ {b : List Act}, (∀ x ∈ b, x.silent) → ∀ s, runActs bands b s ≠ .timedOut t := by
    intro b hb
    induction b with
    | nil => simp [runActs]
    | cons x b ih =>
      intro s hs
      have hx := hb x List.mem_cons_self
      have ih := ih fun y hy => hb y (List.mem_cons_of_mem _ hy)
      unfold runActs at hs
      cases x with
      | cmd op8 => exact hx.1 op8 rfl
      | waitIdle => exact hx.2 rfl
      | _ => exact ih _ hs
  rw [runActs_append] at h
  cases hr : runActs bands a s with
  | done s1 => simp only [hr] at h; exact absurd h (silent hb s1)
  | timedOut s1 => simp only [hr, RunResult.timedOut.injEq] at h; rw [h]
  | held x y s1 => simp [hr] at h

/-- An action that writes `pcount` in no case. -/
def Act.keepsPcount (a : Act) : Prop := a ≠ .clearPcount ∧ a ≠ .bumpPcount ∧ ∀ m, a ≠ .enterMode m

theorem pcount_runActs (bands : List Band) {acts : List Act} (h : ∀ a ∈ acts, a.keepsPcount) (s : State) :
    (runActs bands acts s).state.pcount = s.pcount := by
  have poll : ∀ s : State, (waitIdleI s).state.pcount = s.pcount := fun s =>
    waitIdleI_rel (fun s t => t.pcount = s.pcount) (fun h h' => h'.trans h) (fun _ => rfl) (fun _ _ => rfl)
      (fun _ => rfl) s
  refine runActs_rel (fun s t => t.pcount = s.pcount) (fun _ => rfl) (fun h h' => h'.trans h) bands
    (fun a ha s => ?_) s
  obtain ⟨h1, h2, h3⟩ := h a ha
  cases a with
  | cmd op8 =>
    exact sendCommandI_rel (fun s t => t.pcount = s.pcount) (fun h h' => h'.trans h) poll (fun _ _ => rfl) s
  | waitIdle => exact poll s
  | clearPcount => exact absurd rfl h1
  | bumpPcount => exact absurd rfl h2
  | enterMode m => exact absurd rfl (h3 m)
  | _ => rfl

/-- An action programs no LUT, so a `lut_class` of NONE stays. -/
theorem lutNone_runActs (bands : List Band) {acts : List Act} (h : ∀ a ∈ acts, a.programsLut = false)
    {s : State} (hs : s.lutClass = none) : (runActs bands acts s).state.lutClass = none := by
  have poll : ∀ s : State, (waitIdleI s).state.lutClass = s.lutClass := fun s =>
    waitIdleI_rel (fun s t => t.lutClass = s.lutClass) (fun h h' => h'.trans h) (fun _ => rfl)
      (fun _ _ => rfl) (fun _ => rfl) s
  refine runActs_rel (fun s t => s.lutClass = none → t.lutClass = none) (fun _ => id)
    (fun h h' hs => h' (h hs)) bands (fun a ha s hs => ?_) s hs
  cases a with
  | cmd op8 =>
    exact (sendCommandI_rel (fun s t => t.lutClass = s.lutClass) (fun h h' => h'.trans h) poll
      (fun _ _ => rfl) s).trans hs
  | waitIdle => exact (poll s).trans hs
  | resetPulse => rfl
  | setLut l =>
    cases l with
    | none => rfl
    | some l => exact absurd (h _ ha) (by simp [Act.programsLut])
  | _ => exact hs

/-- A LUT programming that times out leaves `lut_class` NONE (41_panel_protocol.md R136). -/
theorem lutNone_programLut {bands : List Band} {t : V1Table} {cls : LutClass} {s u : State}
    (h : runActs bands (programLutActs t cls) s = .timedOut u) : u.lutClass = none := by
  have h1 : runActs bands (([.setLut none] ++ lutNames.flatMap (fun n => [.cmd (t.opLut.get n), .data ((t.lut.get cls).get n)])) ++
      [.setLut (some cls)]) s = .timedOut u := h
  have h2 := runActs_timedOut_append (by simp [Act.silent]) h1
  have h3 : runActs bands (lutNames.flatMap (fun n => [.cmd (t.opLut.get n), .data ((t.lut.get cls).get n)]))
      { s with lutClass := none } = .timedOut u := h2
  have := lutNone_runActs bands (acts := lutNames.flatMap (fun n => [.cmd (t.opLut.get n), .data ((t.lut.get cls).get n)]))
    (by simp [lutNames, Act.programsLut]) (s := { s with lutClass := none }) rfl
  rw [h3] at this
  exact this

/-- Actions of step lists and of LUT programming leave `pcount`. -/
theorem keepsPcount_stepActs {steps : List ProtoStep} {a : Act} (h : a ∈ stepActs steps) : a.keepsPcount := by
  obtain ⟨st, -, rfl⟩ := List.mem_map.1 h
  cases st <;> simp [actOfStep, Act.keepsPcount]

theorem keepsPcount_programLut {t : V1Table} {cls : LutClass} {a : Act} (h : a ∈ programLutActs t cls) :
    a.keepsPcount := by
  rw [programLutActs_eq] at h
  fin_cases h <;> simp [Act.keepsPcount]

theorem keepsPcount_restoreLut {s : State} {a : Act} (h : a ∈ restoreLutActs s) : a.keepsPcount := by
  rcases restoreLutActs_eq s with e | ⟨t, -, e⟩ <;> rw [e] at h
  · cases h
  · exact keepsPcount_programLut h

theorem keepsPcount_partialLut {c : Cfg} {a : Act} (h : a ∈ partialLutActs c) : a.keepsPcount := by
  rcases partialLutActs_eq c with e | ⟨t, -, e⟩ <;> rw [e] at h
  · cases h
  · exact keepsPcount_programLut h

theorem keepsPcount_initLut {c : Cfg} {m : Mode} {a : Act} (h : a ∈ initLutActs c m) : a.keepsPcount := by
  rcases initLutActs_eq c m with e | ⟨t, -, e⟩ <;> rw [e] at h
  · cases h
  · exact keepsPcount_programLut h

theorem keepsPcount_secondary {c : Cfg} {bytes : List Byte} {a : Act} (h : a ∈ secondaryActs c bytes) :
    a.keepsPcount := by
  rcases secondaryActs_eq c bytes with e | ⟨t, e⟩ <;> rw [e] at h
  · cases h
  · fin_cases h <;> simp [Act.keepsPcount]

/-- What times out before a tail that never polls has kept `pcount`. -/
theorem pcount_timedOut {bands : List Band} {x y : List Act} {s t : State} (hx : ∀ a ∈ x, a.keepsPcount)
    (hy : ∀ a ∈ y, a.silent) (h : runActs bands (x ++ y) s = .timedOut t) : t.pcount = s.pcount := by
  have := pcount_runActs bands hx s
  rw [runActs_timedOut_append hy h] at this
  exact this

/-- A full transmission that times out has not cleared `pcount` (42_refresh.md R174). -/
theorem pcount_displayFull {bands : List Band} {s t : State}
    (h : runActs bands (displayFullActs s) s = .timedOut t) : t.pcount = s.pcount := by
  have e1 : displayFullActs s = ([.setOState .commandPrimary] ++ restoreLutActs s ++ stepActs s.cfg.p.fullPrep ++
      [.cmd s.cfg.p.opRamPrimary, .data (fbBytes s.cfg s.fb)] ++ secondaryActs s.cfg (fbBytes s.cfg s.fb) ++
      [.setOState .refreshTrigger] ++ stepActs s.cfg.p.fullTrigger ++ [.setOState .busyWait, .waitIdle]) ++
      [.clearPcount, .setOState .idle] := by simp [displayFullActs]
  rw [e1] at h
  refine pcount_timedOut (fun a ha => ?_) (by simp [Act.silent]) h
  simp only [List.mem_append] at ha
  rcases ha with ((((((ha | ha) | ha) | ha) | ha) | ha) | ha) | ha
  · fin_cases ha; simp [Act.keepsPcount]
  · exact keepsPcount_restoreLut ha
  · exact keepsPcount_stepActs ha
  · fin_cases ha <;> simp [Act.keepsPcount]
  · exact keepsPcount_secondary ha
  · fin_cases ha; simp [Act.keepsPcount]
  · exact keepsPcount_stepActs ha
  · fin_cases ha <;> simp [Act.keepsPcount]

/-- A windowed transmission that times out has not counted itself (42_refresh.md R175). -/
theorem pcount_displayPartial {bands : List Band} {win : Window} {s t : State}
    (h : runActs bands (displayPartialActs win s) s = .timedOut t) : t.pcount = s.pcount := by
  refine pcount_timedOut (fun a ha => ?_) (by simp [Act.silent]) h
  simp only [List.mem_append] at ha
  rcases ha with ((((((((ha | ha) | ha) | ha) | ha) | ha) | ha) | ha) | ha) | ha
  · fin_cases ha; simp [Act.keepsPcount]
  · exact keepsPcount_partialLut ha
  · exact keepsPcount_stepActs ha
  · exact keepsPcount_stepActs ha
  · fin_cases ha <;> simp [Act.keepsPcount]
  · exact keepsPcount_secondary ha
  · fin_cases ha; simp [Act.keepsPcount]
  · exact keepsPcount_stepActs ha
  · fin_cases ha <;> simp [Act.keepsPcount]
  · exact keepsPcount_stepActs ha

/-- A `DrawBody` that times out has kept `pcount` (42_refresh.md R174, R175). -/
theorem pcount_transmit {bands : List Band} {b : Band} {s t : State}
    (h : runActs bands (transmitActs b s) s = .timedOut t) : t.pcount = s.pcount := by
  rcases transmitActs_cases b s with ⟨-, e⟩ | ⟨-, -, e⟩ <;> rw [e] at h
  exacts [pcount_displayFull h, pcount_displayPartial h]

/-- `mode` is written by the last action of INIT only (41_panel_protocol.md R141). -/
theorem mode_runActs (bands : List Band) {acts : List Act} (h : ∀ a ∈ acts, ∀ m, a ≠ .enterMode m) (s : State) :
    (runActs bands acts s).state.mode = s.mode := by
  refine runActs_rel (fun s t => t.mode = s.mode) (fun _ => rfl) (fun h h' => h'.trans h) bands
    (fun a ha s => ?_) s
  cases a with
  | resetPulse => rfl
  | enterMode m => exact absurd rfl (h _ ha m)
  | enterSleep => rfl
  | _ => exact (sameMode_runAct rfl s).2

/-- An INIT that times out (41_panel_protocol.md R141, 60_exceptions.md R210): the mode and `pcount` are what they
were, and no LUT is programmed. -/
theorem timedOut_init {c : Cfg} {m : Mode} {steps : List ProtoStep} {s t : State}
    (h : runActs [] (initActs c m steps) s = .timedOut t) :
    t.mode = s.mode ∧ t.pcount = s.pcount ∧ t.lutClass = none := by
  have h1 := runActs_timedOut_append (a := [.resetPulse] ++ stepActs steps ++ initLutActs c m)
    (b := [.enterMode m]) (by simp [Act.silent]) h
  have hmem : ∀ a ∈ [Act.resetPulse] ++ stepActs steps ++ initLutActs c m,
      (∀ m, a ≠ .enterMode m) ∧ a.keepsPcount := by
    intro a ha
    simp only [List.mem_append] at ha
    rcases ha with (ha | ha) | ha
    · fin_cases ha; simp [Act.keepsPcount]
    · exact ⟨(keepsPcount_stepActs ha).2.2, keepsPcount_stepActs ha⟩
    · exact ⟨(keepsPcount_initLut ha).2.2, keepsPcount_initLut ha⟩
  have hm := mode_runActs [] (fun a ha => (hmem a ha).1) s
  have hp := pcount_runActs [] (fun a ha => (hmem a ha).2) s
  rw [h1] at hm hp
  refine ⟨hm, hp, ?_⟩
  have h2 : runActs [] ([.resetPulse] ++ stepActs steps) s = .timedOut t ∨
      ∃ s1, runActs [] (initLutActs c m) s1 = .timedOut t := by
    rw [runActs_append] at h1
    cases hr : runActs [] ([.resetPulse] ++ stepActs steps) s with
    | done s1 => rw [hr] at h1; exact .inr ⟨s1, h1⟩
    | timedOut s1 => rw [hr] at h1; simp only [RunResult.timedOut.injEq] at h1; rw [h1]; exact .inl rfl
    | held a b s1 => rw [hr] at h1; cases h1
  rcases h2 with h2 | ⟨s1, h2⟩
  · have := lutNone_runActs [] (fun a => programsLut_stepActs) (s := resetPulse s) (acts := stepActs steps) rfl
    rw [show runActs [] (stepActs steps) (resetPulse s) = .timedOut t from h2] at this
    exact this
  · rcases initLutActs_eq c m with e | ⟨table, -, e⟩ <;> rw [e] at h2
    · simp [runActs] at h2
    · exact lutNone_programLut h2

/-- Without bands, only the actions can time out. -/
theorem runAll_timedOut_nil {acts : List Act} {s t : State} (h : runAll acts [] s = .timedOut t) :
    runActs [] acts s = .timedOut t := by
  unfold runAll at h
  cases hr : runActs [] acts s with
  | done s1 => simp [hr, runBands] at h
  | timedOut s1 => simp only [hr, RunResult.timedOut.injEq] at h; rw [h]
  | held a b s1 => simp [hr] at h

/-- What a run of bands that times out has written: the first bands, up to the one whose transmission failed
(60_exceptions.md R212). -/
theorem runBands_timedOut_fb {bands : List Band} {s t : State} (h : runBands bands s = .timedOut t) :
    ∃ n, n < bands.length ∧
      t.fb = (bands.take (n + 1)).foldl (fun m b => blitCore s.cfg m b.x b.y b.w b.h b.img) s.fb := by
  obtain ⟨pre, b, rest, s1, rfl, h1, h2⟩ := runBands_timedOut_split h
  have hf := runActs_frame rest (transmitActs b (bufferWrite b s1)) (bufferWrite b s1)
  have hc := (runBands_frame pre s).cfg
  rw [h2] at hf
  rw [h1] at hc
  refine ⟨pre.length, by simp, ?_⟩
  have e : (pre ++ b :: rest).take (pre.length + 1) = pre ++ [b] := by simp [List.take_append]
  rw [e, List.foldl_append, ← runBands_fb h1, show t.fb = _ from hf.fb]
  show blitCore s1.cfg _ _ _ _ _ _ = _
  rw [show s1.cfg = s.cfg from hc]
  rfl

/-- The pixels after the first `n + 1` bands of a FILL (42_refresh.md R179). -/
theorem fillBodies_take {c : Cfg} {m : Memory} (hg : c.width % 8 = 0) (hw : Memory.wf c.fillByte m = true)
    {color : Bool} {bh : Nat} (hb : bh ≠ 0) {n : Nat} (hn : n < (fillBodies c color bh).length) :
    n * bh < c.height ∧ ∀ px py, px < c.width → py < c.height →
      pixelOf c (((fillBodies c color bh).take (n + 1)).foldl (fun m b => blitCore c m b.x b.y b.w b.h b.img) m)
        px py = if py < (n + 1) * bh then color else pixelOf c m px py := by
  have hlen : n < (c.height + bh - 1) / bh := by simpa [fillBodies, fillBands] using hn
  have hc := (fillBands_count (height := c.height) hb).1
  refine ⟨hc n hlen, fun px py hx hy => ?_⟩
  have e : (fillBodies c color bh).take (n + 1) =
      ((List.range (n + 1)).map fun k => (k * bh, min bh (c.height - k * bh))).map (solidBand c color) := by
    simp only [fillBodies, fillBands, ← List.map_take, List.take_range]
    rw [Nat.min_eq_left (by omega)]
  rw [e, (bands_fold hg hw color (n + 1) fun k hk => hc k (by omega)).2 px py hx]
  by_cases h : py < (n + 1) * bh
  · rw [if_pos h, if_pos (by omega)]
  · rw [if_neg h, if_neg (by omega)]

end Sys2Proof.Machine
end

