-- ==== Sys2Proof/Laws/Window.lean ====
section
/-! SUPPORT. `PARTIAL_WINDOW` as an expression loses no configuration (entry 3): every function from windows to
step lists is, on the finitely many windows of an instance, one of the `WinProg`s. -/

namespace Sys2Proof

/-- A protocol step as one that does not look at the window. -/
def constStep : ProtoStep → WinStep
  | .cmd op8 => .cmd (.lit op8.toNat)
  | .data bytes => .data (bytes.map fun b => .lit b.toNat)
  | .delay ms => .delay (.lit ms)
  | .waitIdle => .waitIdle

@[simp] theorem eval_constStep (win : Window) (st : ProtoStep) : (constStep st).eval win = st := by
  cases st with
  | cmd op8 => simp [constStep, WinStep.eval, WinExpr.eval]
  | data bytes =>
    simp only [constStep, WinStep.eval, List.map_map]
    congr 1
    rw [List.map_congr_left (g := id) (fun b _ => by simp [WinExpr.eval]), List.map_id]
  | delay ms => rfl
  | waitIdle => rfl

/-- `yes` at the window `win`, and `no` at every other one. -/
def atWindow (win : Window) (yes no : WinProg) : WinProg :=
  .ifEq .xs (.lit win.xs) (.ifEq .ys (.lit win.ys) (.ifEq .xe (.lit win.xe) (.ifEq .ye (.lit win.ye) yes no) no) no) no

theorem eval_atWindow (w win : Window) (yes no : WinProg) :
    (atWindow win yes no).eval w = if w = win then yes.eval w else no.eval w := by
  obtain ⟨a, b, c, d⟩ := w
  obtain ⟨a', b', c', d'⟩ := win
  simp only [atWindow, WinProg.eval, WinExpr.eval, Window.mk.injEq]
  by_cases h1 : a = a' <;> by_cases h2 : b = b' <;> by_cases h3 : c = c' <;> by_cases h4 : d = d' <;>
    simp [h1, h2, h3, h4]

/-- On any finite list of windows every function is a `WinProg`. -/
theorem winProg_complete (f : Window → List ProtoStep) (wins : List Window) :
    ∃ p : WinProg, ∀ win ∈ wins, p.eval win = f win := by
  induction wins with
  | nil => exact ⟨.steps [], fun _ h => absurd h List.not_mem_nil⟩
  | cons win wins ih =>
    obtain ⟨p, hp⟩ := ih
    refine ⟨atWindow win (.steps ((f win).map constStep)) p, fun w hw => ?_⟩
    rw [eval_atWindow]
    by_cases h : w = win
    · subst h
      rw [if_pos rfl]
      simp only [WinProg.eval, List.map_map]
      have h : WinStep.eval w ∘ constStep = id := funext fun st => eval_constStep w st
      rw [h, List.map_id]
    · rw [if_neg h]
      exact hp w ((List.mem_cons.1 hw).resolve_left h)

end Sys2Proof
end

