-- ==== Sys2Proof/Tests/Slice0.lean ====
section
/-! SUPPORT. Tests of the model, each of one step on a small state. The expected values are those of
95_test_vectors.md (named V-…, S…, L3-… there) or of the examples in the rules; then, for every
obligation that has hypotheses, states and operands that meet them (`witness_<name>`). -/

namespace Sys2Proof.Tests

open Sys2Proof Sys2Proof.Machine

/-! ### The states the tests start from -/

/-- The configuration T2 of 95_test_vectors.md section 0. -/
def cfgT2 : Cfg :=
  { testCfg with
    p := { testTable with
      initSeqs := { testTable.initSeqs with gray4 := none }
      variantTable := .v2 } }

/-- T1 without a poll budget. -/
def cfgUnbounded : Cfg := { testCfg with busyBudget := none }

/-- After block reset, with BUSY levels and statuses to come. -/
def fresh (c : Cfg) (busy : List Level) (status : List Byte) : State :=
  { State.resetWith c with
    bus := { (State.resetWith c).bus with busyIn := busy, statusIn := status } }

/-- Initialized in a mode, with the LUT of that mode on V1, and BUSY levels to come. -/
def initialized (c : Cfg) (m : Mode) (busy : List Level) : State :=
  { fresh c busy [] with
    pstate := .initialized
    mode := m
    lutClass := if c.variant = .v1 then some (modeLut m) else none }

/-- `s` with the framebuffer bytes `bytes`. -/
def withFb (bytes : List Byte) (s : State) : State :=
  { s with fb := (List.range bytes.length).foldl (fun m k => fbWrite s.cfg m k (bytes.getD k 0)) s.fb }

/-- `s` with the words `words` at DP. -/
def withWords (words : List Word) (s : State) : State := { s with stream := words }

/-- The state after an operation. -/
def after (i : Instr) (s : State) : State :=
  match exec i s with
  | .next t => t
  | .fault f => nomatch f
  | .refused _ => s

/-- The state after a step. -/
def afterStep (s : State) : State :=
  match step s with
  | .next t => t
  | .fault f => nomatch f
  | .refused _ => s

/-- The words of the last response. -/
def lastResponse (s : State) : List Word :=
  match s.responses.getLast? with
  | some r => r.r0 :: r.data
  | none => []

/-- The framebuffer bytes. -/
def fbOf (s : State) : List Byte := fbBytes s.cfg s.fb

/-- The command stream. -/
def streamOf (s : State) : List StreamItem := cmdstream s.bus.log

/-- The items of a command byte and data bytes. -/
def pair (op8 : Byte) (bytes : List Byte) : List StreamItem := .cmd op8 :: bytes.map .data

/-! ### Well-formedness refuses ill-formed operations -/

theorem test_wellFormed_blit_too_few_words : (Instr.blit 0 0 8 8 [0]).wellFormed = false := by decide
theorem test_wellFormed_blit_too_many_words : (Instr.blit 0 0 0 4 [0]).wellFormed = false := by decide
theorem test_wellFormed_blit_padding : (Instr.blit 0 0 3 3 [0x00400000]).wellFormed = false := by decide
theorem test_wellFormed_draw_words : (Instr.draw 0 0 8 8 [0, 0, 0]).wellFormed = false := by decide
theorem test_wellFormed_draw_padding : (Instr.draw 0 0 1 1 [0x40000000]).wellFormed = false := by decide
theorem test_wellFormed_readReg : (Instr.readReg 6).wellFormed = false := by decide
theorem test_wellFormed_sendData (bytes : List Byte) (h : bytes.length = 65536) :
    (Instr.sendData bytes).wellFormed = false := by
  simp [Instr.wellFormed, h]

/-! ### Decoding words written out from 30_encoding.md -/

theorem test_decode_setPixel : decode [0x01010000, 0x00030000] = .ok (.setPixel true 3 0) 2 := by decide
theorem test_decode_getPixel : decode [0x02000000, 0x00070001] = .ok (.getPixel 7 1) 2 := by decide
theorem test_decode_blit :
    decode [0x03000000, 0x00060005, 0x00040002, 0xA5000000] = .ok (.blit 6 5 4 2 [0xA5000000]) 4 := by decide
theorem test_decode_readImage : decode [0x04000000] = .ok .readImage 1 := by decide
theorem test_decode_readReg : decode [0x05000005] = .ok (.readReg 5) 1 := by decide
theorem test_decode_reset : decode [0x10000000] = .ok .reset 1 := by decide
theorem test_decode_init_partial : decode [0x11010000] = .ok (.init true false) 1 := by decide
theorem test_decode_init_gray : decode [0x11020000] = .ok (.init false true) 1 := by decide
theorem test_decode_sleep : decode [0x12000000] = .ok .sleep 1 := by decide
theorem test_decode_waitIdle : decode [0x13000000] = .ok .waitIdle 1 := by decide
theorem test_decode_sendCommand : decode [0x140000D0] = .ok (.sendCommand 0xD0) 1 := by decide
/-- V-E13. -/
theorem test_decode_sendData :
    decode [0x15000005, 0x01020304, 0x05000000] = .ok (.sendData [1, 2, 3, 4, 5]) 3 := by decide
theorem test_decode_setLut : decode [0x16020000] = .ok (.setLut .gray) 1 := by decide
theorem test_decode_displayFull : decode [0x20000000] = .ok .displayFull 1 := by decide
theorem test_decode_displayPartial :
    decode [0x21000000, 0x0003000A, 0x0014000C] = .ok (.displayPartial 3 10 20 12) 3 := by decide
theorem test_decode_draw :
    decode [0x22000000, 0x00030001, 0x00020002, 0x00000000] = .ok (.draw 3 1 2 2 [0]) 4 := by decide
theorem test_decode_fill : decode [0x23010080] = .ok (.fill true 128) 1 := by decide
/-- V-E1 to V-E10, V-E15 and V-E17: the illegal ones, with the length of their format. -/
theorem test_decode_illegal :
    decode [0x00000000] = .illegal .reservedOpcode 0x00 1 ∧ decode [0x06000000] = .illegal .reservedOpcode 0x06 1 ∧
    decode [0xFF123456] = .illegal .reservedOpcode 0xFF 1 ∧ decode [0x01020000, 0] = .illegal .reservedBit 0x01 2 ∧
    decode [0x16030000] = .illegal .reservedField 0x16 1 ∧ decode [0x05000006] = .illegal .reservedField 0x05 1 ∧
    decode [0x10000001] = .illegal .reservedBit 0x10 1 ∧ decode [0x14000112] = .illegal .reservedBit 0x14 1 ∧
    decode [0x15000001, 0x12000001] = .illegal .dataPadding 0x15 2 ∧
    decode [0x03000000, 0, 0x00030003, 0x00400000] = .illegal .imagePadding 0x03 4 ∧
    decode [0x23020001] = .illegal .reservedBit 0x23 1 ∧ decode [0x11040000] = .illegal .reservedBit 0x11 1 := by
  decide
/-- V-E12: a 400x300 DRAW has 3753 words. -/
theorem test_descriptorLength_draw : descriptorLength 0x22000000 [0, 0x0190012C] = some 3753 := by decide
/-- The pseudo-instructions of R99. -/
theorem test_assemble_pseudo :
    assemble testCfg "CLEAR 0".toList = some (.fill false 4) ∧
    assemble testCfg "SET_FRAME_BUFFER 6, 0, 4, 2, 1010_0101".toList = some (.blit 6 0 4 2 [0xA5000000]) ∧
    assemble testCfg "PARTIAL_SET_LUT".toList = some (.setLut .part) ∧
    assemble testCfg "SEND_DATA 0x100".toList = none := by decide +kernel
/-- The zero-area line of V-F13, which writes no bits; a `_` between bits is dropped (R98). -/
theorem test_assemble_bits :
    assemble testCfg "BLIT 16, 0, 0, 1".toList = some (.blit 16 0 0 1 []) ∧
    assemble testCfg "BLIT 6, 0, 4, 2".toList = none ∧
    assemble testCfg "BLIT 6, 0, 4, 2, 10_1001_01".toList = some (.blit 6 0 4 2 [0xA5000000]) := by decide +kernel

/-! ### One step of each operation -/

/-- V-F2 and V-F4. -/
theorem test_setPixel :
    fbOf (after (.setPixel true 7 0) (withFb (List.replicate 8 0) State.reset)) = [0x01, 0, 0, 0, 0, 0, 0, 0] ∧
    fbOf (after (.setPixel false 15 3) State.reset) = [0xFF, 0xFF, 0xFF, 0xFF, 0xFF, 0xFF, 0xFF, 0xFE] := by decide
/-- V-F5 to V-F7. -/
theorem test_setPixel_out_of_bounds :
    lastResponse (after (.setPixel true 16 0) State.reset) = [0x01000005] ∧
    lastResponse (after (.setPixel true 0 4) State.reset) = [0x01000005] ∧
    lastResponse (after (.setPixel false 65535 65535) State.reset) = [0x01000005] := by decide
/-- V-F8 to V-F10. -/
theorem test_getPixel :
    lastResponse (after (.getPixel 0 0) (withFb [0x80, 0, 0, 0, 0, 0, 0, 0] State.reset)) = [0x02000100] ∧
    lastResponse (after (.getPixel 1 0) (withFb [0x80, 0, 0, 0, 0, 0, 0, 0] State.reset)) = [0x02000000] ∧
    lastResponse (after (.getPixel 16 0) State.reset) = [0x02000006] := by decide
/-- V-F16 and V-F18. -/
theorem test_blit :
    fbOf (after (.blit 6 0 4 2 [0xA5000000]) State.reset) = [0xFE, 0xBF, 0xFD, 0x7F, 0xFF, 0xFF, 0xFF, 0xFF] ∧
    fbOf (after (.blit 3 1 10 1 [0xFFC00000]) (withFb (List.replicate 8 0) State.reset)) =
      [0, 0, 0x1F, 0xF8, 0, 0, 0, 0] := by decide +kernel
/-- V-F12, V-F13, V-F15 and V-E14. -/
theorem test_blit_bounds :
    lastResponse (after (.blit 13 0 4 1 [0xF0000000]) State.reset) = [0x03000005] ∧
    lastResponse (after (.blit 16 0 0 1 []) State.reset) = [0x03000000] ∧
    lastResponse (after (.blit 65535 0 1 1 [0x80000000]) State.reset) = [0x03000005] ∧
    lastResponse (after (.blit 5 1 0 4 []) State.reset) = [0x03000005] := by decide +kernel
/-- V-F19. -/
theorem test_readImage :
    lastResponse (after .readImage (withFb [1, 2, 3, 4, 5, 6, 7, 8] State.reset)) =
      [0x04000000, 0x01020304, 0x05060708] := by decide +kernel
/-- V-F20, and the STATUS checks after V-P22 (read by the next READ_REG). -/
theorem test_readReg_status :
    lastResponse (after (.readReg 0) State.reset) = [0x05000000, 0x03000000] ∧
    lastResponse (after (.readReg 0) { initialized cfgT2 .partialFast [] with lastOpc := 0x11 }) =
      [0x05000000, 0x03001132] := by decide
/-- V-F22 to V-F24, and V-I2. -/
theorem test_readReg_hardwired :
    lastResponse (after (.readReg 1) State.reset) = [0x05000000, 0x00020A0C] ∧
    lastResponse (after (.readReg 4) State.reset) = [0x05000000, 0x00100004] ∧
    lastResponse (after (.readReg 5) State.reset) = [0x05000000, 0x00000003] ∧
    lastResponse (after (.readReg 5) (State.resetWith cfgUnbounded)) = [0x05000000, 0xFFFFFFFF] ∧
    lastResponse (after (.readReg 1) (State.resetWith cfgT2)) = [0x05000000, 0x00020A03] := by decide
/-- V-P16. -/
theorem test_reset :
    (after .reset State.reset).bus.log = [.pin .rst false, .delay 10, .pin .rst true, .delay 10] ∧
    (after .reset State.reset).pstate = .resetting ∧ (after .reset State.reset).busyPending = true := by decide
/-- V-P20. -/
theorem test_init :
    streamOf (after (.init false false) (fresh testCfg [true] [0])) =
      [.busInit 0, .delay 10, .delay 10, .busyRead true] ++ pair 0xA0 [0x01] ++ pair 0xB0 [0x10] ++ pair 0xB1 [0x11] ++
        pair 0xB2 [0x12] ++ pair 0xB3 [0x13] ++ pair 0xB4 [0x14] ∧
    statusWord (after (.init false false) (fresh testCfg [true] [0])) = 0x00001102 := by decide
/-- V-P23 and V-P18. -/
theorem test_init_errors :
    streamOf (after (.init false false) (fresh testCfg [false, false, false, false] [0])) =
      [.busInit 0, .delay 10, .delay 10, .busyRead false, .delay 10, .busyRead false, .delay 10, .busyRead false,
        .delay 10, .busyRead false] ∧
    lastResponse (after (.init false false) (fresh testCfg [false, false, false, false] [0])) = [0x11000008] ∧
    lastResponse (after (.init false true) (fresh cfgT2 [] [0])) = [0x11000002] := by decide
/-- V-P25. -/
theorem test_sleep :
    streamOf (after .sleep (initialized testCfg .blackWhite [])) = pair 0xF0 [0xA5] ∧
    (after .sleep (initialized testCfg .blackWhite [])).pstate = .sleeping := by decide
/-- V-P3 and V-P5. -/
theorem test_waitIdle :
    streamOf (after .waitIdle (fresh testCfg [false, false, false, true] [])) =
      [.busyRead false, .delay 10, .busyRead false, .delay 10, .busyRead false, .delay 10, .busyRead true] ∧
    streamOf (after .waitIdle (fresh { testCfg with busyBudget := some 0 } [false] [])) = [.busyRead false] := by decide
/-- S8: the timeout's state. -/
theorem test_waitIdle_timeout :
    lastResponse (after .waitIdle (fresh testCfg [false, false, false, false] [])) = [0x13000008] ∧
    (after .waitIdle (fresh testCfg [false, false, false, false] [])).errsticky = 0x100 ∧
    (after .waitIdle (fresh testCfg [false, false, false, false] [])).pstate = .resetting ∧
    (after .waitIdle (fresh testCfg [false, false, false, false] [])).busyPending = true := by decide
/-- V-P10, and the second command of V-P14. -/
theorem test_sendCommand :
    (after (.sendCommand 0x12) State.reset).bus.log = [.pin .dc false, .pin .cs false, .xfer [0x12], .pin .cs true] ∧
    (after (.sendCommand 0x00) { fresh testCfg [false, true] [] with busyPending := true }).bus.log =
      [.busyRead false, .delay 10, .busyRead true, .pin .dc false, .pin .cs false, .xfer [0x00], .pin .cs true] := by
  decide
/-- V-P11 and V-P12, with two bytes. -/
theorem test_sendData :
    (after (.sendData [0x12, 0x34]) State.reset).bus.log =
      [.pin .dc true, .pin .cs false, .xfer [0x12, 0x34], .pin .cs true] ∧
    (after (.sendData [0x12, 0x34]) (State.resetWith cfgT2)).bus.log =
      [.pin .dc true, .pin .cs false, .xfer [0x12], .pin .cs true,
        .pin .dc true, .pin .cs false, .xfer [0x34], .pin .cs true] := by decide
/-- V-P30 and V-P28. -/
theorem test_setLut :
    streamOf (after (.setLut .part) (initialized testCfg .blackWhite [])) =
      pair 0xB0 [0x20] ++ pair 0xB1 [0x21] ++ pair 0xB2 [0x22] ++ pair 0xB3 [0x23] ++ pair 0xB4 [0x24] ∧
    (after (.setLut .part) (initialized testCfg .blackWhite [])).lutClass = some .part ∧
    lastResponse (after (.setLut .full) (State.resetWith cfgT2)) = [0x16000002] := by decide
/-- V-R4 on T1. -/
theorem test_displayFull :
    streamOf (after .displayFull (withFb [0x00, 0x11, 0x22, 0x33, 0x44, 0x55, 0x66, 0x77]
        (initialized testCfg .blackWhite [false, true]))) =
      pair 0xC1 [0x00, 0x11, 0x22, 0x33, 0x44, 0x55, 0x66, 0x77] ++
      pair 0xC2 [0x00, 0x11, 0x22, 0x33, 0x44, 0x55, 0x66, 0x77] ++
      pair 0xD0 [] ++ [.busyRead false, .delay 10, .busyRead true] := by decide +kernel
/-- V-R5: the LUT restore. -/
theorem test_displayFull_restores_lut :
    (after .displayFull { initialized testCfg .gray4 [true] with lutClass := some .full }).lutClass = some .gray ∧
    streamOf (after .displayFull { initialized testCfg .partialFast [true] with lutClass := some .part }) =
      pair 0xB0 [0x10] ++ pair 0xB1 [0x11] ++ pair 0xB2 [0x12] ++ pair 0xB3 [0x13] ++ pair 0xB4 [0x14] ++
      pair 0xC1 (List.replicate 8 0xFF) ++ pair 0xC2 (List.replicate 8 0xFF) ++ pair 0xD0 [] ++
      [.busyRead true] := by decide +kernel
/-- The DISPLAY_PARTIAL of L3-4: the right edge, clamped, on V2. -/
theorem test_displayPartial :
    streamOf (after (.displayPartial 15 0 16 1)
        (withFb [0x00, 0x01, 0, 0, 0, 0, 0, 0] (initialized cfgT2 .partialFast [true, false]))) =
      pair 0xE0 [] ++ pair 0xE1 [0x01, 0x00, 0x02, 0x01] ++ pair 0xC1 [0x01] ++ pair 0xD1 [] ++
      [.busyRead true, .delay 10, .busyRead false] ++ pair 0xE2 [] := by decide +kernel
/-- V-R2: one invalid window for each condition. -/
theorem test_displayPartial_windows :
    ([(16, 0, 16, 1), (0, 0, 17, 1), (5, 0, 3, 1), (0, 2, 8, 2), (0, 3, 8, 5)] : List (Half × Half × Half × Half)).all
      (fun w => lastResponse (after (.displayPartial w.1 w.2.1 w.2.2.1 w.2.2.2) (initialized testCfg .blackWhite []))
        = [0x21000004]) = true := by decide
/-- The DRAW of L3-1. -/
theorem test_draw_partial :
    streamOf (after (.draw 3 1 2 2 [0]) (initialized testCfg .partialFast [false, true])) =
      pair 0xB0 [0x20] ++ pair 0xB1 [0x21] ++ pair 0xB2 [0x22] ++ pair 0xB3 [0x23] ++ pair 0xB4 [0x24] ++
      pair 0xE0 [] ++ pair 0xE1 [0x00, 0x01, 0x01, 0x03] ++ pair 0xC1 [0xE7, 0xE7] ++ pair 0xC2 [0x18, 0x18] ++
      pair 0xD1 [] ++ [.busyRead false, .delay 10, .busyRead true] ++ pair 0xE2 [] ∧
    fbOf (after (.draw 3 1 2 2 [0]) (initialized testCfg .partialFast [false, true])) =
      [0xFF, 0xFF, 0xE7, 0xFF, 0xE7, 0xFF, 0xFF, 0xFF] := by decide +kernel
/-- V-R6 (the third DRAW is full) and the timeout of V-R8. -/
theorem test_draw_policy_and_timeout :
    (after (.draw 3 1 2 2 [0]) { initialized testCfg .partialFast [true] with pcount := 1 }).pcount = 2 ∧
    (after (.draw 3 1 2 2 [0]) { initialized testCfg .partialFast [true] with pcount := 2 }).pcount = 0 ∧
    lastResponse (after (.draw 0 0 8 1 [0]) (initialized testCfg .partialFast [false, false, false, false])) =
      [0x22000008] ∧
    fbOf (after (.draw 0 0 8 1 [0]) (initialized testCfg .partialFast [false, false, false, false])) =
      [0x00, 0xFF, 0xFF, 0xFF, 0xFF, 0xFF, 0xFF, 0xFF] := by decide +kernel
/-- The FILL of L3-3: two bands. -/
theorem test_fill :
    streamOf (after (.fill false 3) (initialized testCfg .blackWhite [true, true])) =
      pair 0xC1 [0, 0, 0, 0, 0, 0, 0xFF, 0xFF] ++ pair 0xC2 [0, 0, 0, 0, 0, 0, 0xFF, 0xFF] ++ pair 0xD0 [] ++
      [.busyRead true] ++ pair 0xC1 (List.replicate 8 0) ++ pair 0xC2 (List.replicate 8 0) ++ pair 0xD0 [] ++
      [.busyRead true] := by decide +kernel
/-- The FILL of L3-3 held at the poll of its first band goes on with its second one (R179, R238). -/
theorem test_fill_resumed :
    fbOf (afterStep { withFb [0, 0, 0, 0, 0, 0, 0xFF, 0xFF] (initialized cfgUnbounded .blackWhite [false, true, true]) with
      inFlight := some ⟨0x23, 1, [.waitIdle, .clearPcount, .setOState .idle], [solidBand cfgUnbounded false (3, 1)]⟩ }) =
        List.replicate 8 0 ∧
    streamOf (afterStep { withFb [0, 0, 0, 0, 0, 0, 0xFF, 0xFF] (initialized cfgUnbounded .blackWhite [false, true, true]) with
      inFlight := some ⟨0x23, 1, [.waitIdle, .clearPcount, .setOState .idle], [solidBand cfgUnbounded false (3, 1)]⟩ }) =
        [.busyRead false, .delay 10, .busyRead true] ++ pair 0xC1 (List.replicate 8 0) ++ pair 0xC2 (List.replicate 8 0) ++
        pair 0xD0 [] ++ [.busyRead true] := by decide +kernel
/-- V-R7 and the example of R179: the bands. -/
theorem test_fillBands :
    fillBands 4 1 = [(0, 1), (1, 1), (2, 1), (3, 1)] ∧ fillBands 4 3 = [(0, 3), (3, 1)] ∧
    fillBands 4 65535 = [(0, 4)] ∧ fillBands 300 128 = [(0, 128), (128, 128), (256, 44)] := by decide
/-- V-R1: the sent windows of the table. -/
theorem test_sentWindow :
    (sentWindow testCfg ⟨0, 0, 0, 1⟩).xe = 8 ∧ (sentWindow testCfg ⟨8, 0, 8, 1⟩).xe = 16 ∧
    (sentWindow testCfg ⟨15, 0, 16, 1⟩) = ⟨8, 0, 16, 1⟩ ∧ snap 0 16 = (0, 24) ∧
    sentWindow { testCfg with width := 400 } ⟨399, 0, 399, 1⟩ = ⟨392, 0, 400, 1⟩ := by decide

/-! ### The machine from reset -/

/-- A row of the opcode table placed after reset decodes and runs as the first instruction. -/
theorem test_placed_instruction :
    decodeTableWord 64 0x0003000001010000 = some (.setPixel true 3 0) ∧
    lastResponse (afterStep (State.reset.withFetchWord 64 0x0003000001010000)) = [0x01000000] ∧
    decodeTableWord 8 0x10 = none ∧ decodeTableWord 32 0x14000012 = some (.sendCommand 0x12) := by decide
/-- V-I1. -/
theorem test_reset_state :
    fbOf State.reset = List.replicate 8 0xFF ∧ fbOf (State.resetWith cfgT2) = List.replicate 8 0x00 ∧
    statusWord State.reset = 0x03000000 := by decide +kernel
/-- An invalid configuration is refused (00_scope.md R7). -/
theorem test_invalid_config :
    Cfg.valid { testCfg with width := 12 } = false ∧ Cfg.valid { testCfg with pollDelayMs := 100 } = false ∧
    Cfg.valid { testCfg with idleLevels := ⟨true, true⟩ } = false := by decide

/-! ### Witnesses: the hypotheses of the obligations can be met -/

/-- The invariant of a state at rest, from what can be decided. -/
theorem inv_of_rest {s : State} (hf : s.inFlight = none)
    (h : Memory.wf s.cfg.fillByte s.fb = true ∧ Memory.below s.cfg.fbSize s.fb = true ∧ s.errsticky.getLsbD 0 = false ∧
      (s.lastResult ≠ .ok → s.errsticky.getLsbD (resultNumber s.lastResult) = true) ∧
      (s.cfg.variant = .v2 → s.lutClass = none) ∧ s.ostate = .idle ∧ s.bus.cs = true ∧ s.bus.rst = true ∧
      s.bus.rst = levelAfter .rst true s.bus.log ∧ s.bus.dc = levelAfter .dc false s.bus.log ∧
      s.bus.cs = levelAfter .cs true s.bus.log) : Inv s := by
  obtain ⟨h1, h2, h3, h4, h5, h6, h7, h8, h9, h10, h11⟩ := h
  exact ⟨h1, h2, h3, h4, h5, fun _ => h6, h7, h8, h9, h10, h11, fun f h => by rw [hf] at h; cases h⟩

/-- Every operation ends in a next state. -/
theorem exec_after (i : Instr) (s : State) : exec i s = .next (after i s) := by cases i <;> rfl

/-- A step of an instance ends in a next state. -/
theorem step_next {s : State} (h : s.cfg.valid = true) : step s = .next (afterStep s) := by
  unfold afterStep
  cases hs : step s with
  | next t => rfl
  | fault f => cases f
  | refused r =>
    exfalso
    unfold step at hs
    rw [if_pos h] at hs
    cases hf : s.inFlight with
    | some f => simp [hf] at hs
    | none =>
      simp only [hf] at hs
      cases hd : fetch s with
      | ok i len => simp only [hd] at hs; cases i <;> cases hs
      | illegal why opc len => simp [hd] at hs
      | truncated => simp [hd] at hs

theorem witness_DecodeOfEncode :
    (Instr.blit 0 0 3 3 [0xFF800000]).wellFormed = true ∧ (Instr.draw 0 0 0 4 []).wellFormed = true ∧
    (Instr.readReg 5).wellFormed = true ∧ (Instr.sendData [1, 2, 3, 4, 5]).wellFormed = true ∧
    (Instr.fill true 65535).wellFormed = true := by decide

/-- V-E11. -/
theorem witness_EncodeOfDecode :
    decode [0x03000000, 0, 0x00030003, 0xFF800000, 0x10000000] = .ok (.blit 0 0 3 3 [0xFF800000]) 4 := by decide

/-- Both ends of each range of reserved codes. -/
theorem witness_ReservedOpcode :
    ([0x00000000, 0x06000000, 0x0F000000, 0x17000000, 0x1F000000, 0x24000000, 0xFF123456] : List Word).all (fun w0 =>
      decide ((withWords [w0] State.reset).cfg.valid = true ∧ (withWords [w0] State.reset).inFlight = none ∧
        (withWords [w0] State.reset).stream.drop (withWords [w0] State.reset).dp = w0 :: [] ∧
        ((opcOf w0).toNat = 0x00 ∨ (0x06 ≤ (opcOf w0).toNat ∧ (opcOf w0).toNat ≤ 0x0F) ∨
          (0x17 ≤ (opcOf w0).toNat ∧ (opcOf w0).toNat ≤ 0x1F) ∨ 0x24 ≤ (opcOf w0).toNat))) = true := by decide

/-- One descriptor for each case, with the lowest padding bit, the first padding byte and the lowest reserved
number. -/
theorem witness_IllegalField :
    State.reset.cfg.valid = true ∧ State.reset.inFlight = none ∧
    (descriptorLength 0x01020000 [0] = some 2 ∧ ((opcOf 0x01020000, 0x00FEFFFF) : Byte × Word) ∈ reservedBits ∧
      (0x01020000 : Word) &&& 0x00FEFFFF ≠ 0) ∧
    (descriptorLength 0x03000000 [0, 0x00030003, 0x00400000] = some 4 ∧ opcOf 0x03000000 = 0x03 ∧
      3 * 3 ≤ 9 ∧ 9 < 32 * 1 ∧ imageBit [0x00400000] 9 = true) ∧
    (descriptorLength 0x15000001 [0x12010000] = some 2 ∧ opcOf 0x15000001 = 0x15 ∧ (immOf 0x15000001).toNat ≤ 1 ∧
      dataByte [0x12010000] 1 ≠ 0) ∧
    (descriptorLength 0x16030000 [] = some 1 ∧ opcOf 0x16030000 = 0x16 ∧
      (fOf 0x16030000).extractLsb' 0 2 = 3#2) ∧
    (descriptorLength 0x05000006 [] = some 1 ∧ opcOf 0x05000006 = 0x05 ∧ 6 ≤ (immOf 0x05000006).toNat) := by
  decide

/-- An empty stream, and a BLIT whose size word is not there yet. -/
theorem witness_IncompleteDescriptor :
    State.reset.stream.drop State.reset.dp = [] ∧
    descriptorLength 0x03000000 [0] = none ∧ descriptorLength 0x01000000 [] = some 2 ∧
    step (withWords [0x03000000, 0] State.reset) = .next (withWords [0x03000000, 0] State.reset) := by
  refine ⟨rfl, rfl, rfl, rfl⟩

theorem witness_StepRunsDecoded :
    (withWords [0x10000000, 0x12000000] State.reset).cfg.valid = true ∧
    (withWords [0x10000000, 0x12000000] State.reset).inFlight = none ∧
    decode ((withWords [0x10000000, 0x12000000] State.reset).stream.drop 0) = .ok .reset 1 := by decide

theorem witness_PlacedWord :
    State.reset.cfg.valid = true ∧ decodeTableWord 32 0x10000000 = some .reset := by decide

theorem witness_HostBytes :
    State.reset.cfg.hostByteOrder = .big ∧
    (State.resetWith { testCfg with hostByteOrder := .little }).cfg.hostByteOrder = .little := by decide

theorem witness_ResetMeetsInvariant : testCfg.valid = true ∧ cfgT2.valid = true ∧ cfgUnbounded.valid = true := by decide

theorem witness_NothingStops :
    State.reset.cfg.valid = true ∧ (State.resetWith { testCfg with width := 12 }).cfg.valid = false := by decide

/-- For StepKeepsInvariant and StepOnlyAdds: a SEND_COMMAND that polls. -/
theorem witness_StepKeepsInvariant :
    ∃ t, Inv { withWords [0x140000D0] (fresh testCfg [false, true] []) with busyPending := true } ∧
      step { withWords [0x140000D0] (fresh testCfg [false, true] []) with busyPending := true } = .next t ∧
      t.lastResult = .ok ∧ t.busyPending = true :=
  ⟨_, inv_of_rest rfl (by decide), step_next (by decide), by decide, by decide⟩

/-- A completed operation, and one that a poll without a budget holds, whatever the free level is. -/
theorem witness_EveryDescriptorReportsOnce :
    (∃ t, exec .waitIdle (fresh testCfg [true] []) = .next t ∧ t.inFlight = none) ∧
    ∃ t, exec .waitIdle (fresh { cfgUnbounded with idleLevels := ⟨!Config.freeBusy 0, Config.freeBusy 0⟩ } [] []) =
      .next t ∧ t.inFlight ≠ none := by
  refine ⟨⟨after .waitIdle (fresh testCfg [true] []), rfl, by decide⟩, ?_⟩
  refine ⟨_, rfl, ?_⟩
  cases h : Config.freeBusy 0 <;>
    simp [runOperation, runAll, runActs, runAct, waitIdleI, cfgUnbounded, fresh, State.resetWith, waitUnbounded, nextIsIdle,
      Bus.busyLevel, Cfg.idleLevel, PerVariant.get, testCfg, testTable, Cfg.variant, VariantTable.variant, settle, h]

/-- A legal descriptor, an illegal one and an incomplete one; for an operation in flight see
`witness_HeldOperationKeepsPolling`. -/
theorem witness_StepReportsAtMostOnce :
    (∃ t, decode ((withWords [0x01010000, 0x00030000] State.reset).stream.drop 0) = .ok (.setPixel true 3 0) 2 ∧
      step (withWords [0x01010000, 0x00030000] State.reset) = .next t ∧ t.responses ≠ []) ∧
    (∃ t, decode ((withWords [0x01020000, 0] State.reset).stream.drop 0) = .illegal .reservedBit 0x01 2 ∧
      step (withWords [0x01020000, 0] State.reset) = .next t ∧ t.responses ≠ []) ∧
    ∃ t, decode ((withWords [0x01010000] State.reset).stream.drop 0) = .truncated ∧
      step (withWords [0x01010000] State.reset) = .next t :=
  ⟨⟨_, by decide, step_next (by decide), by decide⟩, ⟨_, by decide, step_next (by decide), by decide⟩,
    _, by decide, step_next (by decide)⟩

/-- Each of the three kinds of change: RESET, INIT and SLEEP. -/
theorem witness_PStateTransitions :
    (∃ t, Inv (withWords [0x10000000] State.reset) ∧ step (withWords [0x10000000] State.reset) = .next t ∧
      t.pstate = .resetting) ∧
    (∃ t, Inv (withWords [0x11000000] (fresh testCfg [true] [0])) ∧
      step (withWords [0x11000000] (fresh testCfg [true] [0])) = .next t ∧ t.pstate = .initialized) ∧
    ∃ t, Inv (withWords [0x12000000] (initialized testCfg .blackWhite [])) ∧
      step (withWords [0x12000000] (initialized testCfg .blackWhite [])) = .next t ∧ t.pstate = .sleeping := by
  refine ⟨?_, ?_, ?_⟩ <;>
    exact ⟨_, inv_of_rest rfl (by decide), step_next (by decide), by decide⟩

/-- Two steps: a busy-triggering command, and one that polls before it is sent. -/
theorem witness_NoCommandWhileBusy :
    ∃ t u, Inv (withWords [0x140000D0, 0x14000000] (fresh testCfg [false, true] [])) ∧
      step (withWords [0x140000D0, 0x14000000] (fresh testCfg [false, true] [])) = .next t ∧ t.busyPending = true ∧
      StepsAwake (withWords [0x140000D0, 0x14000000] (fresh testCfg [false, true] [])) u ∧
      Event.xfer [0x00] ∈ u.bus.log :=
  ⟨_, _, inv_of_rest rfl (by decide), step_next (by decide), by decide,
    .step _ _ _ (step_next (by decide)) (by unfold EntersSleep; decide)
      (.step _ _ _ (step_next (by decide)) (by unfold EntersSleep; decide) (.refl _)), by decide⟩

theorem witness_TransfersAreFramed :
    ∃ t, (withWords [0x14000012] State.reset).bus.cs = true ∧ step (withWords [0x14000012] State.reset) = .next t ∧
      Event.xfer [0x12] ∈ t.bus.log := ⟨_, rfl, step_next (by decide), by decide⟩

theorem witness_PerByte :
    ∃ t, (withWords [0x15000002, 0x12340000] (State.resetWith cfgT2)).cfg.chunking = .perByte ∧
      step (withWords [0x15000002, 0x12340000] (State.resetWith cfgT2)) = .next t ∧
      Event.xfer [0x34] ∈ t.bus.log := ⟨_, rfl, step_next (by decide), by decide⟩

/-- An idle panel, and one that is busy once. -/
theorem witness_PollTiming :
    ∃ s s' t t' : State,
      s' = { s with bus := { s.bus with
        log := s'.bus.log, busyIn := s'.bus.busyIn, busyDrawn := s'.bus.busyDrawn } } ∧
      s'.bus.busyIn ≠ s.bus.busyIn ∧ exec .displayFull s = .next t ∧ exec .displayFull s' = .next t' ∧
      t.inFlight = none ∧ t'.inFlight = none ∧ t.lastResult = .ok ∧ t'.lastResult = .ok :=
  ⟨initialized testCfg .blackWhite [true], initialized testCfg .blackWhite [false, true], _, _, rfl, by decide, exec_after _ _,
    exec_after _ _, by decide +kernel, by decide +kernel, by decide +kernel, by decide +kernel⟩

theorem witness_OnlyFourOperationsWriteFb :
    ∃ t, exec (.setPixel false 0 0) State.reset = .next t ∧ t.fb ≠ State.reset.fb :=
  ⟨_, exec_after _ _, by decide⟩

theorem witness_FramebufferOperations :
    opcodeOf (.setPixel false 0 0) = 0x01 ∧ opcodeOf (.getPixel 0 0) = 0x02 ∧ opcodeOf (.blit 0 0 0 0 []) = 0x03 ∧
    opcodeOf .readImage = 0x04 ∧ opcodeOf (.readReg 0) = 0x05 ∧
    ∃ t, exec .readImage State.reset = .next t := ⟨rfl, rfl, rfl, rfl, rfl, _, exec_after _ _⟩

theorem witness_InvalidState :
    State.reset.pstate ≠ .initialized ∧ State.reset.cfg.variant = .v1 ∧
    (after .sleep State.reset).pstate ≠ .initialized := by decide

theorem witness_UnsupportedVariant :
    (State.resetWith cfgT2).cfg.variant = .v2 ∧ ¬(false = true ∧ true = true) ∧
    (State.resetWith cfgT2).cfg.initSeq .gray4 = none := by decide

/-- Each condition of a valid window failing alone, at its boundary. -/
theorem witness_InvalidArgument :
    (initialized testCfg .blackWhite []).pstate = .initialized ∧
    ([(16, 0, 16, 1), (0, 0, 17, 1), (1, 0, 0, 1), (0, 1, 8, 1), (0, 3, 8, 5)] : List (Nat × Nat × Nat × Nat)).all
      (fun w => !(decide (w.1 < testCfg.width) && decide (w.1 ≤ w.2.2.1) && decide (w.2.2.1 ≤ testCfg.width) &&
        decide (w.2.1 < w.2.2.2) && decide (w.2.2.2 ≤ testCfg.height))) = true := by decide

theorem witness_OutOfBoundsWrite :
    State.reset.cfg.width ≤ (16 : Half).toNat ∧ State.reset.cfg.height ≤ (4 : Half).toNat ∧
    State.reset.cfg.width < (16 : Half).toNat + (1 : Half).toNat ∧
    State.reset.cfg.height < (4 : Half).toNat + (1 : Half).toNat ∧
    (initialized testCfg .blackWhite []).pstate = .initialized ∧ (1 : Half) ≠ 0 := by decide

theorem witness_OutOfBoundsRead :
    State.reset.cfg.width ≤ (16 : Half).toNat ∧ State.reset.cfg.height ≤ (65535 : Half).toNat := by decide

theorem witness_BusInitFailure :
    State.reset.cfg.initSeq .blackWhite ≠ none ∧ (fresh testCfg [] [5]).bus.statusIn = 5 :: [] ∧ (5 : Byte) ≠ 0 := by
  decide

/-- A static error, and a BusInitFailure. -/
theorem witness_ErrorsArePrecise :
    (∃ t, exec (.getPixel 16 0) State.reset = .next t ∧ t.inFlight = none ∧ t.lastResult = .outOfBoundsRead) ∧
    ∃ t, exec (.init false false) (fresh testCfg [] [5]) = .next t ∧ t.inFlight = none ∧
      t.lastResult = .busInitFailure := 
  ⟨⟨_, exec_after _ _, by decide, by decide⟩, _, exec_after _ _, by decide, by decide⟩

/-- Each of the nine operations that can end with PanelTimeout, FILL in its first band and in its second. -/
theorem witness_ErrorsArePrecise_timeouts :
    testCfg.valid = true ∧ Memory.wf testCfg.fillByte State.reset.fb = true ∧
    ([(.waitIdle, fresh testCfg (List.replicate 4 false) []),
      (.sendCommand 0x00, { fresh testCfg (List.replicate 4 false) [] with busyPending := true }),
      (.init false false, fresh testCfg (List.replicate 4 false) [0]),
      (.sleep, { initialized testCfg .blackWhite (List.replicate 4 false) with busyPending := true }),
      (.setLut .part, { initialized testCfg .blackWhite (List.replicate 4 false) with busyPending := true }),
      (.displayFull, initialized testCfg .blackWhite (List.replicate 4 false)),
      (.displayPartial 15 0 16 1, initialized testCfg .partialFast (List.replicate 4 false)),
      (.draw 0 0 8 1 [0], initialized testCfg .partialFast (List.replicate 4 false)),
      (.fill false 3, initialized testCfg .blackWhite (List.replicate 4 false)),
      (.fill false 3, initialized testCfg .blackWhite (true :: List.replicate 4 false))] : List (Instr × State)).all
      (fun p => decide ((after p.1 p.2).inFlight = none ∧
        (after p.1 p.2).lastResult = .panelTimeout)) = true := by decide +kernel

/-- The budget of T1, and a budget of 0. -/
theorem witness_WaitIdleTimesOut :
    ((fresh testCfg (List.replicate 4 false) []).cfg.busyBudget = some 3 ∧
      (fresh testCfg (List.replicate 4 false) []).bus.busyIn = List.replicate (3 + 1) (!testCfg.idleLevel) ++ []) ∧
    (fresh { testCfg with busyBudget := some 0 } [false] []).cfg.busyBudget = some 0 ∧
    (fresh { testCfg with busyBudget := some 0 } [false] []).bus.busyIn =
      List.replicate (0 + 1) (!testCfg.idleLevel) ++ [] := by decide

/-- The first read idle, the last one of the budget idle, and more than any budget under UNBOUNDED. -/
theorem witness_WaitIdleCompletes :
    (withinBudget testCfg 0 ∧ [true] = List.replicate 0 (!testCfg.idleLevel) ++ testCfg.idleLevel :: []) ∧
    (withinBudget testCfg 3 ∧
      [false, false, false, true] = List.replicate 3 (!testCfg.idleLevel) ++ testCfg.idleLevel :: []) ∧
    withinBudget cfgUnbounded 1000 := by
  refine ⟨⟨fun b h => Nat.zero_le b, by decide⟩, ⟨fun b h => ?_, by decide⟩, fun b h => by cases h⟩
  injection h with h
  omega

theorem witness_UnboundedNeverTimesOut :
    ∃ t, (withWords [0x13000000] (fresh cfgUnbounded [false, true] [])).cfg.busyBudget = none ∧
      step (withWords [0x13000000] (fresh cfgUnbounded [false, true] [])) = .next t ∧ t.lastResult = .ok :=
  ⟨_, rfl, step_next (by decide), by decide⟩

theorem witness_UnboundedPollIsHeld :
    (fresh cfgUnbounded [] []).cfg.busyBudget = none ∧
    (fresh cfgUnbounded [] []).bus.busyIn = List.replicate 0 (!cfgUnbounded.idleLevel) ∧
    (fresh cfgUnbounded [false, false] []).bus.busyIn = List.replicate 2 (!cfgUnbounded.idleLevel) := by decide

/-- A configuration whose idle level is not the free level, whichever that is. -/
def cfgHeld : Cfg := { cfgUnbounded with idleLevels := ⟨!Config.freeBusy 0, Config.freeBusy 0⟩ }

/-- A WAIT_IDLE in flight. -/
def heldState : State := { fresh cfgHeld [] [] with inFlight := some ⟨0x13, 1, [.waitIdle], []⟩ }

theorem valid_cfgHeld : cfgHeld.valid = true := by
  unfold cfgHeld
  generalize Config.freeBusy 0 = b
  revert b; decide

/-- A panel that stays busy, and one that answers idle. That exec holds an operation is shown by
`witness_TransmissionPhases_held`. -/
theorem witness_HeldOperationKeepsPolling :
    (∃ t, Inv heldState ∧ heldState.inFlight ≠ none ∧ step heldState = .next t ∧ t.inFlight ≠ none) ∧
    heldState.cfg.valid = true ∧ heldState.inFlight = some ⟨0x13, 1, [.waitIdle], []⟩ ∧
    (∀ win, partialPolls cfgHeld win ≤ 13) ∧
    PanelReady (1 + 0 * (fullPolls cfgHeld + 13))
      { heldState with bus := { heldState.bus with busyIn := [cfgHeld.idleLevel] } } := by
  refine ⟨⟨resumeOperation ⟨0x13, 1, [.waitIdle], []⟩ heldState, ?_, by simp [heldState], ?_, ?_⟩, valid_cfgHeld, rfl,
    fun _ => Nat.le_refl 13, by simp, by simp [heldState, fresh, State.resetWith]⟩
  · refine ⟨by decide, by decide, by decide, by decide, fun h => rfl, fun h => rfl, rfl, rfl, rfl, rfl, rfl, fun f h => ?_⟩
    injection h with h
    subst h
    exact ⟨rfl, fun _ a h => by simp at h; subst h; rfl, fun b h => by simp at h, by simp, fun m h => by simp at h,
      fun h => by simp at h, fun a h => by simp at h, fun h => rfl⟩
  · simp only [step, show heldState.cfg.valid = true from valid_cfgHeld, if_true]
    rfl
  · cases h : Config.freeBusy 0 <;>
      simp [resumeOperation, heldState, cfgHeld, runOperation, runAll, runActs, runAct, waitIdleI, cfgUnbounded, fresh,
        State.resetWith, waitUnbounded, nextIsIdle, Bus.busyLevel, Cfg.idleLevel, PerVariant.get, testCfg, testTable,
        Cfg.variant, VariantTable.variant, settle, h]

/-- A run up to a poll that finds the panel busy, without a budget and with no level queued. -/
theorem held_at_poll {bands : List Band} {acts rest : List Act} {s s1 : State} (k : Nat)
    (ha : acts.drop k = .waitIdle :: rest) (hr : runActs bands (acts.take k) s = .done s1)
    (hc : s.cfg = cfgHeld) (hq : s1.bus.busyIn = []) (hd : s1.bus.busyDrawn = 0) :
    runActs bands acts s = .held (.waitIdle :: rest) bands (pollBusy s1) := by
  have h1 : s1.cfg = cfgHeld := by
    have := (runActs_frame bands (acts.take k) s).cfg
    rw [hr] at this
    exact this.trans hc
  have hn : nextIsIdle s1 = false := by
    simp only [nextIsIdle, Bus.busyLevel, hq, hd, h1]
    show decide (Config.freeBusy 0 = !Config.freeBusy 0) = false
    cases Config.freeBusy 0 <;> rfl
  rw [← List.take_append_drop k acts, runActs_append_done hr, ha]
  simp [runActs, runAct, waitIdleI, h1, hq, waitUnbounded, hn, show cfgHeld.busyBudget = none from rfl]

/-- Each transmission, held at its last poll; FILL in its first band. -/
theorem witness_TransmissionPhases_held :
    cfgHeld.valid = true ∧ (initialized cfgHeld .blackWhite []).pstate = .initialized ∧
    (∃ t f, exec .displayFull (initialized cfgHeld .blackWhite []) = .next t ∧ t.inFlight = some f ∧
      t.ostate = .busyWait) ∧
    (∃ t f, exec (.displayPartial 15 0 16 1) (initialized cfgHeld .partialFast []) = .next t ∧ t.inFlight = some f ∧
      t.ostate = .busyWait) ∧
    (∃ t f, exec (.draw 3 1 2 2 [0]) (initialized cfgHeld .partialFast []) = .next t ∧ t.inFlight = some f ∧
      t.ostate = .busyWait) ∧
    ∃ t f, exec (.fill false 3) (initialized cfgHeld .blackWhite []) = .next t ∧ t.inFlight = some f ∧
      t.ostate = .busyWait := by
  refine ⟨valid_cfgHeld, rfl, ?_, ?_, ?_, ?_⟩
  · have h := held_at_poll (bands := []) (acts := displayFullActs (initialized cfgHeld .blackWhite []))
      (s := initialized cfgHeld .blackWhite []) 9 rfl rfl rfl (by decide +kernel) (by decide +kernel)
    exact ⟨_, _, by simp only [exec, execDisplayFull, runOperation, runAll, h]; rfl, by rfl, by decide +kernel⟩
  · have h := held_at_poll (bands := [])
      (acts := displayPartialActs (windowOf 15 0 16 1) (initialized cfgHeld .partialFast []))
      (s := initialized cfgHeld .partialFast []) 24 rfl rfl rfl (by decide +kernel) (by decide +kernel)
    exact ⟨_, _, by simp only [exec, execDisplayPartial, runOperation, runAll, h]; rfl, by rfl, by decide +kernel⟩
  · have h := held_at_poll (bands := [])
      (acts := transmitActs (drawBand 3 1 2 2 [0])
        (bufferWrite (drawBand 3 1 2 2 [0]) (initialized cfgHeld .partialFast [])))
      (s := bufferWrite (drawBand 3 1 2 2 [0]) (initialized cfgHeld .partialFast [])) 24 rfl rfl rfl
      (by decide +kernel) (by decide +kernel)
    exact ⟨_, _, by simp only [exec, execDraw, runOperation, runAll, runActs, runBands, h]; rfl, by rfl, by decide +kernel⟩
  · have h := held_at_poll (bands := [solidBand cfgHeld false (3, 1)])
      (acts := transmitActs (solidBand cfgHeld false (0, 3))
        (bufferWrite (solidBand cfgHeld false (0, 3)) (initialized cfgHeld .blackWhite [])))
      (s := bufferWrite (solidBand cfgHeld false (0, 3)) (initialized cfgHeld .blackWhite [])) 9 rfl rfl rfl
      (by decide +kernel) (by decide +kernel)
    have e : fillBodies (initialized cfgHeld .blackWhite []).cfg false (3 : Half).toNat =
        [solidBand cfgHeld false (0, 3), solidBand cfgHeld false (3, 1)] := rfl
    exact ⟨_, _, by simp only [exec, execFill, e, runOperation, runAll, runActs, runBands, h]; rfl, by rfl, by decide +kernel⟩

/-- Each transmission, ended after a poll that the panel answered late; DRAW with both of its transmissions. -/
theorem witness_TransmissionPhases_ended :
    testCfg.valid = true ∧
    ([(.displayFull, initialized testCfg .blackWhite [false, true]),
      (.displayPartial 15 0 16 1, initialized testCfg .partialFast [false, true]),
      (.draw 3 1 2 2 [0], initialized testCfg .partialFast [false, true]),
      (.draw 3 1 2 2 [0], initialized testCfg .blackWhite [false, true])] : List (Instr × State)).all
      (fun p => decide (p.2.pstate = .initialized ∧ (after p.1 p.2).inFlight = none ∧
        (after p.1 p.2).lastResult = .ok)) = true := by decide +kernel

/-- The two ends of the buffer. -/
theorem witness_SetPixel_GetPixel :
    State.reset.cfg.valid = true ∧ Memory.wf State.reset.cfg.fillByte State.reset.fb = true ∧
    (0 : Half).toNat < State.reset.cfg.width ∧ (0 : Half).toNat < State.reset.cfg.height ∧
    (15 : Half).toNat < State.reset.cfg.width ∧ (3 : Half).toNat < State.reset.cfg.height := by decide

/-- A rectangle that ends at the edge, and an empty one at it. -/
theorem witness_Blit :
    (12 : Half).toNat + (4 : Half).toNat ≤ State.reset.cfg.width ∧
    (3 : Half).toNat + (1 : Half).toNat ≤ State.reset.cfg.height ∧
    (16 : Half).toNat + (0 : Half).toNat ≤ State.reset.cfg.width := by decide

/-- No budget, and the largest one. -/
theorem witness_ReadHardwired :
    (State.resetWith cfgUnbounded).cfg.valid = true ∧ cfgUnbounded.busyBudget = none ∧
    Cfg.valid { testCfg with busyBudget := some 0xFFFFFFFE } = true := by decide

/-- The last defined number, the first and the last reserved one, and a step that fails. -/
theorem witness_ReadCountersAndReserved :
    (5 : Half).toNat < 6 ∧ State.reset.cfg.valid = true ∧ 6 ≤ (6 : Half).toNat ∧ 6 ≤ (65535 : Half).toNat ∧
    ∃ t, step (withWords [0x02000000, 0x00100000] State.reset) = .next t ∧
      (withWords [0x02000000, 0x00100000] State.reset).dp < t.dp ∧ t.lastResult = .outOfBoundsRead :=
  ⟨by decide, by decide, by decide, by decide, _, step_next (by decide), by decide, by decide⟩

/-- Another pixel of the same byte, and one outside the buffer. -/
theorem witness_PixelRoundTrip :
    ((4, 0) : Half × Half) ≠ (3, 0) ∧ ((16, 0) : Half × Half) ≠ (3, 0) := by decide

theorem witness_ImageRoundTrip :
    Memory.below State.reset.cfg.fbSize State.reset.fb = true ∧ (16 : Half).toNat = State.reset.cfg.width ∧
    (4 : Half).toNat = State.reset.cfg.height ∧
    (Instr.blit 0 0 16 4 [0x0123ABCD, 0x89EF4567]).wellFormed = true := by decide

theorem witness_ResetPulses : State.reset.cfg.p.resetSeq.getLast? = some (true, 10) := by decide

theorem witness_SendCommand :
    State.reset.busyPending = false ∧ (after .reset State.reset).busyPending = true ∧
    (after .reset (fresh testCfg [false, true] [])).bus.busyIn =
      List.replicate 1 (!testCfg.idleLevel) ++ testCfg.idleLevel :: [] ∧
    (after .reset (fresh testCfg (List.replicate 4 false) [])).bus.busyIn =
      List.replicate (3 + 1) (!testCfg.idleLevel) ++ [] := by decide

/-- On V1 and on V2. -/
theorem witness_InitCompletes :
    (fresh testCfg (List.replicate 7 true) [0]).cfg.initSeq .partialFast = some [.cmd 0xA0, .data [0x02]] ∧
    (fresh testCfg (List.replicate 7 true) [0]).bus.statusIn = 0 :: [] ∧
    PanelReady (2 + 5) (fresh testCfg (List.replicate 7 true) [0]) ∧
    (fresh cfgT2 (List.replicate 7 false) [0]).cfg.initSeq .partialFast = some [.cmd 0xA0, .data [0x02]] ∧
    PanelReady (2 + 5) (fresh cfgT2 (List.replicate 7 false) [0]) := by
  refine ⟨rfl, rfl, ⟨by decide, by decide⟩, rfl, ⟨by decide, by decide⟩⟩

theorem witness_SleepCompletes :
    (initialized testCfg .blackWhite [true, true]).pstate = .initialized ∧
    PanelReady testCfg.p.sleepSeq.length (initialized testCfg .blackWhite [true, true]) :=
  ⟨rfl, by decide, by decide⟩

theorem witness_SetLutCompletes :
    ∃ table, (initialized testCfg .gray4 (List.replicate 5 true)).cfg.p.variantTable = .v1 table ∧
      (initialized testCfg .gray4 (List.replicate 5 true)).pstate = .initialized ∧
      PanelReady 5 (initialized testCfg .gray4 (List.replicate 5 true)) :=
  ⟨_, rfl, rfl, by decide, by decide⟩

/-- Windows at the right edge and of no width. -/
theorem witness_SentWindow :
    testCfg.valid = true ∧ 15 < testCfg.width ∧ 15 ≤ 16 ∧ 16 ≤ testCfg.width ∧ 15 ≤ 15 ∧ 0 < 1 ∧ 1 ≤ testCfg.height := by
  decide

theorem witness_DisplayFullCompletes :
    (initialized testCfg .blackWhite (List.replicate 9 true)).pstate = .initialized ∧
    PanelReady (fullPolls testCfg) (initialized testCfg .blackWhite (List.replicate 9 true)) :=
  ⟨rfl, by decide, by decide⟩

theorem witness_DisplayPartialCompletes :
    (15 : Half).toNat < testCfg.width ∧ (15 : Half).toNat ≤ (16 : Half).toNat ∧ (16 : Half).toNat ≤ testCfg.width ∧
    (3 : Half).toNat < (4 : Half).toNat ∧ (4 : Half).toNat ≤ testCfg.height ∧
    PanelReady (partialPolls testCfg (sentWindow testCfg ⟨15, 3, 16, 4⟩))
      (initialized testCfg .partialFast (List.replicate 13 true)) :=
  ⟨by decide, by decide, by decide, by decide, by decide, by decide, by decide⟩

/-- Both transmissions: the windowed one, and the full one by mode and by the policy. -/
theorem witness_DrawCompletes :
    (2 : Half) ≠ 0 ∧ (3 : Half).toNat + (2 : Half).toNat ≤ testCfg.width ∧
    (1 : Half).toNat + (2 : Half).toNat ≤ testCfg.height ∧
    PanelReady (fullPolls testCfg + partialPolls testCfg (sentWindow testCfg ⟨3, 1, 5, 3⟩))
      (initialized testCfg .partialFast (List.replicate 22 true)) ∧
    PanelReady (fullPolls testCfg + partialPolls testCfg (sentWindow testCfg ⟨3, 1, 5, 3⟩))
      (initialized testCfg .blackWhite (List.replicate 22 true)) ∧
    0 < testCfg.forceFullEvery ∧ testCfg.forceFullEvery ≤ (2 : BitVec 16).toNat :=
  ⟨by decide, by decide, by decide, ⟨by decide, by decide⟩, ⟨by decide, by decide⟩, by decide, by decide⟩

/-- Two bands of three rows and one, and one band. -/
theorem witness_FillCompletes :
    (∀ win, partialPolls testCfg win ≤ 13) ∧ (3 : Half) ≠ 0 ∧
    PanelReady ((testCfg.height + (3 : Half).toNat - 1) / (3 : Half).toNat * (fullPolls testCfg + 13))
      (initialized testCfg .blackWhite (List.replicate 44 true)) ∧
    PanelReady ((testCfg.height + (65535 : Half).toNat - 1) / (65535 : Half).toNat * (fullPolls testCfg + 13))
      (initialized testCfg .blackWhite (List.replicate 44 true)) :=
  ⟨fun _ => Nat.le_refl 13, by decide, ⟨by decide, by decide⟩, ⟨by decide, by decide⟩⟩

/-- The two bands of L3-3. -/
theorem witness_FillRunsItsBands :
    ∃ u, DrawsBands false (3 : Half).toNat 0 (initialized testCfg .blackWhite [true, true]) u :=
  ⟨_, .band 0 _ _ _ (by decide) (exec_after _ _) (by decide +kernel) (by decide +kernel)
    (.band _ _ _ _ (by decide +kernel) (exec_after _ _) (by decide +kernel) (by decide +kernel) (.done _ _ (by decide +kernel)))⟩

theorem witness_FillEquivalence :
    ∃ t, (initialized testCfg .blackWhite [true, true]).pstate = .initialized ∧ (3 : Half) ≠ 0 ∧
      exec (.fill false 3) (initialized testCfg .blackWhite [true, true]) = .next t ∧ t.inFlight = none ∧
      t.lastResult = .ok :=
  ⟨_, rfl, by decide, exec_after _ _, by decide +kernel, by decide +kernel⟩

end Sys2Proof.Tests
end

section
/-! The six registers (10_state.md section 6) and READ_REG (40_framebuffer.md R117): what each register word
holds, what READ_REG of each number does, what a step that advances DP reports, and from these the statements of
10_state.md about the registers and block reset. -/

namespace Sys2Proof.Machine

/-! ### The fields of the register words -/

/-- STATUS (10_state.md R37). -/
theorem statusFields_statusWord (s : State) : StatusFields s (statusWord s) where
  pstate := by
    rw [statusWord, BitVec.extractLsb'_append_eq_right]
    cases s.pstate <;> rfl
  mode := by
    simp (disch := omega) only [statusWord, BitVec.extractLsb'_append_eq_of_le, BitVec.extractLsb'_append_eq_of_add_le]
    cases s.mode <;> rfl
  partialMode := by
    simp only [statusWord, BitVec.getLsbD_append, bitField, BitVec.getLsbD_ofBool]; rfl
  busyPending := by
    simp only [statusWord, BitVec.getLsbD_append, bitField, BitVec.getLsbD_ofBool]; rfl
  reserved7 := by
    simp only [statusWord, BitVec.getLsbD_append]; rfl
  lastOpc := by
    simp (disch := omega) only [statusWord, BitVec.extractLsb'_append_eq_of_le, BitVec.extractLsb'_append_eq_of_add_le,
      Nat.reduceSub, BitVec.extractLsb'_eq_self]
  lastResult := by
    simp (disch := omega) only [statusWord, BitVec.extractLsb'_append_eq_of_le, BitVec.extractLsb'_append_eq_of_add_le,
      Nat.reduceSub, BitVec.extractLsb'_eq_self, ResultCode.byte, resultNumber_eq]
  lutClass := by
    simp (disch := omega) only [statusWord, BitVec.extractLsb'_append_eq_of_le, BitVec.extractLsb'_append_eq_of_add_le]
    rcases s.lutClass with _ | _ | _ | _ <;> rfl
  reserved26 := by
    simp (disch := omega) only [statusWord, BitVec.extractLsb'_append_eq_of_le, Nat.reduceSub,
      BitVec.extractLsb'_eq_self]

/-- CONFIG (10_state.md R38). -/
theorem configFields_configWord {c : Cfg} (h : c.valid = true) : ConfigFields c (configWord c) := by
  obtain ⟨-, -, hpoll, hforce, -⟩ := valid_parts h
  constructor
  case variant =>
    simp only [configWord, BitVec.getLsbD_append, bitField, BitVec.getLsbD_ofBool]
    cases c.variant <;> rfl
  case chunking =>
    simp only [configWord, BitVec.getLsbD_append, bitField, BitVec.getLsbD_ofBool, Cfg.chunking]
    cases c.chunkings.get c.variant <;> rfl
  case idleLevel =>
    simp only [configWord, BitVec.getLsbD_append, bitField, BitVec.getLsbD_ofBool]; rfl
  case initFill =>
    simp only [configWord, BitVec.getLsbD_append, bitField, BitVec.getLsbD_ofBool]
    cases c.initFills.get c.variant <;> rfl
  case reserved4 =>
    simp (disch := omega) only [configWord, BitVec.extractLsb'_append_eq_of_le, BitVec.extractLsb'_append_eq_of_add_le,
      Nat.reduceSub, BitVec.extractLsb'_eq_self]
  case pollDelay =>
    simp (disch := omega) only [configWord, BitVec.extractLsb'_append_eq_of_le, BitVec.extractLsb'_append_eq_of_add_le,
      Nat.reduceSub, BitVec.extractLsb'_eq_self, BitVec.toNat_ofNat]
    omega
  case forceFull =>
    simp (disch := omega) only [configWord, BitVec.extractLsb'_append_eq_of_le, Nat.reduceSub,
      BitVec.extractLsb'_eq_self, BitVec.toNat_ofNat]
    omega

/-- PCOUNT (10_state.md R39). -/
theorem pcountFields_pcountWord (s : State) : PcountFields s (pcountWord s) :=
  ⟨BitVec.extractLsb'_append_eq_right, BitVec.extractLsb'_append_eq_left⟩

/-- ERRSTICKY (10_state.md R40). -/
theorem errstickyFields_errstickyWord (s : State) : ErrstickyFields s (errstickyWord s) :=
  ⟨BitVec.extractLsb'_append_eq_right, BitVec.extractLsb'_append_eq_left⟩

theorem getLsbD_errstickyWord (s : State) {k : Nat} (hk : k < 9) :
    (errstickyWord s).getLsbD k = s.errsticky.getLsbD k := by
  simp only [errstickyWord, BitVec.getLsbD_append, hk, if_true]

/-- GEOMETRY (10_state.md R41). -/
theorem geometryFields_geometryWord {c : Cfg} (h : c.valid = true) : GeometryFields c (geometryWord c) := by
  obtain ⟨hw, hh, -⟩ := valid_parts h
  constructor
  · rw [geometryWord, BitVec.extractLsb'_append_eq_left, BitVec.toNat_ofNat]; omega
  · rw [geometryWord, BitVec.extractLsb'_append_eq_right, BitVec.toNat_ofNat]; omega

/-- BUDGET (10_state.md R42). -/
theorem budgetFields_budgetWord {c : Cfg} (h : c.valid = true) : BudgetFields c (budgetWord c) := by
  obtain ⟨-, -, -, -, hbudget, -⟩ := valid_parts h
  constructor
  · intro hn
    rw [budgetWord, hn]
  · intro b hb
    have hle : b ≤ 0xFFFFFFFE := by simpa [hb, budgetOk] using hbudget
    rw [budgetWord, hb]
    exact ⟨by rw [BitVec.toNat_ofNat]; omega, hle⟩

/-- Every defined number names a register with the fields the rules give it; those hardwired from Cfg need a valid
one (10_state.md R37 to R42). -/
theorem registerWord_fields (s : State) :
    ∀ n, n < 6 → (n = 1 ∨ n = 4 ∨ n = 5 → s.cfg.valid = true) →
      ∃ v, registerWord s n = some v ∧ RegisterFields s n v
  | 0, _, _ => ⟨_, rfl, statusFields_statusWord s⟩
  | 1, _, h => ⟨_, rfl, configFields_configWord (h (by omega))⟩
  | 2, _, _ => ⟨_, rfl, pcountFields_pcountWord s⟩
  | 3, _, _ => ⟨_, rfl, errstickyFields_errstickyWord s⟩
  | 4, _, h => ⟨_, rfl, geometryFields_geometryWord (h (by omega))⟩
  | 5, _, h => ⟨_, rfl, budgetFields_budgetWord (h (by omega))⟩
  | _ + 6, hn, _ => absurd hn (by omega)

/-- There is no register from number 6 on. -/
theorem registerWord_eq_none (s : State) : ∀ {n}, 6 ≤ n → registerWord s n = none
  | 0, h | 1, h | 2, h | 3, h | 4, h | 5, h => absurd h (by omega)
  | _ + 6, _ => rfl

/-! ### Block reset (10_state.md R47) -/

/-- Every framebuffer byte reads as INIT_FILL(VARIANT). -/
theorem fbRead_resetWith (c : Cfg) (k : Nat) :
    fbRead c (State.resetWith c).fb k = (c.initFills.get c.variant).byte := rfl

theorem statusWord_resetWith (c : Cfg) : statusWord (State.resetWith c) = 0x03000000 :=
  (by decide : (0#6 ++ 3#2 ++ 0#8 ++ 0#8 ++ 0#1 ++ 0#1 ++ 0#1 ++ 0#2 ++ 0#3) = 0x03000000#32)

theorem pcountWord_resetWith (c : Cfg) : pcountWord (State.resetWith c) = 0 := BitVec.zero_append_zero

theorem errstickyWord_resetWith (c : Cfg) : errstickyWord (State.resetWith c) = 0 := BitVec.zero_append_zero

/-! ### READ_REG -/

theorem onlyAnswered_finish (opc : Byte) (len : Nat) (data : List Word) (s : State) :
    OnlyAnswered opc len data s (finish opc len .ok false data s) :=
  ⟨reported_finish rfl rfl rfl, ⟨rfl, rfl, rfl, rfl, rfl⟩, rfl, rfl, ⟨rfl, rfl⟩⟩

/-- READ_REG of a defined register answers its word and changes nothing but the bookkeeping. -/
theorem readReg_answers {s : State} {n : Half} {v : Word} (h : registerWord s n.toNat = some v) :
    ∃ t, exec (.readReg n) s = .next t ∧ OnlyAnswered 0x05 1 [v] s t :=
  ⟨_, readReg_next h, onlyAnswered_finish _ _ _ _⟩

/-- READ_REG answers a word of which all that holds of its register holds. -/
theorem readReg_answers_with {s : State} {n : Half} {P : Word → Prop}
    (h : ∃ v, registerWord s n.toNat = some v ∧ P v) :
    ∃ t v, exec (.readReg n) s = .next t ∧ OnlyAnswered 0x05 1 [v] s t ∧ P v := by
  obtain ⟨v, hv, hP⟩ := h
  obtain ⟨t, ht, ha⟩ := readReg_answers hv
  exact ⟨t, v, ht, ha, hP⟩

/-- READ_REG of a defined register reports OK and the register's word. -/
theorem readReg_reports {s : State} {n : Half} {v : Word} (h : registerWord s n.toNat = some v) :
    ∃ t, exec (.readReg n) s = .next t ∧ Reported 0x05 1 .ok false [v] s t := by
  obtain ⟨t, ht, ha⟩ := readReg_answers h
  exact ⟨t, ht, ha.reported⟩

/-- READ_REG of a reserved number is IllegalOperation and changes nothing but the bookkeeping. -/
theorem readReg_reserved (s : State) {n : Half} (h : 6 ≤ n.toNat) :
    ∃ t, exec (.readReg n) s = .next t ∧ OnlyReported 0x05 1 .illegalOperation s t := by
  refine ⟨_, ?_, onlyReported_raiseError _ _ _ _⟩
  simp only [exec, execReadReg, registerWord_eq_none s h]

/-- READ_REG 0 of a state whose last descriptor was a READ_REG 0 shows OPC 0x05 and result 0. -/
theorem readReg_status_after_readReg_status {s t : State} (h : exec (.readReg 0) s = .next t) :
    t.lastOpc = 0x05 ∧ t.lastResult = .ok := by
  rw [readReg_next (v := statusWord s) rfl] at h
  cases h
  exact ⟨rfl, rfl⟩

/-- The word `0x0500 ++ n` decodes to READ_REG `n` below 6 and is illegal from 6 on (30_encoding.md R84, R93). -/
theorem decode_readReg (n : Half) (rest : List Word) :
    decode ((0x0500#16 ++ n) :: rest) =
      if n.toNat < 6 then .ok (.readReg n) 1 else .illegal .reservedField 0x05 1 := by
  change decode (headWord 0x05 0 n :: ([] ++ rest)) = _
  have hres : headWord 0x05 0 n &&& reservedMask 0x05 = 0 :=
    (reserved_iff (mf := 0xFF) (mi := 0) (by decide)).2 ⟨by decide, BitVec.and_zero⟩
  have hbody : decodeBody (headWord 0x05 0 n) [] =
      if n.toNat < 6 then .ok (.readReg n) else .error .reservedField := by
    simp only [decodeBody, opcOf_headWord, hres, decodeFields, immOf_headWord]
    rfl
  rw [decode_of_body (by simp [descriptorLength, formatOf]), hbody, opcOf_headWord]
  by_cases hn : n.toNat < 6 <;> simp [hn]

/-! ### A step that advances DP reports -/

/-- The report of a descriptor does not look at the operation in flight before it. -/
theorem Reported.of_inFlight {opc : Byte} {len : Nat} {code : ResultCode} {pix : Bool} {data : List Word}
    {f : Option InFlight} {s t : State} (h : Reported opc len code pix data { s with inFlight := f } t) :
    Reported opc len code pix data s t :=
  ⟨h.lastOpc, h.lastResult, h.sticky, h.ostate, h.dp, h.inFlight, h.response⟩

/-- An operation that runs actions reports when DP advances. -/
theorem reported_runOperation_of_dp_lt {s s0 : State} {opc : Byte} {len : Nat} {acts : List Act} {bands : List Band}
    (hf : RunFrame s s0) (hdp : s.dp < (runOperation opc len acts bands s0).dp) :
    ∃ code pix data, Reported opc len code pix data s (runOperation opc len acts bands s0) := by
  obtain hreport | ⟨-, -, hnothing⟩ :=
    reports_runOperation (opc := opc) (len := len) (acts := acts) (bands := bands) hf
  · exact hreport
  · exact absurd hnothing.dp (by omega)

/-- A step that advances DP has completed a descriptor and reports it (10_state.md R22, 60_exceptions.md R202). -/
theorem step_reports_of_dp_lt {s t : State} (h : step s = .next t) (hdp : s.dp < t.dp) :
    ∃ opc len code pix data, Reported opc len code pix data s t := by
  obtain ⟨-, hresume | ⟨-, hexec | hillegal | hwait⟩⟩ := step_cases h
  · obtain ⟨f, -, rfl⟩ := hresume
    obtain ⟨_, _, _, hr⟩ := reported_runOperation_of_dp_lt (RunFrame.refl { s with inFlight := none }) hdp
    exact ⟨_, _, _, _, _, hr.of_inFlight⟩
  · obtain ⟨i, _, -, hi⟩ := hexec
    obtain ⟨_, _, _, hs, rfl⟩ | ⟨_, _, _, _, hfin, rfl⟩ := exec_cases hi
    · exact ⟨_, _, reported_runOperation_of_dp_lt hs.runFrame hdp⟩
    · exact ⟨_, _, _, _, _, reported_of_runFrame hfin.runFrame⟩
  · obtain ⟨_, opc, len, -, rfl⟩ := hillegal
    exact ⟨_, _, _, _, _, (onlyReported_raiseError opc len .illegalOperation s).reported⟩
  · obtain ⟨-, rfl⟩ := hwait
    exact absurd hdp (Nat.lt_irrefl _)

/-- The sticky bits after a step that completes a descriptor with an error (10_state.md R35). -/
theorem step_sets_sticky {s t : State} (h : step s = .next t) (hdp : s.dp < t.dp) (herr : t.lastResult ≠ .ok)
    {k : Nat} (hk : k < 9) :
    t.errsticky.getLsbD k = (s.errsticky.getLsbD k || decide (k = resultNumber t.lastResult)) := by
  obtain ⟨_, _, _, _, _, hr⟩ := step_reports_of_dp_lt h hdp
  obtain rfl := hr.lastResult
  simpa [herr] using hr.sticky k hk

/-! ### The obligations -/

/-- Settles O40: the word READ_REG 0 answers is `statusWord` of the state before it. -/
theorem readStatusFields : Obligations.ReadStatusFields :=
  ⟨fun c => readReg_reports (congrArg some (statusWord_resetWith c)),
    fun s => readReg_answers_with ⟨_, rfl, statusFields_statusWord s⟩⟩

/-- Settles O41: the bounds of a valid configuration make its parameters fit their fields. -/
theorem readHardwiredRegisters : Obligations.ReadHardwiredRegisters := fun _ hv =>
  ⟨readReg_answers_with ⟨_, rfl, configFields_configWord hv⟩,
    readReg_answers_with ⟨_, rfl, geometryFields_geometryWord hv⟩,
    readReg_answers_with ⟨_, rfl, budgetFields_budgetWord hv⟩⟩

/-- Settles O42: the registers by `registerWord_fields`, the encoding by `decode_readReg`, the sticky bits by
`step_sets_sticky`. -/
theorem readCountersAndReserved : Obligations.ReadCountersAndReserved := by
  refine ⟨?_, decode_readReg, ?_, ?_, ?_⟩
  · intro c
    exact ⟨readReg_reports (congrArg some (statusWord_resetWith c)),
      readReg_reports (congrArg some (pcountWord_resetWith c)),
      readReg_reports (congrArg some (errstickyWord_resetWith c))⟩
  · intro s n
    exact ⟨fun hn hv => readReg_answers_with (registerWord_fields s n.toNat hn hv), readReg_reserved s⟩
  · intro s t h
    obtain ⟨hopc, hres⟩ := readReg_status_after_readReg_status h
    have hf := statusFields_statusWord t
    exact readReg_answers_with ⟨_, rfl, hf.lastOpc.trans hopc, hf.lastResult.trans (by rw [hres]; rfl)⟩
  · intro s t h hdp herr
    exact readReg_answers_with ⟨_, rfl, fun k hk =>
      (getLsbD_errstickyWord t hk).trans (step_sets_sticky h hdp herr hk)⟩

/-- Settles O10: the empty memory of reset reads as the fill byte, and the other components are as written. -/
theorem blockResetValues : Obligations.BlockResetValues := fun c =>
  ⟨rfl, fun k _ => fbRead_resetWith c k, rfl, rfl, rfl, rfl, rfl, rfl, rfl, rfl, rfl, rfl, rfl, rfl, rfl, rfl⟩

end Sys2Proof.Machine
end

section
/-! The host words of 30_encoding.md: the assembler's examples (R100), and what the decoder and a step make of a
reserved OPC (R92). -/

namespace Sys2Proof.Machine

/-! ### Assembler lines -/

/-- A line that assembles to an operation has the words the encoder gives the operation. -/
theorem assembleLine_of_assemble {c : Cfg} {line : List Char} {i : Instr} {words : List Word}
    (hi : assemble c line = some i) (hw : encode i = words) : assembleLine c line = some words := by
  rw [assembleLine, hi, Option.map_some, hw]

/-- A line of an operation through assembler, encoder and decoder: its words are those of the operation, which is
read back from them. -/
theorem assembleLine_encode_decode {c : Cfg} {line : List Char} {i : Instr} {words : List Word} {len : Nat}
    (hi : assemble c line = some i) (hw : encode i = words) (hd : decode words = .ok i len) :
    assembleLine c line = some words ∧ encode i = words ∧ decode words = .ok i len :=
  ⟨assembleLine_of_assemble hi hw, hw, hd⟩

/-! ### Illegal descriptors -/

/-- No format for an OPC outside the opcode map (30_encoding.md R91, R92). -/
theorem formatOf_eq_none_of_reserved {opc : Byte}
    (h : opc.toNat = 0x00 ∨ (0x06 ≤ opc.toNat ∧ opc.toNat ≤ 0x0F) ∨ (0x17 ≤ opc.toNat ∧ opc.toNat ≤ 0x1F) ∨
      0x24 ≤ opc.toNat) : formatOf opc = none := by
  by_contra hf
  have hlisted := formatOf_isSome_cases (Option.isSome_iff_ne_none.2 hf)
  simp only [← BitVec.toNat_inj, BitVec.toNat_ofNat] at hlisted
  omega

/-- A first word without a format is a whole illegal descriptor, whatever follows it (30_encoding.md R92). -/
theorem decode_of_formatOf_eq_none {w0 : Word} (h : formatOf (opcOf w0) = none) (rest : List Word) :
    decode (w0 :: rest) = .illegal .reservedOpcode (opcOf w0) 1 := by
  have hlen : descriptorLength w0 ([] ++ rest) = some (([] : List Word).length + 1) := by simp [descriptorLength, h]
  have hbody : decodeBody w0 [] = .error .reservedOpcode := by simp [decodeBody, h]
  exact (decode_of_body hlen).trans (by simp only [hbody, List.length_nil])

/-- With no operation in flight, an illegal descriptor at DP is executed as IllegalOperation and changes the
bookkeeping only (60_exceptions.md R203). -/
theorem step_onlyReported_of_fetch_illegal {s : State} {why : IllegalReason} {opc : Byte} {len : Nat}
    (hv : s.cfg.valid = true) (hf : s.inFlight = none) (hd : fetch s = .illegal why opc len) :
    ∃ t, step s = .next t ∧ OnlyReported opc len .illegalOperation s t := by
  refine ⟨execIllegal opc len s, ?_, onlyReported_raiseError opc len .illegalOperation s⟩
  simp only [step, hv, if_true, hf, hd]

/-! ### The obligations -/

/-- Settles O1: for each line, the operation it assembles to, the words of that operation, and what the decoder
reads from them. -/
theorem encodingExamples : Obligations.EncodingExamples := by
  refine ⟨?_, ?_, ?_, ?_, ?_, ?_, ?_, ?_⟩ <;>
    exact assembleLine_encode_decode (by decide +kernel) rfl (by decide)

/-- Settles O4: a reserved OPC has no format, so the decoder finds an illegal descriptor of one word at DP. -/
theorem reservedOpcodeHasNoEffect : Obligations.ReservedOpcodeHasNoEffect := by
  intro s w0 rest hv hf hdrop hopc
  have hfetch : fetch s = .illegal .reservedOpcode (opcOf w0) 1 := by
    rw [fetch, hdrop, decode_of_formatOf_eq_none (formatOf_eq_none_of_reserved hopc)]
  exact step_onlyReported_of_fetch_illegal hv hf hfetch

end Sys2Proof.Machine
end

section
/-! The round trips of the framebuffer operations (40_framebuffer.md R118, R119): a pixel or an image written is
read back, and an image read and written back changes nothing. -/

namespace Sys2Proof.Machine

/-! ### One pixel -/

/-- SET_PIXEL outside the buffer (40_framebuffer.md R113). -/
theorem setPixel_next_outside {s : State} {v : Bool} {x y : Half}
    (hout : ¬(x.toNat < s.cfg.width ∧ y.toNat < s.cfg.height)) :
    exec (.setPixel v x y) s = .next (raiseError 0x01 2 .outOfBoundsWrite s) := by
  have hb : inBoundsPix s.cfg x.toNat y.toNat = false := by simpa [inBoundsPix] using hout
  simp only [exec, execSetPixel, hb, Bool.false_eq_true, if_false]

/-- GET_PIXEL inside the buffer answers OK with the pixel. -/
theorem getPixel_answers {s : State} {v : Bool} {x y : Half} (hx : x.toNat < s.cfg.width)
    (hy : y.toNat < s.cfg.height) (hpix : pixelOf s.cfg s.fb x.toNat y.toNat = v) :
    ∃ t, exec (.getPixel x y) s = .next t ∧ Reported 0x02 2 .ok v [] s t :=
  ⟨_, getPixel_next hx hy, hpix ▸ reported_finish rfl rfl rfl⟩

/-- SET_PIXEL inside the buffer leaves its pixel with the value written. -/
theorem setPixel_stores {s : State} (hv : s.cfg.valid = true) (hw : Memory.wf s.cfg.fillByte s.fb = true)
    (v : Bool) {x y : Half} (hx : x.toNat < s.cfg.width) (hy : y.toNat < s.cfg.height) :
    ∃ t, exec (.setPixel v x y) s = .next t ∧ t.cfg = s.cfg ∧ Memory.wf t.cfg.fillByte t.fb = true ∧
      pixelOf t.cfg t.fb x.toNat y.toNat = v :=
  ⟨_, setPixel_next hx hy, rfl, wf_writePixel hw _ _ _,
    (pixelOf_writePixel (valid_width hv) hw hx hx _ _ v).trans (if_pos ⟨rfl, rfl⟩)⟩

/-- A SET_PIXEL, inside the buffer or not, leaves every other pixel. -/
theorem setPixel_keeps_other_pixel {s : State} (hv : s.cfg.valid = true)
    (hw : Memory.wf s.cfg.fillByte s.fb = true) {x y : Half} (hx : x.toNat < s.cfg.width) (v' : Bool)
    {x' y' : Half} (hne : (x', y') ≠ (x, y)) :
    ∃ t, exec (.setPixel v' x' y') s = .next t ∧ t.cfg = s.cfg ∧
      pixelOf t.cfg t.fb x.toNat y.toNat = pixelOf s.cfg s.fb x.toNat y.toNat := by
  by_cases hin : x'.toNat < s.cfg.width ∧ y'.toNat < s.cfg.height
  · have hother : ¬(x.toNat = x'.toNat ∧ y.toNat = y'.toNat) := fun ⟨h1, h2⟩ =>
      hne (Prod.ext (BitVec.eq_of_toNat_eq h1.symm) (BitVec.eq_of_toNat_eq h2.symm))
    refine ⟨_, setPixel_next hin.1 hin.2, rfl, ?_⟩
    exact (pixelOf_writePixel (valid_width hv) hw hin.1 hx _ _ v').trans (if_neg hother)
  · exact ⟨_, setPixel_next_outside hin, rfl, rfl⟩

/-! ### The whole image -/

/-- The rectangle of the whole buffer is inside it (40_framebuffer.md R110). -/
theorem inBoundsRect_full (c : Cfg) : inBoundsRect c 0 0 c.width c.height = true := by simp [inBoundsRect]

/-- A BLIT of the size of the buffer at its origin ends with OK and leaves in FB what its blit does
(40_framebuffer.md R115). -/
theorem blit_full_stores {s : State} {w h : Half} (hw : w.toNat = s.cfg.width) (hh : h.toNat = s.cfg.height)
    (img : List Word) :
    ∃ t, exec (.blit 0 0 w h img) s = .next t ∧ t.lastResult = .ok ∧ t.cfg = s.cfg ∧
      t.fb = blitCore s.cfg s.fb 0 0 s.cfg.width s.cfg.height img := by
  simp only [exec, execBlit, hw, hh, BitVec.ofNat_eq_ofNat, BitVec.toNat_ofNat, Nat.zero_mod,
    inBoundsRect_full, if_true]
  exact ⟨_, rfl, rfl, rfl, rfl⟩

/-- A blit of the size of the buffer sets every pixel from the image. -/
theorem pixelOf_blitCore_full {c : Cfg} (hg : c.width % 8 = 0) {m : Memory}
    (hw : Memory.wf c.fillByte m = true) (img : List Word) {x y : Nat} (hx : x < c.width) (hy : y < c.height) :
    pixelOf c (blitCore c m 0 0 c.width c.height img) x y = imgBit img c.width x y := by
  rw [pixelOf_blitCore hg hw (inBoundsRect_full c) img hx, if_pos (by omega), Nat.sub_zero, Nat.sub_zero]

/-- The image read after a blit of a full-size image is that image. -/
theorem fbImage_blitCore_full {c : Cfg} (hg : c.width % 8 = 0) {m : Memory}
    (hw : Memory.wf c.fillByte m = true) {img : List Word} (hl : img.length = imageWords c.width c.height)
    (hp : imagePaddingZero c.width c.height img = true) :
    fbImage c (blitCore c m 0 0 c.width c.height img) = img := by
  rw [fbImage, packImage, packBits_imageBit hl hp]
  intro k hk
  have hx : k % c.width < c.width := Nat.mod_lt _ (Nat.pos_of_lt_mul_right hk)
  have hy : k / c.width < c.height := Nat.div_lt_of_lt_mul hk
  rw [pixelOf_blitCore_full hg hw img hx hy, imgBit, Nat.div_add_mod']

/-- A blit of the image that the buffer holds changes nothing. -/
theorem blitCore_fbImage {c : Cfg} (hg : c.width % 8 = 0) {m : Memory} (hw : Memory.wf c.fillByte m = true)
    (hb : Memory.below c.fbSize m = true) : blitCore c m 0 0 c.width c.height (fbImage c m) = m := by
  refine fb_eq_of_pixels hg (wf_blitCore hw _ _ _ _ _) hw (below_blitCore hg hb (inBoundsRect_full c) _) hb
    fun x y hx hy => ?_
  rw [pixelOf_blitCore_full hg hw _ hx hy, fbImage, imgBit_packImage _ hx hy]

/-- READ_IMAGE answers OK with the image that the buffer holds, and leaves the buffer. -/
theorem readImage_answers (s : State) :
    ∃ t, exec .readImage s = .next t ∧ Reported 0x04 1 .ok false (fbImage s.cfg s.fb) s t ∧
      t.cfg = s.cfg ∧ t.fb = s.fb :=
  ⟨_, rfl, reported_finish rfl rfl rfl, rfl, rfl⟩

/-! ### The obligations -/

/-- Settles O43: SET_PIXEL leaves the pixel as `v`, a SET_PIXEL of another one keeps it, and GET_PIXEL answers it. -/
theorem pixelRoundTrip : Obligations.PixelRoundTrip := by
  intro s v x y hv hw hx hy
  obtain ⟨s1, hset, hcfg, hw1, hpix⟩ := setPixel_stores hv hw v hx hy
  rw [← hcfg] at hv hx hy
  refine ⟨s1, hset, getPixel_answers hx hy hpix, fun v' x' y' hne => ?_⟩
  obtain ⟨s2, hset2, hcfg2, hkept⟩ := setPixel_keeps_other_pixel hv hw1 hx v' hne
  rw [← hcfg2] at hx hy
  exact ⟨s2, hset2, getPixel_answers hx hy (hkept.trans hpix)⟩

/-- Settles O44: the image of the buffer after a full-size blit is the one blitted (`fbImage_blitCore_full`), and
blitting the image of the buffer leaves the buffer (`blitCore_fbImage`). -/
theorem imageRoundTrip : Obligations.ImageRoundTrip := by
  intro s w h hv hwf hb hw hh
  have hg := valid_width hv
  constructor
  · intro img himg
    obtain ⟨hl, hp⟩ : img.length = imageWords s.cfg.width s.cfg.height ∧
        imagePaddingZero s.cfg.width s.cfg.height img = true := by
      simpa [Instr.wellFormed, imageOk, hw, hh] using himg
    obtain ⟨s1, hblit, -, hcfg, hfb⟩ := blit_full_stores hw hh img
    obtain ⟨s2, hread, hr, -⟩ := readImage_answers s1
    rw [hcfg, hfb, fbImage_blitCore_full hg hwf hl hp] at hr
    exact ⟨s1, hblit, s2, hread, hr⟩
  · obtain ⟨s1, hread, hr, hcfg, hfb⟩ := readImage_answers s
    rw [← hcfg] at hw hh
    obtain ⟨s2, hblit, hok, -, hfb2⟩ := blit_full_stores hw hh (fbImage s.cfg s.fb)
    rw [hcfg, hfb, blitCore_fbImage hg hwf hb] at hfb2
    exact ⟨s1, _, hread, hr, s2, hblit, hok, hfb2⟩

end Sys2Proof.Machine
end

section
/-! The panel protocol (41_panel_protocol.md): SEND_DATA and the data transactions of R132. -/

namespace Sys2Proof.Machine

/-! ### The bus after a data payload -/

/-- Buses with the same log, latches and draws are equal. -/
theorem Bus.eq_of_fields {a b : Bus} (hlog : a.log = b.log) (hrst : a.rst = b.rst) (hdc : a.dc = b.dc)
    (hcs : a.cs = b.cs) (hbusyIn : a.busyIn = b.busyIn) (hbusyDrawn : a.busyDrawn = b.busyDrawn)
    (hstatusIn : a.statusIn = b.statusIn) (hstatusDrawn : a.statusDrawn = b.statusDrawn) : a = b := by
  cases a
  cases b
  simp_all only

/-- A payload with bytes appends its transactions to the log and leaves DC and CS high; the RST latch and the draws
stay (41_panel_protocol.md R130, R132). -/
theorem sendData_bus (s : State) {bytes : List Byte} (h : bytes ≠ []) :
    s.bus.sendData s.cfg.chunking bytes =
      { s.bus with log := s.bus.log ++ dataEvents s.cfg bytes, dc := true, cs := true } := by
  have hran := ran_sendData bytes s
  have hpins := hran.pins
  simp only [pinsOf, List.foldl_cons, List.foldl_nil, Pins.after, List.isEmpty_iff, h, if_false,
    Pins.mk.injEq] at hpins
  obtain ⟨hrst, hdc, hcs⟩ := hpins
  obtain ⟨-, hbusyIn, hbusyDrawn⟩ := sendData_withLevels s.cfg.chunking bytes [] 0 s.bus
  exact Bus.eq_of_fields (sendData_log _ _ _) hrst hdc hcs hbusyIn hbusyDrawn hran.statusIn hran.statusDrawn

/-! ### SEND_DATA -/

/-- SEND_DATA never polls: it ends with OK after its payload. -/
theorem sendData_next (bytes : List Byte) (s : State) :
    exec (.sendData bytes) s =
      .next (finishOk 0x15 (1 + dataWords bytes.length) { s with bus := s.bus.sendData s.cfg.chunking bytes }) := by
  simp only [exec, execSendData, runOperation_done (acts := [.data bytes]) rfl]

/-! ### The obligations -/

/-- Settles O48: SEND_DATA ends with OK in every state (`sendData_next`), and its bus is the one before it for no
bytes and `sendData_bus` otherwise. -/
theorem sendDataCompletes : Obligations.SendDataCompletes := fun s bytes =>
  ⟨_, sendData_next bytes s, .of_ran (ran_sendData bytes s), ⟨rfl, rfl, rfl, rfl, rfl⟩, rfl, ⟨rfl, rfl⟩,
    fun hnil => hnil ▸ rfl,
    fun hne => by
      cases bytes with
      | nil => exact absurd rfl hne
      | cons d bytes => exact sendData_bus s hne⟩

end Sys2Proof.Machine
end

section
/-! The refresh orchestrator (42_refresh.md): the snapped and the sent window (R170, R172, R182), and that a FILL of
one band is the DRAW of a solid image (R183). -/

namespace Sys2Proof.Machine

/-! ### Windows -/

theorem snap_fst_le (xs xe : Nat) : (snap xs xe).1 ≤ xs := Nat.sub_le _ _

theorem snap_fst_mod (xs xe : Nat) : (snap xs xe).1 % 8 = 0 := by simp only [snap]; omega

theorem snap_snd_mod (xs xe : Nat) : (snap xs xe).2 % 8 = 0 := by simp only [snap]; omega

theorem lt_snap_snd (xs xe : Nat) : xe < (snap xs xe).2 := by simp only [snap]; omega

theorem snap_fst_lt_snd {xs xe : Nat} (h : xs ≤ xe) : (snap xs xe).1 < (snap xs xe).2 :=
  calc (snap xs xe).1 ≤ xs := snap_fst_le xs xe
    _ ≤ xe := h
    _ < (snap xs xe).2 := lt_snap_snd xs xe

/-- In a buffer of whole bytes the snapped end passes the right edge only from that edge itself. -/
theorem lt_snap_snd_iff {width xe : Nat} (hg : width % 8 = 0) (h : xe ≤ width) (xs : Nat) :
    width < (snap xs xe).2 ↔ xe = width := by
  simp only [snap]; omega

theorem sentWindow_xe (c : Cfg) (win : Window) :
    (sentWindow c win).xe = min (snap win.xs win.xe).2 c.width := rfl

/-- The clamp takes nothing of a window that ends inside the buffer. -/
theorem le_sentWindow_xe {c : Cfg} {win : Window} (h : win.xe ≤ c.width) : win.xe ≤ (sentWindow c win).xe :=
  Nat.le_min.2 ⟨(lt_snap_snd win.xs win.xe).le, h⟩

/-- The clamped end is the end of a byte, since both the snapped end and the width are. -/
theorem sentWindow_xe_mod {c : Cfg} (hg : c.width % 8 = 0) (win : Window) : (sentWindow c win).xe % 8 = 0 := by
  rw [sentWindow_xe]
  rcases Nat.le_total (snap win.xs win.xe).2 c.width with h | h
  · rw [Nat.min_eq_left h, snap_snd_mod]
  · rw [Nat.min_eq_right h, hg]

/-- The sent window of one that starts inside the buffer is not empty. -/
theorem sentWindow_xs_lt_xe {c : Cfg} {win : Window} (hxs : win.xs < c.width) (h : win.xs ≤ win.xe) :
    (sentWindow c win).xs < (sentWindow c win).xe :=
  Nat.lt_min.2 ⟨snap_fst_lt_snd h, (snap_fst_le win.xs win.xe).trans_lt hxs⟩

/-- The clamp changes the snapped end exactly when that passes the right edge. -/
theorem sentWindow_xe_ne_iff (c : Cfg) (win : Window) :
    (sentWindow c win).xe ≠ (snap win.xs win.xe).2 ↔ c.width < (snap win.xs win.xe).2 := by
  rw [sentWindow_xe, ne_eq, min_eq_left_iff, Nat.not_le]

/-! ### FILL of one band -/

/-- A size that fits a 16-bit operand is carried by it, and is not 0 there either. -/
theorem half_of_pos {n : Nat} (hpos : 0 < n) (hlt : n < 2 ^ 16) :
    (BitVec.ofNat 16 n).toNat = n ∧ BitVec.ofNat 16 n ≠ 0 := by
  have hn : (BitVec.ofNat 16 n).toNat = n := by rw [BitVec.toNat_ofNat, Nat.mod_eq_of_lt hlt]
  exact ⟨hn, fun h0 => hpos.ne' (hn.symm.trans (congrArg BitVec.toNat h0))⟩

/-- A FILL whose bands are as high as the buffer has one band. -/
theorem fillBands_full {height : Nat} (h : 1 ≤ height) : fillBands height height = [(0, height)] := by
  have hone : (height + height - 1) / height = 1 := Nat.div_eq_of_lt_le (by omega) (by omega)
  simp [fillBands, hone]

/-- The one `DrawBody` of that FILL is the one of a DRAW of a solid image over the whole buffer. -/
theorem fillBodies_full {c : Cfg} {w h : Half} (hw : w.toNat = c.width) (hh : h.toNat = c.height)
    (hpos : 1 ≤ c.height) (color : Bool) :
    fillBodies c color h.toNat = [drawBand 0 0 w h (solidImage c.width c.height color)] := by
  rw [fillBodies, hh, fillBands_full hpos, List.map_singleton]
  simp [solidBand, drawBand, hw, hh]

/-- The OPC and the length of an operation are in nothing that its actions and bands leave in FB, on the bus and in
the panel state, however the run ends. -/
theorem runOperation_same_work (opc opc' : Byte) (len len' : Nat) (acts : List Act) (bands : List Band) (s : State) :
    (runOperation opc len acts bands s).cfg = (runOperation opc' len' acts bands s).cfg ∧
    (runOperation opc len acts bands s).fb = (runOperation opc' len' acts bands s).fb ∧
    (runOperation opc len acts bands s).bus = (runOperation opc' len' acts bands s).bus ∧
    SamePanelState (runOperation opc len acts bands s) (runOperation opc' len' acts bands s) := by
  unfold runOperation
  cases runAll acts bands s with
  | done s1 => exact ⟨rfl, rfl, rfl, ⟨rfl, rfl, rfl, rfl, rfl⟩⟩
  | timedOut s1 => exact ⟨rfl, rfl, rfl, ⟨rfl, rfl, rfl, rfl, rfl⟩⟩
  | held acts1 bands1 s1 => exact ⟨rfl, rfl, rfl, ⟨rfl, rfl, rfl, rfl, rfl⟩⟩

/-- An operation of `DrawBody`s that ended with OK has run them all. -/
theorem runBands_done_of_ok {opc : Byte} {len : Nat} {bands : List Band} {s : State}
    (hend : (runOperation opc len [] bands s).inFlight = none)
    (hok : (runOperation opc len [] bands s).lastResult = .ok) :
    ∃ u, runBands bands s = .done u ∧ runOperation opc len [] bands s = finishOk opc len u := by
  rcases runOperation_cases opc len [] bands s with ⟨u, hrun, heq⟩ | ⟨u, -, heq⟩ | ⟨acts1, bands1, u, -, heq⟩
  · exact ⟨u, hrun, heq⟩
  · rw [heq, raiseTimeout_lastResult] at hok
    cases hok
  · rw [heq] at hend
    cases hend

/-- FB after a FILL that ended with OK (42_refresh.md R179). -/
theorem fill_ok_fb {s t : State} (hg : s.cfg.width % 8 = 0) (hwf : Memory.wf s.cfg.fillByte s.fb = true)
    (hp : s.pstate = .initialized) {color : Bool} {bh : Half} (hb : bh ≠ 0)
    (h : exec (.fill color bh) s = .next t) (hend : t.inFlight = none) (hok : t.lastResult = .ok) {k : Nat}
    (hk : k < s.cfg.fbSize) : fbRead t.cfg t.fb k = if color then 0xFF else 0x00 := by
  rw [fill_op hp hb] at h
  cases h
  obtain ⟨u, hrun, heq⟩ := runBands_done_of_ok hend hok
  have hcfg : u.cfg = s.cfg := by
    have hframe := (runBands_frame (fillBodies s.cfg color bh.toNat) s).cfg
    rwa [hrun] at hframe
  rw [heq]
  calc fbRead (finishOk 0x23 1 u).cfg (finishOk 0x23 1 u).fb k = fbRead u.cfg u.fb k := rfl
    _ = _ := by rw [hcfg, runBands_fb hrun, fill_fb hg hwf color (toNat_ne_zero_of_ne hb) k hk]

/-! ### The obligations -/

/-- Settles O59: the FILL of one band and the DRAW run the same `DrawBody` (`fillBodies_full`), and their OPC and
length are in nothing it leaves (`runOperation_same_work`); a FILL that ends with OK is `fill_ok_fb`. -/
theorem fillEquivalence : Obligations.FillEquivalence := by
  intro s color hv hwf hp
  refine ⟨?_, fun bh t hb hexec hend hok k hk => fill_ok_fb (valid_width hv) hwf hp hb hexec hend hok hk⟩
  obtain ⟨hwidth, hheight, -, -, -, hhpos, hwpos⟩ := valid_parts hv
  obtain ⟨hw, hw0⟩ := half_of_pos (n := s.cfg.width) (by omega) (by omega)
  obtain ⟨hh, hh0⟩ := half_of_pos (n := s.cfg.height) (by omega) (by omega)
  have hfill := fill_op (color := color) hp hh0
  have hdraw := draw_op (x := 0) (y := 0) (img := solidImage s.cfg.width s.cfg.height color) hp hw0 hh0
    (by simp [hw]) (by simp [hh])
  rw [← fillBodies_full hw hh hhpos] at hdraw
  generalize fillBodies s.cfg color _ = bodies at hfill hdraw
  obtain ⟨hcfg, hfb, hbus, hpanel⟩ := runOperation_same_work 0x23 0x22 1 _ [] bodies s
  obtain ⟨ev, hlog⟩ := logs_runOperation 0x23 1 [] bodies s
  exact ⟨_, _, ev, hfill, hdraw, fun k => by rw [hcfg, hfb], hbus, hlog.log, hpanel⟩

/-- Settles O52: the laws of `snap`, and `le_sentWindow_xe` for the clamp. -/
theorem snapLaws : Obligations.SnapLaws := fun c xs ys xe ye h =>
  ⟨snap_fst_le xs xe, lt_snap_snd xs xe, snap_fst_mod xs xe, snap_snd_mod xs xe, snap_fst_lt_snd h,
    le_sentWindow_xe (c := c) (win := ⟨xs, ys, xe, ye⟩)⟩

/-- Settles O53: the sent window starts as the snapped one does and ends at its clamped end, which differs from the
snapped end (`sentWindow_xe_ne_iff`) only at the right edge (`lt_snap_snd_iff`). -/
theorem sentWindowLaws : Obligations.SentWindowLaws := by
  intro c win hv hxs hx hxe _ _
  have hg := valid_width hv
  exact ⟨rfl, snap_fst_mod win.xs win.xe, sentWindow_xe_mod hg win, snap_fst_le win.xs win.xe,
    sentWindow_xs_lt_xe hxs hx, (sentWindow_xe_ne_iff c win).trans (lt_snap_snd_iff hg hxe win.xs)⟩

end Sys2Proof.Machine
end

section
/-! The operations that refuse (60_exceptions.md R204 to R209): which check fails, one lemma per operation and
cause, and from these that a refused operation leaves only the report of its error. A BusInitFailure leaves its one
event besides. -/

namespace Sys2Proof.Machine

/-- An operation that ends by raising an error in the state it started from leaves only the report of that error
(60_exceptions.md R201, R212). -/
theorem onlyReported_of_exec {i : Instr} {s : State} {opc : Byte} {len : Nat} {code : ResultCode}
    (h : exec i s = .next (raiseError opc len code s)) :
    ∃ t, exec i s = .next t ∧ OnlyReported opc len code s t :=
  ⟨_, h, onlyReported_raiseError opc len code s⟩

/-! ### The states an operation asks for -/

/-- The operations that need an initialized panel: SET_LUT on V1 only, since V2 does not have it. -/
theorem exec_of_pstate_ne_initialized {i : Instr} {s : State} (hp : s.pstate ≠ .initialized)
    (hi : i = .sleep ∨ (s.cfg.variant = .v1 ∧ ∃ c, i = .setLut c) ∨ i = .displayFull ∨
      (∃ xs ys xe ye, i = .displayPartial xs ys xe ye) ∨ (∃ x y w h img, i = .draw x y w h img) ∨
      ∃ color bh, i = .fill color bh) :
    exec i s = .next (raiseError (opcodeOf i) (lengthOf i) .invalidState s) := by
  rcases hi with rfl | ⟨hv, c, rfl⟩ | rfl | ⟨xs, ys, xe, ye, rfl⟩ | ⟨x, y, w, h, img, rfl⟩ | ⟨color, bh, rfl⟩
  · simp only [exec, execSleep, hp, if_false, opcodeOf, lengthOf]
  · obtain ⟨table, htable⟩ := (variant_v1_iff s.cfg).1 hv
    simp only [exec, execSetLut, htable, hp, if_false, opcodeOf, lengthOf]
  · simp only [exec, execDisplayFull, hp, if_false, opcodeOf, lengthOf]
  · simp only [exec, execDisplayPartial, hp, if_false, opcodeOf, lengthOf]
  · simp only [exec, execDraw, hp, if_false, opcodeOf, lengthOf]
  · simp only [exec, execFill, hp, if_false, opcodeOf, lengthOf]

/-- V2 has no SET_LUT, whatever `pstate` is (41_panel_protocol.md R143). -/
theorem setLut_next_v2 {s : State} {c : LutClass} (hv : s.cfg.variant = .v2) :
    exec (.setLut c) s = .next (raiseError 0x16 1 .unsupportedOnVariant s) := by
  simp only [exec, execSetLut, (variant_v2_iff s.cfg).1 hv]

/-! ### INIT -/

/-- INIT with both flags set names no mode (41_panel_protocol.md R141). -/
theorem init_next_both_flags (s : State) :
    exec (.init true true) s = .next (raiseError 0x11 1 .invalidArgument s) := rfl

/-- INIT whose flags name a mode goes by that mode's entry in `INIT_SEQ` (41_panel_protocol.md R141). -/
theorem init_next_of_flags {part gray : Bool} (hflags : ¬(part = true ∧ gray = true)) (s : State) :
    exec (.init part gray) s = .next
      ((s.cfg.initSeq (initMode part gray)).elim (raiseError 0x11 1 .unsupportedOnVariant s)
        fun steps => initWith (initMode part gray) steps s) := by
  simp only [exec, execInit, Bool.and_eq_true, hflags, if_false]
  cases s.cfg.initSeq (initMode part gray) <;> rfl

/-- `BusInit` on a queue of statuses takes the next one and records it, and does nothing else. -/
theorem Bus.busInit_of_statusIn {b : Bus} {st : Byte} {rest : List Byte} (h : b.statusIn = st :: rest) :
    b.busInit = { b with log := b.log ++ [.busInit st], statusIn := rest } := by
  simp only [Bus.busInit, Bus.dropStatus, Bus.nextStatus, Bus.emit, h]

/-- INIT ends at once when `BusInit` returns a status other than 0 (60_exceptions.md R209). -/
theorem initWith_of_status_ne_zero {s : State} {st : Byte} {rest : List Byte} (hq : s.bus.statusIn = st :: rest)
    (hst : st ≠ 0) (m : Mode) (steps : List ProtoStep) :
    initWith m steps s = raiseError 0x11 1 .busInitFailure { s with bus := s.bus.busInit } := by
  simp only [initWith, Bus.nextStatus, hq, hst, if_false]

/-! ### Arguments and bounds -/

/-- A window that breaks one of the bounds of 42_refresh.md R171 is not valid. -/
theorem validWindow_eq_false {c : Cfg} {win : Window}
    (hwin : ¬(win.xs < c.width ∧ win.xs ≤ win.xe ∧ win.xe ≤ c.width ∧ win.ys < win.ye ∧ win.ye ≤ c.height)) :
    validWindow c win = false := by
  simpa [validWindow, and_assoc] using hwin

/-- DISPLAY_PARTIAL of an invalid window (42_refresh.md R171, R177). -/
theorem displayPartial_next_invalid {s : State} {xs ys xe ye : Half} (hp : s.pstate = .initialized)
    (hwin : ¬(xs.toNat < s.cfg.width ∧ xs.toNat ≤ xe.toNat ∧ xe.toNat ≤ s.cfg.width ∧
      ys.toNat < ye.toNat ∧ ye.toNat ≤ s.cfg.height)) :
    exec (.displayPartial xs ys xe ye) s = .next (raiseError 0x21 3 .invalidArgument s) := by
  have hw : validWindow s.cfg (windowOf xs ys xe ye) = false := validWindow_eq_false hwin
  simp only [exec, execDisplayPartial, hp, hw, Bool.false_eq_true, if_true, if_false]

/-- An image without pixels has no words, so its descriptor is the three words before them. -/
theorem imageWords_eq_zero {w h : Nat} (harea : w = 0 ∨ h = 0) : imageWords w h = 0 := by
  rw [imageWords, Nat.mul_eq_zero.2 harea]

/-- DRAW of an image without pixels (42_refresh.md R178). -/
theorem draw_next_empty {s : State} {x y w h : Half} {img : List Word} (hp : s.pstate = .initialized)
    (harea : w = 0 ∨ h = 0) :
    exec (.draw x y w h img) s = .next (raiseError 0x22 3 .invalidArgument s) := by
  have hz : w.toNat = 0 ∨ h.toNat = 0 := harea.imp (congrArg BitVec.toNat) (congrArg BitVec.toNat)
  simp only [exec, execDraw, hp, hz, if_true, imageWords_eq_zero hz]

/-- FILL in bands of no rows (42_refresh.md R179). -/
theorem fill_next_zero {s : State} {color : Bool} {bh : Half} (hp : s.pstate = .initialized)
    (hzero : bh.toNat = 0) :
    exec (.fill color bh) s = .next (raiseError 0x23 1 .invalidArgument s) := by
  simp only [exec, execFill, hp, hzero, if_true]

/-- A pixel past one edge of the buffer is not inside it (40_framebuffer.md R110). -/
theorem not_inBoundsPix {c : Cfg} {x y : Nat} (hout : c.width ≤ x ∨ c.height ≤ y) : ¬(x < c.width ∧ y < c.height) := by
  omega

/-- GET_PIXEL outside the buffer (40_framebuffer.md R114). -/
theorem getPixel_next_outside {s : State} {x y : Half} (hout : ¬(x.toNat < s.cfg.width ∧ y.toNat < s.cfg.height)) :
    exec (.getPixel x y) s = .next (raiseError 0x02 2 .outOfBoundsRead s) := by
  have hb : inBoundsPix s.cfg x.toNat y.toNat = false := by simpa [inBoundsPix] using hout
  simp only [exec, execGetPixel, hb, Bool.false_eq_true, if_false]

/-- A rectangle that passes one edge of the buffer is not inside it (40_framebuffer.md R110). -/
theorem inBoundsRect_eq_false {c : Cfg} {x y w h : Nat} (hout : c.width < x + w ∨ c.height < y + h) :
    inBoundsRect c x y w h = false := by
  rw [inBoundsRect, Bool.and_eq_false_iff, decide_eq_false_iff_not, decide_eq_false_iff_not, Nat.not_le, Nat.not_le]
  exact hout

/-- BLIT of a rectangle that is not inside the buffer (40_framebuffer.md R115). -/
theorem blit_next_outside {s : State} {x y w h : Half} {img : List Word}
    (hout : s.cfg.width < x.toNat + w.toNat ∨ s.cfg.height < y.toNat + h.toNat) :
    exec (.blit x y w h img) s =
      .next (raiseError 0x03 (3 + imageWords w.toNat h.toNat) .outOfBoundsWrite s) := by
  simp only [exec, execBlit, inBoundsRect_eq_false hout, Bool.false_eq_true, if_false]

/-- DRAW of an image with pixels whose rectangle is not inside the buffer (42_refresh.md R178). -/
theorem draw_next_outside {s : State} {x y w h : Half} {img : List Word} (hp : s.pstate = .initialized)
    (hw : w ≠ 0) (hh : h ≠ 0)
    (hout : s.cfg.width < x.toNat + w.toNat ∨ s.cfg.height < y.toNat + h.toNat) :
    exec (.draw x y w h img) s =
      .next (raiseError 0x22 (3 + imageWords w.toNat h.toNat) .outOfBoundsWrite s) := by
  simp only [exec, execDraw, hp, toNat_ne_zero_of_ne hw, toNat_ne_zero_of_ne hh, or_self,
    inBoundsRect_eq_false hout, Bool.false_eq_true, if_true, if_false]

/-! ### The obligations -/

/-- Settles O24: each of the six operations looks at `pstate` before it does anything else. -/
theorem invalidStateRefuses : Obligations.InvalidStateRefuses := fun _ _ hp hi =>
  onlyReported_of_exec (exec_of_pstate_ne_initialized hp hi)

/-- Settles O25: neither check looks at `pstate`. -/
theorem unsupportedVariantRefuses : Obligations.UnsupportedVariantRefuses := by
  refine ⟨fun s c hv => onlyReported_of_exec (setLut_next_v2 hv), fun s part gray hflags habsent => ?_⟩
  have hnone : s.cfg.initSeq (initMode part gray) = none := habsent
  have hexec := init_next_of_flags hflags s
  rw [hnone] at hexec
  exact onlyReported_of_exec hexec

/-- Settles O26: one refusal per cause. -/
theorem invalidArgumentRefuses : Obligations.InvalidArgumentRefuses := fun s =>
  ⟨onlyReported_of_exec (init_next_both_flags s), fun hp =>
    ⟨fun _ _ _ _ hwin => onlyReported_of_exec (displayPartial_next_invalid hp hwin),
      fun _ _ _ _ _ harea => onlyReported_of_exec (draw_next_empty hp harea),
      fun _ => onlyReported_of_exec (fill_next_zero hp rfl)⟩⟩

/-- Settles O27: the bounds are looked at before any pixel is written. -/
theorem outOfBoundsWriteRefuses : Obligations.OutOfBoundsWriteRefuses := fun _ _ _ =>
  ⟨fun _ hout => onlyReported_of_exec (setPixel_next_outside (not_inBoundsPix hout)), fun _ _ _ hout =>
    ⟨onlyReported_of_exec (blit_next_outside hout),
      fun hp hw hh => onlyReported_of_exec (draw_next_outside hp hw hh hout)⟩⟩

/-- Settles O28: the bounds are looked at before the pixel is read. -/
theorem outOfBoundsReadRefuses : Obligations.OutOfBoundsReadRefuses := fun _ _ _ hout =>
  onlyReported_of_exec (getPixel_next_outside (not_inBoundsPix hout))

/-- Settles O29: the error is raised in the state after `BusInit`, which differs from the one before it in the bus
only (`Bus.busInit_of_statusIn`). -/
theorem busInitFailureAborts : Obligations.BusInitFailureAborts := by
  intro s part gray st rest hflags hseq hq hst
  obtain ⟨steps, hsteps⟩ : ∃ steps, s.cfg.initSeq (initMode part gray) = some steps :=
    Option.ne_none_iff_exists'.1 hseq
  have hexec := init_next_of_flags hflags s
  rw [hsteps, Option.elim_some, initWith_of_status_ne_zero hq hst] at hexec
  exact ⟨_, hexec, reported_finish rfl rfl rfl, ⟨rfl, rfl, rfl, rfl, rfl⟩, rfl, ⟨rfl, rfl⟩, Bus.busInit_of_statusIn hq⟩

end Sys2Proof.Machine
end

section
/-! Descriptors (30_encoding.md): the decoder and the encoder undo each other, and what a step makes of the words
at DP. -/

namespace Sys2Proof.Machine

/-! ### From an operation to its words and back -/

/-- A well-formed operation is encoded in `lengthOf` words (30_encoding.md R90). -/
theorem length_encode {i : Instr} (h : i.wellFormed = true) : (encode i).length = lengthOf i := by
  cases i with
  | blit x y w hh img => exact Laws.EncodedLength.blit x y w hh img h
  | sendData bytes => exact Laws.EncodedLength.sendData bytes h
  | draw x y w hh img => exact Laws.EncodedLength.draw x y w hh img h
  | _ => rfl

/-- A complete descriptor whose reserved bits, `mf` in F and `mi` in IMM, are 0 decodes to the operation of its
fields, and is as long as its words. -/
theorem decode_of_fields {opc f : Byte} {imm : Half} {ops rest : List Word} {i : Instr} (mf : Byte) (mi : Half)
    (hl : descriptorLength (headWord opc f imm) (ops ++ rest) = some (ops.length + 1))
    (hm : reservedMask opc = headWord 0 mf mi) (hopc : (formatOf opc).isSome = true) (hf : f &&& mf = 0)
    (hi : imm &&& mi = 0) (h : decodeFields (headWord opc f imm) ops = .ok i) :
    decode (headWord opc f imm :: ops ++ rest) = .ok i (headWord opc f imm :: ops).length := by
  have hb : decodeBody (headWord opc f imm) ops = .ok i := by
    simp [decodeBody, Option.isSome_iff_ne_none.1 hopc, (reserved_iff hm).2 ⟨hf, hi⟩, h]
  rw [List.cons_append, decode_of_body hl, hb, List.length_cons]

/-- The same where F and IMM are reserved altogether (30_encoding.md R82, R85 to R87). -/
theorem decode_of_operands {opc : Byte} {ops rest : List Word} {i : Instr}
    (hl : descriptorLength (headWord opc 0 0) (ops ++ rest) = some (ops.length + 1))
    (hm : reservedMask opc = headWord 0 0xFF 0xFFFF) (hopc : (formatOf opc).isSome = true)
    (h : decodeFields (headWord opc 0 0) ops = .ok i) :
    decode (headWord opc 0 0 :: ops ++ rest) = .ok i (headWord opc 0 0 :: ops).length :=
  decode_of_fields _ _ hl hm hopc (by decide) (by decide) h

/-- The length of a descriptor with an image (30_encoding.md R90). -/
theorem descriptorLength_image {opc : Byte} (hopc : formatOf opc = some .b) (f : Byte) (imm : Half) (w1 : Word)
    {w h : Half} {img : List Word} (himg : imageOk w h img = true) (rest : List Word) :
    descriptorLength (headWord opc f imm) (w1 :: coordWord w h :: img ++ rest) =
      some ((w1 :: coordWord w h :: img).length + 1) := by
  simp only [imageOk, Bool.and_eq_true, decide_eq_true_eq] at himg
  simp [descriptorLength, hopc, himg.1]
  omega

/-- A well-formed image operand is taken from its words. -/
theorem withImage_of_imageOk (mk : Half → Half → Half → Half → List Word → Instr) (x y : Half) {w h : Half}
    {img : List Word} (himg : imageOk w h img = true) :
    withImage mk (coordWord x y) (coordWord w h) img = .ok (mk x y w h img) := by
  simp only [imageOk, Bool.and_eq_true] at himg
  simp [withImage, himg.2]

/-- An opcode byte in IMM leaves the reserved high half of it 0, and is read back. -/
theorem setWidth_opcode (op8 : Byte) :
    op8.setWidth 16 &&& 0xFF00#16 = 0 ∧ (op8.setWidth 16).extractLsb' 0 8 = op8 := by
  revert op8; decide +kernel

/-- The words of a well-formed operation decode to it (30_encoding.md sections 2 and 3). -/
theorem decode_encode_append {i : Instr} (hw : i.wellFormed = true) (rest : List Word) :
    decode (encode i ++ rest) = .ok i (encode i).length := by
  cases i with
  | setPixel v x y =>
    exact decode_of_fields 0xFE 0xFFFF (by simp [descriptorLength, formatOf]) (by decide) (by decide)
      (by cases v <;> decide) (by decide) (by simp [decodeFields, getElem_flagByte])
  | blit x y w h img =>
    exact decode_of_operands (descriptorLength_image (by decide) _ _ _ hw rest) (by decide) (by decide)
      (by simpa [decodeFields] using withImage_of_imageOk _ _ _ hw)
  | readReg n =>
    exact decode_of_fields 0xFF 0 (by simp [descriptorLength, formatOf]) (by decide) (by decide) (by decide)
      BitVec.and_zero (by simpa [decodeFields, Instr.wellFormed] using hw)
  | init part gray =>
    obtain ⟨hpart, hgray⟩ := flagByte_pair part gray
    exact decode_of_fields 0xFC 0xFFFF (by simp [descriptorLength, formatOf]) (by decide) (by decide)
      (by cases part <;> cases gray <;> decide) (by decide)
      (by simp only [decodeFields, opcOf_headWord, fOf_headWord, hpart, hgray]; rfl)
  | sendCommand op8 =>
    obtain ⟨hzero, hback⟩ := setWidth_opcode op8
    exact decode_of_fields 0xFF 0xFF00 (by simp [descriptorLength, formatOf]) (by decide) (by decide) (by decide)
      hzero (by simp only [decodeFields, opcOf_headWord, immOf_headWord, hback]; rfl)
  | sendData bytes =>
    have hlen : (BitVec.ofNat 16 bytes.length).toNat = bytes.length :=
      Nat.mod_eq_of_lt (by simpa [Instr.wellFormed] using hw)
    refine decode_of_fields 0xFF 0 ?_ (by decide) (by decide) (by decide) BitVec.and_zero ?_
    · simp only [descriptorLength, opcOf_headWord, immOf_headWord, hlen, length_packBytes, Nat.add_comm]
      rfl
    · simp only [decodeFields, opcOf_headWord, immOf_headWord, hlen, dataPaddingZero_packBytes,
        unpackBytes_packBytes]
      rfl
  | setLut c =>
    exact decode_of_fields 0xFC 0xFFFF (by simp [descriptorLength, formatOf]) (by decide) (by decide)
      (by cases c <;> decide) (by decide)
      (by simp only [decodeFields, opcOf_headWord, fOf_headWord, lutClassOf_code]; rfl)
  | draw x y w h img =>
    exact decode_of_operands (descriptorLength_image (by decide) _ _ _ hw rest) (by decide) (by decide)
      (by simpa [decodeFields] using withImage_of_imageOk _ _ _ hw)
  | fill color bh =>
    exact decode_of_fields 0xFE 0 (by simp [descriptorLength, formatOf]) (by decide) (by decide)
      (by cases color <;> decide) BitVec.and_zero (by simp [decodeFields, getElem_flagByte])
  | _ =>
    exact decode_of_operands (by simp [descriptorLength, formatOf]) (by decide) (by decide) (by simp [decodeFields])

/-! ### From words to an operation and back -/

/-- A first word whose F and IMM are reserved altogether is its OPC. -/
theorem eq_headWord_zero {w : Word} {opc : Byte} (hopc : opcOf w = opc) (hres : w &&& reservedMask opc = 0)
    (hm : reservedMask opc = headWord 0 0xFF 0xFFFF) : w = headWord opc 0 0 := by
  obtain ⟨hf, hi⟩ := reserved_fields hopc hres hm
  exact eq_headWord hopc (BitVec.and_allOnes.symm.trans hf) (BitVec.and_allOnes.symm.trans hi)

/-- An F field whose bits 7:1 are 0 is its flag. -/
theorem eq_flagByte {f : Byte} (hf : f &&& 0xFE = 0) : f = flagByte (f.getLsbD 0) := by
  revert f; decide +kernel

/-- An F field whose bits 7:2 are 0 is its two flags. -/
theorem eq_flagByte_pair {f : Byte} (hf : f &&& 0xFC = 0) :
    f = flagByte (f.getLsbD 0) ||| flagByte (f.getLsbD 1) <<< 1 := by
  revert f; decide +kernel

/-- An F field whose bits 7:2 are 0 is the code of the class it names. -/
theorem eq_lutClassCode {f : Byte} {c : LutClass} (hf : f &&& 0xFC = 0)
    (hc : lutClassOf (f.extractLsb' 0 2) = some c) : f = (lutClassCode c).setWidth 8 := by
  cases c <;> revert f <;> decide +kernel

/-- An IMM field whose high half is 0 is its low byte. -/
theorem eq_setWidth_low {imm : Half} (hi : imm &&& 0xFF00 = 0) : imm = (imm.extractLsb' 0 8).setWidth 16 := by
  apply BitVec.eq_of_getLsbD_eq
  intro k hk
  have hbit : (imm &&& 0xFF00#16).getLsbD k = (0#16).getLsbD k := congrArg (BitVec.getLsbD · k) hi
  clear hi
  interval_cases k <;> simp_all

/-- A complete descriptor of one word has no operand words. -/
theorem operands_nil {w0 : Word} {ops : List Word} {opc : Byte} (hopc : opcOf w0 = opc)
    (hform : formatOf opc = some .n ∨ formatOf opc = some .f ∨ formatOf opc = some .i)
    (hl : descriptorLength w0 ops = some (ops.length + 1)) : ops = [] := by
  apply List.length_eq_zero_iff.1
  rcases hform with hform | hform | hform <;>
    · simp only [descriptorLength, hopc, hform, Option.some.injEq] at hl
      omega

/-- The words of a complete descriptor without fields. -/
theorem words_of_opcode_alone {w0 : Word} {ops : List Word} {opc : Byte} (hopc : opcOf w0 = opc)
    (hres : w0 &&& reservedMask opc = 0) (hm : reservedMask opc = headWord 0 0xFF 0xFFFF)
    (hform : formatOf opc = some .n) (hl : descriptorLength w0 ops = some (ops.length + 1)) :
    [headWord opc 0 0] = w0 :: ops := by
  rw [operands_nil hopc (.inl hform) hl, ← eq_headWord_zero hopc hres hm]

/-- The words of a complete pixel descriptor: one coordinate word. -/
theorem operands_pixel {w0 : Word} {ops : List Word} {opc : Byte} (hopc : opcOf w0 = opc)
    (hform : formatOf opc = some .p) (hl : descriptorLength w0 ops = some (ops.length + 1)) : ∃ w1, ops = [w1] := by
  apply List.length_eq_one_iff.1
  simp only [descriptorLength, hopc, hform, Option.some.injEq] at hl
  omega

/-- The words of a complete window descriptor: two coordinate words. -/
theorem operands_window {w0 : Word} {ops : List Word} {opc : Byte} (hopc : opcOf w0 = opc)
    (hform : formatOf opc = some .r) (hl : descriptorLength w0 ops = some (ops.length + 1)) :
    ∃ w1 w2, ops = [w1, w2] := by
  apply List.length_eq_two.1
  simp only [descriptorLength, hopc, hform, Option.some.injEq] at hl
  omega

/-- The words of a complete payload descriptor: as many data words as IMM asks for. -/
theorem operands_data {w0 : Word} {ops : List Word} {opc : Byte} (hopc : opcOf w0 = opc)
    (hform : formatOf opc = some .d) (hl : descriptorLength w0 ops = some (ops.length + 1)) :
    ops.length = dataWords (immOf w0).toNat := by
  simp only [descriptorLength, hopc, hform, Option.some.injEq] at hl
  omega

/-- The words of a complete image descriptor: two coordinate words, and the image that the second one sizes. -/
theorem operands_image {w0 : Word} {ops : List Word} {opc : Byte} (hopc : opcOf w0 = opc)
    (hform : formatOf opc = some .b) (hl : descriptorLength w0 ops = some (ops.length + 1)) :
    ∃ w1 w2 img, ops = w1 :: w2 :: img ∧ img.length = imageWords (hiOf w2).toNat (loOf w2).toNat := by
  match ops, hl with
  | [], hl => simp [descriptorLength, hopc, hform] at hl
  | [_], hl => simp [descriptorLength, hopc, hform] at hl
  | w1 :: w2 :: img, hl =>
    simp only [descriptorLength, hopc, hform, Option.some.injEq, List.length_cons] at hl
    exact ⟨w1, w2, img, rfl, by omega⟩

/-- An image operand that is taken is well-formed, and its words carry it. -/
theorem wellFormed_withImage {mk : Half → Half → Half → Half → List Word → Instr} {w1 w2 : Word} {img : List Word}
    {i : Instr} (hlen : img.length = imageWords (hiOf w2).toNat (loOf w2).toNat)
    (h : withImage mk w1 w2 img = .ok i) :
    imageOk (hiOf w2) (loOf w2) img = true ∧ i = mk (hiOf w1) (loOf w1) (hiOf w2) (loOf w2) img := by
  unfold withImage at h
  split at h
  · rename_i hpad
    exact ⟨by simp [imageOk, hlen, hpad], (Except.ok.inj h).symm⟩
  · cases h

/-- The words of an image descriptor from their fields. -/
theorem image_words {w0 : Word} {opc : Byte} (hw0 : w0 = headWord opc 0 0) (w1 w2 : Word) (img : List Word) :
    headWord opc 0 0 :: coordWord (hiOf w1) (loOf w1) :: coordWord (hiOf w2) (loOf w2) :: img =
      w0 :: w1 :: w2 :: img := by
  rw [hw0, coordWord_fields, coordWord_fields]

/-- A complete body that decodes is the encoding of a well-formed operation (30_encoding.md sections 2 and 4). -/
theorem encode_of_decodeBody {w0 : Word} {ops : List Word} {i : Instr}
    (hl : descriptorLength w0 ops = some (ops.length + 1)) (hb : decodeBody w0 ops = .ok i) :
    i.wellFormed = true ∧ encode i = w0 :: ops := by
  obtain ⟨hlisted, hres, h⟩ := decodeBody_eq_ok hb
  have immZero : ∀ {imm : Half}, imm &&& 0xFFFF = 0 → imm = 0 := fun h => BitVec.and_allOnes.symm.trans h
  have fZero : ∀ {f : Byte}, f &&& 0xFF = 0 → f = 0 := fun h => BitVec.and_allOnes.symm.trans h
  rcases formatOf_isSome_cases hlisted with
    ho | ho | ho | ho | ho | ho | ho | ho | ho | ho | ho | ho | ho | ho | ho | ho <;>
    rw [ho] at hres <;> simp only [decodeFields, ho] at h
  · -- SET_PIXEL
    obtain ⟨w1, rfl⟩ := operands_pixel ho (by decide) hl
    obtain ⟨hf, hi⟩ := reserved_fields ho hres (mf := 0xFE) (mi := 0xFFFF) (by decide)
    cases h
    exact ⟨rfl, congrArg₂ List.cons (eq_headWord ho (eq_flagByte hf) (immZero hi)).symm
      (congrArg ([·]) (coordWord_fields w1))⟩
  · -- GET_PIXEL
    obtain ⟨w1, rfl⟩ := operands_pixel ho (by decide) hl
    cases h
    exact ⟨rfl, congrArg₂ List.cons (eq_headWord_zero ho hres (by decide)).symm (congrArg ([·]) (coordWord_fields w1))⟩
  · -- BLIT
    obtain ⟨w1, w2, img, rfl, hlen⟩ := operands_image ho (by decide) hl
    obtain ⟨hok, rfl⟩ := wellFormed_withImage hlen h
    exact ⟨hok, image_words (eq_headWord_zero ho hres (by decide)) w1 w2 img⟩
  · -- READ_IMAGE
    cases h
    exact ⟨rfl, words_of_opcode_alone ho hres (by decide) (by decide) hl⟩
  · -- READ_REG
    obtain rfl := operands_nil ho (by decide) hl
    obtain ⟨hf, -⟩ := reserved_fields ho hres (mf := 0xFF) (mi := 0) (by decide)
    split at h
    · rename_i hn
      cases h
      exact ⟨decide_eq_true hn, congrArg ([·]) (eq_headWord ho (fZero hf) rfl).symm⟩
    · cases h
  · -- RESET
    cases h
    exact ⟨rfl, words_of_opcode_alone ho hres (by decide) (by decide) hl⟩
  · -- INIT
    obtain rfl := operands_nil ho (by decide) hl
    obtain ⟨hf, hi⟩ := reserved_fields ho hres (mf := 0xFC) (mi := 0xFFFF) (by decide)
    cases h
    exact ⟨rfl, congrArg ([·]) (eq_headWord ho (eq_flagByte_pair hf) (immZero hi)).symm⟩
  · -- SLEEP
    cases h
    exact ⟨rfl, words_of_opcode_alone ho hres (by decide) (by decide) hl⟩
  · -- WAIT_IDLE
    cases h
    exact ⟨rfl, words_of_opcode_alone ho hres (by decide) (by decide) hl⟩
  · -- SEND_COMMAND
    obtain rfl := operands_nil ho (by decide) hl
    obtain ⟨hf, hi⟩ := reserved_fields ho hres (mf := 0xFF) (mi := 0xFF00) (by decide)
    cases h
    exact ⟨rfl, congrArg ([·]) (eq_headWord ho (fZero hf) (eq_setWidth_low hi)).symm⟩
  · -- SEND_DATA
    have hlen := operands_data ho (by decide) hl
    obtain ⟨hf, -⟩ := reserved_fields ho hres (mf := 0xFF) (mi := 0) (by decide)
    split at h
    · rename_i hpad
      cases h
      have hbytes := length_unpackBytes hlen
      have himm : immOf w0 = BitVec.ofNat 16 (unpackBytes (immOf w0).toNat ops).length := by simp [hbytes]
      exact ⟨decide_eq_true (hbytes.trans_lt (immOf w0).isLt),
        congrArg₂ List.cons (eq_headWord ho (fZero hf) himm).symm (packBytes_unpackBytes hlen hpad)⟩
    · cases h
  · -- SET_LUT
    obtain rfl := operands_nil ho (by decide) hl
    obtain ⟨hf, hi⟩ := reserved_fields ho hres (mf := 0xFC) (mi := 0xFFFF) (by decide)
    split at h
    · rename_i hc
      cases h
      exact ⟨rfl, congrArg ([·]) (eq_headWord ho (eq_lutClassCode hf hc) (immZero hi)).symm⟩
    · cases h
  · -- DISPLAY_FULL
    cases h
    exact ⟨rfl, words_of_opcode_alone ho hres (by decide) (by decide) hl⟩
  · -- DISPLAY_PARTIAL
    obtain ⟨w1, w2, rfl⟩ := operands_window ho (by decide) hl
    cases h
    exact ⟨rfl, image_words (eq_headWord_zero ho hres (by decide)) w1 w2 []⟩
  · -- DRAW
    obtain ⟨w1, w2, img, rfl, hlen⟩ := operands_image ho (by decide) hl
    obtain ⟨hok, rfl⟩ := wellFormed_withImage hlen h
    exact ⟨hok, image_words (eq_headWord_zero ho hres (by decide)) w1 w2 img⟩
  · -- FILL
    obtain rfl := operands_nil ho (by decide) hl
    obtain ⟨hf, -⟩ := reserved_fields ho hres (mf := 0xFE) (mi := 0) (by decide)
    cases h
    exact ⟨rfl, congrArg ([·]) (eq_headWord ho (eq_flagByte hf) rfl).symm⟩

/-- A descriptor's length is known from its own words. -/
theorem descriptorLength_take {w0 : Word} {rest : List Word} {len : Nat}
    (hl : descriptorLength w0 rest = some len) : 1 ≤ len ∧ descriptorLength w0 (rest.take (len - 1)) = some len := by
  unfold descriptorLength at hl ⊢
  cases hform : formatOf (opcOf w0) with
  | none => simp_all
  | some form =>
    cases form with
    | b =>
      match rest, hl with
      | [], hl => simp [hform] at hl
      | [_], hl => simp [hform] at hl
      | w1 :: w2 :: img, hl =>
        simp only [hform, Option.some.injEq] at hl
        subst hl
        exact ⟨by omega, by simp [show ∀ n, 3 + n - 1 = n + 2 by omega]⟩
    | _ =>
      simp only [hform, Option.some.injEq] at hl ⊢
      exact ⟨by omega, hl⟩

/-! ### The obligations -/

/-- Settles O2: every operation's words decode to it (`decode_encode_append`), and there are `lengthOf` of them. -/
theorem decodeOfEncode : Obligations.DecodeOfEncode := fun i rest hw => by
  rw [decode_encode_append hw, length_encode hw]

/-- Settles O3: the words that the decoder takes are a complete body, which `encode_of_decodeBody` encodes back. -/
theorem encodeOfDecode : Obligations.EncodeOfDecode := by
  intro words i len h
  obtain ⟨w0, rest, rfl, hl, hle, hb⟩ := decode_eq_ok h
  obtain ⟨hpos, htake⟩ := descriptorLength_take hl
  have hlen : (rest.take (len - 1)).length + 1 = len := by rw [List.length_take]; omega
  obtain ⟨hw, henc⟩ := encode_of_decodeBody (htake.trans (congrArg some hlen.symm)) hb
  refine ⟨hw, ?_, ?_⟩
  · rw [← length_encode hw, henc, List.length_cons, hlen]
  · rw [henc, List.take_cons hpos]

end Sys2Proof.Machine
end

section
/-! What a step makes of the words at DP (30_encoding.md R90, R93; 20_memory.md R64): an illegal descriptor, an
incomplete one, and an operation. -/

namespace Sys2Proof.Machine

/-! ### Illegal fields -/

/-- What follows a complete descriptor does not change its length. -/
theorem descriptorLength_append {w0 : Word} {ops : List Word} {len : Nat} (hl : descriptorLength w0 ops = some len)
    (rest : List Word) : descriptorLength w0 (ops ++ rest) = some len := by
  unfold descriptorLength at hl ⊢
  cases hform : formatOf (opcOf w0) with
  | none => simpa only [hform] using hl
  | some form =>
    simp only [hform] at hl ⊢
    cases form with
    | b =>
      match ops, hl with
      | [], hl => cases hl
      | [_], hl => cases hl
      | _ :: _ :: _, hl => exact hl
    | _ => exact hl

/-- Fields that carry no operation make the descriptor illegal, whatever its reserved bits are. -/
theorem decodeBody_error_of_fields {w0 : Word} {ops : List Word} {why : IllegalReason}
    (h : decodeFields w0 ops = .error why) : ∃ why, decodeBody w0 ops = .error why := by
  unfold decodeBody
  split
  · exact ⟨_, rfl⟩
  · split
    · exact ⟨_, rfl⟩
    · exact ⟨why, h⟩

/-- A reserved bit of `w0` that is 1 (30_encoding.md R93). -/
theorem decodeBody_error_of_reservedBit {w0 mask : Word} (hmem : (opcOf w0, mask) ∈ reservedBits)
    (hbit : w0 &&& mask ≠ 0) (ops : List Word) : decodeBody w0 ops = .error .reservedBit := by
  obtain ⟨rfl, hlisted⟩ := reservedMask_of_mem hmem
  rw [decodeBody, if_neg (by simpa using Option.isSome_iff_ne_none.1 hlisted), if_pos hbit]

/-- A padding bit of an image that is 1 (30_encoding.md R93). -/
theorem decodeFields_error_of_imagePadding {w0 : Word} {ops : List Word} (hopc : opcOf w0 = 0x03 ∨ opcOf w0 = 0x22)
    (hl : descriptorLength w0 ops = some (ops.length + 1)) {k : Nat}
    (hk : (hiOf (ops.getD 1 0)).toNat * (loOf (ops.getD 1 0)).toNat ≤ k) (hlt : k < 32 * (ops.drop 2).length)
    (hbit : imageBit (ops.drop 2) k = true) : decodeFields w0 ops = .error .imagePadding := by
  obtain ⟨w1, w2, img, rfl, hlen⟩ : ∃ w1 w2 img, ops = w1 :: w2 :: img ∧
      img.length = imageWords (hiOf w2).toNat (loOf w2).toNat := by
    rcases hopc with hopc | hopc <;> exact operands_image hopc (by decide) hl
  have hpad : imagePaddingZero (hiOf w2).toNat (loOf w2).toNat img = false :=
    imagePaddingZero_eq_false_iff.2 ⟨k, hk, hlen ▸ hlt, hbit⟩
  rcases hopc with hopc | hopc <;> simp [decodeFields, hopc, withImage, hpad]

/-- A padding byte of a payload that is not 0 (30_encoding.md R93). -/
theorem decodeFields_error_of_dataPadding {w0 : Word} {ops : List Word} (hopc : opcOf w0 = 0x15) {k : Nat}
    (hk : (immOf w0).toNat ≤ k) (hlt : k < 4 * ops.length) (hbyte : dataByte ops k ≠ 0) :
    decodeFields w0 ops = .error .dataPadding := by
  have hmem : dataByte ops k ∈ (ops.flatMap bytesOfWord).drop (immOf w0).toNat := by
    rw [List.mem_iff_getElem?]
    exact ⟨k - (immOf w0).toNat, by rw [List.getElem?_drop, Nat.add_sub_cancel' hk, getElem?_bytes ops k hlt]⟩
  have hpad : dataPaddingZero (immOf w0).toNat ops = false :=
    List.all_eq_false.2 ⟨_, hmem, by simpa using hbyte⟩
  simp [decodeFields, hopc, hpad]

/-- A complete descriptor whose body is in error is found illegal at DP. -/
theorem fetch_illegal_of_decodeBody {s : State} {w0 : Word} {ops rest : List Word} {why : IllegalReason}
    (hdrop : s.stream.drop s.dp = w0 :: (ops ++ rest)) (hl : descriptorLength w0 ops = some (ops.length + 1))
    (hb : decodeBody w0 ops = .error why) : fetch s = .illegal why (opcOf w0) (ops.length + 1) := by
  rw [fetch, hdrop, decode_of_body (descriptorLength_append hl rest), hb]

/-! ### Waiting and running -/

/-- A step with no operation in flight goes by what stands at DP. -/
theorem step_of_fetch_truncated {s : State} (hv : s.cfg.valid = true) (hf : s.inFlight = none)
    (hd : fetch s = .truncated) : step s = .next s := by
  simp only [step, hv, if_true, hf, hd, waitForWords]

/-- A step with no operation in flight executes the operation at DP. -/
theorem step_of_fetch_ok {s : State} {i : Instr} {len : Nat} (hv : s.cfg.valid = true) (hf : s.inFlight = none)
    (hd : fetch s = .ok i len) : step s = exec i s := by
  simp only [step, hv, if_true, hf, hd]

/-- No word, or fewer words than the descriptor asks for, is an incomplete descriptor (30_encoding.md R90). -/
theorem decode_of_too_few {words : List Word}
    (h : words = [] ∨ ∃ w0 rest, words = w0 :: rest ∧
      ∀ len, descriptorLength w0 rest = some len → rest.length + 1 < len) : decode words = .truncated := by
  rcases h with rfl | ⟨w0, rest, rfl, hfew⟩
  · rfl
  · cases hl : descriptorLength w0 rest with
    | none => simp [decode, hl]
    | some len => simp [decode, hl, hfew len hl]

/-- The words placed at DP are the ones found there. -/
theorem drop_streamAt (words stream : List Word) (dp : Nat) : (streamAt words stream dp).drop dp = words := by
  have hlen : (stream.take dp ++ List.replicate (dp - stream.length) 0).length = dp := by simp; omega
  rw [streamAt, List.drop_append_of_le_length hlen.ge, List.drop_of_length_le hlen.le, List.nil_append]

/-- A table word that holds an operation is found at DP as that operation. -/
theorem fetch_withFetchWord {nbits w : Nat} {i : Instr} (h : decodeTableWord nbits w = some i) (s : State) :
    ∃ len, fetch (s.withFetchWord nbits w) = .ok i len := by
  have hdrop : fetch (s.withFetchWord nbits w) = decode (tableWords nbits w) :=
    congrArg decode (drop_streamAt _ _ _)
  unfold decodeTableWord at h
  rw [hdrop]
  cases hd : decode (tableWords nbits w) <;> simp_all

/-- A host word, byte by byte, in either order of the bytes (20_memory.md R64). -/
theorem assembleWords_bytes (w : Word) :
    assembleWords .big [w.extractLsb' 24 8, w.extractLsb' 16 8, w.extractLsb' 8 8, w.extractLsb' 0 8] = [w] ∧
    assembleWords .little [w.extractLsb' 0 8, w.extractLsb' 8 8, w.extractLsb' 16 8, w.extractLsb' 24 8] = [w] := by
  simp only [assembleWords, wordOfBytes_bytesOfWord, and_self]

/-! ### The obligations -/

/-- Settles O5: each of the five causes leaves a body in error, which a step executes as IllegalOperation. -/
theorem illegalFieldHasNoEffect : Obligations.IllegalFieldHasNoEffect := by
  intro s w0 ops rest hv hf hdrop hl hcause
  obtain ⟨why, hb⟩ : ∃ why, decodeBody w0 ops = .error why := by
    rcases hcause with ⟨mask, hmem, hbit⟩ | ⟨hopc, k, hk, hlt, hbit⟩ | ⟨hopc, k, hk, hlt, hbyte⟩ |
      ⟨hopc, hclass⟩ | ⟨hopc, hnum⟩
    · exact ⟨_, decodeBody_error_of_reservedBit hmem hbit ops⟩
    · exact decodeBody_error_of_fields (decodeFields_error_of_imagePadding hopc hl hk hlt hbit)
    · exact decodeBody_error_of_fields (decodeFields_error_of_dataPadding hopc hk hlt hbyte)
    · exact decodeBody_error_of_fields (why := .reservedField) (by simp [decodeFields, hopc, hclass, lutClassOf])
    · exact decodeBody_error_of_fields (why := .reservedField) (by simp [decodeFields, hopc, hnum])
  exact step_onlyReported_of_fetch_illegal hv hf (fetch_illegal_of_decodeBody hdrop hl hb)

/-- Settles O6: the decoder finds an incomplete descriptor at DP. -/
theorem incompleteDescriptorWaits : Obligations.IncompleteDescriptorWaits := fun _ hv hf hfew =>
  step_of_fetch_truncated hv hf (decode_of_too_few hfew)

/-- Settles O7: with no operation in flight, a step is what stands at DP. -/
theorem stepRunsDecoded : Obligations.StepRunsDecoded := fun _ _ _ hv hf hd => step_of_fetch_ok hv hf hd

/-- Settles O8: the placed words stand at DP (`drop_streamAt`), and no operation is in flight. -/
theorem placedWordRunsNext : Obligations.PlacedWordRunsNext := by
  intro s nbits w i hv h
  obtain ⟨len, hd⟩ := fetch_withFetchWord h s
  exact step_of_fetch_ok hv rfl hd

/-- Settles O9: the four bytes assemble to the word, and the word is appended to the stream. -/
theorem hostBytesMakeWords : Obligations.HostBytesMakeWords := by
  intro s w
  obtain ⟨hbig, hlittle⟩ := assembleWords_bytes w
  exact ⟨fun ho => by rw [hostSendBytes, hostSend_stream, ho, hbig],
    fun ho => by rw [hostSendBytes, hostSend_stream, ho, hlittle]⟩

end Sys2Proof.Machine
end

section
/-! What one step can do, and from it the invariant, the transitions of `pstate` and the busy interlock
(10_state.md section 8, 70_reset_and_hazards.md section 3). -/

namespace Sys2Proof.Machine

/-! ### What an operation does before its actions -/

/-- `BusInit` is recorded and nothing else. -/
theorem tracks_busInit (s : State) : Tracks s { s with bus := s.bus.busInit } :=
  ⟨[.busInit s.bus.nextStatus], ⟨⟨⟨by simp, rfl, by simp [levelAfter], by simp [levelAfter], by simp [levelAfter],
    .busInit _ _ .nil, by simp⟩, rfl⟩, id⟩⟩

/-- An operation starts in the state it is found in, INIT after its `BusInit`. -/
theorem Starts.tracks {i : Instr} {s s0 : State} {acts : List Act} {bands : List Band}
    (h : Starts i s acts bands s0) : Tracks s s0 ∧ s0.pstate = s.pstate := by
  cases h with
  | init => exact ⟨tracks_busInit s, rfl⟩
  | _ => exact ⟨Tracks.refl s, rfl⟩

/-- An operation that finishes at once moves `pstate` only by the pulse of RESET. -/
theorem Finishes.tracks {i : Instr} {s s0 : State} {code : ResultCode} {pix : Bool} {data : List Word}
    (h : Finishes i s code pix data s0) :
    Tracks s s0 ∧ (s0.pstate = s.pstate ∨ opcodeOf i = 0x10 ∧ s0.pstate = .resetting) := by
  cases h with
  | busInit => exact ⟨tracks_busInit s, .inl rfl⟩
  | reset => exact ⟨tracks_resetPulse s, .inr ⟨rfl, rfl⟩⟩
  | setPixel | blit => exact ⟨Tracks.of_same rfl id rfl, .inl rfl⟩
  | _ => exact ⟨Tracks.refl s, .inl rfl⟩

/-! ### What a step can do -/

/-- `s0` is `s` after what comes before a run or a completion. -/
structure Begun (s s0 : State) : Prop where
  mid : KeepsMid s.cfg s s0
  tracks : Tracks s s0
  errsticky : s0.errsticky = s.errsticky
  lastResult : s0.lastResult = s.lastResult

/-- What a step from `s` leaves: what a run of an operation's actions and bands leaves, a completion without a run,
or `s` itself where the Engine waits. -/
inductive StepLeaves (s : State) : State → Prop where
  | ran {s0 : State} {opc : Byte} {len : Nat} {acts : List Act} {bands : List Band} (hb : Begun s s0)
      (hp : s0.pstate = s.pstate) (hok : RunOk s.cfg opc acts bands s0) :
      StepLeaves s (runOperation opc len acts bands s0)
  | finished {s0 : State} {opc : Byte} {len : Nat} {code : ResultCode} {pix : Bool} {data : List Word}
      (hb : Begun s s0) (hp : s0.pstate = s.pstate ∨ opc = 0x10 ∧ s0.pstate = .resetting) :
      StepLeaves s (finish opc len code pix data s0)
  | waited : StepLeaves s s

/-- What a step from a state with the invariant leaves. -/
theorem step_leaves {s t : State} (hi : Inv s) (h : step s = .next t) : StepLeaves s t := by
  obtain ⟨-, ⟨f, hf, rfl⟩ | ⟨-, ⟨i, len, -, he⟩ | ⟨why, opc, len, -, rfl⟩ | ⟨-, rfl⟩⟩⟩ := step_cases h
  · exact .ran ⟨.of_same rfl rfl rfl rfl, Tracks.of_same rfl id rfl, rfl, rfl⟩ rfl (runOk_resume (hi.flight f hf))
  · rcases exec_cases he with ⟨acts, bands, s0, hs, rfl⟩ | ⟨code, pix, data, s0, hs, rfl⟩
    · obtain ⟨hm, -, hsticky, hlast⟩ := starts_mid hs
      exact .ran ⟨hm, hs.tracks.1, hsticky, hlast⟩ hs.tracks.2 (runOk_start hs)
    · obtain ⟨hm, -, hsticky, hlast⟩ := finishes_mid hs
      exact .finished ⟨hm, hs.tracks.1, hsticky, hlast⟩ hs.tracks.2
  · exact .finished ⟨.refl _ _, Tracks.refl s, rfl, rfl⟩ (.inl rfl)
  · exact .waited

/-! ### Transitions of `pstate` -/

/-- The ways of 10_state.md R48 for `pstate` to become what it is in `t`. -/
def PStateMoves (s t : State) : Prop :=
  (t.pstate = .resetting ∧
    (t.lastOpc = 0x10 ∨ t.lastOpc = 0x11 ∨ t.lastResult = .panelTimeout ∨
      ∃ f, t.inFlight = some f ∧ f.opc = 0x11)) ∨
  (t.pstate = .initialized ∧ t.lastOpc = 0x11 ∧ t.lastResult = .ok ∧ t.inFlight = none) ∨
  (t.pstate = .sleeping ∧ s.pstate = .initialized ∧ t.lastOpc = 0x12 ∧ t.lastResult = .ok ∧ t.inFlight = none)

/-- A run that ends moves `pstate` as the last action of INIT or SLEEP says. -/
theorem pstate_of_done {c : Cfg} {opc : Byte} {acts : List Act} {bands : List Band} {s s1 : State}
    (hok : RunOk c opc acts bands s) (h : runAll acts bands s = .done s1) :
    s1.pstate = s.pstate ∨ (opc = 0x11 ∧ s1.pstate = .initialized) ∨
      (opc = 0x12 ∧ s.pstate = .initialized ∧ s1.pstate = .sleeping) := by
  rcases hok.shape with hp | ⟨rfl, rfl, m, l, rfl, -⟩ | ⟨rfl, rfl, hps, l, rfl, -⟩
  · have hsame := sameMode_runAll hp bands s
    rw [h] at hsame
    exact .inl hsame.1
  · rw [runAll_concat l (.enterMode m) s (f := fun s => { s with mode := m, pcount := 0, pstate := .initialized })
      (fun _ => rfl)] at h
    cases hr : runActs [] l s <;> rw [hr] at h <;> cases h
    exact .inr (.inl ⟨rfl, rfl⟩)
  · rw [runAll_concat l .enterSleep s (f := fun s => { s with busyPending := false, pstate := .sleeping })
      (fun _ => rfl)] at h
    cases hr : runActs [] l s <;> rw [hr] at h <;> cases h
    exact .inr (.inr ⟨rfl, hps, rfl⟩)

/-- A run that is held has moved `pstate` only by the pulse of INIT. -/
theorem pstate_of_held {c : Cfg} {opc : Byte} {acts a : List Act} {bands b : List Band} {s s1 : State}
    (hok : RunOk c opc acts bands s) (h : runAll acts bands s = .held a b s1) :
    s1.pstate = s.pstate ∨ (opc = 0x11 ∧ s1.pstate = .resetting) := by
  rcases hok.shape with hp | ⟨rfl, rfl, m, l, rfl, hl⟩ | ⟨rfl, rfl, hps, l, rfl, hp⟩
  · have hsame := sameMode_runAll hp bands s
    rw [h] at hsame
    exact .inl hsame.1
  · rw [runAll_concat l (.enterMode m) s (f := fun s => { s with mode := m, pcount := 0, pstate := .initialized })
      (fun _ => rfl)] at h
    cases hr : runActs [] l s <;> rw [hr] at h <;> cases h
    rcases hl with ⟨hp, -⟩ | ⟨l', rfl, hp⟩
    · exact .inl (runActs_held_state hr hp).1
    · exact .inr ⟨rfl, (runActs_held_state (s := resetPulse s) hr hp).1⟩
  · rw [runAll_concat l .enterSleep s (f := fun s => { s with busyPending := false, pstate := .sleeping })
      (fun _ => rfl)] at h
    cases hr : runActs [] l s <;> rw [hr] at h <;> cases h
    exact .inl (runActs_held_state hr hp).1

/-- An operation that runs actions moves `pstate` as the transition table says. -/
theorem pstate_runOperation {c : Cfg} {opc : Byte} {len : Nat} {acts : List Act} {bands : List Band} {s : State}
    (hok : RunOk c opc acts bands s) :
    (runOperation opc len acts bands s).pstate = s.pstate ∨ PStateMoves s (runOperation opc len acts bands s) := by
  rcases runOperation_cases opc len acts bands s with ⟨s1, h, e⟩ | ⟨s1, h, e⟩ | ⟨a, b, s1, h, e⟩ <;> rw [e]
  · rcases pstate_of_done hok h with hsame | ⟨rfl, hinit⟩ | ⟨rfl, hfrom, hsleep⟩
    · exact .inl hsame
    · exact .inr (.inr (.inl ⟨hinit, rfl, rfl, rfl⟩))
    · exact .inr (.inr (.inr ⟨hsleep, hfrom, rfl, rfl, rfl⟩))
  · exact .inr (.inl ⟨rfl, .inr (.inr (.inl rfl))⟩)
  · rcases pstate_of_held hok h with hsame | ⟨rfl, hreset⟩
    · exact .inl hsame
    · exact .inr (.inl ⟨hreset, .inr (.inr (.inr ⟨_, rfl, rfl⟩))⟩)

/-! ### The busy interlock over a step and over a run -/

/-- What comes before a run belongs to the events of the step. -/
theorem Tracks.trans_awake {s s0 t : State} (h : Tracks s s0) (hp : s0.pstate = s.pstate) (h' : TracedAwake s0 t) :
    TracedAwake s t := by
  obtain ⟨a, ha⟩ := h
  obtain ⟨b, hb, hpend⟩ := h'
  refine ⟨a ++ b, Traced.trans ha hb, fun hq => ?_⟩
  rw [pendingAfter_append, ← ha.dc, ← ha.cfg] at hq
  refine (hpend (pendingAfter_mono _ (fun h => ha.pending (by rwa [← ha.cfg])) hq)).imp_right fun hsleep => ?_
  exact ⟨hp ▸ hsleep.1, hsleep.2⟩

/-- Every step keeps the busy interlock. -/
theorem step_tracedAwake {s t : State} (hi : Inv s) (h : step s = .next t) : TracedAwake s t := by
  cases step_leaves hi h with
  | ran hb hp hok => exact hb.tracks.trans_awake hp (tracedAwake_runOperation hok)
  | finished hb _ => exact hb.tracks.awake.of_bus rfl rfl id .inr
  | waited => exact (Tracks.refl s).awake

/-- Every step keeps the invariant. -/
theorem step_inv {s t : State} (hi : Inv s) (h : step s = .next t) : Inv t := by
  have hm := hi.mid (step_cases h).1
  cases step_leaves hi h with
  | ran hb _ hok => exact inv_runOperation hi (hb.mid hm) hb.tracks.logs hb.errsticky hb.lastResult hok
  | finished hb _ => exact inv_finish hi (hb.mid hm) hb.tracks.logs hb.errsticky
  | waited => exact hi

/-- A run of steps that does not enter Sleeping keeps the busy interlock: `busy_pending` carries over from each step
to the next. -/
theorem steps_traced {s t : State} (hi : Inv s) (h : StepsAwake s t) : ∃ ev, Traced s t ev := by
  induction h with
  | refl s => exact (Tracks.refl s).imp fun _ h => h.toTraced
  | step s t u hst hawake _ ih =>
    obtain ⟨ev, hev, hpend⟩ := step_tracedAwake hi hst
    obtain ⟨ev', hev'⟩ := ih (step_inv hi hst)
    exact ⟨ev ++ ev', Traced.trans ⟨hev, fun hq => (hpend hq).resolve_right hawake⟩ hev'⟩

/-! ### The obligations -/

/-- Settles O12: by `step_leaves`, a run or a completion keeps the invariant. -/
theorem stepKeepsInvariant : Obligations.StepKeepsInvariant := fun _ _ hi h => step_inv hi h

/-- Settles O17: only the pulse, the end of INIT, the end of SLEEP and PanelTimeout move `pstate`. -/
theorem pStateTransitions : Obligations.PStateTransitions := by
  intro s t hi h hne
  cases step_leaves hi h with
  | ran hb hp hok =>
    rcases pstate_runOperation hok with hsame | hreset | hinit | ⟨hsleep, hfrom, hrest⟩
    · exact absurd (hsame.trans hp) hne
    · exact .inl hreset
    · exact .inr (.inl hinit)
    · exact .inr (.inr ⟨hsleep, hp ▸ hfrom, hrest⟩)
  | finished hb hp =>
    rcases hp with hsame | ⟨rfl, hreset⟩
    · exact absurd hsame hne
    · exact .inl ⟨hreset, .inl rfl⟩
  | waited => exact absurd rfl hne

/-- Settles O18: `step_tracedAwake` for one step, `steps_traced` for a run. -/
theorem noCommandWhileBusy : Obligations.NoCommandWhileBusy := by
  refine ⟨fun s t hi h => ?_, fun s t hi h => ?_⟩
  · obtain ⟨ev, hev, hpend⟩ := step_tracedAwake hi h
    exact ⟨ev, hev.log, hev.interlock, hev.dc, hpend⟩
  · obtain ⟨ev, hev⟩ := steps_traced hi h
    exact ⟨ev, hev.log, hev.interlock⟩

/-- Settles O11: block reset leaves an empty log, idle pins and nothing in flight. -/
theorem resetMeetsInvariant : Obligations.ResetMeetsInvariant := fun _ _ =>
  { fbCanonical := rfl, fbInside := rfl, stickyBit0 := BitVec.getLsbD_zero, stickyLast := fun h => absurd rfl h
    lutOfV2 := fun _ => rfl, restIdle := fun _ => rfl, csHigh := rfl, rstHigh := rfl, rstLatch := rfl
    dcLatch := rfl, csLatch := rfl, flight := fun _ h => nomatch h }

end Sys2Proof.Machine
end

section
/-! What a step reports (60_exceptions.md section 2) and what it leaves alone (10_state.md section 5,
20_memory.md section 1, 41_panel_protocol.md section 1). -/

namespace Sys2Proof.Machine

/-! ### Every operation and every step has a next state -/

/-- No operation stops (60_exceptions.md R213). -/
theorem exec_next (i : Instr) (s : State) : ∃ t, exec i s = .next t := by
  cases i <;> exact ⟨_, rfl⟩

/-- No step stops the block. -/
theorem step_next_of_valid {s : State} (hv : s.cfg.valid = true) : ∃ t, step s = .next t := by
  unfold step
  rw [if_pos hv]
  cases s.inFlight with
  | some f => exact ⟨_, rfl⟩
  | none =>
    cases fetch s with
    | ok i len => exact exec_next i s
    | illegal why opc len => exact ⟨_, rfl⟩
    | truncated => exact ⟨_, rfl⟩

/-! ### What is reported -/

/-- An operation that runs actions reports OK, or PanelTimeout under a finite budget, or under UNBOUNDED stays in
flight and reports nothing. -/
theorem runOperation_reports {s s0 : State} {opc : Byte} {len : Nat} {acts : List Act} {bands : List Band}
    (hf : RunFrame s s0) :
    (∃ code, (code = .ok ∨ (code = .panelTimeout ∧ s.cfg.busyBudget ≠ none)) ∧
      Reported opc len code false [] s (runOperation opc len acts bands s0)) ∨
    (s.cfg.busyBudget = none ∧ StillInFlight opc len s (runOperation opc len acts bands s0)) := by
  have hfr := hf.trans (runAll_frame acts bands s0)
  rcases runOperation_cases opc len acts bands s0 with ⟨s1, h, e⟩ | ⟨s1, h, e⟩ | ⟨a, b, s1, h, e⟩ <;>
    rw [h] at hfr <;> rw [e]
  · exact .inl ⟨.ok, .inl rfl, reported_of_runFrame hfr⟩
  · obtain ⟨b, hb⟩ := runAll_timedOut h
    exact .inl ⟨.panelTimeout, .inr ⟨rfl, by rw [← hf.cfg, hb]; exact Option.some_ne_none b⟩,
      reported_finish (s0 := { s1 with pstate := .resetting, busyPending := true }) hfr.errsticky hfr.dp
        hfr.responses⟩
  · exact .inr ⟨by rw [← hf.cfg]; exact (runAll_held h).1, ⟨_, rfl, rfl, rfl⟩, hfr.lastOpc, hfr.lastResult,
      hfr.errsticky, hfr.dp, hfr.responses⟩

/-- An operation that finishes at once reports a result other than PanelTimeout. -/
theorem Finishes.code_ne_panelTimeout {i : Instr} {s s0 : State} {code : ResultCode} {pix : Bool} {data : List Word}
    (h : Finishes i s code pix data s0) : code ≠ .panelTimeout := by
  cases h with
  | error _ _ _ _ h2 _ => exact h2
  | _ => exact nofun

/-- An operation reports once, PanelTimeout under a finite budget only, or under UNBOUNDED stays in flight and
reports nothing. -/
theorem exec_reports {i : Instr} {s t : State} (h : exec i s = .next t) :
    (∃ code pix data, (code = .panelTimeout → s.cfg.busyBudget ≠ none) ∧
      Reported (opcodeOf i) (lengthOf i) code pix data s t) ∨
    (s.cfg.busyBudget = none ∧ StillInFlight (opcodeOf i) (lengthOf i) s t) := by
  rcases exec_cases h with ⟨acts, bands, s0, hs, rfl⟩ | ⟨code, pix, data, s0, hs, rfl⟩
  · refine (runOperation_reports hs.runFrame).imp_left fun ⟨code, hcode, hr⟩ => ⟨code, false, [], ?_, hr⟩
    rintro rfl
    exact (hcode.resolve_left nofun).2
  · exact .inl ⟨code, pix, data, fun hcode => absurd hcode hs.code_ne_panelTimeout, reported_of_runFrame hs.runFrame⟩

/-- Nothing of a report looks at the operation in flight before it. -/
theorem StillInFlight.of_inFlight {opc : Byte} {len : Nat} {f : Option InFlight} {s t : State}
    (h : StillInFlight opc len { s with inFlight := f } t) : StillInFlight opc len s t :=
  ⟨h.1, h.2.lastOpc, h.2.lastResult, h.2.errsticky, h.2.dp, h.2.responses⟩

/-- A resumed operation reports OK or PanelTimeout, or stays in flight and reports nothing. -/
theorem resume_reports (f : InFlight) (s : State) :
    (∃ code, (code = .ok ∨ (code = .panelTimeout ∧ s.cfg.busyBudget ≠ none)) ∧
      Reported f.opc f.len code false [] s (resumeOperation f s)) ∨
    StillInFlight f.opc f.len s (resumeOperation f s) :=
  (runOperation_reports (RunFrame.refl { s with inFlight := none })).imp
    (fun ⟨code, hcode, hr⟩ => ⟨code, hcode, hr.of_inFlight⟩) fun h => h.2.of_inFlight

/-- What a step reports: one descriptor, PanelTimeout under a finite budget only, or nothing. -/
theorem step_reports {s t : State} (h : step s = .next t) :
    (∃ opc len code pix data, (code = .panelTimeout → s.cfg.busyBudget ≠ none) ∧
      Reported opc len code pix data s t) ∨ NothingReported s t := by
  obtain ⟨-, ⟨f, -, rfl⟩ | ⟨-, ⟨i, len, -, he⟩ | ⟨why, opc, len, -, rfl⟩ | ⟨-, rfl⟩⟩⟩ := step_cases h
  · refine (resume_reports f s).imp (fun ⟨code, hcode, hr⟩ => ⟨_, _, code, _, _, ?_, hr⟩) fun h => h.2
    rintro rfl
    exact (hcode.resolve_left nofun).2
  · exact (exec_reports he).imp (fun ⟨code, pix, data, hcode, hr⟩ => ⟨_, _, code, pix, data, hcode, hr⟩)
      fun h => h.2.2
  · exact .inl ⟨_, _, .illegalOperation, _, _, nofun, (onlyReported_raiseError opc len _ s).reported⟩
  · exact .inr ⟨rfl, rfl, rfl, rfl, rfl⟩

/-! ### What is never written -/

theorem runOperation_inputs {s s0 : State} (hf : SameInputs s s0) (opc : Byte) (len : Nat) (acts : List Act)
    (bands : List Band) : SameInputs s (runOperation opc len acts bands s0) := by
  have hfr := runAll_frame acts bands s0
  rcases runOperation_cases opc len acts bands s0 with ⟨s1, h, e⟩ | ⟨s1, h, e⟩ | ⟨a, b, s1, h, e⟩ <;>
    rw [h] at hfr <;> rw [e] <;> exact ⟨hfr.cfg.trans hf.cfg, hfr.stream.trans hf.stream⟩

/-- No operation writes the configuration or the host's words. -/
theorem exec_inputs {i : Instr} {s t : State} (h : exec i s = .next t) : SameInputs s t := by
  rcases exec_cases h with ⟨acts, bands, s0, hs, rfl⟩ | ⟨code, pix, data, s0, hs, rfl⟩
  · exact runOperation_inputs ⟨hs.runFrame.cfg, hs.runFrame.stream⟩ _ _ _ _
  · exact ⟨hs.runFrame.cfg, hs.runFrame.stream⟩

/-- No step writes the configuration or the host's words. -/
theorem step_inputs {s t : State} (h : step s = .next t) : SameInputs s t := by
  obtain ⟨-, ⟨f, -, rfl⟩ | ⟨-, ⟨i, len, -, he⟩ | ⟨why, opc, len, -, rfl⟩ | ⟨-, rfl⟩⟩⟩ := step_cases h
  · exact runOperation_inputs (s := s) (s0 := { s with inFlight := none }) ⟨rfl, rfl⟩ _ _ _ _
  · exact exec_inputs he
  · exact ⟨rfl, rfl⟩
  · exact ⟨rfl, rfl⟩

/-- An operation that runs no bands leaves FB. -/
theorem runOperation_fb (opc : Byte) (len : Nat) (acts : List Act) (s : State) :
    (runOperation opc len acts [] s).fb = s.fb := by
  have hfb := runAll_fb acts s
  rcases runOperation_cases opc len acts [] s with ⟨s1, h, e⟩ | ⟨s1, h, e⟩ | ⟨a, b, s1, h, e⟩ <;>
    rw [h] at hfb <;> rw [e] <;> exact hfb

/-- What starts a run leaves FB. -/
theorem Starts.fb {i : Instr} {s s0 : State} {acts : List Act} {bands : List Band} (h : Starts i s acts bands s0) :
    s0.fb = s.fb := by
  cases h <;> rfl

/-! ### The obligations -/

/-- Settles O13: a step looks at the configuration first, and after that every case has a next state. -/
theorem nothingStopsTheBlock : Obligations.NothingStopsTheBlock := fun s =>
  ⟨step_next_of_valid, fun hv => by simp only [step, hv, Bool.false_eq_true, if_false]⟩

/-- Settles O14: the log by `step_logs`, the rest by what the step reports. -/
theorem stepOnlyAdds : Obligations.StepOnlyAdds := by
  intro s t h
  obtain ⟨ev, hev⟩ := step_logs h
  refine ⟨step_inputs h, ?_⟩
  rcases step_reports h with ⟨opc, len, code, pix, data, -, hr⟩ | hn
  · obtain ⟨r0, -, hresp⟩ := hr.response
    exact ⟨by rw [hr.dp]; omega, ⟨ev, hev.log⟩, ⟨_, hresp⟩, fun k hk hset => by rw [hr.sticky k hk, hset]; rfl⟩
  · exact ⟨hn.dp.ge, ⟨ev, hev.log⟩, ⟨[], by rw [hn.responses, List.append_nil]⟩,
      fun k _ hset => by rw [hn.errsticky, hset]⟩

/-- Settles O15: by `exec_reports`. -/
theorem everyDescriptorReportsOnce : Obligations.EveryDescriptorReportsOnce := fun _ _ _ h =>
  (exec_reports h).imp_left fun ⟨code, pix, data, _, hr⟩ => ⟨code, pix, data, hr⟩

/-- Settles O16: the case split of the statement is the one of `step`; the length decoded is that of the operation
(`encodeOfDecode`). -/
theorem stepReportsAtMostOnce : Obligations.StepReportsAtMostOnce := by
  intro s t h
  obtain ⟨-, ⟨f, hf, rfl⟩ | ⟨hf, hcase⟩⟩ := step_cases h
  · rw [hf]
    exact (resume_reports f s).imp_left fun ⟨code, hcode, hr⟩ => ⟨code, hcode.imp_right And.left, hr⟩
  · rw [hf]
    rcases hcase with ⟨i, len, hd, he⟩ | ⟨why, opc, len, hd, rfl⟩ | ⟨hd, rfl⟩ <;> rw [fetch] at hd <;> simp only [hd]
    · obtain ⟨-, rfl, -⟩ := encodeOfDecode _ _ _ hd
      exact (exec_reports he).imp (fun ⟨code, pix, data, _, hr⟩ => ⟨code, pix, data, hr⟩) And.right
    · exact (onlyReported_raiseError opc len _ s).reported

/-- Settles O33: under UNBOUNDED no result is PanelTimeout, and only that one sets sticky bit 8. -/
theorem unboundedNeverTimesOut : Obligations.UnboundedNeverTimesOut := by
  intro s t hb h
  rcases step_reports h with ⟨opc, len, code, pix, data, hcode, hr⟩ | hn
  · have hne : code ≠ .panelTimeout := fun hc => hcode hc hb
    refine ⟨?_, fun hl => absurd (hr.lastResult.symm.trans hl) hne⟩
    have hnum : 8 ≠ resultNumber code := fun h =>
      hne (ResultCode.toNat_inj ((resultNumber_eq code).symm.trans h.symm))
    rw [hr.sticky 8 (by decide), decide_eq_false hnum, Bool.and_false, Bool.or_false]
  · exact ⟨by rw [hn.errsticky], fun _ => .inr ⟨hn.lastResult, hn.responses⟩⟩

/-- Settles O19: `step_logs`, and framed events end with chip-select high. -/
theorem transfersAreFramed : Obligations.TransfersAreFramed := by
  intro s t hcs h
  obtain ⟨ev, hev⟩ := step_logs h
  exact ⟨ev, hev.log, hev.framed, by rw [hev.cs, hcs]; exact hev.framed.levelAfter⟩

/-- Settles O20: `step_logs` carries it for every transfer. -/
theorem perByteTransfersOneByte : Obligations.PerByteTransfersOneByte := by
  intro s t hc h
  obtain ⟨ev, hev⟩ := step_logs h
  exact ⟨ev, hev.log, hev.perByte hc⟩

/-- Settles O22: of the operations that run, DRAW and FILL have bands; of those that finish at once, SET_PIXEL and
BLIT write FB. -/
theorem onlyFourOperationsWriteFb : Obligations.OnlyFourOperationsWriteFb := by
  intro i s t h hne
  rcases exec_cases h with ⟨acts, bands, s0, hs, rfl⟩ | ⟨code, pix, data, s0, hs, rfl⟩
  · have hfb := hs.fb
    cases hs with
    | draw => exact .inr (.inr (.inl ⟨_, _, _, _, _, rfl⟩))
    | fill => exact .inr (.inr (.inr ⟨_, _, rfl⟩))
    | _ => exact absurd ((runOperation_fb _ _ _ _).trans hfb) hne
  · cases hs with
    | setPixel => exact .inl ⟨_, _, _, rfl⟩
    | blit => exact .inr (.inl ⟨_, _, _, _, _, rfl⟩)
    | _ => exact absurd rfl hne

/-- Settles O23: the five operations never run actions, and finish in a state with the bus and the panel state they
found. -/
theorem framebufferOperationsLeaveThePanel : Obligations.FramebufferOperationsLeaveThePanel := by
  intro i s t hopc h
  rcases exec_cases h with ⟨acts, bands, s0, hs, rfl⟩ | ⟨code, pix, data, s0, hs, rfl⟩
  · cases hs <;> exact absurd hopc (by simp [opcodeOf])
  · cases hs with
    | busInit | reset => exact absurd hopc (by simp [opcodeOf])
    | _ => exact ⟨rfl, ⟨rfl, rfl, rfl, rfl, rfl⟩, rfl, rfl⟩

end Sys2Proof.Machine
end

section
/-! The framebuffer operations inside the buffer (40_framebuffer.md R113 to R116), bit by bit. -/

namespace Sys2Proof.Machine

/-! ### Bits of FB -/

/-- A pixel write sets one bit of one byte (20_memory.md R62, R70). -/
theorem getLsbD_fbRead_writePixel {c : Cfg} {m : Memory} (hw : Memory.wf c.fillByte m = true) (x y : Nat) (v : Bool)
    (k : Nat) {i : Nat} (hi : i < 8) :
    (fbRead c (writePixel c m x y v) k).getLsbD i =
      if k = pixelIndex c x y ∧ i = 7 - x % 8 then v else (fbRead c m k).getLsbD i := by
  rw [fbRead_writePixel hw]
  by_cases hk : k = pixelIndex c x y
  · rw [if_pos hk, getLsbD_putBits _ _ _ hi]
    simp only [hk, true_and]
  · rw [if_neg hk, if_neg fun h => hk h.1]

/-- Payload byte `k` of image words is eight image bits, the first one most significant (30_encoding.md R88, R89). -/
theorem getLsbD_dataByte (words : List Word) (k : Nat) {i : Nat} (hi : i < 8) :
    (dataByte words k).getLsbD i = imageBit words (8 * k + (7 - i)) := by
  have hdiv : (8 * k + (7 - i)) / 32 = k / 4 := by omega
  have hbit : 31 - (8 * k + (7 - i)) % 32 = 24 - 8 * (k % 4) + i := by omega
  rw [dataByte, imageBit, hdiv, hbit, BitVec.getLsbD_extractLsb', decide_eq_true hi, Bool.true_and]

/-- Bit `8*k + r` of the buffer, row by row, is in row `k / rowBytes`. -/
theorem row_of_bit {width rowBytes k r : Nat} (hw : 8 * rowBytes = width) (hpos : 0 < rowBytes) (hr : r < 8) :
    (8 * k + r) / width = k / rowBytes ∧ (8 * k + r) % width = 8 * (k % rowBytes) + r := by
  have hlt : 8 * (k % rowBytes) + r < width := by have := Nat.mod_lt k hpos; omega
  have hsplit : 8 * k + r = width * (k / rowBytes) + (8 * (k % rowBytes) + r) := by
    rw [← hw, Nat.mul_assoc, ← Nat.add_assoc, ← Nat.mul_add, Nat.div_add_mod]
  constructor
  · rw [hsplit, Nat.mul_add_div (by omega), Nat.div_eq_of_lt hlt, Nat.add_zero]
  · rw [hsplit, Nat.mul_add_mod, Nat.mod_eq_of_lt hlt]

/-- The words of READ_IMAGE hold the bytes of FB, and 0 past its end (40_framebuffer.md R116). -/
theorem dataByte_fbImage {c : Cfg} (hv : c.valid = true) (m : Memory) (k : Nat) :
    dataByte (fbImage c m) k = if k < c.fbSize then fbRead c m k else 0 := by
  have hg := valid_width hv
  have h8 := rowBytes_mul hg
  have hwidth : 8 ≤ c.width := (valid_parts hv).2.2.2.2.2.2
  have hbits : c.width * c.height = 8 * c.fbSize := by
    rw [← h8, Nat.mul_assoc]; rfl
  apply BitVec.eq_of_getLsbD_eq
  intro i hi
  obtain ⟨hrow, hcol⟩ := row_of_bit (k := k) (r := 7 - i) h8 (by omega) (by omega)
  rw [getLsbD_dataByte _ _ hi, fbImage, packImage, imageBit_packBits, hbits, hrow, hcol]
  by_cases hk : k < c.fbSize
  · obtain ⟨-, -, hidx, hbit⟩ := pixel_of_byte hg hk hi
    rw [if_pos hk, decide_eq_true (by omega), Bool.true_and, pixelOf_eq_bit, hidx, hbit]
  · rw [if_neg hk, decide_eq_false (by omega), Bool.false_and]
    exact BitVec.getLsbD_zero.symm

/-- BLIT inside the buffer (40_framebuffer.md R115). -/
theorem blit_next {s : State} {x y w h : Half} (img : List Word) (hx : x.toNat + w.toNat ≤ s.cfg.width)
    (hy : y.toNat + h.toNat ≤ s.cfg.height) :
    exec (.blit x y w h img) s = .next (finishOk 0x03 (3 + imageWords w.toNat h.toNat)
      { s with fb := blitCore s.cfg s.fb x.toNat y.toNat w.toNat h.toNat img }) := by
  have hb : inBoundsRect s.cfg x.toNat y.toNat w.toNat h.toNat = true := by simp [inBoundsRect, hx, hy]
  simp only [exec, execBlit, hb, if_true]

/-! ### The obligations -/

/-- Settles O36: by `getLsbD_fbRead_writePixel`. -/
theorem setPixelWritesOneBit : Obligations.SetPixelWritesOneBit := fun _ v _ _ _ hwf hx hy =>
  ⟨_, setPixel_next hx hy, reported_finish rfl rfl rfl, ⟨rfl, rfl, rfl, rfl, rfl⟩, rfl, ⟨rfl, rfl⟩,
    fun k _ hi => getLsbD_fbRead_writePixel hwf _ _ v k hi⟩

/-- Settles O37: the pixel answered is one bit of one byte (`pixelOf_eq_bit`). -/
theorem getPixelReadsOneBit : Obligations.GetPixelReadsOneBit := fun s x y hx hy =>
  ⟨_, getPixel_next hx hy, pixelOf_eq_bit s.cfg s.fb x.toNat y.toNat ▸ reported_finish rfl rfl rfl,
    ⟨rfl, rfl, rfl, rfl, rfl⟩, rfl, rfl, ⟨rfl, rfl⟩⟩

/-- Settles O38: the pixels by `pixelOf_blitCore`, the bytes past the buffer by `fbRead_blitCore_ge`. -/
theorem blitWritesItsRectangle : Obligations.BlitWritesItsRectangle := by
  intro s x y w h img hv hwf hx hy
  have hin : inBoundsRect s.cfg x.toNat y.toNat w.toNat h.toNat = true := by simp [inBoundsRect, hx, hy]
  refine ⟨_, blit_next img hx hy, reported_finish rfl rfl rfl, ⟨rfl, rfl, rfl, rfl, rfl⟩, rfl, ⟨rfl, rfl⟩,
    fun px py hpx _ => ?_, fun k hk => fbRead_blitCore_ge (valid_width hv) hwf hin img hk⟩
  refine (pixelOf_blitCore (valid_width hv) hwf hin img hpx py).trans ?_
  simp only [and_assoc]

/-- Settles O39: the words answered are those of `fbImage`, which hold the bytes of FB (`dataByte_fbImage`). -/
theorem readImageReturnsFb : Obligations.ReadImageReturnsFb := by
  intro s hv
  have hread : exec .readImage s = .next (finish 0x04 1 .ok false (fbImage s.cfg s.fb) s) := rfl
  refine ⟨_, fbImage s.cfg s.fb, hread, reported_finish rfl rfl rfl, ⟨rfl, rfl, rfl, rfl, rfl⟩, rfl, rfl, ⟨rfl, rfl⟩,
    ?_, fun k _ => dataByte_fbImage hv s.fb k⟩
  rw [fbImage, packImage, length_packBits]

end Sys2Proof.Machine
end

section
/-! The panel protocol operations of one action (41_panel_protocol.md R135 to R140): RESET, SEND_COMMAND and
WAIT_IDLE, on known BUSY levels. -/

namespace Sys2Proof.Machine

/-! ### An operation of one action -/

/-- One action that ends. -/
theorem runOperation_act_done {a : Act} {s t : State} (h : runAct a s = .done t) (opc : Byte) (len : Nat) :
    runOperation opc len [a] [] s = finishOk opc len t :=
  runOperation_done (by simp only [runActs, h])

/-- One action that times out. -/
theorem runOperation_act_timedOut {a : Act} {s t : State} (h : runAct a s = .timedOut t) (opc : Byte) (len : Nat) :
    runOperation opc len [a] [] s = raiseTimeout opc len t := by
  simp only [runOperation, runAll, runActs, h, settle]

/-- One action that is held. -/
theorem runOperation_act_held {a : Act} {s t : State} (h : runAct a s = .held t) (opc : Byte) (len : Nat) :
    runOperation opc len [a] [] s = { t with inFlight := some ⟨opc, len, [a], []⟩ } := by
  simp only [runOperation, runAll, runActs, h, settle]

/-- PanelTimeout is reported with the bookkeeping of the state before the run. -/
theorem reported_raiseTimeout {s s1 : State} (h : RunFrame s s1) (opc : Byte) (len : Nat) :
    Reported opc len .panelTimeout false [] s (raiseTimeout opc len s1) :=
  reported_finish (s0 := { s1 with pstate := .resetting, busyPending := true }) h.errsticky h.dp h.responses

/-! ### The state after a poll -/

/-- The state after `k` reads of the busy level and one of the idle level, `rest` being the levels still queued. -/
def polledIdle (k : Nat) (rest : List Level) (s : State) : State :=
  { s with
    busyPending := false
    bus := { s.bus with
      log := s.bus.log ++ busyPolls s.cfg k ++ [.busyRead s.cfg.idleLevel], busyIn := rest } }

/-- A poll that reads `k` busy levels within the budget and then the idle level (41_panel_protocol.md R133). -/
theorem waitIdleI_polledIdle {k : Nat} {s : State} {rest : List Level} (hb : withinBudget s.cfg k)
    (h : s.bus.busyIn = List.replicate k (!s.cfg.idleLevel) ++ s.cfg.idleLevel :: rest) :
    waitIdleI s = .done (polledIdle k rest s) := by
  rw [waitIdleI_of_queue hb h, pollIdle_of_queue (rest := rest) rfl]
  rfl

/-- The state after the reads that spend a budget, `rest` being the levels still queued. -/
def polledOut (budget : Nat) (rest : List Level) (s : State) : State :=
  { s with
    bus := { s.bus with
      log := s.bus.log ++ busyPolls s.cfg budget ++ [.busyRead (!s.cfg.idleLevel)], busyIn := rest } }

/-- A failing poll leaves everything an operation reports with. -/
theorem polledOut_frame (budget : Nat) (rest : List Level) (s : State) : RunFrame s (polledOut budget rest s) :=
  ⟨rfl, rfl, rfl, rfl, rfl, rfl, rfl, rfl⟩

/-- A poll that reads busy levels until its budget is spent (41_panel_protocol.md R133). -/
theorem waitIdleI_polledOut {budget : Nat} {s : State} {rest : List Level} (hb : s.cfg.busyBudget = some budget)
    (h : s.bus.busyIn = List.replicate (budget + 1) (!s.cfg.idleLevel) ++ rest) :
    waitIdleI s = .timedOut (polledOut budget rest s) := by
  rw [waitIdleI_spent hb h, readBusy, busyRead_of_queue (rest := rest) rfl]
  rfl

/-- The events of one more read of the busy level. -/
theorem busyPolls_concat (c : Cfg) (k : Nat) :
    busyPolls c (k + 1) = busyPolls c k ++ [.busyRead (!c.idleLevel), .delay c.pollDelayMs] := by
  simp [busyPolls, List.replicate_succ']

/-- A poll without a budget whose queued levels are all busy goes on to one free level. -/
theorem waitIdleI_free {k : Nat} {s : State} (hb : s.cfg.busyBudget = none)
    (h : s.bus.busyIn = List.replicate k (!s.cfg.idleLevel)) :
    waitIdleI s =
      if Config.freeBusy s.bus.busyDrawn = s.cfg.idleLevel then .done (pollIdle (polled k [] s))
      else .held (pollBusy (polled k [] s)) := by
  rw [waitIdleI_unbounded hb, waitUnbounded_polls k (rest := []) (by rw [h, List.append_nil]), waitUnbounded]
  exact if_congr decide_eq_true_iff rfl rfl

/-! ### The state after a command byte -/

/-- A transaction moves DC and chip-select and is recorded; the rest of the bus stays (41_panel_protocol.md R130). -/
theorem Bus.transaction_eq (b : Bus) (dc : Level) (bytes : List Byte) :
    b.transaction dc bytes = { b with log := b.log ++ transactionEvents dc bytes, dc := dc, cs := true } :=
  Bus.eq_of_fields (Bus.transaction_log b dc bytes) (by simp) (by simp) (by simp) (by simp) (by simp) (by simp) (by simp)

/-- A command byte with no busy state pending is one transaction. -/
theorem sendCommandI_not_pending {s : State} (h : s.busyPending = false) (op8 : Byte) :
    sendCommandI op8 s = .done (transmitCommand op8 s) := by
  simp only [sendCommandI, h, Bool.false_eq_true, if_false]

/-- A command byte with a busy state pending comes after a poll (41_panel_protocol.md R131). -/
theorem sendCommandI_pending_done {s s1 : State} (h : s.busyPending = true) (hw : waitIdleI s = .done s1)
    (op8 : Byte) : sendCommandI op8 s = .done (transmitCommand op8 s1) := by
  simp only [sendCommandI, h, if_true, hw]

/-- A command byte whose poll times out is not sent. -/
theorem sendCommandI_pending_timedOut {s s1 : State} (h : s.busyPending = true) (hw : waitIdleI s = .timedOut s1)
    (op8 : Byte) : sendCommandI op8 s = .timedOut s1 := by
  simp only [sendCommandI, h, if_true, hw]

/-! ### The obligations -/

/-- Settles O31: the poll reads until its budget is spent (`waitIdleI_polledOut`). -/
theorem waitIdleTimesOut : Obligations.WaitIdleTimesOut := by
  intro s budget rest hb hq
  have hrun := runOperation_act_timedOut (a := .waitIdle) (waitIdleI_polledOut hb hq) 0x13 1
  exact ⟨_, congrArg Host.Outcome.next hrun, reported_raiseTimeout (polledOut_frame budget rest s) _ _,
    rfl, rfl, rfl, rfl, rfl, rfl, ⟨rfl, rfl⟩, rfl⟩

/-- Settles O32: the poll reads up to the idle level (`waitIdleI_polledIdle`). -/
theorem waitIdleCompletes : Obligations.WaitIdleCompletes := by
  intro s k rest hb hq
  have hrun := runOperation_act_done (a := .waitIdle) (waitIdleI_polledIdle hb hq) 0x13 1
  exact ⟨_, congrArg Host.Outcome.next hrun, reported_finish rfl rfl rfl, rfl, rfl, rfl, rfl, rfl, rfl, ⟨rfl, rfl⟩, rfl⟩

/-- Settles O34: after the queued levels the poll reads one free level and goes by it (`waitIdleI_free`). -/
theorem unboundedPollIsHeld : Obligations.UnboundedPollIsHeld := by
  intro s k hb hq
  have hw := waitIdleI_free hb hq
  by_cases hfree : Config.freeBusy s.bus.busyDrawn = s.cfg.idleLevel
  · rw [if_pos hfree] at hw
    have hrun := runOperation_act_done (a := .waitIdle) hw 0x13 1
    refine ⟨_, congrArg Host.Outcome.next hrun, rfl, ⟨rfl, rfl⟩, rfl, rfl, ?_⟩
    rw [if_pos hfree]
    refine ⟨reported_finish rfl rfl rfl, rfl, ?_⟩
    rw [← hfree]; rfl
  · rw [if_neg hfree] at hw
    have hrun := runOperation_act_held (a := .waitIdle) hw 0x13 1
    refine ⟨_, congrArg Host.Outcome.next hrun, rfl, ⟨rfl, rfl⟩, rfl, rfl, ?_⟩
    rw [if_neg hfree]
    refine ⟨rfl, rfl, rfl, ⟨rfl, rfl, rfl, rfl, rfl⟩, ?_⟩
    rw [busyPolls_concat, ← Bool.eq_not_of_ne hfree, ← List.append_assoc]
    exact (List.append_assoc _ [_] [_])

/-- Settles O45: the events and the level of the pulse by `pulse_bus` and `pulse_rst`. -/
theorem resetPulses : Obligations.ResetPulses := by
  intro s
  obtain ⟨hlog, hdc, hcs, hbusyIn, hbusyDrawn, hstatusIn, hstatusDrawn⟩ := pulse_bus s.cfg.p.resetSeq s.bus
  exact ⟨finishOk 0x10 1 (resetPulse s), rfl, reported_finish rfl rfl rfl, hlog, fun _ _ h => pulse_rst _ _ h, rfl, rfl,
    rfl, rfl, rfl, rfl, ⟨rfl, rfl⟩, hdc, hcs, hbusyIn, hbusyDrawn, hstatusIn, hstatusDrawn⟩

/-- Settles O46: with nothing pending the byte is sent at once (`sendCommandI_not_pending`). -/
theorem sendCommandCompletes : Obligations.SendCommandCompletes := by
  intro s op8 hp
  have hrun := runOperation_act_done (a := .cmd op8) (sendCommandI_not_pending hp op8) 0x14 1
  refine ⟨_, congrArg Host.Outcome.next hrun, reported_finish rfl rfl rfl, ?_, rfl, rfl, rfl, rfl, rfl, ⟨rfl, rfl⟩,
    Bus.transaction_eq _ _ _⟩
  show (s.busyPending || s.cfg.triggersBusy op8) = _
  rw [hp]; rfl

/-- Settles O47: the poll comes first, and the byte after it or not at all. -/
theorem sendCommandWaitsForIdle : Obligations.SendCommandWaitsForIdle := by
  intro s op8 hp
  constructor
  · intro k rest hb hq
    have hcmd := sendCommandI_pending_done hp (waitIdleI_polledIdle hb hq) op8
    have hrun := runOperation_act_done (a := .cmd op8) hcmd 0x14 1
    exact ⟨_, congrArg Host.Outcome.next hrun, reported_finish rfl rfl rfl, rfl, rfl, rfl, rfl, rfl, rfl, ⟨rfl, rfl⟩,
      Bus.transaction_eq _ _ _⟩
  · intro budget rest hb hq
    have hcmd := sendCommandI_pending_timedOut hp (waitIdleI_polledOut hb hq) op8
    have hrun := runOperation_act_timedOut (a := .cmd op8) hcmd 0x14 1
    exact ⟨_, congrArg Host.Outcome.next hrun, reported_raiseTimeout (polledOut_frame budget rest s) _ _,
      rfl, rfl, rfl, rfl, rfl, rfl, ⟨rfl, rfl⟩, rfl⟩

end Sys2Proof.Machine
end

section
/-! The operations that run protocol steps on a panel that answers idle (41_panel_protocol.md R141 to R143): INIT,
SLEEP and SET_LUT. -/

namespace Sys2Proof.Machine

/-! ### A run on a panel that answers idle -/

/-- Plain actions on a panel that answers idle run to their end, with every event of their protocol steps. -/
theorem runActs_plain_ready (bands : List Band) {acts : List Act} {n : Nat} {s : State}
    (ha : ∀ a ∈ acts, a.plain = true) (hr : PanelReady n s) (hn : pollsOf acts ≤ n) :
    ∃ t, runActs bands acts s = .done t ∧
      t.bus.log = s.bus.log ++ stepsEvents s.cfg s.busyPending (protoSteps acts) := by
  have hr' : PanelReady (0 + pollsOf acts) s := hr.mono (by omega)
  obtain ⟨t, hrun, -⟩ := runActs_ready bands hr'
  exact ⟨t, hrun, log_runActs_ready ha hr' hrun⟩

/-- What an operation leaves alone whose actions ended and hold no reset pulse. -/
theorem Ran.finishOk_frame {acts : List Act} {s t : State} (h : Ran acts s t) (hn : .resetPulse ∉ acts) (opc : Byte)
    (len : Nat) :
    (finishOk opc len t).fb = s.fb ∧ SameInputs s (finishOk opc len t) ∧ LinkFrame s (finishOk opc len t) := by
  obtain ⟨hrst, hcs, hstatusIn, hstatusDrawn⟩ := h.linkFrame hn
  exact ⟨h.frame.fb, ⟨h.frame.cfg, h.frame.stream⟩, hrst, hcs, hstatusIn, hstatusDrawn⟩

/-- A run deasserts chip-select again (41_panel_protocol.md R130). -/
theorem Ran.cs {acts : List Act} {s t : State} (h : Ran acts s t) (hc : s.bus.cs = true) : t.bus.cs = true := by
  obtain ⟨ev, hev, -⟩ := h.wire
  rw [hev.cs, hc]
  exact hev.framed.levelAfter

/-! ### The steps of INIT -/

theorem protoSteps_initLut (c : Cfg) (m : Mode) : protoSteps (initLutActs c m) = initLutSteps c m := by
  unfold initLutActs initLutSteps
  cases c.p.variantTable with
  | v1 t => exact (protoSteps_programLut t _).trans (by rw [modeLut_eq])
  | v2 => rfl

theorem pollsOf_initLut (c : Cfg) (m : Mode) : pollsOf (initLutActs c m) ≤ 5 := by
  obtain e | ⟨t, -, e⟩ := initLutActs_eq c m
  · rw [e]; exact Nat.zero_le _
  · rw [e, pollsOf_programLut]

/-- The actions of INIT between the pulse and the entry into Initialized. -/
def initMiddleActs (c : Cfg) (m : Mode) (steps : List ProtoStep) : List Act := stepActs steps ++ initLutActs c m

theorem initActs_eq (c : Cfg) (m : Mode) (steps : List ProtoStep) :
    initActs c m steps = .resetPulse :: (initMiddleActs c m steps ++ [.enterMode m]) := by
  simp [initActs, initMiddleActs]

theorem plain_initMiddle {c : Cfg} {m : Mode} {steps : List ProtoStep} {a : Act}
    (h : a ∈ initMiddleActs c m steps) : a.plain = true :=
  (List.mem_append.1 h).elim plain_stepActs fun h => (transmitAct_initLut h).1

theorem protoSteps_initMiddle (c : Cfg) (m : Mode) (steps : List ProtoStep) :
    protoSteps (initMiddleActs c m steps) = steps ++ initLutSteps c m := by
  rw [initMiddleActs, protoSteps_append, protoSteps_stepActs, protoSteps_initLut]

theorem pollsOf_initMiddle (c : Cfg) (m : Mode) (steps : List ProtoStep) :
    pollsOf (initMiddleActs c m steps) ≤ steps.length + 5 := by
  rw [initMiddleActs, pollsOf_append]
  exact Nat.add_le_add (pollsOf_stepActs steps) (pollsOf_initLut c m)

/-- The registers after INIT's actions (41_panel_protocol.md R141). -/
theorem regs_init (c : Cfg) (m : Mode) (steps : List ProtoStep) (r : Regs) :
    (initActs c m steps).foldl (Regs.after c) r =
      { r with
        pstate := .initialized, mode := m, pcount := 0
        lutClass := if c.variant = .v1 then some (modeLut m) else none
        busyPending := match c.p.variantTable with
          | .v1 t => c.triggersBusy t.opLut.bb
          | .v2 => pendingAfterSteps c true steps } := by
  simp only [initActs, List.foldl_append, regs_steps]
  unfold initLutActs Cfg.variant
  cases c.p.variantTable with
  | v1 t => simp only [regs_lut]; rfl
  | v2 => rfl

/-- INIT with status 0 on a panel that answers idle: its actions end, with every event. -/
theorem runActs_init_ready {c : Cfg} {m : Mode} {steps : List ProtoStep} {s : State} (hc : s.cfg = c)
    (hr : PanelReady (steps.length + 5) s) :
    ∃ t, runActs [] (initActs c m steps) s = .done t ∧
      t.bus.log = s.bus.log ++ pulseEvents c.p.resetSeq ++ stepsEvents c true (steps ++ initLutSteps c m) := by
  subst hc
  obtain ⟨hlog, -, -, hbusyIn, -⟩ := pulse_bus s.cfg.p.resetSeq s.bus
  obtain ⟨t, hrun, htlog⟩ := runActs_plain_ready [] (s := resetPulse s) (fun _ => plain_initMiddle)
    (hr.of_same hbusyIn rfl) (pollsOf_initMiddle s.cfg m steps)
  refine ⟨{ t with mode := m, pcount := 0, pstate := .initialized }, ?_, ?_⟩
  · rw [initActs_eq]
    exact (runActs_append_done hrun).trans rfl
  · rw [protoSteps_initMiddle] at htlog
    exact htlog.trans (congrArg (· ++ _) hlog)

/-! ### The obligations -/

/-- Settles O49: the pulse, the steps and the LUT run to their end (`runActs_init_ready`), and the registers are
those of `regs_init`. -/
theorem initCompletes : Obligations.InitCompletes := by
  intro s part gray m steps rest hflags hm hseq hstatus hr
  obtain rfl : initMode part gray = m := hm.symm
  have h0 : s.bus.nextStatus = 0 := by rw [Bus.nextStatus, hstatus]
  have hbus := Bus.busInit_of_statusIn hstatus
  have hexec := exec_of_starts (.init part gray steps s hflags hseq h0)
  rw [hbus] at hexec
  obtain ⟨t, hrun, hlog⟩ := runActs_init_ready (m := initMode part gray)
    (s := { s with bus := { s.bus with log := s.bus.log ++ [.busInit 0], statusIn := rest } }) rfl (hr.of_same rfl rfl)
  have hran := ran_runActs hrun
  obtain ⟨hpstate, hmode, hpending, hlut, hpcount⟩ := regs_eq hran.regs
  rw [regs_init] at hpstate hmode hpending hlut hpcount
  rw [modeLut_init part gray hflags] at hlut
  exact ⟨_, hexec.trans (congrArg _ (runOperation_done hrun)),
    reported_finish hran.frame.errsticky hran.frame.dp hran.frame.responses, hpstate, hmode, hpcount, hlut, hpending,
    hran.frame.fb, ⟨hran.frame.cfg, hran.frame.stream⟩, hran.statusIn, hran.statusDrawn, hran.cs, hlog⟩

/-- Settles O50: the steps of SLEEP_SEQ run to their end, and then Sleeping is entered. -/
theorem sleepCompletes : Obligations.SleepCompletes := by
  intro s hp hr
  have hplain : ∀ a ∈ stepActs s.cfg.p.sleepSeq, a.plain = true := fun _ => plain_stepActs
  obtain ⟨s1, hsteps, hlog⟩ := runActs_plain_ready [] hplain hr (pollsOf_stepActs _)
  rw [protoSteps_stepActs] at hlog
  have hrun : runActs [] (stepActs s.cfg.p.sleepSeq ++ [.enterSleep]) s =
      .done { s1 with busyPending := false, pstate := .sleeping } := (runActs_append_done hsteps).trans rfl
  have hran := ran_runActs hrun
  have hn : Act.resetPulse ∉ stepActs s.cfg.p.sleepSeq ++ [.enterSleep] := by
    simp [resetPulse_not_mem hplain]
  obtain ⟨hfb, hin, hlink⟩ := hran.finishOk_frame hn 0x12 1
  obtain ⟨hpstate, hmode, hpending, hlut, hpcount⟩ := regs_eq hran.regs
  rw [List.foldl_append, regs_steps] at hmode hlut hpcount
  exact ⟨_, (exec_of_starts (.sleep s hp)).trans (congrArg _ (runOperation_done hrun)), Reported.of_ran hran, rfl, rfl,
    hmode, hlut, hpcount, hfb, hin, hlink, hlog⟩

/-- Settles O51: the five pairs run to their end. -/
theorem setLutCompletes : Obligations.SetLutCompletes := by
  intro s cls table hv hp hr
  have hplain : ∀ a ∈ programLutActs table cls, a.plain = true := fun _ => plain_programLutActs
  obtain ⟨t, hrun, hlog⟩ := runActs_plain_ready [] hplain hr (pollsOf_programLut table cls).le
  have hran := ran_runActs hrun
  obtain ⟨hfb, hin, hlink⟩ := hran.finishOk_frame (resetPulse_not_mem hplain) 0x16 1
  obtain ⟨hpstate, hmode, hpending, hlut, hpcount⟩ := regs_eq hran.regs
  rw [regs_lut] at hpstate hmode hpending hlut hpcount
  exact ⟨_, (exec_of_starts (.setLut cls table s hv hp)).trans (congrArg _ (runOperation_done hrun)),
    Reported.of_ran hran, hlut, hpending, hpstate, hmode, hpcount, hfb, hin, hlink, hlog⟩

end Sys2Proof.Machine
end

section
/-! The refresh operations on a panel that answers idle (42_refresh.md R174 to R179): DISPLAY_FULL, DISPLAY_PARTIAL,
DRAW and FILL, and that FILL is its bands of DRAW. -/

namespace Sys2Proof.Machine

/-! ### The two transmissions -/

/-- What a full transmission that began at `s` leaves (42_refresh.md R174). -/
structure SentFull (s t : State) : Prop where
  pcount : t.pcount = 0
  busyPending : t.busyPending = false
  lutClass : t.lutClass =
    (if s.cfg.variant = .v1 then some (if s.mode = .gray4 then .gray else .full) else s.lutClass)
  log : t.bus.log = s.bus.log ++ stepsEvents s.cfg s.busyPending
    (phasedSteps s.cfg (fullPhaseSteps s.cfg s.mode s.lutClass (frameBytesSpec s.cfg s.fb)))

/-- What a windowed transmission that began at `s` leaves, `win` being the sent window (42_refresh.md R175). -/
structure SentPartial (win : Window) (s t : State) : Prop where
  pcount : t.pcount.toNat = min (s.pcount.toNat + 1) 0xFFFF
  busyPending : t.busyPending = pendingAfterSteps s.cfg false s.cfg.p.partialEpilogue
  lutClass : t.lutClass = (if s.cfg.variant = .v1 then some .part else s.lutClass)
  log : t.bus.log = s.bus.log ++ stepsEvents s.cfg s.busyPending
    (phasedSteps s.cfg (partialPhaseSteps s.cfg win (windowBytesSpec s.cfg s.fb win)))

/-- A full transmission on a panel that answers idle. -/
theorem displayFull_ready (bands : List Band) {s : State} (hr : PanelReady (fullPolls s.cfg) s) :
    ∃ t, runActs bands (displayFullActs s) s = .done t ∧ SentFull s t := by
  obtain ⟨t, hrun, hlog⟩ := runActs_plain_ready bands (fun _ h => (transmitAct_displayFull h).1) hr (polls_full s)
  obtain ⟨hpcount, hpending, hlut⟩ := ran_displayFull (ran_runActs hrun)
  rw [protoSteps_full] at hlog
  exact ⟨t, hrun, hpcount, hpending, hlut, hlog⟩

/-- A windowed transmission on a panel that answers idle. -/
theorem displayPartial_ready (bands : List Band) {s : State} (hg : s.cfg.width % 8 = 0) (win : Window)
    (hr : PanelReady (partialPolls s.cfg (sentWindow s.cfg win)) s) :
    ∃ t, runActs bands (displayPartialActs win s) s = .done t ∧ SentPartial (sentWindow s.cfg win) s t := by
  obtain ⟨t, hrun, hlog⟩ :=
    runActs_plain_ready bands (fun _ h => (transmitAct_displayPartial h).1) hr (polls_partial win s)
  obtain ⟨-, -, hpending, hlut, hpcount⟩ := regs_eq (ran_runActs hrun).regs
  rw [regs_partial win s _ rfl] at hpending hlut hpcount
  rw [protoSteps_partial, windowBytes_eq s.cfg hg] at hlog
  exact ⟨t, hrun, (congrArg BitVec.toNat hpcount).trans (pcountSucc_toNat s.pcount), hpending, hlut, hlog⟩

/-- A transmission changes neither `pstate` nor `mode`. -/
theorem sameMode_of_done {bands : List Band} {acts : List Act} {s t : State} (ha : ∀ a ∈ acts, a.plain = true)
    (h : runActs bands acts s = .done t) : SameMode s t := by
  have hm := sameMode_runActs bands ha s
  rwa [h] at hm

/-- The refresh-count policy of R178. -/
theorem forcesFull_iff (s : State) :
    forcesFull s = true ↔ 0 < s.cfg.forceFullEvery ∧ s.cfg.forceFullEvery ≤ s.pcount.toNat := by
  simp [forcesFull]

/-- The transmission of a `DrawBody` is windowed exactly in PartialFast mode when the policy does not ask for a full
one (42_refresh.md R178). -/
theorem transmitActs_eq (b : Band) (s : State) :
    transmitActs b s =
      if s.mode = .partialFast ∧ ¬(0 < s.cfg.forceFullEvery ∧ s.cfg.forceFullEvery ≤ s.pcount.toNat) then
        displayPartialActs (bandWindow b) s
      else displayFullActs s := by
  obtain ⟨hfull, e⟩ | ⟨hmode, hforces, e⟩ := transmitActs_cases b s
  · rw [e, if_neg fun h => hfull.elim (· h.1) fun hf => h.2 ((forcesFull_iff s).1 hf)]
  · rw [e, if_pos ⟨hmode, fun hf => ne_true_of_eq_false hforces ((forcesFull_iff s).2 hf)⟩]

/-- The transmission of a `DrawBody` on a panel that answers idle. -/
theorem transmit_ready (bands : List Band) {s : State} (hg : s.cfg.width % 8 = 0) (b : Band)
    (hr : PanelReady (fullPolls s.cfg + partialPolls s.cfg (sentWindow s.cfg (bandWindow b))) s) :
    ∃ t, runActs bands (transmitActs b s) s = .done t ∧
      if s.mode = .partialFast ∧ ¬(0 < s.cfg.forceFullEvery ∧ s.cfg.forceFullEvery ≤ s.pcount.toNat) then
        SentPartial (sentWindow s.cfg (bandWindow b)) s t
      else SentFull s t := by
  rw [transmitActs_eq]
  split
  · exact displayPartial_ready bands hg _ (hr.mono (by omega))
  · exact displayFull_ready bands (hr.mono (by omega))

/-! ### The bands of FILL -/

theorem length_fillBodies (c : Cfg) (color : Bool) (bh : Nat) :
    (fillBodies c color bh).length = (c.height + bh - 1) / bh := by
  simp [fillBodies, fillBands]

/-- How often the transmission of a `DrawBody` polls at most. -/
theorem polls_transmit {c : Cfg} {n : Nat} (hn : ∀ win, partialPolls c win ≤ n) (b : Band) {s : State}
    (hc : s.cfg = c) : pollsOf (transmitActs b s) ≤ fullPolls c + n := by
  subst hc
  obtain ⟨-, e⟩ | ⟨-, -, e⟩ := transmitActs_cases b s
  · rw [e]; exact (polls_full s).trans (Nat.le_add_right _ _)
  · rw [e]; exact (polls_partial _ s).trans ((hn _).trans (Nat.le_add_left _ _))

/-- The `k`-th band of FILL. -/
def fillBand (c : Cfg) (color : Bool) (bh k : Nat) : Band :=
  solidBand c color (k * bh, min bh (c.height - k * bh))

/-- The bands of FILL from the `k`-th on. -/
def fillBandsFrom (c : Cfg) (color : Bool) (bh k : Nat) : List Band :=
  (List.range' k ((c.height + bh - 1) / bh - k)).map (fillBand c color bh)

theorem fillBandsFrom_zero (c : Cfg) (color : Bool) (bh : Nat) : fillBandsFrom c color bh 0 = fillBodies c color bh := by
  rw [fillBandsFrom, fillBodies, fillBands, List.map_map, List.range_eq_range', Nat.sub_zero]
  rfl

/-- No band starts at or below the last row. -/
theorem fillBandsFrom_of_ge {c : Cfg} {bh k : Nat} (h0 : bh ≠ 0) (h : c.height ≤ k * bh) (color : Bool) :
    fillBandsFrom c color bh k = [] := by
  have hk : (c.height + bh - 1) / bh - k = 0 := by
    by_contra hk
    have := (fillBands_count (height := c.height) h0).1 k (by omega)
    omega
  simp [fillBandsFrom, hk]

/-- A band starts at every multiple of its height inside the buffer. -/
theorem fillBandsFrom_of_lt {c : Cfg} {bh k : Nat} (h0 : bh ≠ 0) (h : k * bh < c.height) (color : Bool) :
    fillBandsFrom c color bh k = fillBand c color bh k :: fillBandsFrom c color bh (k + 1) := by
  have hk : k < (c.height + bh - 1) / bh := by
    have hlt := h.trans_le (fillBands_count (height := c.height) h0).2
    exact Nat.lt_of_mul_lt_mul_right hlt
  obtain ⟨j, hj⟩ : ∃ j, (c.height + bh - 1) / bh - k = j + 1 := ⟨_, (Nat.succ_pred_eq_of_pos (by omega)).symm⟩
  have hj' : (c.height + bh - 1) / bh - (k + 1) = j := by omega
  simp only [fillBandsFrom, hj, hj', List.range'_succ, List.map_cons]

/-! ### Bands and their DRAWs -/

/-- Two states that differ in nothing a `DrawBody` looks at: in the bookkeeping and in `ostate`. -/
def SameWork (s t : State) : Prop := forget { s with ostate := .idle } = forget { t with ostate := .idle }

theorem SameWork.of_forget {s t : State} (h : forget s = forget t) : SameWork s t := by
  have h' := congrArg (fun u : State => { u with ostate := .idle }) h
  exact h'

theorem sameWork_finishOk (opc : Byte) (len : Nat) (s : State) : SameWork s (finishOk opc len s) := rfl

/-- What `SameWork` says of the fields that a FILL is asked about. -/
theorem SameWork.fields {s t : State} (h : SameWork s t) :
    t.cfg = s.cfg ∧ t.fb = s.fb ∧ SamePanelState s t ∧ t.bus = s.bus := by
  simp only [SameWork, forget, State.mk.injEq] at h
  obtain ⟨hcfg, hfb, hpstate, hmode, hpending, hlut, hpcount, -, hbus, -⟩ := h
  exact ⟨hcfg.symm, hfb.symm, ⟨hpstate.symm, hmode.symm, hpending.symm, hlut.symm, hpcount.symm⟩, hbus.symm⟩

/-- States that `DrawBody`s cannot tell apart lead to such states. -/
theorem runBands_sameWork {bands : List Band} {s s' t : State} (hs : SameWork s s') (h : runBands bands s = .done t) :
    ∃ t', runBands bands s' = .done t' ∧ SameWork t t' := by
  cases bands with
  | nil => cases h; exact ⟨s', rfl, hs⟩
  | cons b bands =>
    have hf := runBands_of_forget (bands := bands) (b := b) hs
    rw [h] at hf
    cases hr : runBands (b :: bands) s' with
    | done t' =>
      rw [hr] at hf
      exact ⟨t', rfl, .of_forget (RunResult.done.inj hf)⟩
    | timedOut t' => rw [hr] at hf; cases hf
    | held acts bands1 t' => rw [hr] at hf; cases hf

/-- Bands run one after another. -/
theorem runBands_cons_done {b : Band} {bands : List Band} {s t : State} (h : runBands [b] s = .done t) :
    runBands (b :: bands) s = runBands bands t := by
  unfold runBands at h
  cases hr : runActs [] (transmitActs b (bufferWrite b s)) (bufferWrite b s) with
  | done u =>
    simp only [hr, runBands, RunResult.done.injEq] at h
    subst h
    simp only [runBands, runActs_done_bands bands hr]
  | timedOut u => simp only [hr] at h; cases h
  | held acts bands1 u => simp only [hr] at h; cases h

/-- The DRAW of a band of FILL that ended with OK has run that band. -/
theorem runBands_of_drawBand {s t : State} {color : Bool} {bh k : Nat} (hv : s.cfg.valid = true)
    (hp : s.pstate = .initialized) (h0 : bh ≠ 0) (hk : k * bh < s.cfg.height)
    (hd : exec (.draw 0 (BitVec.ofNat 16 (k * bh)) (BitVec.ofNat 16 s.cfg.width)
      (BitVec.ofNat 16 (min bh (s.cfg.height - k * bh)))
      (solidImage s.cfg.width (min bh (s.cfg.height - k * bh)) color)) s = .next t)
    (hf : t.inFlight = none) (hr : t.lastResult = .ok) :
    ∃ t1, runBands [fillBand s.cfg color bh k] s = .done t1 ∧ SameWork t t1 := by
  obtain ⟨hwidth, hheight, -, -, -, -, hwpos⟩ := valid_parts hv
  obtain ⟨hw, hw0⟩ := half_of_pos (n := s.cfg.width) (by omega) (by omega)
  obtain ⟨hh, hh0⟩ := half_of_pos (n := min bh (s.cfg.height - k * bh)) (by omega) (by omega)
  have hy : (BitVec.ofNat 16 (k * bh)).toNat = k * bh := by rw [BitVec.toNat_ofNat, Nat.mod_eq_of_lt (by omega)]
  rw [draw_op hp hw0 hh0 (by simp [hw]) (by rw [hy, hh]; omega)] at hd
  obtain rfl := Host.Outcome.next.inj hd
  obtain ⟨t1, hrun, heq⟩ := runBands_done_of_ok hf hr
  have hband : drawBand 0 (BitVec.ofNat 16 (k * bh)) (BitVec.ofNat 16 s.cfg.width)
      (BitVec.ofNat 16 (min bh (s.cfg.height - k * bh)))
      (solidImage s.cfg.width (min bh (s.cfg.height - k * bh)) color) = fillBand s.cfg color bh k := by
    simp only [drawBand, hy, hw, hh]; rfl
  rw [hband] at hrun
  exact ⟨t1, hrun, heq ▸ (sameWork_finishOk _ _ t1).symm⟩

/-- The DRAWs of a FILL from its `k`-th band on, all ended with OK, have run its bands from there on. -/
theorem runBands_of_drawsBands {color : Bool} {bh : Nat} (h0 : bh ≠ 0) {y : Nat} {s u : State}
    (h : DrawsBands color bh y s u) : ∀ {k : Nat}, s.cfg.valid = true → s.pstate = .initialized →
      y = min (k * bh) s.cfg.height → ∃ u', runBands (fillBandsFrom s.cfg color bh k) s = .done u' ∧ SameWork u u' := by
  induction h with
  | done y s hge =>
    intro k _ _ hy
    rw [fillBandsFrom_of_ge h0 (by omega)]
    exact ⟨s, rfl, rfl⟩
  | band y s t u hlt hd hf hr _ ih =>
    intro k hv hp hy
    obtain rfl : y = k * bh := by omega
    obtain ⟨t1, hrun, hsame⟩ := runBands_of_drawBand hv hp h0 hlt hd hf hr
    have hframe := (runBands_frame [fillBand s.cfg color bh k] s).cfg
    have hmode := (sameMode_runBands [fillBand s.cfg color bh k] s).1
    rw [hrun] at hframe hmode
    obtain ⟨hcfgt, -, hpanel, -⟩ := hsame.fields
    have hcfg : t.cfg = s.cfg := hcfgt.symm.trans hframe
    have hpt : t.pstate = s.pstate := hpanel.pstate.symm.trans hmode
    obtain ⟨u1, hrest, hsame1⟩ := ih (k := k + 1) (hcfg ▸ hv) (hpt.trans hp) (by rw [hcfg, Nat.succ_mul]; omega)
    obtain ⟨u2, hrest2, hsame2⟩ := runBands_sameWork hsame hrest
    rw [fillBandsFrom_of_lt h0 hlt, runBands_cons_done hrun, ← hcfg]
    exact ⟨u2, hrest2, hsame1.trans hsame2⟩

/-! ### The obligations -/

/-- Settles O54: the full transmission ends as `SentFull` says. -/
theorem displayFullCompletes : Obligations.DisplayFullCompletes := by
  intro s hp hr
  obtain ⟨t, hrun, hpcount, hpending, hlut, hlog⟩ := displayFull_ready [] hr
  have hplain : ∀ a ∈ displayFullActs s, a.plain = true := fun _ h => (transmitAct_displayFull h).1
  have hran := ran_runActs hrun
  obtain ⟨hfb, hin, hlink⟩ := hran.finishOk_frame (resetPulse_not_mem hplain) 0x20 1
  obtain ⟨hpstate, hmode⟩ := sameMode_of_done hplain hrun
  exact ⟨_, (exec_of_starts (.displayFull s hp)).trans (congrArg _ (runOperation_done hrun)), Reported.of_ran hran,
    hpcount, hpending, hpstate, hmode, hlut, hfb, hin, hlink, hlog⟩

/-- Settles O55: the window is valid, and its transmission ends as `SentPartial` says. -/
theorem displayPartialCompletes : Obligations.DisplayPartialCompletes := by
  intro s xs ys xe ye win hv hp hxs hx hxe hys hye hwin hr
  subst hwin
  obtain ⟨t, hrun, hpcount, hpending, hlut, hlog⟩ := displayPartial_ready [] (valid_width hv) (windowOf xs ys xe ye) hr
  have hplain : ∀ a ∈ displayPartialActs (windowOf xs ys xe ye) s, a.plain = true :=
    fun _ h => (transmitAct_displayPartial h).1
  have hvalid : validWindow s.cfg (windowOf xs ys xe ye) = true := by
    simp [validWindow, windowOf, hxs, hx, hxe, hys, hye]
  have hran := ran_runActs hrun
  obtain ⟨hfb, hin, hlink⟩ := hran.finishOk_frame (resetPulse_not_mem hplain) 0x21 3
  obtain ⟨hpstate, hmode⟩ := sameMode_of_done hplain hrun
  exact ⟨_, (exec_of_starts (.displayPartial xs ys xe ye s hp hvalid)).trans (congrArg _ (runOperation_done hrun)),
    Reported.of_ran hran, hpcount, hpending, hpstate, hmode, hlut, hfb, hin, hlink, hlog⟩

/-- Settles O56: the BufferWrite phase writes the rectangle (`pixelOf_blitCore`), and the transmission that follows
is the one of `transmit_ready`. -/
theorem drawCompletes : Obligations.DrawCompletes := by
  intro s x y w h img win hv hwf hp hw0 hh0 hx hy hwin hr
  subst hwin
  have hg := valid_width hv
  have hb : inBoundsRect s.cfg x.toNat y.toNat w.toNat h.toNat = true := by simp [inBoundsRect, hx, hy]
  obtain ⟨t, hrun, hsent⟩ := transmit_ready [] (s := bufferWrite (drawBand x y w h img) s) hg (drawBand x y w h img) hr
  have hbands : runBands [drawBand x y w h img] s = .done t := by simp only [runBands, hrun]
  have hframe := runBands_frame [drawBand x y w h img] s
  obtain ⟨hpstate, hmode⟩ := sameMode_runBands [drawBand x y w h img] s
  rw [hbands] at hframe hpstate hmode
  have hcfg : t.cfg = s.cfg := hframe.cfg
  have hfb : t.fb = blitCore s.cfg s.fb x.toNat y.toNat w.toNat h.toNat img := runBands_fb hbands
  obtain ⟨hrst, hcs, hstatusIn, hstatusDrawn⟩ := runBands_linkFrame hbands
  refine ⟨_, (draw_op hp hw0 hh0 hx hy).trans (congrArg _ (runOperation_bands hbands)), reported_of_runFrame hframe,
    hpstate, hmode, ⟨hcfg, hframe.stream⟩, ⟨hrst, hcs, hstatusIn, hstatusDrawn⟩, ?_, ?_, ?_⟩
  · intro px py hpx _
    show pixelOf t.cfg t.fb px py = _
    rw [hcfg, hfb, pixelOf_blitCore hg hwf hb _ hpx]
    exact if_congr and_assoc rfl rfl
  · intro k hk
    show fbRead t.cfg t.fb k = _
    rw [hcfg, hfb, fbRead_blitCore_ge hg hwf hb _ hk]
  · rw [show (finishOk 0x22 (3 + imageWords w.toNat h.toNat) t).fb = (bufferWrite (drawBand x y w h img) s).fb from hfb]
    split at hsent
    case isTrue hcond =>
      obtain ⟨hpcount, hpending, hlut, hlog⟩ := hsent
      exact (if_pos hcond).mpr ⟨hpcount, hpending, hlut, hlog⟩
    case isFalse hcond =>
      obtain ⟨hpcount, hpending, hlut, hlog⟩ := hsent
      exact (if_neg hcond).mpr ⟨hpcount, hpending, hlut, hlog⟩

/-- Settles O57: the bands run to their end (`runBands_ready`) and colour every byte of FB (`fill_fb`). -/
theorem fillCompletes : Obligations.FillCompletes := by
  intro s color bh n hv hwf hp hb hn hr
  have hg := valid_width hv
  have h0 := toNat_ne_zero_of_ne hb
  obtain ⟨t, hrun, -⟩ := runBands_ready (bands := fillBodies s.cfg color bh.toNat) (n := 0)
    (fun b _ _ hc => polls_transmit hn b hc) rfl (by rwa [length_fillBodies, Nat.zero_add])
  have hframe := runBands_frame (fillBodies s.cfg color bh.toNat) s
  obtain ⟨hpstate, hmode⟩ := sameMode_runBands (fillBodies s.cfg color bh.toNat) s
  obtain ⟨ev, hlog⟩ := logs_runBands (fillBodies s.cfg color bh.toNat) s
  rw [hrun] at hframe hpstate hmode hlog
  have hcfg : t.cfg = s.cfg := hframe.cfg
  have hne : fillBodies s.cfg color bh.toNat ≠ [] := by
    have hheight := (valid_parts hv).2.2.2.2.2.1
    rw [← fillBandsFrom_zero, fillBandsFrom_of_lt h0 (by omega)]
    exact List.cons_ne_nil _ _
  obtain ⟨hrst, hcs, hstatusIn, hstatusDrawn⟩ := runBands_linkFrame hrun
  have hlut := runBands_lut hrun
  have hfull := fun hm => runBands_full hrun hm hne
  refine ⟨_, (fill_op hp hb).trans (congrArg _ (runOperation_bands hrun)), reported_of_runFrame hframe, ?_, ?_, hpstate,
    hmode, hlut, hfull, ⟨hcfg, hframe.stream⟩,
    ⟨hrst, hcs, hstatusIn, hstatusDrawn⟩, ev, hlog.log⟩
  · intro k hk
    show fbRead t.cfg t.fb k = _
    rw [hcfg, runBands_fb hrun, fill_fb hg hwf color h0 k hk]
  · intro k hk
    show fbRead t.cfg t.fb k = _
    rw [hcfg, runBands_fb hrun, fill_fb_ge hg _ (fun b => band_inside_fill h0) hwf hk]

/-- Settles O58: the bands of FILL run as the DRAWs do (`runBands_of_drawsBands`), from the first one on. -/
theorem fillRunsItsBands : Obligations.FillRunsItsBands := by
  intro s u color bh hv hp hb hdraws
  obtain ⟨t, hrun, hsame⟩ := runBands_of_drawsBands (k := 0) (toNat_ne_zero_of_ne hb) hdraws hv hp (by omega)
  rw [fillBandsFrom_zero] at hrun
  have hframe := runBands_frame (fillBodies s.cfg color bh.toNat) s
  rw [hrun] at hframe
  obtain ⟨-, hfb, ⟨hpstate, hmode, hpending, hlut, hpcount⟩, hbus⟩ := hsame.fields
  exact ⟨_, (fill_op hp hb).trans (congrArg _ (runOperation_bands hrun)), reported_of_runFrame hframe, hfb,
    ⟨hpstate, hmode, hpending, hlut, hpcount⟩, hbus, ⟨hframe.cfg, hframe.stream⟩⟩

end Sys2Proof.Machine
end

section
/-! The phases of a transmission, in the action lists, in `ostate` and in the bytes on the link (42_refresh.md R180). -/

namespace Sys2Proof.Machine

/-! ### The phases of each transmission -/

/-- The protocol steps of each phase of the transmission of a `DrawBody` that begins at `s` (42_refresh.md R178). -/
def transmitPhaseSteps (b : Band) (s : State) : OState → List ProtoStep :=
  if s.mode = .partialFast ∧ ¬(0 < s.cfg.forceFullEvery ∧ s.cfg.forceFullEvery ≤ s.pcount.toNat) then
    partialPhaseSteps s.cfg (sentWindow s.cfg (bandWindow b))
      (windowBytesSpec s.cfg s.fb (sentWindow s.cfg (bandWindow b)))
  else fullPhaseSteps s.cfg s.mode s.lutClass (frameBytesSpec s.cfg s.fb)

/-- An action list is a transmission with the phases `steps`, in the order of R180. -/
def InPhases (steps : OState → List ProtoStep) (c : Cfg) (acts : List Act) : Prop :=
  ∃ blocks, acts = phaseActs blocks ∧ Phased steps blocks ∧ blocks.map Prod.fst = transmissionPhases c

theorem inPhases_displayFull (s : State) :
    InPhases (fullPhaseSteps s.cfg s.mode s.lutClass (frameBytesSpec s.cfg s.fb)) s.cfg (displayFullActs s) :=
  ⟨fullBlocks s, (phaseActs_full s).symm, phased_full s, phases_full s⟩

theorem inPhases_displayPartial {s : State} (hg : s.cfg.width % 8 = 0) (win : Window) :
    InPhases (partialPhaseSteps s.cfg (sentWindow s.cfg win) (windowBytesSpec s.cfg s.fb (sentWindow s.cfg win))) s.cfg
      (displayPartialActs win s) := by
  rw [← windowBytes_eq s.cfg hg]
  exact ⟨partialBlocks win s, (phaseActs_partial win s).symm, phased_partial win s, phases_partial win s⟩

theorem inPhases_transmit {s : State} (hg : s.cfg.width % 8 = 0) (b : Band) :
    InPhases (transmitPhaseSteps b s) s.cfg (transmitActs b s) := by
  rw [transmitActs_eq, transmitPhaseSteps]
  split
  · exact inPhases_displayPartial hg _
  · exact inPhases_displayFull s

/-- The phases that the actions of a transmission enter (42_refresh.md R180). -/
theorem InPhases.phases {steps : OState → List ProtoStep} {c : Cfg} {acts : List Act} (h : InPhases steps c acts) :
    acts.filterMap Act.phase = transmissionPhases c := by
  obtain ⟨blocks, rfl, hphased, hfst⟩ := h
  exact (phases_phaseActs hphased).trans hfst

theorem InPhases.held {steps : OState → List ProtoStep} {bands b1 : List Band} {acts a1 : List Act} {s t : State}
    (h : InPhases steps s.cfg acts) (hrun : runActs bands acts s = .held a1 b1 t) : HeldInPhase steps a1 s t := by
  obtain ⟨blocks, rfl, hphased, hfst⟩ := h
  exact heldInPhase_of_held hphased hfst hrun

theorem InPhases.ended {steps : OState → List ProtoStep} {bands : List Band} {acts : List Act} {s t : State}
    (h : InPhases steps s.cfg acts) (hrun : runActs bands acts s = .done t) : EndedPhases steps s t := by
  obtain ⟨blocks, rfl, hphased, hfst⟩ := h
  exact endedPhases_of_done hphased hfst hrun

/-! ### Operations that are one transmission -/

/-- What `Obligations.TransmissionPhases` asks of the state `t` that an operation leaves: in flight it is held in a
phase, and ended with OK it has put every phase on the link. -/
def KeepsPhases (steps : OState → List ProtoStep) (s t : State) : Prop :=
  (∀ f, t.inFlight = some f → HeldInPhase steps f.acts s t) ∧
    (t.inFlight = none → t.lastResult = .ok → EndedPhases steps s t)

/-- An operation that refused is not in flight and did not end with OK. -/
theorem keepsPhases_of_refused {code : ResultCode} (hc : code ≠ .ok) (steps : OState → List ProtoStep) (opc : Byte)
    (len : Nat) (pix : Bool) (data : List Word) (s s0 : State) : KeepsPhases steps s (finish opc len code pix data s0) :=
  ⟨fun _ hf => (nomatch hf), fun _ hok => absurd hok hc⟩

/-- What runs of a transmission come to in the state that an operation leaves. -/
theorem keepsPhases_of_runAll {steps : OState → List ProtoStep} {acts : List Act} {bands : List Band} {s : State}
    (hheld : ∀ a1 b1 t, runAll acts bands s = .held a1 b1 t → HeldInPhase steps a1 s t)
    (hdone : ∀ t, runAll acts bands s = .done t → EndedPhases steps s t) (opc : Byte) (len : Nat) :
    KeepsPhases steps s (runOperation opc len acts bands s) := by
  obtain ⟨u, hrun, heq⟩ | ⟨u, -, heq⟩ | ⟨a1, b1, u, hrun, heq⟩ := runOperation_cases opc len acts bands s
  · rw [heq]
    exact ⟨fun _ hf => (nomatch hf), fun _ _ => hdone u hrun⟩
  · rw [heq]
    exact keepsPhases_of_refused (by decide) steps opc len false [] s _
  · rw [heq]
    refine ⟨fun f hf => ?_, fun hf => nomatch hf⟩
    obtain rfl := Option.some.inj hf
    exact hheld a1 b1 u hrun

/-- Without bands the run is the one of the actions. -/
theorem runAll_nil_bands (acts : List Act) (s : State) : runAll acts [] s = runActs [] acts s := by
  unfold runAll
  cases runActs [] acts s with
  | done t => rfl
  | timedOut t => rfl
  | held a b t => rfl

theorem InPhases.runOperation {steps : OState → List ProtoStep} {acts : List Act} {s : State}
    (h : InPhases steps s.cfg acts) (opc : Byte) (len : Nat) :
    KeepsPhases steps s (runOperation opc len acts [] s) := by
  apply keepsPhases_of_runAll <;> simp only [runAll_nil_bands]
  · exact fun _ _ _ hrun => h.held hrun
  · exact fun _ hrun => h.ended hrun

/-- One `DrawBody` is its transmission, started after its BufferWrite phase (42_refresh.md R178). -/
theorem runBands_singleton (b : Band) (s : State) :
    runBands [b] s = runActs [] (transmitActs b (bufferWrite b s)) (bufferWrite b s) := by
  unfold runBands
  cases runActs [] (transmitActs b (bufferWrite b s)) (bufferWrite b s) with
  | done t => rfl
  | timedOut t => rfl
  | held a b t => rfl

/-- An operation of one `DrawBody`; the blit puts nothing on the link. -/
theorem keepsPhases_drawBody {s : State} (hg : s.cfg.width % 8 = 0) (b : Band) (opc : Byte) (len : Nat) :
    KeepsPhases (transmitPhaseSteps b (bufferWrite b s)) s (runOperation opc len [] [b] s) := by
  have hin := inPhases_transmit (s := bufferWrite b s) hg b
  have hrun : runAll [] [b] s = runActs [] (transmitActs b (bufferWrite b s)) (bufferWrite b s) := runBands_singleton b s
  apply keepsPhases_of_runAll <;> rw [hrun]
  · exact fun _ _ _ h => hin.held h
  · exact fun _ h => hin.ended h

/-- FB after an operation of one `DrawBody`, however it ended. -/
theorem runOperation_drawBody_fb (opc : Byte) (len : Nat) (b : Band) (s : State) :
    (runOperation opc len [] [b] s).fb = (bufferWrite b s).fb := by
  have hrun : runAll [] [b] s = runActs [] (transmitActs b (bufferWrite b s)) (bufferWrite b s) := runBands_singleton b s
  have hfb := (runActs_frame [] (transmitActs b (bufferWrite b s)) (bufferWrite b s)).fb
  rw [← hrun] at hfb
  obtain ⟨u, hu, heq⟩ | ⟨u, hu, heq⟩ | ⟨a1, b1, u, hu, heq⟩ := runOperation_cases opc len [] [b] s
  · rw [heq]; rw [hu] at hfb; exact hfb
  · rw [heq]; rw [hu] at hfb; exact hfb
  · rw [heq]; rw [hu] at hfb; exact hfb

/-! ### The operations -/

theorem displayFull_keepsPhases {s t : State} (h : exec .displayFull s = .next t) :
    KeepsPhases (fullPhaseSteps s.cfg s.mode s.lutClass (frameBytesSpec s.cfg s.fb)) s t := by
  obtain ⟨acts, bands, s0, hstart, rfl⟩ | ⟨code, pix, data, s0, hfin, rfl⟩ := exec_cases h
  · cases hstart
    exact (inPhases_displayFull s).runOperation _ _
  · cases hfin
    exact keepsPhases_of_refused ‹code ≠ .ok› _ _ _ _ _ _ _

theorem displayPartial_keepsPhases {s t : State} (hg : s.cfg.width % 8 = 0) {xs ys xe ye : Half}
    (h : exec (.displayPartial xs ys xe ye) s = .next t) :
    KeepsPhases (partialPhaseSteps s.cfg (sentWindow s.cfg (windowOf xs ys xe ye))
      (windowBytesSpec s.cfg s.fb (sentWindow s.cfg (windowOf xs ys xe ye)))) s t := by
  obtain ⟨acts, bands, s0, hstart, rfl⟩ | ⟨code, pix, data, s0, hfin, rfl⟩ := exec_cases h
  · cases hstart
    exact (inPhases_displayPartial hg _).runOperation _ _
  · cases hfin
    exact keepsPhases_of_refused ‹code ≠ .ok› _ _ _ _ _ _ _

/-- The steps of a DRAW's transmission are those of the framebuffer it left. -/
theorem draw_keepsPhases {s t : State} (hg : s.cfg.width % 8 = 0) {x y w h : Half} {img : List Word}
    (hexec : exec (.draw x y w h img) s = .next t) :
    KeepsPhases (transmitPhaseSteps (drawBand x y w h img) { s with fb := t.fb }) s t := by
  obtain ⟨acts, bands, s0, hstart, rfl⟩ | ⟨code, pix, data, s0, hfin, rfl⟩ := exec_cases hexec
  · cases hstart
    rw [runOperation_drawBody_fb]
    exact keepsPhases_drawBody hg _ _ _
  · cases hfin
    exact keepsPhases_of_refused ‹code ≠ .ok› _ _ _ _ _ _ _

/-- A FILL that is held is held in the transmission of one of its bands. -/
theorem fill_held_phase {s t : State} (hg : s.cfg.width % 8 = 0) {color : Bool} {bh : Half}
    (h : exec (.fill color bh) s = .next t) {f : InFlight} (hf : t.inFlight = some f) :
    ∃ before, transmissionPhases s.cfg = before ++ t.ostate :: f.acts.filterMap Act.phase := by
  obtain ⟨acts, bands, s0, hstart, rfl⟩ | ⟨code, pix, data, s0, hfin, rfl⟩ := exec_cases h
  · cases hstart
    obtain ⟨u, -, heq⟩ | ⟨u, -, heq⟩ | ⟨a1, b1, u, hrun, heq⟩ :=
      runOperation_cases 0x23 1 [] (fillBodies s.cfg color bh.toNat) s
    · rw [opcodeOf, lengthOf, heq] at hf; cases hf
    · rw [opcodeOf, lengthOf, heq] at hf; cases hf
    · rw [opcodeOf, lengthOf, heq] at hf ⊢
      obtain rfl := Option.some.inj hf
      obtain ⟨pre, b, rest, s1, -, hpre, hheld⟩ := runBands_held_split hrun
      have hcfg := (runBands_frame pre s).cfg
      rw [hpre] at hcfg
      have hin := inPhases_transmit (s := bufferWrite b s1) (by rw [show (bufferWrite b s1).cfg = s.cfg from hcfg, hg]) b
      obtain ⟨before, after, done, todo, ev, hphases, -, -, -, -, hafter, -⟩ := hin.held hheld
      rw [show (bufferWrite b s1).cfg = s.cfg from hcfg] at hphases
      exact ⟨before, by rw [hphases, ← hafter]⟩
  · cases hfin
    cases hf

/-! ### The obligation -/

/-- Settles O60: the action lists by `InPhases`, and the states the operations leave by `KeepsPhases`. -/
theorem transmissionPhases_inOrder : Obligations.TransmissionPhases := by
  refine ⟨fun s win => ⟨(inPhases_displayFull s).phases, ?_, fun _ => rfl⟩, fun s t hv _ => ?_⟩
  · rw [← phaseActs_partial, phases_phaseActs (phased_partial win s), phases_partial]
  have hg := valid_width hv
  refine ⟨displayFull_keepsPhases, ?_, ?_, fun color bh hexec f => fill_held_phase hg hexec⟩
  · rintro xs ys xe ye win rfl hexec
    exact displayPartial_keepsPhases hg hexec
  · rintro x y w h img win steps rfl rfl hexec
    exact draw_keepsPhases hg hexec

end Sys2Proof.Machine
end

section
/-! An operation that a poll without a budget holds (70_reset_and_hazards.md section 3): it polls on, it ends once the
panel answers idle, and the hold leaves no trace. -/

namespace Sys2Proof.Machine

/-! ### Resuming -/

/-- A step with an operation in flight goes on with it. -/
theorem step_of_inFlight {s : State} {f : InFlight} (hv : s.cfg.valid = true) (hf : s.inFlight = some f) :
    step s = .next (resumeOperation f s) := by
  simp only [step, hv, if_true, hf]

/-- An operation that was left in flight has read the busy level. -/
theorem runOperation_held_busy {opc : Byte} {len : Nat} {acts : List Act} {bands : List Band} {s : State}
    (h : (runOperation opc len acts bands s).inFlight ≠ none) :
    ∃ ev, (runOperation opc len acts bands s).bus.log = s.bus.log ++ ev ∧ Event.busyRead (!s.cfg.idleLevel) ∈ ev := by
  obtain ⟨u, -, heq⟩ | ⟨u, -, heq⟩ | ⟨a1, b1, u, hrun, heq⟩ := runOperation_cases opc len acts bands s
  · rw [heq] at h; exact absurd rfl h
  · rw [heq] at h; exact absurd rfl h
  · have hbusy := runAll_held_busy hrun
    rw [heq]; exact hbusy

/-- A step that reports leaves nothing in flight. -/
theorem step_inFlight_nothingReported {s t : State} (h : step s = .next t) (hf : t.inFlight ≠ none) :
    NothingReported s t :=
  (step_reports h).resolve_left fun ⟨_, _, _, _, _, _, hr⟩ => hf hr.inFlight

/-! ### Ending on an idle panel -/

/-- Every action polls at most once. -/
theorem pollsOf_le_length (acts : List Act) : pollsOf acts ≤ acts.length := by
  induction acts with
  | nil => exact Nat.le_refl 0
  | cons a acts ih =>
    have ha : a.polls ≤ 1 := by cases a <;> simp [Act.polls]
    have hsum : pollsOf (a :: acts) = a.polls + pollsOf acts := List.sum_cons
    rw [hsum, List.length_cons]
    omega

/-- What is left of an operation runs to its end when the panel answers idle often enough. -/
theorem runAll_ready {acts : List Act} {bands : List Band} {s : State} {n : Nat}
    (hn : ∀ win, partialPolls s.cfg win ≤ n) (hr : PanelReady (acts.length + bands.length * (fullPolls s.cfg + n)) s) :
    ∃ t, runAll acts bands s = .done t := by
  have hle := pollsOf_le_length acts
  have hr' : PanelReady (bands.length * (fullPolls s.cfg + n) + pollsOf acts) s := hr.mono (by omega)
  obtain ⟨u, hacts, hu⟩ := runActs_ready bands hr'
  have hcfg : u.cfg = s.cfg := (ran_runActs hacts).frame.cfg
  obtain ⟨t, hbands, -⟩ := runBands_ready (bands := bands) (n := 0) (fun b _ _ hc => polls_transmit hn b hc) hcfg
    (by rwa [Nat.zero_add])
  exact ⟨t, by simp only [runAll, hacts, hbands]⟩

/-- An operation in flight ends with OK when the panel answers idle often enough. -/
theorem resume_ready {s : State} {f : InFlight} {n : Nat} (hn : ∀ win, partialPolls s.cfg win ≤ n)
    (hr : PanelReady (f.acts.length + f.bands.length * (fullPolls s.cfg + n)) s) :
    Reported f.opc f.len .ok false [] s (resumeOperation f s) := by
  obtain ⟨t, hrun⟩ := runAll_ready (s := { s with inFlight := none }) hn hr
  have hframe := runAll_frame f.acts f.bands { s with inFlight := none }
  have heq : resumeOperation f s = finishOk f.opc f.len t := congrArg (settle f.opc f.len) hrun
  rw [hrun] at hframe
  rw [heq]
  exact (reported_of_runFrame hframe).of_inFlight

/-! ### The hold leaves no trace -/

/-- An operation that was held and goes on is the operation with the levels read so far and those that follow. -/
theorem step_held_runOperation {opc : Byte} {len : Nat} {acts : List Act} {bands : List Band} {s t : State}
    (hv : t.cfg.valid = true) (h : runOperation opc len acts bands s = t) (hf : t.inFlight ≠ none) :
    t.bus.busyIn = [] ∧ ∀ more, step (t.withLevels more t.bus.busyDrawn) =
      .next (runOperation opc len acts bands (answeredUpTo s t more)) := by
  obtain ⟨f, hf⟩ := Option.ne_none_iff_exists'.1 hf
  obtain ⟨hempty, hresume⟩ := resume_runOperation h hf
  exact ⟨hempty, fun more => (step_of_inFlight (s := t.withLevels more t.bus.busyDrawn) hv hf).trans
    (congrArg _ (hresume more t.bus.busyDrawn))⟩

/-- An operation of `exec` that was held and goes on is exec of it with those levels. -/
theorem step_held_exec {i : Instr} {s t : State} (hv : t.cfg.valid = true) (h : exec i s = .next t)
    (hf : t.inFlight ≠ none) :
    t.bus.busyIn = [] ∧ ∀ more, step (t.withLevels more t.bus.busyDrawn) = exec i (answeredUpTo s t more) := by
  obtain ⟨acts, bands, s0, hstart, rfl⟩ | ⟨code, pix, data, s0, -, rfl⟩ := exec_cases h
  · obtain ⟨hempty, hresume⟩ := step_held_runOperation hv rfl hf
    have hrefill := exec_refill hstart
    exact ⟨hempty, fun more => (hresume more).trans (hrefill more _ _).symm⟩
  · exact absurd rfl hf

/-- A step that was held and goes on is the step with those levels. -/
theorem step_held_step {s t : State} (h : step s = .next t) (hf : t.inFlight ≠ none) :
    t.bus.busyIn = [] ∧ ∀ more, step (t.withLevels more t.bus.busyDrawn) = step (answeredUpTo s t more) := by
  have hvt : t.cfg.valid = true := by rw [(step_inputs h).cfg]; exact (step_cases h).1
  obtain ⟨hv, ⟨f, hsf, rfl⟩ | ⟨hsf, ⟨i, len, hfetch, hexec⟩ | ⟨why, opc, len, -, rfl⟩ | ⟨-, rfl⟩⟩⟩ := step_cases h
  · obtain ⟨hempty, hresume⟩ := step_held_runOperation (s := { s with inFlight := none }) hvt rfl hf
    exact ⟨hempty, fun more => (hresume more).trans (step_of_inFlight (s := answeredUpTo s _ more) hv hsf).symm⟩
  · obtain ⟨hempty, hresume⟩ := step_held_exec hvt hexec hf
    exact ⟨hempty, fun more => (hresume more).trans
      (step_of_fetch_ok (s := answeredUpTo s t more) hv hsf hfetch).symm⟩
  · exact absurd rfl hf
  · exact absurd hsf hf

/-! ### The obligation -/

/-- Settles O35: polling on (`runOperation_held_busy`), ending (`resume_ready`), and no trace (`step_held_step`,
`step_held_exec`). -/
theorem heldOperationKeepsPolling : Obligations.HeldOperationKeepsPolling := by
  refine ⟨fun s t _ hs h hf => ⟨step_inFlight_nothingReported h hf, ?_⟩, fun s f n hv hs hn hr => ?_,
    fun s t more h hf => ?_, fun i s t more hv h hf => ?_⟩
  · obtain ⟨f, hs⟩ := Option.ne_none_iff_exists'.1 hs
    obtain ⟨hv, -⟩ := step_cases h
    obtain rfl := Host.Outcome.next.inj ((step_of_inFlight hv hs).symm.trans h)
    exact runOperation_held_busy hf
  · exact ⟨_, step_of_inFlight hv hs, resume_ready hn hr⟩
  · obtain ⟨hempty, hresume⟩ := step_held_step h hf
    exact ⟨hempty, hresume more⟩
  · obtain ⟨hempty, hresume⟩ := step_held_exec ((exec_inputs h).cfg ▸ hv) h hf
    exact ⟨hempty, hresume more⟩

end Sys2Proof.Machine
end

section
/-! Poll timing is invisible (00_scope.md section 5): from two states that differ only in how the panel answers, an
operation that ends with OK from both leaves the same, with the same bytes on the link. -/

namespace Sys2Proof.Machine

/-! ### States that are alike -/

/-- `s` with another log and other BUSY levels to come. -/
def State.withAnswers (log : List Event) (queued : List Level) (drawn : Nat) (s : State) : State :=
  { s with bus := { s.bus with log := log, busyIn := queued, busyDrawn := drawn } }

theorem like_withAnswers (log : List Event) (queued : List Level) (drawn : Nat) (s : State) :
    Like s (s.withAnswers log queued drawn) := ⟨log, queued, drawn, rfl⟩

/-- Alike with nothing done on the bus. -/
theorem likeOnWire_of_same_bus {s s' t t' : State} (hl : Like t t') (hb : t.bus = s.bus) (hc : t.cfg = s.cfg)
    (hb' : t'.bus = s'.bus) (hc' : t'.cfg = s'.cfg) : LikeOnWire s s' t t' :=
  ⟨hl, [], [], ⟨by rw [hb, List.append_nil], hc, congrArg _ hb, congrArg _ hb, congrArg _ hb, .nil, nofun⟩,
    ⟨by rw [hb', List.append_nil], hc', congrArg _ hb', congrArg _ hb', congrArg _ hb', .nil, nofun⟩, rfl⟩

theorem logged_busInit (s : State) : Logged s { s with bus := s.bus.busInit } [.busInit s.bus.nextStatus] :=
  ⟨by simp, rfl, by simp [levelAfter], by simp [levelAfter], by simp [levelAfter], .busInit _ _ .nil, by simp⟩

/-- `BusInit` from states that are alike; its event is no byte on the link. -/
theorem likeOnWire_busInit (log : List Event) (queued : List Level) (drawn : Nat) (s : State) :
    LikeOnWire s (s.withAnswers log queued drawn) { s with bus := s.bus.busInit }
      { s.withAnswers log queued drawn with bus := (s.withAnswers log queued drawn).bus.busInit } := by
  refine ⟨⟨log ++ [.busInit s.bus.nextStatus], queued, drawn, ?_⟩, _, _, logged_busInit s, logged_busInit _, rfl⟩
  cases hq : s.bus.statusIn <;>
    simp [State.withAnswers, Bus.busInit, Bus.dropStatus, Bus.nextStatus, Bus.emit, hq]

/-! ### Operations from states that are alike -/

/-- What starts an operation does not depend on the panel's answers. -/
theorem Starts.like {i : Instr} {s s0 : State} {acts : List Act} {bands : List Band} (h : Starts i s acts bands s0)
    (log : List Event) (queued : List Level) (drawn : Nat) :
    ∃ s0', Starts i (s.withAnswers log queued drawn) acts bands s0' ∧
      LikeOnWire s (s.withAnswers log queued drawn) s0 s0' := by
  have hsame : LikeOnWire s (s.withAnswers log queued drawn) s (s.withAnswers log queued drawn) :=
    likeOnWire_of_same_bus (like_withAnswers log queued drawn s) rfl rfl rfl rfl
  cases h with
  | init part gray steps s hf hs h0 => exact ⟨_, .init part gray steps _ hf hs h0, likeOnWire_busInit log queued drawn s⟩
  | sleep s hp => exact ⟨_, .sleep _ hp, hsame⟩
  | waitIdle s => exact ⟨_, .waitIdle _, hsame⟩
  | sendCommand op8 s => exact ⟨_, .sendCommand op8 _, hsame⟩
  | sendData bytes s => exact ⟨_, .sendData bytes _, hsame⟩
  | setLut cls t s hv hp => exact ⟨_, .setLut cls t _ hv hp, hsame⟩
  | displayFull s hp => exact ⟨_, .displayFull (s.withAnswers log queued drawn) hp, hsame⟩
  | displayPartial xs ys xe ye s hp hw =>
    exact ⟨_, .displayPartial xs ys xe ye (s.withAnswers log queued drawn) hp hw, hsame⟩
  | draw x y w h img s hp hz hb => exact ⟨_, .draw x y w h img _ hp hz hb, hsame⟩
  | fill color bh s hp hb => exact ⟨_, .fill color bh (s.withAnswers log queued drawn) hp hb, hsame⟩

/-- The conditions of `Finishes` are those under which an operation finishes with OK. -/
theorem exec_of_finishes_ok {i : Instr} {s s0 : State} {pix : Bool} {data : List Word}
    (h : Finishes i s .ok pix data s0) : exec i s = .next (finish (opcodeOf i) (lengthOf i) .ok pix data s0) := by
  cases h with
  | error _ _ _ h1 => exact absurd rfl h1
  | setPixel v x y s hb => simp only [exec, execSetPixel, hb, if_true]; rfl
  | getPixel x y s hb => simp only [exec, execGetPixel, hb, if_true]; rfl
  | blit x y w h img s hb => simp only [exec, execBlit, hb, if_true]; rfl
  | readImage s => rfl
  | readReg n v s hv => simp only [exec, execReadReg, hv]; rfl
  | reset s => rfl

/-- What finishes with OK does not depend on the panel's answers. -/
theorem Finishes.like {i : Instr} {s s0 : State} {pix : Bool} {data : List Word} (h : Finishes i s .ok pix data s0)
    (log : List Event) (queued : List Level) (drawn : Nat) :
    ∃ s0', Finishes i (s.withAnswers log queued drawn) .ok pix data s0' ∧
      LikeOnWire s (s.withAnswers log queued drawn) s0 s0' := by
  have hl := like_withAnswers log queued drawn s
  cases h with
  | error _ _ _ h1 => exact absurd rfl h1
  | setPixel v x y s hb =>
    exact ⟨_, .setPixel v x y _ hb, likeOnWire_of_same_bus ⟨log, queued, drawn, rfl⟩ rfl rfl rfl rfl⟩
  | getPixel x y s hb =>
    exact ⟨_, .getPixel x y (s.withAnswers log queued drawn) hb, likeOnWire_of_same_bus hl rfl rfl rfl rfl⟩
  | blit x y w h img s hb =>
    exact ⟨_, .blit x y w h img _ hb, likeOnWire_of_same_bus ⟨log, queued, drawn, rfl⟩ rfl rfl rfl rfl⟩
  | readImage s => exact ⟨_, .readImage (s.withAnswers log queued drawn), likeOnWire_of_same_bus hl rfl rfl rfl rfl⟩
  | readReg n v s hv => exact ⟨_, .readReg n v _ hv, likeOnWire_of_same_bus hl rfl rfl rfl rfl⟩
  | reset s => exact ⟨_, .reset _, likeW_ran hl (ran_resetPulse s) (ran_resetPulse _)⟩

/-- An operation that ends with OK from states that are alike finishes alike, with the same bytes on the link. -/
theorem exec_likeOnWire {i : Instr} {s t t' : State} {log : List Event} {queued : List Level} {drawn : Nat}
    (h : exec i s = .next t) (h' : exec i (s.withAnswers log queued drawn) = .next t') (hf : t.inFlight = none)
    (hf' : t'.inFlight = none) (hr : t.lastResult = .ok) (hr' : t'.lastResult = .ok) :
    ∃ opc len pix data u u', LikeOnWire s (s.withAnswers log queued drawn) u u' ∧
      t = finish opc len .ok pix data u ∧ t' = finish opc len .ok pix data u' := by
  obtain ⟨acts, bands, s0, hstart, rfl⟩ | ⟨code, pix, data, s0, hfin, rfl⟩ := exec_cases h
  · obtain ⟨s0', hstart', hlike⟩ := hstart.like log queued drawn
    obtain rfl := Host.Outcome.next.inj ((exec_of_starts hstart').symm.trans h')
    obtain ⟨u, u', hu, heq, heq'⟩ := likeW_runOperation hlike.like rfl rfl hf hf' hr hr'
    exact ⟨_, _, _, _, u, u', likeW_trans (like_withAnswers log queued drawn s) hlike hu, heq, heq'⟩
  · obtain rfl : code = .ok := hr
    obtain ⟨s0', hfin', hlike⟩ := hfin.like log queued drawn
    obtain rfl := Host.Outcome.next.inj ((exec_of_finishes_ok hfin').symm.trans h')
    exact ⟨_, _, _, _, s0, s0', hlike, rfl, rfl⟩

/-! ### The obligation -/

/-- Settles O21: what both runs leave is alike (`exec_likeOnWire`), and finishing does not look at what may differ. -/
theorem pollTimingIsInvisible : Obligations.PollTimingIsInvisible := by
  intro i s t s' t' hs h h' hf hf' hr hr'
  rw [hs] at h'
  obtain ⟨opc, len, pix, data, u, u', ⟨⟨L, Q, D, rfl⟩, ev, ev', hev, hev', hwire⟩, rfl, rfl⟩ :=
    exec_likeOnWire h h' hf hf' hr hr'
  exact ⟨rfl, ⟨rfl, rfl, rfl, rfl, rfl⟩, rfl, rfl, rfl, rfl, rfl, rfl, ev, ev', hev.log, hev'.log, hwire⟩

end Sys2Proof.Machine
end

section
/-! What an operation that ends with an error leaves (60_exceptions.md sections 3 and 4). -/

namespace Sys2Proof.Machine

/-! ### A run of actions that times out -/

/-- Actions that write neither `pcount` nor `mode` leave both, wherever they stop. -/
theorem modePcount_of_timedOut {bands : List Band} {acts : List Act} {s u : State} (h : ∀ a ∈ acts, a.keepsPcount)
    (hrun : runActs bands acts s = .timedOut u) : u.mode = s.mode ∧ u.pcount = s.pcount := by
  have hmode := mode_runActs bands (fun a ha => (h a ha).2.2) s
  have hpcount := pcount_runActs bands h s
  rw [hrun] at hmode hpcount
  exact ⟨hmode, hpcount⟩

/-- Plain actions leave `mode`, wherever they stop. -/
theorem mode_of_timedOut {bands : List Band} {acts : List Act} {s u : State} (h : ∀ a ∈ acts, a.plain = true)
    (hrun : runActs bands acts s = .timedOut u) : u.mode = s.mode := by
  have hmode := (sameMode_runActs bands h s).2
  rwa [hrun] at hmode

theorem keepsPcount_sleep {steps : List ProtoStep} {a : Act} (h : a ∈ stepActs steps ++ [.enterSleep]) :
    a.keepsPcount := by
  obtain h | h := List.mem_append.1 h
  · exact keepsPcount_stepActs h
  · obtain rfl := List.mem_singleton.1 h
    exact ⟨nofun, nofun, nofun⟩

/-- A data payload is sent without a poll (41_panel_protocol.md R132). -/
theorem runAll_data_ne_timedOut (bytes : List Byte) (s u : State) : runAll [.data bytes] [] s ≠ .timedOut u := nofun

/-! ### An operation that times out -/

/-- The operations that can time out are those that can poll. -/
theorem Starts.polls_of_timedOut {i : Instr} {s s0 u : State} {acts : List Act} {bands : List Band}
    (h : Starts i s acts bands s0) (hrun : runAll acts bands s0 = .timedOut u) : opcodeOf i ∈ pollingOpcodes := by
  cases h with
  | sendData bytes s => exact absurd hrun (runAll_data_ne_timedOut bytes s u)
  | _ => simp [opcodeOf, pollingOpcodes]

/-- INIT and SET_LUT that time out leave no LUT programmed (41_panel_protocol.md R136). -/
theorem Starts.lutNone_of_timedOut {i : Instr} {s s0 u : State} {acts : List Act} {bands : List Band}
    (h : Starts i s acts bands s0) (hrun : runAll acts bands s0 = .timedOut u)
    (hopc : opcodeOf i = 0x11 ∨ opcodeOf i = 0x16) : u.lutClass = none := by
  cases h with
  | init part gray steps s hf hs h0 => exact (timedOut_init (runAll_timedOut_nil hrun)).2.2
  | setLut cls t s hv hp => exact lutNone_programLut (runAll_timedOut_nil hrun)
  | _ => simp [opcodeOf] at hopc

/-- An operation that times out has not changed `mode`, and `pcount` only in an earlier band of a FILL
(60_exceptions.md R212). -/
theorem Starts.keeps_of_timedOut {i : Instr} {s s0 u : State} {acts : List Act} {bands : List Band}
    (h : Starts i s acts bands s0) (hrun : runAll acts bands s0 = .timedOut u) :
    u.mode = s.mode ∧ (opcodeOf i ≠ 0x23 → u.pcount = s.pcount) := by
  cases h with
  | init part gray steps s hf hs h0 =>
    obtain ⟨hmode, hpcount, -⟩ := timedOut_init (runAll_timedOut_nil hrun)
    exact ⟨hmode, fun _ => hpcount⟩
  | sleep s hp =>
    obtain ⟨hmode, hpcount⟩ := modePcount_of_timedOut (fun _ => keepsPcount_sleep) (runAll_timedOut_nil hrun)
    exact ⟨hmode, fun _ => hpcount⟩
  | waitIdle s =>
    obtain ⟨hmode, hpcount⟩ := modePcount_of_timedOut (by simp [Act.keepsPcount]) (runAll_timedOut_nil hrun)
    exact ⟨hmode, fun _ => hpcount⟩
  | sendCommand op8 s =>
    obtain ⟨hmode, hpcount⟩ := modePcount_of_timedOut (by simp [Act.keepsPcount]) (runAll_timedOut_nil hrun)
    exact ⟨hmode, fun _ => hpcount⟩
  | sendData bytes s => exact absurd hrun (runAll_data_ne_timedOut bytes s u)
  | setLut cls t s hv hp =>
    obtain ⟨hmode, hpcount⟩ := modePcount_of_timedOut (fun _ => keepsPcount_programLut) (runAll_timedOut_nil hrun)
    exact ⟨hmode, fun _ => hpcount⟩
  | displayFull s hp =>
    have hacts := runAll_timedOut_nil hrun
    exact ⟨mode_of_timedOut (fun _ ha => (transmitAct_displayFull ha).1) hacts, fun _ => pcount_displayFull hacts⟩
  | displayPartial xs ys xe ye s hp hw =>
    have hacts := runAll_timedOut_nil hrun
    exact ⟨mode_of_timedOut (fun _ ha => (transmitAct_displayPartial ha).1) hacts, fun _ => pcount_displayPartial hacts⟩
  | draw x y w h img s hp hz hb =>
    have hacts := (runBands_singleton (drawBand x y w h img) s).symm.trans hrun
    have hmode := mode_of_timedOut (fun _ ha => (transmitAct_transmit ha).1) hacts
    have hpcount := pcount_transmit hacts
    exact ⟨hmode, fun _ => hpcount⟩
  | fill color bh s hp hb =>
    have hmode := (sameMode_runBands (fillBodies s.cfg color bh.toNat) s).2
    rw [show runBands _ s = .timedOut u from hrun] at hmode
    exact ⟨hmode, fun h => absurd rfl h⟩

/-- Only DRAW and FILL run bands. -/
theorem Starts.bands_eq_nil {i : Instr} {s s0 : State} {acts : List Act} {bands : List Band}
    (h : Starts i s acts bands s0) (hdraw : opcodeOf i ≠ 0x22) (hfill : opcodeOf i ≠ 0x23) : bands = [] := by
  cases h with
  | draw => exact absurd rfl hdraw
  | fill => exact absurd rfl hfill
  | _ => rfl

/-- A DRAW has written its rectangle, however its transmission ended. -/
theorem pixelOf_draw {s s0 : State} {acts : List Act} {bands : List Band} {x y w h : Half} {img : List Word}
    (hg : s.cfg.width % 8 = 0) (hwf : Memory.wf s.cfg.fillByte s.fb = true)
    (hstart : Starts (.draw x y w h img) s acts bands s0) (opc : Byte) (len : Nat) {px : Nat} (hpx : px < s.cfg.width)
    (py : Nat) :
    pixelOf s.cfg (runOperation opc len acts bands s0).fb px py =
      if x.toNat ≤ px ∧ px < x.toNat + w.toNat ∧ y.toNat ≤ py ∧ py < y.toNat + h.toNat then
        imgBit img w.toNat (px - x.toNat) (py - y.toNat)
      else pixelOf s.cfg s.fb px py := by
  cases hstart with
  | draw x y w h img s hp hz hb =>
    rw [runOperation_drawBody_fb]
    exact (pixelOf_blitCore hg hwf hb img hpx py).trans (if_congr and_assoc rfl rfl)

/-- A FILL has coloured its bands up to the one whose transmission timed out. -/
theorem pixelOf_fill_timedOut {s s0 u : State} {acts : List Act} {bands : List Band} {color : Bool} {bh : Half}
    (hg : s.cfg.width % 8 = 0) (hwf : Memory.wf s.cfg.fillByte s.fb = true)
    (hstart : Starts (.fill color bh) s acts bands s0) (hrun : runAll acts bands s0 = .timedOut u) :
    ∃ n, 1 ≤ n ∧ (n - 1) * bh.toNat < s.cfg.height ∧ ∀ px py, px < s.cfg.width → py < s.cfg.height →
      pixelOf s.cfg u.fb px py = if py < n * bh.toNat then color else pixelOf s.cfg s.fb px py := by
  cases hstart with
  | fill color bh s hp hb =>
    obtain ⟨n, hn, hfb⟩ := runBands_timedOut_fb hrun
    obtain ⟨hlt, hpixel⟩ := fillBodies_take hg hwf hb hn
    exact ⟨n + 1, Nat.le_add_left 1 n, hlt, fun px py hpx hpy => by rw [hfb]; exact hpixel px py hpx hpy⟩

/-! ### The obligation -/

/-- Settles O30: an operation that refuses has done nothing (`Finishes`), and one that times out has done what
`Starts.keeps_of_timedOut`, `pixelOf_draw` and `pixelOf_fill_timedOut` say. -/
theorem errorsArePrecise : Obligations.ErrorsArePrecise := by
  intro i s t h hend
  have hin := exec_inputs h
  obtain ⟨acts, bands, s0, hstart, rfl⟩ | ⟨code, pix, data, s0, hfin, rfl⟩ := exec_cases h
  · obtain ⟨u, -, heq⟩ | ⟨u, hrun, heq⟩ | ⟨a1, b1, u, -, heq⟩ := runOperation_cases (opcodeOf i) (lengthOf i) acts bands s0
    · rw [heq]
      exact ⟨fun hok => absurd rfl hok, nofun⟩
    · refine ⟨fun _ hcode => absurd (by rw [heq]; rfl) hcode, fun _ => ?_⟩
      obtain ⟨hmode, hpcount⟩ := hstart.keeps_of_timedOut hrun
      have hlut := hstart.lutNone_of_timedOut hrun
      have hlog := endsInTimeout_runAll hstart.tracks.1.logs hrun
      refine ⟨hstart.polls_of_timedOut hrun, by rw [heq]; rfl, by rw [heq]; rfl, by rw [heq]; exact hmode, hin, ?_, ?_, ?_, ?_, ?_⟩
      · rw [heq]; exact hlog
      · rw [heq]; exact hlut
      · rw [heq]; exact hpcount
      · intro hdraw hfill
        obtain rfl := hstart.bands_eq_nil hdraw hfill
        rw [runOperation_fb, hstart.fb]
      · intro hv hwf
        have hg := valid_width hv
        constructor
        · rintro x y w hh img rfl px py hpx -
          rw [hin.cfg]
          exact pixelOf_draw hg hwf hstart _ _ hpx py
        · rintro color bh rfl
          have hpixel := pixelOf_fill_timedOut hg hwf hstart hrun
          rw [hin.cfg, heq]
          exact hpixel
    · rw [heq] at hend
      cases hend
  · refine ⟨fun hok hpt => ?_, fun hpt => absurd hpt hfin.code_ne_panelTimeout⟩
    cases hfin with
    | error i code s h1 h2 h3 =>
      exact ⟨rfl, ⟨rfl, rfl, rfl, rfl, rfl⟩, hin, rfl, rfl, rfl, by simp [h3]⟩
    | busInit part gray s h0 =>
      exact ⟨rfl, ⟨rfl, rfl, rfl, rfl, rfl⟩, hin, by simp, by simp, by simp, by simp⟩
    | _ => exact absurd rfl hok

end Sys2Proof.Machine
end
